-- ==== Sys2Proof/Word.lean ====
section
/-! DEFINITION. The word types of Kyobry and their plainest arithmetic (00 R7, R9). -/

namespace Sys2Proof

/-- A byte, the smallest addressable unit. -/
abbrev Byte := BitVec 8

/-- A 32-bit instruction word or register value. -/
abbrev Word := BitVec 32

/-- A 64-bit value: a register pair, an address, a lane mask (00 R7). -/
abbrev DWord := BitVec 64

/-- The exact value of a pattern read as two's complement, `sv` (09 Table 9.1). -/
abbrev sv {w : Nat} (x : BitVec w) : Int := x.toInt

/-- The exact value of a pattern read as unsigned, `zv` (09 Table 9.1). -/
abbrev zv {w : Nat} (x : BitVec w) : Nat := x.toNat

/-- A 64-bit value from its even (low) and odd (high) registers (00 R7). -/
def pairOf (lo hi : Word) : DWord := hi ++ lo

/-- Bits [31:0] of a pair. -/
def lo32 (x : DWord) : Word := x.extractLsb' 0 32

/-- Bits [63:32] of a pair. -/
def hi32 (x : DWord) : Word := x.extractLsb' 32 32

end Sys2Proof
end

