-- ==== Sys2Proof/Config.lean ====
section
/-! DEFINITION. What an implementation fixes and the free values: constants without a body, so no proof can see a value
(log 4, log 6). A value that may differ from use to use is applied to the counter `State.freeIx`. -/

namespace Sys2Proof.Config

/-- Reference cycles that pass before a step of the machine (01 R33): time is not modelled, it only rises. -/
opaque ticks : Nat → Nat

/-- A choice that the part makes among n ≥ 2 alternatives, as a number taken modulo n (19 R351, R354, R340). -/
opaque choice : Nat → Nat

/-- Bytes read under a key other than the one they were written under (11 R205): key id, generation, address, byte. -/
opaque scramble : Nat → Nat → Nat → Byte → Byte

/-- What a byte of a save image reads as (19 R360): write count of the image, address. -/
opaque imageByte : Nat → Nat → Byte

/-- The place of a line among the channels active when it was fixed, under the hash of a capacity generation (01 R19). -/
opaque channelOf : Nat → Nat → Nat

/-- The bank of a cache that holds a line, modulo the number of banks (23 R389). -/
opaque bankOf : Nat → Nat

/-- The grid handle that the part proposes (03 R70). -/
opaque handle : Nat → Word

/-- The approximate special functions inside Table 7.13 (07 R159, R160): member, operand bits. -/
opaque special : Nat → Word → Word

/-- One of the two results that a shadow execution found to differ (23 R400). -/
opaque freeWord : Nat → Word

/-- The next-capability offset in the DVSEC's header and Adanpel's PCI vendor ID, which the spec does not state (01 Table 1.8). -/
opaque nextCapability : BitVec 12
opaque vendorId : BitVec 16

/-- SHA-256 measurement of a firmware image (01 R39). -/
opaque measurement : Nat → List Byte

/-- The 32 bytes of a boot-log entry, whose layout the spec leaves open (01 R39): step, unit, status, time. -/
opaque bootEntry : Nat → Nat → Nat → Nat → List Byte

/-- An attestation answer for a nonce (01 R41). -/
opaque attestation : List Byte → List Byte

end Sys2Proof.Config
end

