-- ==== Sys2Proof/Machine/FMap.lean ====
section
/-! DEFINITION. Sparse maps from numbers, as plain data: key and value pairs in one canonical form, keys strictly rising
and no entry equal to the default. An unlisted key holds the default. -/

namespace Sys2Proof.Machine

/-- A sparse map. -/
abbrev FMap (α : Type) := List (Nat × α)

/-- The value at a key; an unlisted key holds the default. -/
def fget {α : Type} (dflt : α) : FMap α → Nat → α
  | [], _ => dflt
  | (k', x) :: r, k => if k' = k then x else fget dflt r k

/-- Put a value at a key in key order, replacing what the key held. -/
def fput {α : Type} : FMap α → Nat → α → FMap α
  | [], k, x => [(k, x)]
  | (k', y) :: r, k, x =>
      if k < k' then (k, x) :: (k', y) :: r
      else if k = k' then (k, x) :: r
      else (k', y) :: fput r k x

/-- Remove every entry of a key. -/
def fdel {α : Type} : FMap α → Nat → FMap α
  | [], _ => []
  | (k', y) :: r, k => if k' = k then fdel r k else (k', y) :: fdel r k

/-- Write a value; writing the default removes the entry, so that equal maps are equal data. -/
def fset {α : Type} [DecidableEq α] (dflt : α) (m : FMap α) (k : Nat) (x : α) : FMap α :=
  if x = dflt then fdel m k else fput m k x

/-- The canonical form: keys strictly rising above `lo`. -/
def fsorted {α : Type} : Option Nat → FMap α → Bool
  | _, [] => true
  | none, (k, _) :: r => fsorted (some k) r
  | some l, (k, _) :: r => l < k && fsorted (some k) r

/-- The canonical form: sorted, without an entry equal to the default. -/
def fwf {α : Type} [DecidableEq α] (dflt : α) (m : FMap α) : Bool :=
  fsorted none m && m.all fun e => e.2 ≠ dflt

/-- Keys of a map. -/
def fkeys {α : Type} (m : FMap α) : List Nat := m.map (·.1)

/-- The numbers lo, lo+1, … of a count. -/
def upto : Nat → Nat → List Nat
  | _, 0 => []
  | lo, n + 1 => lo :: upto (lo + 1) n

end Sys2Proof.Machine
end

