-- ==== Sys2Proof/Syntax.lean ====
section
/-! DEFINITION. The instructions of Kyobry and the events of the T9, one constructor of `Instr` for each row of
the opcode table, with the operand forms that the encodings of chapters 05 to 21 admit. Whether an instruction
came with an extension word only to negate its guard is not syntax: the step keeps the number of words. -/

namespace Sys2Proof

/-- A guard: predicate number (7 unguarded) and negation (05 R92 to R96); `p` names a lane predicate in the lane
class and a uniform predicate in the uniform class. -/
structure Guard where
  p : Nat
  neg : Bool
  deriving DecidableEq, Repr

/-- The second source of an arithmetic cell (05 R100). -/
inductive Src2 where
  | reg (n : Nat)
  | imm (i : BitVec 15)
  | lit (w : Word)
  deriving DecidableEq, Repr

/-- Reduction of an exact integer result (09 R165, R177). -/
inductive Sat where
  | wrap | signed | unsigned
  deriving DecidableEq, Repr

/-- Rounding modes (07 Table 7.5). -/
inductive Rnd where
  | rn | rz | ru | rd | rs
  deriving DecidableEq, Repr

/-- Integer comparison conditions (09 Table 9.3). -/
inductive ICond where
  | eq | ne | ltS | leS | gtS | geS | ltZ | leZ | gtZ | geZ
  deriving DecidableEq, Repr

/-- Floating-point comparison conditions (09 Table 9.6). -/
inductive FCond where
  | eq | ne | lt | le | gt | ge | num | nan
  deriving DecidableEq, Repr

/-- Type codes (05 Table 5.5). -/
inductive Ty where
  | b8 | b16 | b32 | b64 | b128 | s8 | s16 | s32 | s64 | z8 | z16 | z32 | z64 | f32 | f16 | bf16
  | e4m3 | e5m2 | e3m2 | e2m3 | e2m1
  deriving DecidableEq, Repr

/-- Scopes (00 "Notation", 15 Table 15.1). -/
inductive Scope where
  | self | blk | grp | die | dev | sys
  deriving DecidableEq, Repr

/-- Cache hint of `ld` and `st` (11 R222). -/
inductive CacheHint where
  | dflt | cg | cs
  deriving DecidableEq, Repr

/-- Cache level of `pf` (11 R229). -/
inductive CacheLvl where
  | l1 | l2 | l3
  deriving DecidableEq, Repr

/-- Atomic operations (11 Table 11.7). -/
inductive AOp where
  | add | min | max | and | or | xor | exch | cas
  deriving DecidableEq, Repr

/-- Ordering of an atomic (11 R227). -/
inductive Sem where
  | relaxed | acq | rel | ar
  deriving DecidableEq, Repr

/-- Scan operations (13 Table 13.4). -/
inductive SOp where
  | add | min | max | and | or | xor | lr
  deriving DecidableEq, Repr

/-- Modes of `shfl` (13 Table 13.2). -/
inductive ShflMode where
  | abs | rel | rot | xor
  deriving DecidableEq, Repr

/-- Source of the `shfl` lane number (13 R243). -/
inductive ShflSrc where
  | reg (n : Nat)
  | imm (i : BitVec 7)
  deriving DecidableEq, Repr

/-- The three predicate votes (13 Table 13.3). -/
inductive VoteOp where
  | some | every | same
  deriving DecidableEq, Repr

/-- Destination and operation of `vote` (13 Table 13.3). -/
inductive Vote where
  | pred (op : VoteOp) (pd : Nat)
  | bits (sd : Nat)
  deriving DecidableEq, Repr

/-- Direction of a runner instruction (13 R252). -/
inductive Dir where
  | next | prev
  deriving DecidableEq, Repr

/-- Kinds of `fence` (15 Table 15.4). -/
inductive FenceKind where
  | acq | rel | full
  deriving DecidableEq, Repr

/-- The bound of a bounded load: `.rf` with N, or `.at` with the register of the target (11 R224, R225). -/
inductive Bound where
  | rf (n : Nat)
  | target (c : Nat)
  deriving DecidableEq, Repr

/-- Status registers (05 Table 5.6). -/
inductive StatusReg where
  | warpw | laneid | clock | nsclk | capgen | priv | gdepth | gridh | rngs | flags
  deriving DecidableEq, Repr

/-- Privileged registers (05 Table 5.7). -/
inductive PrivReg where
  | xstatus | xepc | xcause | xval | xpi | xprev | xvec | xdeleg | xtlanes | xage | xshadow | xasid | xptb
  | xvmid | xptb2 | xkey | xresume | xgwin | xackto | xhvec | xgpart
  deriving DecidableEq, Repr

/-- Frame selector `LVL` of `xrd` and `xwr` (05 R105). -/
inductive FrameSel where
  | own | s | h
  deriving DecidableEq, Repr

/-- Scope of a `tlbinv` (19 R355). -/
inductive TlbScope where
  | die | dev
  deriving DecidableEq, Repr

/-- Rotate amount (09 Table 9.4). -/
inductive RotAmt where
  | reg (n : Nat)
  | imm (i : BitVec 5)
  deriving DecidableEq, Repr

/-- Scale of `pack` (09 R191). -/
inductive PackScale where
  | none
  | sx (b : Nat)
  | sa (b c : Nat)
  deriving DecidableEq, Repr

/-- Scale of `unpk` (09 R194). -/
inductive UnpkScale where
  | none
  | sx (b : Nat)
  | se (b : Nat)
  deriving DecidableEq, Repr

/-- Element width of a barrow command (11 R230). -/
inductive CpWidth where
  | hdr | w4 | w2
  deriving DecidableEq, Repr

/-- Ordering flags of a barrow command: `ACQ`, `REL` and, when either is set, `SCOPE` (11 R230). -/
structure CpOrd where
  acq : Bool
  rel : Bool
  scope : Scope
  deriving DecidableEq, Repr

/-- Conversion codes of `accrd` and `accwr` (17 R328). -/
inductive AccCv where
  | b32 | bf16 | f16 | e4m3 | e5m2
  deriving DecidableEq, Repr

/-- A write to a BAR2 register of 8 bytes lands whole, or as one of its 4-byte halves (01 R36). -/
inductive Part where
  | whole | lo | hi
  deriving DecidableEq, Repr

/-- A 128-byte host line's half (11 R207). -/
inductive Half where
  | h0 | h1
  deriving DecidableEq, Repr

/-- What a host or peer access does (01 R37, 11 R218). -/
inductive DevOp where
  | read (n : Nat)
  | write (bytes : List Byte)
  | fetchAdd (n : Nat) (v : DWord)
  | swap (n : Nat) (v : DWord)
  | cas (n : Nat) (cmp new : DWord)
  deriving DecidableEq, Repr

/-- The port at which a flit of a peer arrives, and the key selector that it carries (23 R404). -/
structure PeerFlit where
  port : Nat
  sel : Bool
  deriving DecidableEq, Repr

/-- Reasons for which the Dibber preempts a block (03 R82, R85, 01 R16). -/
inductive PreemptWhy where
  | higherPriority | resumeMax | timeSlice | fence | fallow
  deriving DecidableEq, Repr

/-- Where an uncorrectable error strikes (23 R388, R392): a sector of HBM; a register, predicate, side bit or frame of a lane, or a
uniform register, uniform predicate, tile header or runner entry, that the lane's instruction reads; a register of the tiller; a
shadow mismatch; the L2 of a compute die or the L3 of a cache die, by site; scratchpad, an accumulator tile, a held store. -/
inductive ErrPlace where
  | dram (addr : Nat)
  | laneReg (blk warp lane n : Nat)
  | shared (blk warp lane n : Nat)
  | core (blk : Nat)
  | shadow (blk warp lane : Nat)
  | cacheClean (site addr : Nat)
  | cacheDirty (site addr : Nat)
  | scratch (blk off : Nat)
  | accTile (blk tile i : Nat)
  | held (blk n : Nat)
  deriving DecidableEq, Repr

/-- Instructions and events, one constructor for each row of the opcode table. Register operands are numbers, the first of their
group (05 R98, R99). `g` is the guard, `d` the destination, `a`, `b`, `c` sources, `la` the lookahead. An event names
where it happens and what the environment chose; an event whose condition does not hold changes nothing. -/
inductive Instr where
  -- package, capacity and clocks (01)
  | bootTopologyCheck (signatureOk : Bool) (sites : BitVec 24) (hbm : BitVec 12)
  | nodeReady (item : Nat)
  | plannedFence (site : Nat)
  | plannedFenceDrainExpiry (site : Nat)
  | nodeFence (site : Nat)
  | errorFence (site : Nat) (latched : List Nat)
  | spareJoin (site : Nat) (selfTestOk : Bool)
  | channelLossPlanned (ch : Nat)
  | channelLossAbrupt (ch : Nat)
  | shrkack (v : Word)
  | clockReplan (site mhz : Nat)
  | clockHoldFailure (site : Nat)
  | rowRemap (site bank : Nat) (l3 : Bool)
  | bankRemoval (site bank : Nat) (l3 : Bool)
  -- BAR2 registers, DVSEC mailbox and attestation (01)
  | nrbase (part : Part) (v : DWord)
  | nrstat (v : Word)
  | b4base (part : Part) (v : DWord)
  | pwen (v : DWord)
  | portvf (port : Nat) (part : Part) (v : DWord)
  | registerWrite (off size : Nat) (v : DWord)
  | mbcmdRejected (v : Word)
  | attestationRequest (nonce : List Byte)
  -- host and bridge (11)
  | hostDeviceAccess (bar4 : Bool) (addr : Nat) (op : DevOp)
  | hostSnoopSnpinv (line : Nat) (half : Half) (hostBytes : List Byte)
  | hostSnoopSnpdata (line : Nat) (half : Half)
  | hostSnoopSnpcur (line : Nat) (half : Half)
  | bridgeEviction (line : Nat)
  -- launching and scheduling (03)
  | launchRecordWrite (vf port : Nat) (form : Nat) (bytes : List Byte)
  | dibberTakeHead (q : Nat)
  | waitCounterRead (q : Nat)
  | blockStart (grid site core : Nat)
  | blockRetire (blk : Nat)
  | preemptBlock (blk : Nat) (why : PreemptWhy)
  | resumeBlock (blk site core : Nat)
  | resumeMaxExpiry (blk : Nat)
  | resultLanding (blk warp lane : Nat)
  | pauseExpiry (blk warp lane : Nat)
  -- barrow, waits, runner channels, rounds, matrix engine
  | barrowLineWritten (blk cmd line : Nat)
  | barrowCommandComplete (blk cmd : Nat)
  | cpGrpDeliveryBegin (blk cmd rank : Nat)
  | cpGrpDeliveryLand (blk cmd rank : Nat)
  | mwaitWake (blk warp lane : Nat)
  | mwaitTimeout (blk warp lane : Nat)
  | runnerEntryArrive (blk warp : Nat) (dir : Dir)
  | roundNotice (asid rgn site : Nat)
  | mmaComplete (blk : Nat)
  -- Grafting Engine (21)
  | graftCopyVerified (asid tab exp slot : Nat)
  | graftCopyFail (asid tab exp slot kind : Nat)
  | expertMerge (asid tab : Nat)
  | grefreshCounterAdd (asid tab : Nat)
  -- reliability, coherence and links (23)
  | uncorrectableError (place : ErrPlace)
  | patrolScrub (addr : Nat) (uncorrectable : Bool)
  | fallowRotation (site : Nat)
  | fallowDrainExpiry (site : Nat)
  | fallowScanPass (site : Nat)
  | fallowScanFail (site : Nat)
  | directoryRecall (addr : Nat)
  | flitCrcFail (port : Nat)
  | flitLost (addr : Nat)
  | ackArrival (addr site : Nat)
  | ackTimeoutExpiry (addr : Nat)
  | laneSpareSwap (swihus : Bool) (link lane : Nat)
  | laneFail (link lane : Nat)
  | keyRollover (link : Nat) (key : BitVec 256)
  | oldKeyRetire (link : Nat)
  | peerTagFail (port : Nat)
  | memoryKeyInstall (key : Nat)
  -- integer lane operations (09)
  | add (g : Guard) (d a : Nat) (b : Src2) (sat : Sat)
  | sub (g : Guard) (d a : Nat) (b : Src2) (sat : Sat)
  | mul (g : Guard) (d a : Nat) (b : Src2) (sat : Sat)
  | mad (g : Guard) (d a : Nat) (b : Src2) (c : Nat) (sat : Sat)
  | and (g : Guard) (d a : Nat) (b : Src2)
  | or (g : Guard) (d a : Nat) (b : Src2)
  | xor (g : Guard) (d a : Nat) (b : Src2)
  | shl (g : Guard) (d a : Nat) (b : Src2)
  | shr (g : Guard) (d a : Nat) (b : Src2)
  | sar (g : Guard) (d a : Nat) (b : Src2)
  | min (g : Guard) (d a : Nat) (b : Src2)
  | max (g : Guard) (d a : Nat) (b : Src2)
  | sel (g : Guard) (d a : Nat) (b : Src2) (pc : Nat)
  | icmp (g : Guard) (pd a : Nat) (b : Src2) (cond : ICond)
  | movi (g : Guard) (d : Nat) (b : Src2)
  | bfx (g : Guard) (d a : Nat) (b : Src2) (sgn : Bool)
  | bfi (g : Guard) (d a : Nat) (b : Src2) (c : Nat)
  | lea (g : Guard) (d a : Nat) (b : Src2) (n : Nat)
  | bsel (g : Guard) (d a : Nat) (b : Src2) (c : Nat) (sx : Bool)
  | addc (g : Guard) (d a b : Nat) (po : Nat) (ci : Option Nat)
  | subb (g : Guard) (d a b : Nat) (po : Nat) (ci : Option Nat)
  | mulh (g : Guard) (d a b : Nat) (uns : Bool)
  | mulw (g : Guard) (d a b : Nat) (uns : Bool)
  | minz (g : Guard) (d a b : Nat)
  | maxz (g : Guard) (d a b : Nat)
  | andn (g : Guard) (d a b : Nat)
  | rot (g : Guard) (d a : Nat) (amt : RotAmt)
  | neg (g : Guard) (d a : Nat) (sat : Bool)
  | abs (g : Guard) (d a : Nat) (sat : Bool)
  | not (g : Guard) (d a : Nat)
  | popc (g : Guard) (d a : Nat)
  | clz (g : Guard) (d a : Nat)
  | ctz (g : Guard) (d a : Nat)
  | brev (g : Guard) (d a : Nat)
  | mov (g : Guard) (d a : Nat)
  | add64 (g : Guard) (d a b : Nat) (sat : Sat)
  | sub64 (g : Guard) (d a b : Nat) (sat : Sat)
  | lea64 (g : Guard) (d a b n : Nat) (sgn : Bool)
  -- FP32, packed 16-bit, dot products, conversions, special functions (09)
  | fadd (g : Guard) (d a : Nat) (b : Src2) (rnd : Rnd)
  | fsub (g : Guard) (d a : Nat) (b : Src2) (rnd : Rnd)
  | fmul (g : Guard) (d a : Nat) (b : Src2) (rnd : Rnd)
  | ffma (g : Guard) (d a : Nat) (b : Src2) (c : Nat) (rnd : Rnd)
  | fcmp (g : Guard) (pd a : Nat) (b : Src2) (cond : FCond)
  | fmin (g : Guard) (d a b : Nat)
  | fmax (g : Guard) (d a b : Nat)
  | fclass (g : Guard) (d a : Nat)
  | fround (g : Guard) (d a : Nat) (rnd : Rnd)
  | hadd2 (g : Guard) (d a : Nat) (b : Src2) (bf : Bool)
  | hsub2 (g : Guard) (d a : Nat) (b : Src2) (bf : Bool)
  | hmul2 (g : Guard) (d a : Nat) (b : Src2) (bf : Bool)
  | hfma2 (g : Guard) (d a : Nat) (b : Src2) (c : Nat) (bf : Bool)
  | hmin2 (g : Guard) (d a b : Nat) (bf : Bool)
  | hmax2 (g : Guard) (d a b : Nat) (bf : Bool)
  | hcmp2 (g : Guard) (d a b : Nat) (bf : Bool) (cond : FCond)
  | idp4 (g : Guard) (d a b c : Nat) (sa sb sat : Bool)
  | idp8 (g : Guard) (d a b c : Nat) (sa sb sat : Bool)
  | hdp2 (g : Guard) (d a b c : Nat) (rnd : Rnd) (bf : Bool)
  | cvt (g : Guard) (d a : Nat) (dt st : Ty) (rnd : Rnd) (sat ftz : Bool)
  | pack (g : Guard) (d a : Nat) (ty : Ty) (rnd : Rnd) (sat ftz : Bool) (sc : PackScale)
  | unpk (g : Guard) (d a : Nat) (ty : Ty) (sc : UnpkScale)
  | frcp (g : Guard) (d a la : Nat)
  | frsq (g : Guard) (d a la : Nat)
  | fsqrt (g : Guard) (d a la : Nat)
  | fexp2 (g : Guard) (d a la : Nat)
  | flog2 (g : Guard) (d a la : Nat)
  | fsin (g : Guard) (d a la : Nat)
  | fcos (g : Guard) (d a la : Nat)
  | ftanh (g : Guard) (d a la : Nat)
  -- cross-lane and runner (13)
  | shfl (g : Guard) (d a : Nat) (mode : ShflMode) (w64 : Bool) (src : ShflSrc) (seg : Nat) (wr : Bool) (pv m la : Nat)
  | redux (g : Guard) (sd a : Nat) (op : SOp) (ty : Ty) (m la : Nat)
  | vscan (g : Guard) (d a : Nat) (seg : Option Nat) (op : SOp) (exc : Bool) (ty : Ty) (m la : Nat)
  | vscanc (g : Guard) (d a : Nat) (seg : Option Nat) (op : SOp) (exc : Bool) (ty : Ty) (sc m la : Nat)
  | vote (g : Guard) (v : Vote) (pa m la : Nat)
  | matchLanes (g : Guard) (d a : Nat) (w64 : Bool) (m la : Nat)
  | rsend (g : Guard) (a : Nat) (dir : Dir) (m la : Nat)
  | rrecv (g : Guard) (d : Nat) (dir : Dir) (m la : Nat)
  | rpoll (g : Guard) (pd : Nat) (dir : Dir) (snd : Bool) (m la : Nat)
  -- memory (11)
  | ld (g : Guard) (d a : Nat) (ty : Ty) (acq : Bool) (ch : CacheHint) (sc : Scope) (off : BitVec 16) (la : Nat)
  | st (g : Guard) (b a : Nat) (ty : Ty) (rel : Bool) (ch : CacheHint) (sc : Scope) (off : BitVec 16) (la : Nat)
  | ldb (g : Guard) (d a : Nat) (ty : Ty) (bound : Bound) (off : BitVec 16) (la : Nat)
  | lds (g : Guard) (d a : Nat) (ty : Ty) (off : BitVec 16) (la : Nat)
  | sts (g : Guard) (b a : Nat) (ty : Ty) (off : BitVec 16) (la : Nat)
  | ldg (g : Guard) (d a : Nat) (ty : Ty) (off : BitVec 16) (la : Nat)
  | stg (g : Guard) (b a : Nat) (ty : Ty) (off : BitVec 16) (la : Nat)
  | atom (g : Guard) (d a b c : Nat) (op : AOp) (ty : Ty) (sc : Scope) (sem : Sem) (la : Nat)
  | red (g : Guard) (a b : Nat) (op : AOp) (ty : Ty) (sc : Scope) (rel : Bool) (la : Nat)
  | atoms (g : Guard) (d a b c : Nat) (op : AOp) (ty : Ty) (sem : Sem) (win : Bool) (la : Nat)
  | pf (g : Guard) (a : Nat) (lvl : CacheLvl) (excl : Bool) (off : BitVec 16) (la : Nat)
  | cinv (g : Guard) (a : Nat) (sc : Scope) (off : BitVec 16) (la : Nat)
  | cwb (g : Guard) (a : Nat) (sc : Scope) (off : BitVec 16) (la : Nat)
  -- ordering (15)
  | fence (g : Guard) (kind : FenceKind) (sc : Scope) (la : Nat)
  | rndadv (g : Guard) (d a : Nat) (off : BitVec 16) (la : Nat)
  | rndld (g : Guard) (d a : Nat) (off : BitVec 16) (la : Nat)
  | rndwait (g : Guard) (d a c : Nat) (off : BitVec 16) (la : Nat)
  -- control (13, 19, 05)
  | bra (g : Guard) (disp : BitVec 37)
  | call (g : Guard) (disp : BitVec 37)
  | nop (g : Guard)
  | exit (g : Guard)
  | pause (g : Guard) (n : BitVec 16)
  | brx (g : Guard) (a : Nat)
  | ret (g : Guard) (a : Nat)
  | brk (g : Guard) (n : BitVec 16)
  | sys (g : Guard) (n : BitVec 12)
  | mwait (g : Guard) (a b : Nat) (off : BitVec 16) (la : Nat)
  | rep (n step : Nat) (fmask : BitVec 4)
  | mfs (g : Guard) (d : Nat) (r : StatusReg)
  | route (g : Guard) (d a t la : Nat)
  | rdone (g : Guard) (a la : Nat)
  -- privilege (19)
  | xrd (g : Guard) (d : Nat) (r : PrivReg) (lvl : FrameSel)
  | xwr (g : Guard) (a : Nat) (r : PrivReg) (lvl : FrameSel)
  | sret (g : Guard)
  | hret (g : Guard)
  | tlbinvVa (g : Guard) (a : Nat) (sc : TlbScope) (la : Nat)
  | tlbinvAsid (g : Guard) (a : Nat) (sc : TlbScope) (la : Nat)
  | tlbinvIpa (g : Guard) (a : Nat) (sc : TlbScope) (la : Nat)
  | tlbinvVmid (g : Guard) (a : Nat) (sc : TlbScope) (la : Nat)
  | tlbinvAll (g : Guard) (sc : TlbScope) (la : Nat)
  | tlbinvRgn (g : Guard) (d a la : Nat)
  -- uniform class (09, 11, 13)
  | uadd (g : Guard) (d a : Nat) (b : Src2)
  | usub (g : Guard) (d a : Nat) (b : Src2)
  | umul (g : Guard) (d a : Nat) (b : Src2)
  | umad (g : Guard) (d a : Nat) (b : Src2) (c : Nat)
  | umin (g : Guard) (d a : Nat) (b : Src2) (uns : Bool)
  | umax (g : Guard) (d a : Nat) (b : Src2) (uns : Bool)
  | ucmp (g : Guard) (qd a : Nat) (b : Src2) (cond : ICond)
  | umov (g : Guard) (d : Nat) (b : Src2)
  | uand (g : Guard) (d a : Nat) (b : Src2)
  | uor (g : Guard) (d a : Nat) (b : Src2)
  | uxor (g : Guard) (d a : Nat) (b : Src2)
  | ushl (g : Guard) (d a : Nat) (b : Src2)
  | ushr (g : Guard) (d a : Nat) (b : Src2)
  | usar (g : Guard) (d a : Nat) (b : Src2)
  | ubfx (g : Guard) (d a : Nat) (b : Src2) (sgn : Bool)
  | upopc (g : Guard) (d a : Nat)
  | umovi (g : Guard) (d : Nat) (b : Src2)
  | uadd64 (g : Guard) (d a : Nat) (b : Src2)
  | ulea64 (g : Guard) (d a : Nat) (b : Src2) (n : Nat) (sgn : Bool)
  | uld (g : Guard) (d a : Nat) (ty : Ty) (acq : Bool) (sc : Scope) (off : BitVec 16)
  | uldb (g : Guard) (d a : Nat) (ty : Ty) (bound : Bound) (off : BitVec 16)
  | ust (g : Guard) (b a : Nat) (ty : Ty) (rel : Bool) (sc : Scope) (off : BitVec 16)
  | ubra (g : Guard) (disp : BitVec 34)
  | ubrx (g : Guard) (a : Nat)
  | ucall (g : Guard) (disp : BitVec 34)
  | uret (g : Guard) (a : Nat)
  | barInit (g : Guard) (b : Nat) (grp : Bool) (n : BitVec 16)
  | barArr (g : Guard) (b : Nat) (grp : Bool) (tok : Option Nat)
  | barWait (g : Guard) (b : Nat) (grp : Bool) (tok : Option Nat)
  | barSync (g : Guard) (b : Nat) (grp : Bool)
  | cpIn (g : Guard) (h a p b : Nat) (ord : CpOrd) (w : CpWidth)
  | cpGat (g : Guard) (h a p b : Nat) (ord : CpOrd) (w : CpWidth)
  | cpOut (g : Guard) (h a p b : Nat) (ord : CpOrd) (w : CpWidth)
  | cpRed (g : Guard) (h a p b : Nat) (ord : CpOrd) (bf : Bool)
  | cpGrp (g : Guard) (h a p b : Nat) (ord : CpOrd) (w : CpWidth)
  | mxfork (g : Guard) (off : BitVec 18)
  | mxjoin (g : Guard)
  -- tiller (17)
  | mma (g : Guard) (d a b : Nat) (ra sat : Bool)
  | hset (g : Guard) (d a : Nat)
  | hld (g : Guard) (d a : Nat) (off : BitVec 16)
  | mscl (g : Guard) (n a b : Nat) (ssh : BitVec 5)
  | accz (g : Guard) (d : Nat)
  | accrd (g : Guard) (h a b : Nat) (cv : AccCv) (sat : Bool)
  | accwr (g : Guard) (d h : Nat) (cv : AccCv)
  | mexit (g : Guard)
  -- work and grafting (13, 21)
  | launch (g : Guard) (d a : Nat) (off : BitVec 16)
  | gridgrow (g : Guard) (qp d a : Nat)
  | capq (g : Guard) (a : Nat) (off : BitVec 16)
  | graftRep (g : Guard) (t d a : Nat)
  | graftBind (g : Guard) (t a : Nat)
  | graftUnbind (g : Guard) (t : Nat)
  | prune (g : Guard) (t a b : Nat)
  | gmerge (g : Guard) (t a b : Nat)
  | gmergeAll (g : Guard) (t a : Nat)
  | grefresh (g : Guard) (t a : Nat)
  | gtabq (g : Guard) (t a b : Nat) (off : BitVec 16)
  -- words that decode to nothing, and the remaining events
  | reservedCell (w : Word)
  | bindContextDescriptor (vmid : Nat) (addr : Nat)
  | peerDeviceAccess (port : PeerFlit) (addr : Nat) (op : DevOp)
  | accessPerformed (blk n : Nat)
  -- events without a choice of place, last because the compiler bounds the index of a constructor with fields
  | packageReset
  | ioDieChangeover
  | ioDieChangeoverComplete
  | rehashStart
  | rehashLineMove
  | rehashComplete
  | mbcmdReadLog
  | mbcmdReadMeasurement
  | mbcmdRestartLog
  | mailboxDone
  | graftWindowEnd
  | ideIntegrityFail
  | sliceRegroup
  deriving DecidableEq, Repr

end Sys2Proof
end

