-- ==== Sys2Proof/Machine/State.lean ====
section
/-! DEFINITION. The state of a T9 package as plain data, all that the spec gives the machine (INVENTORY.md lists every
piece with its rule), the stops, and the state after reset. Sparse maps (`FMap`) hold the default at unlisted keys. -/

namespace Sys2Proof.Machine

/-- Why a step stops with a fault. No rule of the spec stops the package, so no meaning raises one: the type is empty
(safe: nothing is cut off). -/
inductive Fault where
  deriving DecidableEq, Repr

/-- Why an instruction has no meaning. -/
inductive Refusal where
  /-- Raised by an arm of `exec` whose instruction has no meaning yet, with its mnemonic (safe: it only stops). -/
  | notModelled (mnemonic : String)
  deriving DecidableEq, Repr

/-- Privilege levels (19 R338). -/
inductive Level where
  | u | s | h
  deriving DecidableEq, Repr

/-- A lane register or a transfer of one: data and the poison side bit (00 R12, 07 R151). -/
structure RegVal where
  val : Word
  side : Bool
  deriving DecidableEq, Repr

/-- What a lane position holds (03 R44, R47, 13 R255). -/
inductive Occ where
  | unoccupied | live | exited
  deriving DecidableEq, Repr

/-- The registers of one frame of a lane (19 Table 19.1); reserved bits are not held, they read zero. -/
structure Frame where
  nest : Bool
  epc : DWord
  cause : BitVec 6
  val : DWord
  pi : Word
  plvl : BitVec 2
  ppri : BitVec 8
  vec : BitVec 52
  tlanes : DWord
  deriving DecidableEq, Repr

/-- A result that has not landed (05 R107): positions still to pass, register values and predicate values; what a load of it is in
flight to (23 R405): a peer port, or `hostPort`. Results that are due (0 positions to pass) stand first, in the order in which they land. -/
structure Pending where
  dist : Nat
  regs : List (Nat × RegVal)
  preds : List (Nat × Bool)
  src : Option Nat
  deriving DecidableEq, Repr

/-- Why a lane is parked (03 R55). `line`, `window` and `round` leave the lane at its instruction, which runs from the start when the
wake event has occurred; `uround` keeps what its instruction has read; a meet or gather keeps the instruction it completes. -/
inductive Park where
  | none
  /-- Absent scratchpad line of a block. -/
  | line (blk line : Nat)
  /-- Window access to an unstarted or preempted member: group rank. -/
  | window (rank : Nat)
  /-- `ldb.at`, `rndwait`: region slot, target, address for cause 0x10, the execution that parked. -/
  | round (slot : Nat) (target : Word) (addr : DWord) (exec : Nat)
  /-- `uldb.at`: the same, its target and address as read once (15 R296). -/
  | uround (slot : Nat) (target : Word) (addr : DWord) (exec : Nat)
  /-- Barrier wait with its token; the PC has passed the instruction. -/
  | bar (grp : Bool) (b : Nat) (token : Word)
  /-- `mwait`: physical line, virtual line, deadline on CLOCK, execution; the PC has passed the instruction. -/
  | mwait (line : Nat) (vline : DWord) (deadline exec : Nat)
  /-- Arrived at a meet, at a warp gather (`bar.arr`, `bar.sync`), or parked there for a runner queue: the instruction, its
  mask, the PC that follows, and the length of its `rep`; of a gather, the base word. -/
  | meet (i : Instr) (mask : DWord) (next : DWord) (prog : Nat)
  | gather (i : Instr) (next : DWord) (word : Word)
  | runner (i : Instr) (mask : DWord) (next : DWord) (prog : Nat)
  deriving DecidableEq, Repr

/-- A trap held while its target level is occupied (19 R344). -/
structure HeldTrap where
  cause : Nat
  val : DWord
  epc : DWord
  pi : Nat
  /-- The execution or event that raised it: one cohort comes from one (19 R342). -/
  exec : Nat
  deriving DecidableEq, Repr

/-- A thread in its lane (03 R44). -/
structure Lane where
  occ : Occ
  pc : DWord
  prio : Nat
  level : Level
  ncnt : Nat
  /-- v0 to v127; the S and H copies of v120 to v127 stand at n + 128 and n + 256. -/
  v : FMap RegVal
  /-- p0 to p5; p6 of U, S, H at 6, 14, 22. -/
  p : FMap Bool
  rngs : Word
  flags : Word
  pending : List Pending
  frameS : Frame
  frameH : Frame
  prog : Nat
  park : Park
  held : Option HeldTrap
  /-- `pause`: no issue before this CLOCK. -/
  paused : Nat
  /-- Rounds (region slot, k) whose notices the lane's `rndadv` awaits (15 R292). -/
  awaits : List (Nat × Nat)
  /-- The newest write to each byte that the lane has read or performed (19 R358). -/
  seen : FMap Nat
  deriving DecidableEq, Repr

/-- An entry of a runner queue: the 64 values (13 R251). -/
structure RunEntry where
  vals : FMap RegVal
  deriving DecidableEq, Repr

/-- A frontier entry: what its lanes share (03 R50, 05 R116). -/
structure EntryKey where
  pc : DWord
  prio : Nat
  level : Level
  prog : Nat
  deriving DecidableEq, Repr

/-- A warp. -/
structure Warp where
  lanes : FMap Lane
  /-- s0 to s63; the S and H copies of s56 to s63 stand at n + 64 and n + 128. -/
  s : FMap Word
  q : FMap Bool
  ages : List (EntryKey × Nat)
  /-- Copies of uniform registers whose results have not landed (05 R106). -/
  due : List Nat
  prevq : List RunEntry
  nextq : List RunEntry
  deriving DecidableEq, Repr

/-- A barrier (13 R258). -/
structure Barrier where
  init : Bool
  exp : Nat
  cnt : Nat
  ph : Word
  deriving DecidableEq, Repr

/-- A scale slot (17 R302). -/
structure ScaleSlot where
  scb : DWord
  eb : Word
  ssh : BitVec 5
  deriving DecidableEq, Repr

/-- An operand of an mma as read: format, rows along M or N, depth K, scale block (0 none), elements with their poison in
row-major order, scale bytes with theirs (17 R316, R319). -/
structure Operand where
  fmt : Nat
  rows : Nat
  k : Nat
  smode : Nat
  elems : List RegVal
  scales : List RegVal
  deriving DecidableEq, Repr

/-- The reuse latch (17 R322). -/
structure Latch where
  hdr : Nat
  op : Operand
  deriving DecidableEq, Repr

/-- An mma in flight (17 R308), with what it may still read anew: its headers, whether A came from scratchpad and has filled the
latch, whether scratchpad is still being read (17 R334), and the place and key of each scale byte (17 R337). -/
structure MmaOp where
  tile : Nat
  a : Operand
  b : Operand
  sat : Bool
  ha : BitVec 128
  hb : BitVec 128
  afresh : Bool
  fill : Bool
  reading : Bool
  sa : List (Nat × Nat)
  sb : List (Nat × Nat)
  deriving DecidableEq, Repr

/-- An `accwr` whose elements are being read (17 R334): tile, header, conversion, elements as read so far. -/
structure AccLoad where
  tile : Nat
  hdr : BitVec 128
  cv : AccCv
  elems : List RegVal
  deriving DecidableEq, Repr

/-- A byte that the scale cache may hold (17 R320): slot, address, place and key of its last fill, and the write count from which on
any value that the byte held may serve. -/
structure ScaleHeld where
  slot : Nat
  va : DWord
  pa : Nat
  key : Nat
  since : Nat
  deriving DecidableEq, Repr

/-- The tiller of a block (17 R302). -/
structure Tiller where
  run : Bool
  pc : DWord
  s : FMap Word
  q : FMap Bool
  slots : FMap ScaleSlot
  latch : Option Latch
  /-- Waiting at a barrier with a token; the address of the waiting instruction, which the PC has passed. -/
  wait : Option (Bool × Nat × Word × DWord)
  flight : List MmaOp
  loading : Option AccLoad
  scache : List ScaleHeld
  /-- Write counts at each slot's last discard and at the tiller's last acquire (17 R320). -/
  sdrop : FMap Nat
  synced : Nat
  deriving DecidableEq, Repr

/-- A piece of a store in issue order (11 R208, 15 R273): the warp and the lanes in whose program order it stands (one lane; the
lanes of an entry for a uniform store; none for the barrow), where, what, and how. `hold` sectors of a replayable block use the
same form. -/
structure PStore where
  warp : Nat
  lanes : List Nat
  addr : Nat
  bytes : List Byte
  poison : Bool
  key : Nat
  stream : Bool
  /-- The step that issued it: pieces of one execution keep their order (11 R209). -/
  exec : Nat
  deriving DecidableEq, Repr

/-- What stands in the issue order of a scratchpad line: a command still to write there, a `cp.grp` of the block whose delivery to the
block itself has not begun, a command of the block still to read there, or a held store (11 R212, R213). A line is absent while a
write or a store stands there. -/
inductive LineOp where
  | cmd (blk id : Nat)
  | due (id : Nat)
  | reader (id : Nat)
  | store (blk warp lane off : Nat) (bytes : List Byte) (poison : Bool)
  deriving DecidableEq, Repr

/-- The barrow commands (11 R230). -/
inductive CmdKind where
  | cin | gat | out | red | grp
  deriving DecidableEq, Repr

/-- A page translation that an accepted command keeps (11 R232): virtual 64 KiB page, physical page, key, attributes; the sizes of
the pages that map it in the two stages and the 64 KiB page of its IPA (none at level H, which holds no translation). -/
structure PageMap where
  vpage : Nat
  ppage : Nat
  size1 : Nat
  size2 : Nat
  ipage : Option Nat
  key : Nat
  dom : Nat
  ord : Nat
  asid : Nat
  vmid : Nat
  deriving DecidableEq, Repr

/-- Progress of a `cp.grp` delivery (11 R235). -/
inductive Deliv where
  | waiting | begun | done
  deriving DecidableEq, Repr

/-- An accepted barrow command (11 R232, R233): header and indices as read at issue. -/
structure Cmd where
  id : Nat
  kind : CmdKind
  hdr : BitVec 128
  base : DWord
  pitch : Nat
  /-- Element width in half bytes (11 R231). -/
  width2 : Nat
  bar : Nat
  ord : CpOrd
  bf : Bool
  idx : List Nat
  mask : BitVec 16
  level : Level
  pages : List PageMap
  /-- Lines of scratchpad already written, for each destination rank (rank × 8192 + line). -/
  lines : List Nat
  deliv : FMap Deliv
  /-- The tile of a `cp.grp` as read once: place in scratchpad, byte, poison (11 R235); of a `cp.out`, bytes read whose global sector is
  not complete. -/
  data : Option (List (Nat × Byte × Bool))
  /-- The issuing entry: warp, lanes, step (15 R280). -/
  warp : Nat
  lanes : List Nat
  exec : Nat
  deriving DecidableEq, Repr

/-- Block life (03 R56, R61, R63, R82): a `failing` block issues no more, and stays on its core until its barrow commands have
drained. -/
inductive BPhase where
  | resident | preempted | relaunch | retired | failing | failed
  deriving DecidableEq, Repr

/-- A block (03 R56 to R61, R74). -/
structure Block where
  grid : Nat
  lin : Nat
  phase : BPhase
  site : Nat
  core : Nat
  /-- Order of the last start or resumption (03 R82). -/
  order : Nat
  attempts : Nat
  committed : Bool
  /-- Time waited since preemption, and since when it counts (03 R85). -/
  waited : Nat
  since : Nat
  /-- `XRESUME` when the count began, in microseconds (19 R341). -/
  limit : Nat
  nwarps : Nat
  warps : FMap Warp
  scratch : FMap Byte
  spoison : FMap Bool
  /-- Poisoned sectors of scratchpad that a store has just written in part: their records are due (23 R390). -/
  marred : List Nat
  lines : FMap (List LineOp)
  bars : FMap Barrier
  hdrs : FMap (BitVec 128)
  acc : FMap RegVal
  tiller : Tiller
  cmds : List Cmd
  cancelled : List Cmd
  pend : List PStore
  hold : List PStore
  hops : List (Nat × Dir × RunEntry)
  /-- Save image: its physical base, its bytes and the write count when it was sealed (19 R360). -/
  image : Option (Nat × Nat × Nat)
  /-- Write count at the last start or resumption: stamped copies older than it serve the block no more (15 R295). -/
  fresh : Nat
  deriving DecidableEq, Repr

/-- A kernel header as read at admission (03 Table 3.6). -/
structure KHdr where
  entry : DWord
  tentry : DWord
  dprio : Nat
  bx : Nat
  by_ : Nat
  bz : Nat
  lregs : Nat
  uregs : Nat
  scratch : Nat
  acc : Nat
  bars : Nat
  gmax : Nat
  preload : BitVec 12
  deriving DecidableEq, Repr

/-- A priority map entry (03 Table 3.1). -/
structure MapEntry where
  base : DWord
  len : Nat
  pri : Nat
  deriving DecidableEq, Repr

/-- A launch record (03 Table 3.4), with its queue's parent grid and reserved handle for a device launch. -/
structure LaunchRec where
  hdr : DWord
  args : DWord
  gx : Nat
  gy : Nat
  gz : Nat
  gsize : Nat
  qpri : Nat
  lflags : BitVec 8
  rsv : Byte
  ctx : Nat
  msiv : Nat
  waddr : DWord
  wval : DWord
  caddr : DWord
  handle : DWord
  parent : Option Nat
  hres : Word
  deriving DecidableEq, Repr

/-- Grid life (03 R62, R63). -/
inductive GPhase where
  | live | complete | failed
  deriving DecidableEq, Repr

/-- A grid (03 R58 to R66). The header is zero for a refused device record, which fails at once. -/
structure Grid where
  asid : Nat
  handle : Word
  khdr : KHdr
  pmap : List MapEntry
  gx : Nat
  gy : Nat
  gz : Nat
  gsize : Nat
  pri : Nat
  chained : Bool
  replay : Bool
  affine : Option (Nat × Nat × Nat)
  msix : Option Nat
  caddr : DWord
  args : DWord
  depth : Nat
  parent : Option Nat
  phase : GPhase
  next : Nat
  retired : Nat
  /-- Kind-2 records written for blocks of this grid and of grids below it. -/
  fails : Nat
  /-- The die of each group that has started (03 R58). -/
  gsite : FMap (Option Nat)
  /-- Group barriers by group × 32 + barrier (13 R258). -/
  gbars : FMap Barrier
  deriving DecidableEq, Repr

/-- A region of a context's region table (15 R289); rounds are counted in full. -/
structure Region where
  id : Word
  base : DWord
  len : Nat
  count : Nat
  views : FMap Nat
  /-- Round notices not yet received: site, k. -/
  notices : List (Nat × Nat)
  deriving DecidableEq, Repr

/-- Slot states of the Grafting Engine (21 R370). -/
inductive SlotState where
  | free | copying | live | draining
  deriving DecidableEq, Repr

/-- A replica slot (21 R370), with its die, the round its copy read, whether it has been live since the window began, the
physical ranges copied, and the `KIND` of the first failure of a running copy (0 none). -/
structure Slot where
  state : SlotState
  rfr : Bool
  stamp : Nat
  ref : Nat
  sver : Word
  hits : Nat
  site : Nat
  round : Nat
  whole : Bool
  foot : List (Nat × Nat)
  fail : Nat
  /-- Translations that a running copy holds (21 R410). -/
  held : List PageMap
  deriving DecidableEq, Repr

/-- An expert of a graft table. -/
structure Expert where
  slots : FMap Slot
  load : FMap Nat
  /-- Routes in the window in progress and in the last completed one (21 R384). -/
  winLoad : Nat
  lastLoad : Nat
  merging : Bool
  deriving DecidableEq, Repr

/-- Work of the engine accepted and not done (21 R380, R382): experts still to merge, experts merging under it, counter; slots to
settle, counter. -/
inductive GWork where
  | merge (left all : List Nat) (counter : DWord)
  | refresh (slots : List (Nat × Nat)) (counter : DWord)
  deriving DecidableEq, Repr

/-- A graft table (21 Table 21.1). -/
structure GTab where
  bound : Bool
  rbase : DWord
  rstride : DWord
  wbytes : Nat
  nexp : Nat
  sbound : Nat
  auto : Bool
  rgnid : Word
  hot : Nat
  cold : Nat
  gelem : Nat
  gbase : DWord
  gstride : DWord
  elog : DWord
  elcnt : Nat
  store : DWord
  ver : Word
  seq : Word
  experts : FMap Expert
  work : List GWork
  deriving DecidableEq, Repr

/-- A context, by ASID (19 R339, R359). -/
structure Ctx where
  bound : Bool
  /-- The partition to which H-level firmware has bound it. -/
  part : Nat
  xptb : BitVec 38
  xdeleg : DWord
  xasid : BitVec 16
  xkey : BitVec 10
  xage : BitVec 16
  xshadow : Bool
  svec : DWord
  rtab : DWord
  rcnt : Nat
  save : Nat
  savesz : Nat
  sched : Bool
  regions : FMap Region
  devq : FMap (List LaunchRec)
  tabs : FMap GTab
  deriving DecidableEq, Repr

/-- A partition, by the number under which it was bound (19 R339, R341): its VMID is `XVMID`. -/
structure Part where
  vmid : Nat
  xptb2 : BitVec 38
  xhvec : BitVec 40
  xresume : Nat
  deriving DecidableEq, Repr

/-- A context or partition register write that has not taken effect (19 R340): the lanes that wrote in one step, register, and the value of
the highest of them, which wins (00 R10). -/
structure XWrite where
  blk : Nat
  warp : Nat
  lanes : List Nat
  reg : PrivReg
  val : DWord
  asid : Nat
  part : Nat
  /-- The step of the execution. -/
  exec : Nat
  deriving DecidableEq, Repr

/-- A stage-1 translation that a TLB of a die holds (19 R354): ASID, VMID, virtual 64 KiB page, leaf and its level. -/
structure Tlb1 where
  asid : Nat
  vmid : Nat
  vpage : Nat
  leaf : DWord
  size : Nat
  deriving DecidableEq, Repr

/-- A stage-2 translation that a TLB of a die holds: VMID, 64 KiB page of the IPA, leaf and its page size. -/
structure Tlb2 where
  vmid : Nat
  ipage : Nat
  leaf : DWord
  size : Nat
  deriving DecidableEq, Repr

/-- What a `tlbinv` covered (19 Table 19.5): a VA under an ASID and VMID, an ASID, an IPA under a VMID, a VMID, everything. -/
inductive Cover where
  | va (asid vmid va : Nat)
  | asid (n : Nat)
  | ipa (vmid ipa : Nat)
  | vmid (n : Nat)
  | all
  deriving DecidableEq, Repr

/-- Bytes that a write replaced, with its count: what the tables have held (19 R354). -/
structure Undo where
  addr : Nat
  count : Nat
  bytes : List Byte
  deriving DecidableEq, Repr

/-- A stamped copy of a line in a die's L2 (15 R294): its bytes and sector poison, the key it was read
under, its stamp, the write count at its fill. -/
structure Stamped where
  line : Nat
  key : Nat
  asid : Nat
  slot : Nat
  bytes : List Byte
  poison : List Bool
  stamp : Nat
  fill : Nat
  deriving DecidableEq, Repr

/-- Life of a site's node (01 R14 to R17). -/
inductive SStat where
  | off | active | fencing | fenced
  deriving DecidableEq, Repr

/-- A site (01 Table 1.1). -/
structure Site where
  stat : SStat
  tried : Bool
  deadline : Nat
  mhz : Nat
  retiredCores : List Nat
  fallow : Nat
  incoming : Option Nat
  banksL2 : List Nat
  banksL3 : List Nat
  rows : FMap Nat
  /-- Blocks run on a core since its last passed scan: core × 8192 + n ↦ (handle, L, ASID); overflow at n = 4096 (23 R399). -/
  log : List (Nat × Word × Nat × Nat)
  overflow : List Nat
  gpart : Nat
  tlb1 : List Tlb1
  tlb2 : List Tlb2
  /-- Completed `tlbinv` operations with the write count at each (19 R354). -/
  invs : List (Cover × Nat)
  stamped : List Stamped
  /-- Sectors that the die's caches may hold modified (01 R16). -/
  dirty : FMap Bool
  /-- Sectors whose clean copies in the die's caches are poisoned (23 R388). -/
  bad : FMap Bool
  /-- End of the drain of an incoming fallow core (23 R398). -/
  drainAt : Nat
  /-- Block residency integral of the graft window (21 R379). -/
  resid : Nat
  deriving DecidableEq, Repr

/-- An interleave (01 R19): the hash of a generation over the channels active when it was fixed. -/
structure Lay where
  gen : Nat
  chans : List Nat
  deriving DecidableEq, Repr

/-- The re-hash in progress (01 R21): the lost channel, the new placement, and the watermark line of each channel of the old one. -/
structure Rehash where
  ch : Nat
  next : Lay
  marks : FMap Nat
  deriving DecidableEq, Repr

/-- Where lines stand: the placement, and the re-hash that changes it. -/
structure Placing where
  lay : Lay
  re : Option Rehash
  deriving DecidableEq, Repr

/-- A channel loss (01 R20 to R25). -/
structure Loss where
  ch : Nat
  gen : Word
  abrupt : Bool
  shrink : Option (Nat × Nat)
  acked : Bool
  done : Bool
  /-- Where lines stood when the channel was lost (01 R23). -/
  placing : Placing
  /-- Sectors of an abruptly lost channel rewritten whole since the loss (01 R23). -/
  good : FMap Bool
  deriving DecidableEq, Repr

/-- The capacity record (01 Table 1.3). -/
structure CapRec where
  gen : Word
  dies : Nat
  cores : Nat
  clk : Nat
  hbm : Nat
  l3 : Nat
  hbmbw : Nat
  l2d : Nat
  deriving DecidableEq, Repr

/-- A launch port (03 Table 3.3). -/
structure Port where
  refcnt : Word
  lastcode : Nat
  pcap : Nat
  enable : Bool
  asid : Nat
  q : List LaunchRec
  deriving DecidableEq, Repr

/-- A machine-check record (23 Table 23.2). -/
structure McRec where
  seq : Word
  kind : Nat
  site : Nat
  cause : Nat
  attempt : Nat
  ctx : Nat
  gridh : Word
  block : Nat
  detail : Nat
  addr : Nat
  epc : DWord
  val : DWord
  time : Nat
  /-- Warp and lane of a machine check: what its report names (19 R345) beyond the fields of the table. -/
  check : Option (Nat × Nat)
  deriving DecidableEq, Repr

/-- A boot-log entry (01 R39). -/
structure BootEntry where
  step : Nat
  unit : Nat
  status : Nat
  time : Nat
  deriving DecidableEq, Repr

/-- Life of the package (01 R38, R40). -/
inductive PPhase where
  | booting | up | coldFrame
  deriving DecidableEq, Repr

/-- Who serves as Dibber and management controller (01 R18). -/
inductive IoPhase where
  | primary | changeover | standby
  deriving DecidableEq, Repr

/-- A link with link keys and spare lanes (23 R403, R404): a peer port or a Swihus attachment. Keys are of 256 bits. -/
structure Link where
  trained : Bool
  disabled : Bool
  lanes : Nat
  spares : Nat
  key : BitVec 256
  old : Option (BitVec 256)
  sel : Bool
  /-- Key selectors of the flits sent and not yet acknowledged, oldest first: the replay buffer (23 R402, R404). -/
  flits : List Bool
  /-- A flit whose tag failed once and is being replayed (23 R405). -/
  tagFail : Bool
  deriving DecidableEq, Repr

/-- CXL.cache state of a half (11 R215). -/
inductive HSt where
  | i | s | e | m
  deriving DecidableEq, Repr

/-- A host line at the bridge. -/
structure HLine where
  h0 : HSt
  h1 : HSt
  deriving DecidableEq, Repr

/-- A line that its home recovers: suspect (23 R402), or recalled (R401): nodes that have yet to answer, deadline; of a recall, the
nodes that hold the line, which the home learns from their answers. -/
structure Suspect where
  owed : List Nat
  deadline : Nat
  recalled : Bool
  holders : List Nat
  deriving DecidableEq, Repr

/-- The uniform registers and predicates of a warp as an instruction read them when its access was requested. -/
structure Snapshot where
  s : FMap Word
  q : FMap Bool
  deriving DecidableEq, Repr

/-- Where the instruction in progress issues from. -/
inductive Agent where
  | none | warp | tiller
  deriving DecidableEq, Repr

/-- The issue in progress, set by the step before it calls `exec`: the agent, its lanes in ascending order, the
instruction's address, the sequential PC, its base word, and under `rep` the count n and the prefixed body. -/
structure Issue where
  agent : Agent
  blk : Nat
  warp : Nat
  lanes : List Nat
  pc : DWord
  next : DWord
  word : Word
  level : Level
  prog : Nat
  /-- n of the `rep` that prefixes the instruction; 0 without. -/
  rep : Nat
  /-- Target and address that a `uldb.at` read before it parked (15 R296). -/
  given : Option (Word × DWord)
  /-- Of an instruction whose request a home has released: the uniform registers and predicates as it read them (24 R408). -/
  redo : Option Snapshot
  /-- The instruction, once its words are fetched. -/
  instr : Option Instr
  /-- The body's words after a `rep` prefix, before the prefix has been executed. -/
  body : List Word
  /-- Fields of the stepped body that `rep` chose; the step decodes and runs them. -/
  run : List Word
  deriving DecidableEq, Repr

/-- Who has a request at a home: an entry or a tiller whose instruction waits, as it issues when the home releases it; a barrow command
that is to move a line of its tile, or of a `cp.grp` to begin its delivery to a rank; the host (through CXL.mem or BAR4) or a peer. -/
inductive Asker where
  | issue (at_ : Issue)
  | barrow (blk cmd line : Nat)
  | outside (peer : Bool) (addr : Nat) (op : DevOp)
  deriving DecidableEq, Repr

/-- A request that a home holds while it recovers a line (23 R401, R402), with the lines that it concerns. -/
structure HomeReq where
  lines : List Nat
  who : Asker
  deriving DecidableEq, Repr

/-- BAR2 registers other than the readiness map (01 Table 1.7, 23 Table 23.2). -/
structure Bar2 where
  shrkack : Word
  nrbase : DWord
  nrsize : Nat
  nrvec : BitVec 12
  nrtail : Word
  nrhead : Word
  nrstat : Bool
  dnbase : DWord
  b4base : DWord
  /-- Earlier values that BAR4 accesses may still use until a read of `B4BASE` has returned the new one. -/
  b4olds : List DWord
  pwen : BitVec 16
  pwsize : FMap Nat
  portvf : FMap Nat
  mcseq : Word
  mccfg : BitVec 12
  deriving DecidableEq, Repr

/-- Diagnostic DVSEC (01 Table 1.8). -/
structure Dvsec where
  dstep : Nat
  dkind : Nat
  dunit : Nat
  mbcmd : Word
  mbstat : Nat
  mbdata : List Byte
  log : List BootEntry
  cursor : Nat
  deriving DecidableEq, Repr

/-- What the package sends to the outside. -/
inductive Out where
  | msix (vec : Nat)
  | retry
  | successful
  | unsupported
  | data (bytes : List Byte) (poison : Bool)
  /-- A back-invalidate snoop to the host for a half of a line of device memory (11 R218). -/
  | backInvalidate (line half : Nat)
  | signed (bytes : List Byte)
  deriving DecidableEq, Repr

/-- Where the host reads a register: BAR2, the BAR0 of a function (0 the physical one), the DVSEC in configuration space. -/
inductive RegSpace where
  | bar2
  | bar0 (vf : Nat)
  | dvsec
  deriving DecidableEq, Repr

/-- What the next step does (log 1): a frontier entry issues, a tiller issues, an event happens, the host reads registers (log 56). -/
inductive Action where
  | issue (blk warp : Nat) (key : EntryKey)
  | tiller (blk : Nat)
  | event (i : Instr)
  | hostRead (space : RegSpace) (off size : Nat)
  deriving DecidableEq, Repr

/-- The machine. -/
structure State where
  phase : PPhase
  clock : Nat
  rdymap : DWord
  cap : CapRec
  capLog : Bool
  sites : FMap Site
  losses : List Loss
  placing : Placing
  /-- End of the device memory that is backed, and of the HDM range (01 R26, R34). -/
  hbmTop : Nat
  hdmTop : Nat
  straps : List Byte
  io : IoPhase
  bar2 : Bar2
  mclog : FMap (Option McRec)
  dvsec : Dvsec
  ports : FMap Port
  peers : FMap Link
  swihus : FMap Link
  hostInsecure : Bool
  suspects : FMap (Option Suspect)
  /-- Requests that homes hold, in the order in which they were received (24 R408). -/
  homeq : List HomeReq
  dir : FMap (List Nat)
  bridge : FMap HLine
  hostMem : List Host.Cell
  mem : List Host.Cell
  poison : FMap Bool
  /-- Key id + 1024 × key generation under which a 32-byte sector was last written (23 R406). -/
  ktag : FMap Nat
  ver : FMap Nat
  wcount : Nat
  /-- Bytes that writes have replaced, the newest first (19 R354). -/
  undo : List Undo
  /-- Save areas written by the part: base, bytes, write count (19 R360). -/
  saves : List (Nat × Nat × Nat)
  keygen : FMap Nat
  xgwin : Nat
  /-- End of the graft window in progress on CLOCK (21 R379). -/
  windowAt : Nat
  xackto : Nat
  xgsite : Nat
  ctxs : FMap Ctx
  parts : FMap Part
  xpend : List XWrite
  grids : FMap Grid
  nextGrid : Nat
  blocks : FMap Block
  nextBlock : Nat
  orders : Nat
  /-- Turns of the resident warps (block, warp) at each issue pipe: site × 160 + core × 5 + quarter, the uniform pipe at 4 (03 R53). -/
  turns : FMap (List (Nat × Nat))
  /-- The Dibber's cycle (03 R76): the level of its pass over the queues, the queues visited in it; then, while it serves the dies, the
  one at which it is and those with which it is done. -/
  dlevel : Nat
  visited : List Nat
  served : Option (Option Nat × List Nat)
  outs : List Out
  agenda : List Action
  cur : Issue
  freeIx : Nat
  /-- Steps so far (the model's own). -/
  steps : Nat
  deriving DecidableEq, Repr

/-! ### Defaults of the sparse maps: what stands where nothing is listed -/

def RegVal.zero : RegVal := { val := 0, side := false }

def Frame.zero : Frame :=
  { nest := false, epc := 0, cause := 0, val := 0, pi := 0, plvl := 0, ppri := 0, vec := 0, tlanes := 0 }

/-- A lane position nothing occupies. -/
def Lane.empty : Lane :=
  { occ := .unoccupied, pc := 0, prio := 0, level := .u, ncnt := 0, v := [], p := [], rngs := 0, flags := 0, pending := [],
    frameS := Frame.zero, frameH := Frame.zero, prog := 0, park := .none, held := none, paused := 0, awaits := [],
    seen := [] }

def Warp.empty : Warp := { lanes := [], s := [], q := [], ages := [], due := [], prevq := [], nextq := [] }

/-- An uninitialised barrier. -/
def Barrier.uninit : Barrier := { init := false, exp := 0, cnt := 0, ph := 0 }

def ScaleSlot.zero : ScaleSlot := { scb := 0, eb := 0, ssh := 0 }

/-- The tiller at block start (17 R302). -/
def Tiller.idle : Tiller :=
  { run := false, pc := 0, s := [], q := [], slots := [], latch := none, wait := none, flight := [], loading := none, scache := [],
    sdrop := [], synced := 0 }

/-- No block. -/
def Block.absent : Block :=
  { grid := 0, lin := 0, phase := .retired, site := 0, core := 0, order := 0, attempts := 0, committed := false, waited := 0,
    since := 0, limit := 0, nwarps := 0, warps := [], scratch := [], spoison := [], marred := [], lines := [], bars := [], hdrs := [], acc := [],
    tiller := Tiller.idle, cmds := [], cancelled := [], pend := [], hold := [], hops := [], image := none, fresh := 0 }

def KHdr.zero : KHdr :=
  { entry := 0, tentry := 0, dprio := 0, bx := 0, by_ := 0, bz := 0, lregs := 0, uregs := 0, scratch := 0, acc := 0, bars := 0,
    gmax := 0, preload := 0 }

/-- No grid. -/
def Grid.absent : Grid :=
  { asid := 0, handle := 0, khdr := KHdr.zero, pmap := [], gx := 0, gy := 0, gz := 0, gsize := 1, pri := 0, chained := false,
    replay := false, affine := none, msix := none, caddr := 0, args := 0, depth := 0, parent := none,
    phase := .complete, next := 0, retired := 0, fails := 0, gsite := [], gbars := [] }

/-- A free region slot. -/
def Region.absent : Region := { id := 0, base := 0, len := 0, count := 0, views := [], notices := [] }

def Slot.freeSlot : Slot :=
  { state := .free, rfr := false, stamp := 0, ref := 0, sver := 0, hits := 0, site := 0, round := 0, whole := false,
    foot := [], fail := 0, held := [] }

def Expert.fresh : Expert := { slots := [], load := [], winLoad := 0, lastLoad := 0, merging := false }

/-- An unbound graft table. -/
def GTab.unbound : GTab :=
  { bound := false, rbase := 0, rstride := 0, wbytes := 0, nexp := 0, sbound := 0, auto := false, rgnid := 0, hot := 0,
    cold := 0, gelem := 0, gbase := 0, gstride := 0, elog := 0, elcnt := 0, store := 0, ver := 0, seq := 0, experts := [],
    work := [] }

/-- The bits of `XDELEG` that read 1 and cannot be written: causes 0x12, 0x13, 0x15, 0x16 (19 Table 19.1). -/
def delegOnes : DWord := 0x6C0000

/-- The bits of `XDELEG` that can be written: causes 0x01 to 0x11 and 0x14. -/
def delegMask : DWord := 0x13FFFE

/-- An ASID bound to nothing; `XAGE.LIMIT` 256 (03 R52), values the spec leaves open 0 (log 5). -/
def Ctx.unbound : Ctx :=
  { bound := false, part := 0, xptb := 0, xdeleg := delegOnes, xasid := 0, xkey := 0, xage := 256, xshadow := false, svec := 0,
    rtab := 0, rcnt := 0, save := 0, savesz := 0, sched := true, regions := [], devq := [], tabs := [] }

/-- A partition after reset (19 R341). -/
def Part.reset (n : Nat) : Part := { vmid := n, xptb2 := 0, xhvec := 0, xresume := 2000 }

/-- A site before boot has counted it ready: nominal clock, no bank or core removed (01 Table 1.1, Table 1.3); fallow core
31 (log 6). -/
def Site.nominal : Site :=
  { stat := .off, tried := false, deadline := 0, mhz := 1300, retiredCores := [], fallow := 31, incoming := none,
    banksL2 := [], banksL3 := [], rows := [], log := [], overflow := [], gpart := 0, tlb1 := [], tlb2 := [], invs := [], stamped := [],
    dirty := [], bad := [], drainAt := 0, resid := 0 }

def Port.reset : Port := { refcnt := 0, lastcode := 0, pcap := 0, enable := false, asid := 0, q := [] }

/-- A peer port before training: 8 lanes, 1 spare (01 R37, 23 R403). -/
def Link.peer : Link :=
  { trained := false, disabled := false, lanes := 8, spares := 1, key := 0, old := none, sel := false, flits := [], tagFail := false }

/-- A Swihus attachment: 4 spare lanes (23 R403). -/
def Link.swi : Link :=
  { trained := false, disabled := false, lanes := 0, spares := 4, key := 0, old := none, sel := false, flits := [], tagFail := false }

/-- A host line of which the bridge holds nothing. -/
def HLine.absent : HLine := { h0 := .i, h1 := .i }

/-- Nothing issues. -/
def Issue.idle : Issue :=
  { agent := .none, blk := 0, warp := 0, lanes := [], pc := 0, next := 0, word := 0, level := .u, prog := 0, rep := 0,
    given := none, redo := none, instr := none, body := [], run := [] }

/-- What a byte of memory that nothing has written reads as (DESIGN CHOICE, log 3). -/
def memDefault : Byte := 0

/-- Straps that declare every site but the spares 16 and 17, and every stack: bits 0 to 23 sites, 24 to 35 stacks (log 6). -/
def declaredAll : List Byte := [0xFF, 0xFF, 0xFC, 0xFF, 0x0F]

/-- The machine right after package reset (01 R33, R36, R38, 19 R341, 23 R391); values the spec leaves open are those of
logs 3, 5, 6 and 7, and the memory that is backed before the first capacity record (`hbmTop`, `hdmTop`) that of log 64. -/
def State.reset : State :=
  { phase := .booting
    clock := 0
    rdymap := 0
    cap := { gen := 0, dies := 0, cores := 0, clk := 0, hbm := 0, l3 := 0, hbmbw := 0, l2d := 0 }
    capLog := false
    sites := []
    losses := []
    placing := { lay := { gen := 0, chans := [] }, re := none }
    hbmTop := 0xBA00000000
    hdmTop := 0xBA00000000
    straps := declaredAll
    io := .primary
    bar2 := { shrkack := 0, nrbase := 0, nrsize := 4, nrvec := 0, nrtail := 0, nrhead := 0, nrstat := false, dnbase := 0,
              b4base := 0, b4olds := [], pwen := 0, pwsize := [], portvf := [], mcseq := 0, mccfg := 0 }
    mclog := []
    dvsec := { dstep := 0, dkind := 0, dunit := 0, mbcmd := 0, mbstat := 0, mbdata := [], log := [], cursor := 0 }
    ports := []
    peers := []
    swihus := []
    hostInsecure := false
    suspects := []
    homeq := []
    dir := []
    bridge := []
    hostMem := []
    mem := []
    poison := []
    ktag := []
    ver := []
    wcount := 0
    undo := []
    saves := []
    keygen := []
    xgwin := 1000
    windowAt := 1300000
    xackto := 20
    xgsite := 0
    ctxs := []
    parts := []
    xpend := []
    grids := []
    nextGrid := 1
    blocks := []
    nextBlock := 1
    orders := 0
    turns := []
    dlevel := 3
    visited := []
    served := none
    outs := []
    agenda := []
    cur := Issue.idle
    freeIx := 0
    steps := 0 }

end Sys2Proof.Machine
end

