-- ==== Sys2Proof/WellFormed.lean ====
section
/-! DEFINITION. Which instructions the encodings admit: operand ranges (05 Table 5.4), group alignment (05 R99),
forms and types that an entry accepts. Every instruction that the decoder answers is well formed, and every
well-formed instruction has an encoding. -/

namespace Sys2Proof

/-- Bytes of a type, 05 Table 5.5 and 11 Table 11.6 (packed and narrow types count one register element). -/
def Ty.bytes : Ty → Nat
  | .b8 | .s8 | .z8 => 1
  | .b16 | .s16 | .z16 | .f16 | .bf16 => 2
  | .b32 | .s32 | .z32 | .f32 => 4
  | .b64 | .s64 | .z64 => 8
  | .b128 => 16
  | .e4m3 | .e5m2 | .e3m2 | .e2m3 | .e2m1 => 1

/-- Registers of the group that a value of the type occupies (05 R99). -/
def Ty.regs (t : Ty) : Nat := (t.bytes + 3) / 4

/-- Types that a load accepts (11 Table 11.6). -/
def Ty.loadOk : Ty → Bool
  | .b8 | .s8 | .z8 | .b16 | .s16 | .z16 | .b32 | .b64 | .b128 => true
  | _ => false

/-- Types that a store accepts (11 Table 11.6). -/
def Ty.storeOk : Ty → Bool
  | .b8 | .b16 | .b32 | .b64 | .b128 => true
  | _ => false

/-- Types that `cvt` accepts (09 R189). -/
def Ty.cvtOk : Ty → Bool
  | .f32 | .f16 | .bf16 | .s8 | .s16 | .s32 | .s64 | .z8 | .z16 | .z32 | .z64 => true
  | _ => false

/-- Floating-point types among those of `cvt`. -/
def Ty.isFloat : Ty → Bool
  | .f32 | .f16 | .bf16 => true
  | _ => false

/-- Types that `pack` accepts (09 R191). -/
def Ty.packOk : Ty → Bool
  | .f16 | .bf16 | .e4m3 | .e5m2 | .e3m2 | .e2m3 | .e2m1 => true
  | _ => false

/-- Types that `unpk` accepts (09 R194). -/
def Ty.unpkOk : Ty → Bool
  | .s8 | .z8 => true
  | t => t.packOk

/-- Elements of one register for `pack` and `unpk` (09 R191, 07 Table 7.3). -/
def Ty.perReg : Ty → Nat
  | .f16 | .bf16 => 2
  | .e2m1 => 8
  | _ => 4

/-- A widening conversion between the floating-point types of `cvt` (07 R148): to FP32, or to the same format, whose
every finite value is a value of the destination. A pair from an integer to a floating-point type is none, though some hold every value of
their source; pairs of integer types stand in `cvtRndOk` (DEDUCED, log 10). -/
def cvtWidening (dt st : Ty) : Bool := dt.isFloat && st.isFloat && (dt == .f32 || dt == st)

/-- Types of an atomic operation (11 Table 11.7). -/
def AOp.tyOk : AOp → Ty → Bool
  | .add, t | .min, t | .max, t => t == .s32 || t == .z32 || t == .s64 || t == .z64 || t == .f32
  | .and, t | .or, t | .xor, t => t == .b32 || t == .b64
  | .exch, t | .cas, t => t == .b32 || t == .b64 || t == .b128

/-- Types of a scan operation (13 Table 13.4). -/
def SOp.tyOk : SOp → Ty → Bool
  | .add, t | .min, t | .max, t => t == .s32 || t == .z32 || t == .f32
  | .and, t | .or, t | .xor, t => t == .b32
  | .lr, t => t == .f32

/-- Registers of one scan value: the pair of `.lr`, else one (13 Table 13.4). -/
def SOp.regs : SOp → Nat
  | .lr => 2
  | _ => 1

/-- A lane register group of k registers, a power of two (05 R99). -/
def vGrp (k n : Nat) : Bool := n < 128 && n % k == 0

/-- A uniform register group of k registers. -/
def sGrp (k n : Nat) : Bool := n < 64 && n % k == 0

/-- Lane register, predicate and lookahead ranges. -/
def vOk (n : Nat) : Bool := n < 128
def sOk (n : Nat) : Bool := n < 64
def pOk (n : Nat) : Bool := n < 8
def laOk (n : Nat) : Bool := n < 16

/-- A guard (05 R96): `G` = 7 is never negated. -/
def Guard.ok (g : Guard) : Bool := g.p < 8 && !(g.neg && g.p == 7)

/-- Second source of an integer lane cell whose modifier is at its default or not. -/
def Src2.vInt (s : Src2) (dflt : Bool) : Bool :=
  match s with
  | .reg n => vOk n
  | .imm _ => true
  | .lit _ => dflt

/-- Second source of an FP32 or packed cell: no 15-bit form (05 R100). -/
def Src2.vFp (s : Src2) (dflt : Bool) : Bool :=
  match s with
  | .reg n => vOk n
  | .imm _ => false
  | .lit _ => dflt

/-- Second source of a uniform cell, a register or a group of k registers. -/
def Src2.uInt (s : Src2) (k : Nat) (dflt : Bool) : Bool :=
  match s with
  | .reg n => sGrp k n
  | .imm _ => true
  | .lit _ => dflt

/-- An immediate second source (09 R169). -/
def Src2.isImm : Src2 → Bool
  | .reg _ => false
  | _ => true

/-- Width in registers of a status register (05 Table 5.6). -/
def StatusReg.regs : StatusReg → Nat
  | .clock | .nsclk => 2
  | _ => 1

/-- Width in registers of a privileged register (05 Table 5.7). -/
def PrivReg.regs : PrivReg → Nat
  | .xepc | .xval | .xvec | .xdeleg | .xtlanes | .xptb | .xptb2 | .xhvec => 2
  | _ => 1

/-- Registers that exist in each frame (05 Table 5.7). -/
def PrivReg.perLevel : PrivReg → Bool
  | .xstatus | .xepc | .xcause | .xval | .xpi | .xprev | .xvec | .xtlanes => true
  | _ => false

/-- Scope and flags of a barrow command (11 R230). -/
def CpOrd.ok (o : CpOrd) : Bool := if o.acq || o.rel then o.scope != .self else o.scope == .self

/-- Scopes of `cinv` and `cwb` (11 R229). -/
def Scope.isWide : Scope → Bool
  | .die | .dev | .sys => true
  | _ => false

/-- Rounding of a conversion (09 R189): integer to integer and widening conversions take none. -/
def cvtRndOk (dt st : Ty) (r : Rnd) : Bool :=
  if cvtWidening dt st || (!dt.isFloat && !st.isFloat) then r == .rn else true

/-- `.ftz` of a conversion (09 R189): a narrowing conversion to a floating-point type. -/
def cvtFtzOk (dt st : Ty) (ftz : Bool) : Bool := !ftz || (dt.isFloat && !cvtWidening dt st)

/-- `rn`, `rz`, `ru`, `rd`: the codes of an arithmetic instruction (07 R142). -/
def Rnd.arith : Rnd → Bool
  | .rs => false
  | _ => true

/-- Well-formedness. Events are always well formed: their arguments are the environment's. -/
def Instr.wf : Instr → Bool
  | .add g d a b sat | .sub g d a b sat | .mul g d a b sat => g.ok && vOk d && vOk a && b.vInt (sat == .wrap)
  | .mad g d a b c sat => g.ok && vOk d && vOk a && b.vInt (sat == .wrap) && vOk c
  | .and g d a b | .or g d a b | .xor g d a b | .shl g d a b | .shr g d a b | .sar g d a b | .min g d a b
  | .max g d a b => g.ok && vOk d && vOk a && b.vInt true
  | .sel g d a b pc => g.ok && vOk d && vOk a && b.vInt true && pOk pc
  | .icmp g pd a b cond => g.ok && pOk pd && vOk a && b.vInt (cond == .eq)
  | .movi g d b => g.ok && vOk d && b.vInt true && b.isImm
  | .bfx g d a b sgn => g.ok && vOk d && vOk a && b.vInt (!sgn)
  | .bfi g d a b c => g.ok && vOk d && vOk a && b.vInt true && vOk c
  | .lea g d a b n => g.ok && vOk d && vOk a && b.vInt (n == 0) && n < 8
  | .bsel g d a b c sx => g.ok && vOk d && vOk a && b.vInt (!sx) && vOk c
  | .addc g d a b po ci | .subb g d a b po ci =>
      g.ok && vOk d && vOk a && vOk b && pOk po && (match ci with | some c => pOk c | none => true)
  | .mulh g d a b _ => g.ok && vOk d && vOk a && vOk b
  | .mulw g d a b _ => g.ok && vGrp 2 d && vOk a && vOk b
  | .minz g d a b | .maxz g d a b | .andn g d a b => g.ok && vOk d && vOk a && vOk b
  | .rot g d a amt => g.ok && vOk d && vOk a && (match amt with | .reg n => vOk n | .imm _ => true)
  | .neg g d a _ | .abs g d a _ => g.ok && vOk d && vOk a
  | .not g d a | .popc g d a | .clz g d a | .ctz g d a | .brev g d a | .mov g d a => g.ok && vOk d && vOk a
  | .add64 g d a b _ | .sub64 g d a b _ => g.ok && vGrp 2 d && vGrp 2 a && vGrp 2 b
  | .lea64 g d a b n _ => g.ok && vGrp 2 d && vGrp 2 a && vOk b && n < 8
  | .fadd g d a b r | .fsub g d a b r | .fmul g d a b r => g.ok && vOk d && vOk a && b.vFp (r == .rn) && r.arith
  | .ffma g d a b c r => g.ok && vOk d && vOk a && b.vFp (r == .rn) && vOk c && r.arith
  | .fcmp g pd a b cond => g.ok && pOk pd && vOk a && b.vFp (cond == .eq)
  | .fmin g d a b | .fmax g d a b => g.ok && vOk d && vOk a && vOk b
  | .fclass g d a => g.ok && vOk d && vOk a
  | .fround g d a r => g.ok && vOk d && vOk a && r.arith
  | .hadd2 g d a b bf | .hsub2 g d a b bf | .hmul2 g d a b bf => g.ok && vOk d && vOk a && b.vFp (!bf)
  | .hfma2 g d a b c bf => g.ok && vOk d && vOk a && b.vFp (!bf) && vOk c
  | .hmin2 g d a b _ | .hmax2 g d a b _ | .hcmp2 g d a b _ _ => g.ok && vOk d && vOk a && vOk b
  | .idp4 g d a b c _ _ _ | .idp8 g d a b c _ _ _ => g.ok && vOk d && vOk a && vOk b && vOk c
  | .hdp2 g d a b c r _ => g.ok && vOk d && vOk a && vOk b && vOk c && r.arith
  | .cvt g d a dt sty r _ ftz =>
      g.ok && vGrp dt.regs d && vGrp sty.regs a && dt.cvtOk && sty.cvtOk && cvtRndOk dt sty r && cvtFtzOk dt sty ftz
  | .pack g d a ty _ _ _ sc =>
      g.ok && vOk d && vGrp ty.perReg a && ty.packOk &&
      (match sc with | .none => true | .sx b => vOk b | .sa b c => vOk b && vOk c)
  | .unpk g d a ty sc =>
      g.ok && vGrp ty.perReg d && vOk a && ty.unpkOk &&
      (match sc with | .none => true | .sx b => vOk b && ty.packOk | .se b => vOk b && ty.packOk)
  | .frcp g d a la | .frsq g d a la | .fsqrt g d a la | .fexp2 g d a la | .flog2 g d a la | .fsin g d a la
  | .fcos g d a la | .ftanh g d a la => g.ok && vOk d && vOk a && laOk la
  | .shfl g d a mode w64 src seg wr pv m la =>
      g.ok && vGrp (if w64 then 2 else 1) d && vGrp (if w64 then 2 else 1) a &&
      (match src with | .reg n => vOk n | .imm _ => true) && seg < 7 &&
      !(wr && (mode == .abs || mode == .rel)) && pOk pv && sGrp 2 m && laOk la
  | .redux g sd a op ty m la => g.ok && sGrp op.regs sd && vGrp op.regs a && op.tyOk ty && sGrp 2 m && laOk la
  | .vscan g d a seg op _ ty m la =>
      g.ok && vGrp op.regs d && vGrp op.regs a && (match seg with | some p => pOk p | none => true) &&
      op.tyOk ty && sGrp 2 m && laOk la
  | .vscanc g d a seg op _ ty sc m la =>
      g.ok && vGrp op.regs d && vGrp op.regs a && (match seg with | some p => pOk p | none => true) &&
      op.tyOk ty && sGrp op.regs sc && sGrp 2 m && laOk la
  | .vote g v pa m la =>
      g.ok && (match v with | .pred _ pd => pOk pd | .bits sd => sGrp 2 sd) && pOk pa && sGrp 2 m && laOk la
  | .matchLanes g d a w64 m la => g.ok && vGrp 2 d && vGrp (if w64 then 2 else 1) a && sGrp 2 m && laOk la
  | .rsend g a _ m la => g.ok && vOk a && sGrp 2 m && laOk la
  | .rrecv g d _ m la => g.ok && vOk d && sGrp 2 m && laOk la
  | .rpoll g pd _ _ m la => g.ok && pOk pd && sGrp 2 m && laOk la
  | .ld g d a ty _ _ _ _ la => g.ok && vGrp ty.regs d && vGrp 2 a && ty.loadOk && laOk la
  | .st g b a ty _ _ _ _ la => g.ok && vGrp ty.regs b && vGrp 2 a && ty.storeOk && laOk la
  | .ldb g d a ty bound _ la =>
      g.ok && vGrp ty.regs d && vGrp 2 a && ty.loadOk && (match bound with | .rf n => n < 16 | .target c => vOk c) &&
      laOk la
  | .lds g d a ty _ la | .ldg g d a ty _ la => g.ok && vGrp ty.regs d && vOk a && ty.loadOk && laOk la
  | .sts g b a ty _ la | .stg g b a ty _ la => g.ok && vGrp ty.regs b && vOk a && ty.storeOk && laOk la
  | .atom g d a b c op ty _ _ la =>
      g.ok && vGrp ty.regs d && vGrp 2 a && vGrp ty.regs b && (if op == .cas then vGrp ty.regs c else c == 0) &&
      op.tyOk ty && laOk la
  | .red g a b op ty _ _ la =>
      g.ok && vGrp 2 a && vGrp ty.regs b && op.tyOk ty && !(op == .exch || op == .cas) && laOk la
  | .atoms g d a b c op ty _ _ la =>
      g.ok && vGrp ty.regs d && vOk a && vGrp ty.regs b && (if op == .cas then vGrp ty.regs c else c == 0) &&
      op.tyOk ty && laOk la
  | .pf g a _ _ _ la => g.ok && vGrp 2 a && laOk la
  | .cinv g a sc _ la | .cwb g a sc _ la => g.ok && vGrp 2 a && sc.isWide && laOk la
  | .fence g _ sc la => g.ok && sc != .self && laOk la
  | .rndadv g d a _ la | .rndld g d a _ la => g.ok && vOk d && vGrp 2 a && laOk la
  | .rndwait g d a c _ la => g.ok && vOk d && vGrp 2 a && vOk c && laOk la
  | .bra g _ | .call g _ => g.ok
  | .nop g | .exit g => g.ok
  | .pause g n => g.ok && n != 0
  | .brx g a | .ret g a => g.ok && vGrp 2 a
  | .brk g _ => g.ok
  | .sys g _ => g.ok
  | .mwait g a b _ la => g.ok && vGrp 2 a && vOk b && laOk la
  | .rep n step _ => 1 ≤ n && n ≤ 64 && 1 ≤ step && step ≤ 4
  | .mfs g d r => g.ok && vGrp r.regs d
  | .route g d a t la => g.ok && vGrp 4 d && vOk a && t < 4 && laOk la
  | .rdone g a la => g.ok && vGrp 2 a && laOk la
  | .xrd g d r lvl => g.ok && vGrp r.regs d && (r.perLevel || lvl == .own)
  | .xwr g a r lvl => g.ok && vGrp r.regs a && (r.perLevel || lvl == .own) && r != .xtlanes
  | .sret g | .hret g => g.ok
  | .tlbinvVa g a _ la | .tlbinvIpa g a _ la => g.ok && vGrp 2 a && laOk la
  | .tlbinvAsid g a _ la | .tlbinvVmid g a _ la => g.ok && vOk a && laOk la
  | .tlbinvAll g _ la => g.ok && laOk la
  | .tlbinvRgn g d a la => g.ok && vOk d && vOk a && laOk la
  | .uadd g d a b | .usub g d a b | .umul g d a b => g.ok && sOk d && sOk a && b.uInt 1 true
  | .umad g d a b c => g.ok && sOk d && sOk a && b.uInt 1 true && sOk c
  | .umin g d a b uns | .umax g d a b uns => g.ok && sOk d && sOk a && b.uInt 1 (!uns)
  | .ucmp g qd a b cond => g.ok && pOk qd && sOk a && b.uInt 1 (cond == .eq)
  | .umov g d b => g.ok && sOk d && b.uInt 1 true
  | .uand g d a b | .uor g d a b | .uxor g d a b | .ushl g d a b | .ushr g d a b | .usar g d a b =>
      g.ok && sOk d && sOk a && b.uInt 1 true
  | .ubfx g d a b sgn => g.ok && sOk d && sOk a && b.uInt 1 (!sgn)
  | .upopc g d a => g.ok && sOk d && sOk a
  | .umovi g d b => g.ok && sGrp 2 d && b.uInt 1 true && b.isImm
  | .uadd64 g d a b => g.ok && sGrp 2 d && sGrp 2 a && b.uInt 2 true
  | .ulea64 g d a b n sgn =>
      g.ok && sGrp 2 d && sGrp 2 a && b.uInt 1 (n == 0 && !sgn) && n < 8 && !(sgn && n == 7)
  | .uld g d a ty _ _ _ => g.ok && sGrp ty.regs d && sGrp 2 a && ty.loadOk
  | .uldb g d a ty bound _ =>
      g.ok && sGrp ty.regs d && sGrp 2 a && ty.loadOk && (match bound with | .rf n => n < 16 | .target c => sOk c)
  | .ust g b a ty _ _ _ => g.ok && sGrp ty.regs b && sGrp 2 a && ty.storeOk
  | .ubra g _ | .ucall g _ => g.ok
  | .ubrx g a | .uret g a => g.ok && sGrp 2 a
  | .barInit g b _ n => g.ok && b < 32 && n != 0
  | .barArr g b _ tok | .barWait g b _ tok => g.ok && b < 32 && (match tok with | some n => sOk n | none => true)
  | .barSync g b _ => g.ok && b < 32
  | .cpIn g h a p b o _ | .cpOut g h a p b o _ => g.ok && h < 16 && sGrp 2 a && sOk p && b < 32 && o.ok
  | .cpGat g h a p b o _ | .cpGrp g h a p b o _ => g.ok && h < 16 && sGrp 2 a && sGrp 2 p && b < 32 && o.ok
  | .cpRed g h a p b o _ => g.ok && h < 16 && sGrp 2 a && sOk p && b < 32 && o.ok
  | .mxfork g _ | .mxjoin g => g.ok
  | .mma g d a b _ _ => g.ok && d < 8 && a < 16 && b < 16
  | .hset g d a => g.ok && d < 16 && sGrp 4 a
  | .hld g d a _ => g.ok && d < 16 && sOk a
  | .mscl g n a b _ => g.ok && n < 4 && sGrp 2 a && sOk b
  | .accz g d => g.ok && d < 8
  | .accrd g h a b cv sat =>
      g.ok && h < 16 && a < 8 && (if cv == .e4m3 || cv == .e5m2 then sOk b else b == 0) && !(sat && cv == .b32)
  | .accwr g d h cv => g.ok && d < 8 && h < 16 && !(cv == .e4m3 || cv == .e5m2)
  | .mexit g => g.ok
  | .launch g d a _ => g.ok && sGrp 2 d && sGrp 2 a
  | .gridgrow g qp d a => g.ok && pOk qp && sOk d && sOk a
  | .capq g a _ => g.ok && sGrp 2 a
  | .graftRep g t d a => g.ok && t < 4 && sOk d && sOk a
  | .graftBind g t a => g.ok && t < 4 && sGrp 2 a
  | .graftUnbind g t => g.ok && t < 4
  | .prune g t a b => g.ok && t < 4 && sOk a && sOk b
  | .gmerge g t a b => g.ok && t < 4 && sGrp 2 a && sOk b
  | .gmergeAll g t a | .grefresh g t a => g.ok && t < 4 && sGrp 2 a
  | .gtabq g t a b _ => g.ok && t < 4 && sGrp 2 a && sOk b
  -- events and the reserved cell: rows of the table without an encoding of their own
  | .packageReset | .bootTopologyCheck .. | .nodeReady .. | .plannedFence .. | .plannedFenceDrainExpiry ..
  | .nodeFence .. | .errorFence .. | .spareJoin .. | .ioDieChangeover | .ioDieChangeoverComplete
  | .channelLossPlanned .. | .channelLossAbrupt .. | .rehashStart | .rehashLineMove | .rehashComplete
  | .shrkack .. | .clockReplan .. | .clockHoldFailure .. | .rowRemap .. | .bankRemoval .. | .nrbase ..
  | .nrstat .. | .b4base .. | .pwen .. | .portvf .. | .registerWrite .. | .mbcmdReadLog
  | .mbcmdReadMeasurement | .mbcmdRestartLog | .mbcmdRejected .. | .mailboxDone | .attestationRequest ..
  | .hostDeviceAccess .. | .hostSnoopSnpinv .. | .hostSnoopSnpdata .. | .hostSnoopSnpcur ..
  | .bridgeEviction .. | .launchRecordWrite .. | .dibberTakeHead .. | .waitCounterRead .. | .blockStart ..
  | .blockRetire .. | .preemptBlock .. | .resumeBlock .. | .resumeMaxExpiry .. | .sliceRegroup
  | .resultLanding .. | .pauseExpiry .. | .barrowLineWritten .. | .barrowCommandComplete ..
  | .cpGrpDeliveryBegin .. | .cpGrpDeliveryLand .. | .mwaitWake .. | .mwaitTimeout .. | .runnerEntryArrive ..
  | .roundNotice .. | .mmaComplete .. | .graftCopyVerified .. | .graftCopyFail .. | .graftWindowEnd
  | .expertMerge .. | .grefreshCounterAdd .. | .uncorrectableError .. | .patrolScrub .. | .fallowRotation ..
  | .fallowDrainExpiry .. | .fallowScanPass .. | .fallowScanFail .. | .directoryRecall .. | .flitCrcFail ..
  | .flitLost .. | .ackArrival .. | .ackTimeoutExpiry .. | .laneSpareSwap .. | .laneFail .. | .keyRollover ..
  | .oldKeyRetire .. | .peerTagFail .. | .ideIntegrityFail | .memoryKeyInstall .. | .reservedCell ..
  | .bindContextDescriptor .. | .peerDeviceAccess .. | .accessPerformed .. => true

end Sys2Proof
end

