-- ==== Sys2Proof/Machine/Ops.lean ====
section
/-! DEFINITION. The named operations over State: registers with their banks, predicates, landing of results, physical
memory with keys and poison, machine-check records, failure and containment, taking an exception and returning. -/

namespace Sys2Proof.Machine

open Sys2Proof

/-! ### Access to the parts of the state -/

def State.blk (s : State) (b : Nat) : Block := fget Block.absent s.blocks b
def State.setBlk (s : State) (b : Nat) (x : Block) : State := { s with blocks := fput s.blocks b x }
def State.modBlk (s : State) (b : Nat) (f : Block → Block) : State := s.setBlk b (f (s.blk b))

def Block.warp (k : Block) (w : Nat) : Warp := fget Warp.empty k.warps w
def Block.setWarp (k : Block) (w : Nat) (x : Warp) : Block := { k with warps := fput k.warps w x }

def Warp.lane (w : Warp) (i : Nat) : Lane := fget Lane.empty w.lanes i
def Warp.setLane (w : Warp) (i : Nat) (x : Lane) : Warp := { w with lanes := fput w.lanes i x }

def State.warp (s : State) (b w : Nat) : Warp := (s.blk b).warp w
def State.setWarp (s : State) (b w : Nat) (x : Warp) : State := s.setBlk b ((s.blk b).setWarp w x)

def State.lane (s : State) (b w i : Nat) : Lane := (s.warp b w).lane i
def State.setLane (s : State) (b w i : Nat) (x : Lane) : State := s.setWarp b w ((s.warp b w).setLane i x)

def State.grid (s : State) (g : Nat) : Grid := fget Grid.absent s.grids g
def State.setGrid (s : State) (g : Nat) (x : Grid) : State := { s with grids := fput s.grids g x }
def State.gridOf (s : State) (b : Nat) : Grid := s.grid (s.blk b).grid

def State.ctx (s : State) (a : Nat) : Ctx := fget Ctx.unbound s.ctxs a
def State.setCtx (s : State) (a : Nat) (x : Ctx) : State := { s with ctxs := fput s.ctxs a x }
def State.ctxOf (s : State) (b : Nat) : Ctx := s.ctx (s.gridOf b).asid

def State.part (s : State) (n : Nat) : Part := fget (Part.reset n) s.parts n
def State.setPart (s : State) (v : Nat) (x : Part) : State := { s with parts := fput s.parts v x }

/-- The site of a block and the ASID of its context. -/
def State.siteOf (s : State) (b : Nat) : Nat := (s.blk b).site
def State.asidOf (s : State) (b : Nat) : Nat := (s.gridOf b).asid

/-- The VMID of a context's partition (19 R339). -/
def State.vmidOf (s : State) (asid : Nat) : Nat := (s.part (s.ctx asid).part).vmid

def State.site (s : State) (n : Nat) : Site := fget Site.nominal s.sites n
def State.setSite (s : State) (n : Nat) (x : Site) : State := { s with sites := fput s.sites n x }

def Ctx.region (c : Ctx) (i : Nat) : Region := fget Region.absent c.regions i
def Ctx.setRegion (c : Ctx) (i : Nat) (r : Region) : Ctx := { c with regions := fput c.regions i r }
def Ctx.tab (c : Ctx) (t : Nat) : GTab := fget GTab.unbound c.tabs t
def Ctx.setTab (c : Ctx) (t : Nat) (x : GTab) : Ctx := { c with tabs := fput c.tabs t x }
def GTab.expert (t : GTab) (e : Nat) : Expert := fget Expert.fresh t.experts e
def GTab.setExpert (t : GTab) (e : Nat) (x : Expert) : GTab := { t with experts := fput t.experts e x }
/-- Slot 0 names the rootstock: always live, `SVER` 1 (21 R370). -/
def Expert.slot (e : Expert) (i : Nat) : Slot :=
  fget (if i = 0 then { Slot.freeSlot with state := .live, sver := 1 } else Slot.freeSlot) e.slots i
def Expert.setSlot (e : Expert) (i : Nat) (x : Slot) : Expert := { e with slots := fput e.slots i x }

def State.port (s : State) (p : Nat) : Port := fget Port.reset s.ports p
def State.setPort (s : State) (p : Nat) (x : Port) : State := { s with ports := fput s.ports p x }
def State.peer (s : State) (p : Nat) : Link := fget Link.peer s.peers p
def State.setPeer (s : State) (p : Nat) (x : Link) : State := { s with peers := fput s.peers p x }

/-- A fresh free value's index. -/
def State.tickFree (s : State) : State := { s with freeIx := s.freeIx + 1 }

/-- `NSCLK` from `CLOCK` (01 R33). -/
def State.nsclk (s : State) : Nat := s.clock * 10 / 13

def State.out (s : State) (o : Out) : State := { s with outs := s.outs ++ [o] }

/-! ### Registers, predicates, results (00 R13, 05 R107) -/

/-- `PRIV` of a level (03 R44). -/
def Level.num : Level → Nat
  | .u => 0 | .s => 1 | .h => 2

/-- The level of an `XPREV.PLVL`; 3 is none. -/
def levelOf : Nat → Option Level
  | 0 => some .u | 1 => some .s | 2 => some .h | _ => none

/-- The copy of lane register n that a level names (00 R13). -/
def vKey (l : Level) (n : Nat) : Nat := if n < 120 then n else n + 128 * l.num

/-- The copy of lane predicate n that a level names. -/
def pKey (l : Level) (n : Nat) : Nat := if n = 6 then 6 + 8 * l.num else n

/-- The copy of uniform register n that a level names. -/
def sKey (l : Level) (n : Nat) : Nat := if n < 56 then n else n + 64 * l.num

/-- `rd_v` (00 Table 0.5). -/
def Lane.rv (l : Lane) (n : Nat) : RegVal := fget RegVal.zero l.v (vKey l.level n)

/-- Data of a register. -/
def Lane.rd (l : Lane) (n : Nat) : Word := (l.rv n).val

/-- The pair at an even register (05 R99). -/
def Lane.rd2 (l : Lane) (n : Nat) : DWord := pairOf (l.rd n) (l.rd (n + 1))

/-- Side bit of any of k registers from n. -/
def Lane.sideAny (l : Lane) (n k : Nat) : Bool := (upto n k).any fun i => (l.rv i).side

/-- A lane predicate; `p7` reads true (05 Table 5.4). -/
def Lane.rp (l : Lane) (n : Nat) : Bool := if n = 7 then true else fget false l.p (pKey l.level n)

/-- Write a register of a given copy. -/
def Lane.putV (l : Lane) (key : Nat) (x : RegVal) : Lane := { l with v := fset RegVal.zero l.v key x }

/-- Write a predicate of a given copy. -/
def Lane.putP (l : Lane) (key : Nat) (x : Bool) : Lane := { l with p := fset false l.p key x }

/-- Writes of one instruction to a lane, register and predicate numbers as the level's copies. -/
def Lane.write (l : Lane) (regs : List (Nat × RegVal)) (preds : List (Nat × Bool)) : Lane :=
  let l := regs.foldl (fun l e => l.putV e.1 e.2) l
  preds.foldl (fun l e => l.putP e.1 e.2) l

/-- Register results as copies of the lane's level, 05 Table 5.4: a write to `p7` is ignored. -/
def Lane.regKeys (l : Lane) (regs : List (Nat × RegVal)) : List (Nat × RegVal) := regs.map fun e => (vKey l.level e.1, e.2)
def Lane.predKeys (l : Lane) (preds : List (Nat × Bool)) : List (Nat × Bool) :=
  (preds.filter fun e => e.1 != 7).map fun e => (pKey l.level e.1, e.2)

/-- Land, in their order, every pending result due at or before `d` more positions (05 R107). -/
def Lane.land (l : Lane) (d : Nat) : Lane :=
  let due := l.pending.filter fun p => p.dist ≤ d
  let l := { l with pending := l.pending.filter fun p => d < p.dist }
  due.foldl (fun l p => l.write p.regs p.preds) l

/-- Land everything, by landing point (05 R110). -/
def Lane.landAll (l : Lane) : Lane :=
  (upto 0 (l.pending.foldl (fun m p => max m p.dist) 0 + 1)).foldl Lane.land l

/-- Count one position: results with this landing point are due after those that were due before, the others come one nearer (05 R107,
R108). -/
def Lane.countPos (l : Lane) : Lane :=
  { l with pending := l.pending.filter (fun p => p.dist == 0) ++
      (l.pending.filter fun p => p.dist == 1).map (fun p => { p with dist := 0 }) ++
      (l.pending.filter fun p => 1 < p.dist).map fun p => { p with dist := p.dist - 1 } }

/-- A due result writes one of the registers or predicates given. -/
def Pending.meets (p : Pending) (regs preds : List Nat) : Bool :=
  p.dist == 0 && (p.regs.any (fun r => regs.contains r.1) || p.preds.any fun r => preds.contains r.1)

/-- Results that stand behind every due one: due at once. -/
def Lane.owe (l : Lane) (x : Pending) : Lane :=
  { l with pending := l.pending.filter (fun p => p.dist == 0) ++ x :: l.pending.filter fun p => p.dist != 0 }

/-- Land the due results up to the last that writes a register or predicate given (05 R107). -/
def Lane.landFor (l : Lane) (regs preds : List Nat) : Lane :=
  let due := l.pending.filter fun p => p.dist == 0
  let n := ((upto 0 due.length).filter fun k => (due[k]?.map fun p => p.meets regs preds).getD false).foldl (fun _ k => k + 1) 0
  let l := { l with pending := due.drop n ++ l.pending.filter fun p => p.dist != 0 }
  (due.take n).foldl (fun l p => l.write p.regs p.preds) l

/-- Uniform results that are due, of the registers of a list of copies, have landed (05 R106). -/
def Warp.landU (w : Warp) (keys : List Nat) : Warp := { w with due := w.due.filter fun k => !keys.contains k }

/-- A uniform register of the warp at a level. -/
def Warp.rs (w : Warp) (l : Level) (n : Nat) : Word := fget 0 w.s (sKey l n)
def Warp.ws (w : Warp) (l : Level) (n : Nat) (x : Word) : Warp := { w with s := fset 0 w.s (sKey l n) x }

/-- A uniform predicate; `q7` reads true and ignores writes. -/
def Warp.rq (w : Warp) (n : Nat) : Bool := if n = 7 then true else fget false w.q n
def Warp.wq (w : Warp) (n : Nat) (x : Bool) : Warp := if n = 7 then w else { w with q := fset false w.q n x }

/-- A uniform pair of the warp. -/
def Warp.rs2 (w : Warp) (l : Level) (n : Nat) : DWord := pairOf (w.rs l n) (w.rs l (n + 1))
def Warp.ws2 (w : Warp) (l : Level) (n : Nat) (x : DWord) : Warp := (w.ws l n (lo32 x)).ws l (n + 1) (hi32 x)

/-- Lanes 0 to 63 in ascending order. -/
def lanes64 : List Nat := upto 0 64

/-- Lanes of a warp that hold a live thread. -/
def Warp.live (w : Warp) : List Nat := (fkeys w.lanes).filter fun i => (w.lane i).occ == .live

/-- Bit i of a lane mask (13 R239). -/
def maskHas (m : DWord) (i : Nat) : Bool := m.getLsbD i

/-- The mask of a list of lanes. -/
def maskOf (ls : List Nat) : DWord := ls.foldl (fun m i => m ||| (1 : DWord) <<< i) 0

/-- The priority that the kernel's map gives a PC at level U; the earlier entry governs (03 R45). -/
def Grid.prioAt (g : Grid) (pc : DWord) : Nat :=
  match g.pmap.find? fun e => e.base.toNat ≤ pc.toNat && pc.toNat < e.base.toNat + e.len with
  | some e => e.pri
  | none => g.khdr.dprio

/-- Move a lane's PC; at level U the map gives the priority afresh (03 R45). -/
def Lane.goto (l : Lane) (g : Grid) (pc : DWord) : Lane :=
  { l with pc := pc, prio := if l.level = .u then g.prioAt pc else l.prio }

/-! ### Machine-check records (23 R391) -/

/-- An empty record. -/
def McRec.zero : McRec :=
  { seq := 0, kind := 0, site := 0, cause := 0, attempt := 0, ctx := 0, gridh := 0, block := 0, detail := 0, addr := 0, epc := 0,
    val := 0, time := 0, check := none }

/-- Write one record, then `MCSEQ`, then the message under `MCCFG.EN`. -/
def State.logMc (s : State) (r : McRec) : State :=
  let seq := s.bar2.mcseq + 1
  let r := { r with seq := seq, time := s.nsclk }
  let s := { s with mclog := fput s.mclog ((seq.toNat + 62) % 63) (some r), bar2 := { s.bar2 with mcseq := seq } }
  if s.bar2.mccfg.getLsbD 11 then s.out (.msix (s.bar2.mccfg.toNat % 2048)) else s

/-! ### Physical memory (01 Table 1.2, 07 R154, 11 R205 to R218) -/

/-- What stands at a physical address. -/
inductive PaKind where
  | hbm | host | peer (p : Nat) | unbacked
  deriving DecidableEq, Repr

/-- Swihus carries traffic to a node: it is not fenced (01 R15). -/
def State.forwards (s : State) (site : Nat) : Bool := (s.site site).stat != .fenced

/-- The I/O die of a peer port: ports 0 to 7 on die 0, 8 to 15 on die 1 (log 67). -/
def portSite (p : Nat) : Nat := if p < 8 then 22 else 23

/-- The window of a peer port is backed at an offset (01 R36, R37). -/
def State.peerBacked (s : State) (p off : Nat) : Bool :=
  s.forwards (portSite p) && s.bar2.pwen.getLsbD p && (s.peer p).trained && !(s.peer p).disabled && fget 0 s.bar2.pwsize p ≤ 65536 &&
  off < fget 0 s.bar2.pwsize p * 2 ^ 30

/-- 01 Table 1.2; behind a fenced I/O die there is nothing (01 R15, log 67). -/
def State.paKind (s : State) (a : Nat) : PaKind :=
  if a < s.hbmTop then .hbm
  else if a < 0x8000000000000 then .unbacked
  else if a < 0xC000000000000 then (if s.forwards 22 then .host else .unbacked)
  else if a < 2 ^ 52 then
    let p := (a - 0xC000000000000) / 0x400000000000
    if s.peerBacked p ((a - 0xC000000000000) % 0x400000000000) then .peer p else .unbacked
  else .unbacked

/-- The key tag of a write now under a key id (11 R205, 23 R406). -/
def State.tagOf (s : State) (key : Nat) : Nat := key + 1024 * fget 0 s.keygen key

/-- The newest write to a byte: the count of the write, or of the image that covers it (19 R360). -/
def State.verAt (s : State) (a : Nat) : Nat :=
  s.saves.foldl (fun v x => if x.1 ≤ a && a < x.1 + x.2.1 && v < x.2.2 then x.2.2 else v) (fget 0 s.ver a)

def State.hline (s : State) (l : Nat) : HLine := fget HLine.absent s.bridge l

/-- A byte of host memory of which the bridge holds nothing: it stands with the host (11 R215). -/
def State.hostHolds (s : State) (a : Nat) : Bool :=
  0x8000000000000 ≤ a && a < 0xC000000000000 &&
  (if a % 128 < 64 then (s.hline (a / 128)).h0 else (s.hline (a / 128)).h1) == .i

/-- A byte as it stands in memory; what an image holds is the part's own. -/
def State.rawByte (s : State) (a : Nat) : Byte :=
  if fget 0 s.ver a < s.verAt a then Config.imageByte (s.verAt a) a
  else if s.hostHolds a then fget memDefault s.hostMem a
  else fget memDefault s.mem a

/-- A byte as an access under a key reads it: device memory written under another key returns unrelated bytes. -/
def State.byteAt (s : State) (key a : Nat) : Byte :=
  let b := s.rawByte a
  if a < 0x8000000000000 then
    let t := fget 0 s.ktag (a / 32)
    if t = s.tagOf key then b else Config.scramble (s.tagOf key) t a b
  else b

/-- n bytes from an address. -/
def State.bytesAt (s : State) (key a n : Nat) : List Byte := (upto a n).map (s.byteAt key)

/-- The channel of a line under an interleave: by its hash over its channels (01 R19). -/
def Lay.chan (g : Lay) (line : Nat) : Option Nat := g.chans[Config.channelOf g.gen line % g.chans.length]?

/-- The channel on which a line stands: below its old channel's watermark it follows the new placement (01 R21). -/
def Placing.chan (p : Placing) (line : Nat) : Option Nat :=
  match p.lay.chan line, p.re with
  | some c, some r => if line < fget 0 r.marks c then r.next.chan line else some c
  | c, _ => c

/-- A sector that stood on a channel when it was lost abruptly, not rewritten whole since, reads poisoned; a re-hash changes no
poison (01 R21, R23). -/
def State.lostSector (s : State) (sec : Nat) : Bool :=
  s.losses.any fun l => l.abrupt && l.placing.chan (sec / 4) == some l.ch && !fget false l.good sec

/-- Sector poison (07 R154); an unbacked sector reads poisoned (01 R26). -/
def State.sectorPoison (s : State) (sec : Nat) : Bool :=
  fget false s.poison sec || s.paKind (sec * 32) == .unbacked || (s.paKind (sec * 32) == .hbm && s.lostSector sec)

/-- Sectors (32 bytes) and lines (128 bytes) that hold any of n bytes from a. -/
def sectorsOf (a n : Nat) : List Nat := upto (a / 32) ((a + n - 1) / 32 + 1 - a / 32)
def linesOf (a n : Nat) : List Nat := upto (a / 128) ((a + n - 1) / 128 + 1 - a / 128)

/-- Any of n bytes from a lies in a poisoned sector. -/
def State.poisonAt (s : State) (a n : Nat) : Bool := (sectorsOf a n).any s.sectorPoison

/-- Sector poison as a die reads it: its own clean copy may be poisoned (23 R388). -/
def State.sectorPoisonFor (s : State) (site sec : Nat) : Bool := s.sectorPoison sec || fget false (s.site site).bad sec
def State.poisonFor (s : State) (site a n : Nat) : Bool := (sectorsOf a n).any (s.sectorPoisonFor site)

/-- A write to a copied line withers live and draining replicas and fails copies (21 R365, Table 21.2, Table 21.4). -/
def Slot.wither (x : Slot) (l : Nat) : Slot :=
  if x.foot.any fun f => f.1 / 128 ≤ l && l * 128 < f.1 + f.2 then
    match x.state with
    | .live => { x with state := .draining, rfr := true }
    | .draining => { x with rfr := true }
    | .copying => if x.fail = 0 then { x with fail := 4 } else x
    | .free => x
  else x

/-- A table after a write to a line: one publication for each replica that withers, none while the engine is down (21 R373). -/
def GTab.wither (t : GTab) (up : Bool) (l : Nat) : GTab :=
  t.experts.foldl (fun t e =>
    e.2.slots.foldl (fun t sl =>
      let x := Slot.wither sl.2 l
      if x = sl.2 then t
      else
        let t := t.setExpert e.1 ((t.expert e.1).setSlot sl.1 x)
        if up && sl.2.state == .live then { t with ver := t.ver + 1 } else t) t) t

/-- The engine works: its bit is set, which clears when I/O die 0 is fenced (01 R18, R40). -/
def State.graftUp (s : State) : Bool := s.rdymap.getLsbD 53

/-- Replicas of a written line (21 R365). -/
def State.witherLine (s : State) (l : Nat) : State :=
  { s with ctxs := s.ctxs.map fun c =>
      if c.2.tabs = [] then c else (c.1, { c.2 with tabs := c.2.tabs.map fun t => (t.1, GTab.wither t.2 s.graftUp l) }) }

/-- Bytes of a host half-line come into the package as the host holds them (11 R216). -/
def State.fillHalf (s : State) (a : Nat) : State :=
  { s with mem := (upto a 64).foldl (fun m i => fset memDefault m i (fget memDefault s.hostMem i)) s.mem }

/-- Bytes of a half-line go out to the host's memory as the package holds them (11 R217, R229). -/
def State.sendHalf (s : State) (a : Nat) : State :=
  { s with hostMem := (upto a 64).foldl (fun m i => fset memDefault m i (fget memDefault s.mem i)) s.hostMem }

/-- The halves of a line that the package holds modified go out to the host's memory. -/
def State.sendDirty (s : State) (l : Nat) : State :=
  let h := s.hline l
  let s := if h.h0 = .m then s.sendHalf (l * 128) else s
  if h.h1 = .m then s.sendHalf (l * 128 + 64) else s

/-- Bridge service of a read: each half in I is read shared (11 Table 11.4). -/
def State.bridgeRead (s : State) (l : Nat) : State :=
  let h := s.hline l
  let s := if h.h0 = .i then s.fillHalf (l * 128) else s
  let s := if h.h1 = .i then s.fillHalf (l * 128 + 64) else s
  let up (x : HSt) : HSt := if x = .i then .s else x
  { s with bridge := fput s.bridge l { h0 := up h.h0, h1 := up h.h1 } }

/-- Bridge service of a write: halves in I are read for ownership, halves in S upgraded (11 Table 11.4). -/
def State.bridgeOwn (s : State) (l : Nat) : State :=
  let h := s.hline l
  let s := if h.h0 = .i then s.fillHalf (l * 128) else s
  let s := if h.h1 = .i then s.fillHalf (l * 128 + 64) else s
  let up (x : HSt) : HSt := if x = .m then .m else .e
  { s with bridge := fput s.bridge l { h0 := up h.h0, h1 := up h.h1 } }

/-- A half that receives a dirty byte becomes M (11 Table 11.4); one of which the bridge holds nothing receives none. -/
def State.bridgeDirty (s : State) (a : Nat) : State :=
  let h := s.hline (a / 128)
  let up (x : HSt) : HSt := if x = .i then .i else .m
  let h := if a % 128 < 64 then { h with h0 := up h.h0 } else { h with h1 := up h.h1 }
  { s with bridge := fput s.bridge (a / 128) h }

/-- A stamped copy with the data and the view that its die obtains now (15 R294). -/
def Stamped.renewed (c : Stamped) (s : State) (site : Nat) : Stamped :=
  { c with
    bytes := s.bytesAt c.key (c.line * 128) 128
    poison := (upto (c.line * 4) 4).map s.sectorPoison
    stamp := fget 0 ((s.ctx c.asid).region c.slot).views site
    fill := s.wcount }

/-- The die obtains a line coherently: its stamped copy takes the current data and view (15 R294). -/
def State.renewStamped (s : State) (site l : Nat) : State :=
  if (s.site site).stamped.any fun c => c.line == l then
    s.setSite site { s.site site with
      stamped := (s.site site).stamped.map fun c => if c.line = l then c.renewed s site else c }
  else s

/-- Nodes beyond the sites: the host's halves of a line of device memory (11 R218), and the home itself. -/
def hostHalf (a : Nat) : Nat := 24 + a / 64 % 2
def home : Nat := 26

/-- The home records a die as a sharer of a line (23 R401); the home's own access shares nothing. -/
def State.addSharer (s : State) (site l : Nat) : State :=
  if site = home then s
  else
  let d := fget [] s.dir l
  let s := s.renewStamped site l
  if d.contains site then s else { s with dir := fput s.dir l (d ++ [site]) }

/-- A poisoned clean copy may have left the die's caches of itself; the line is then read from its home again (23 R388). -/
def State.refetch (s : State) (site l : Nat) : State :=
  if (upto (l * 4) 4).any fun x => fget false (s.site site).bad x then
    let s' := s.tickFree
    if Config.choice s.freeIx % 2 = 0 then s' else s'.setSite site { s.site site with bad := (upto (l * 4) 4).foldl fdel (s.site site).bad }
  else s

/-- The record of an access to an unbacked address (01 R26). -/
def State.logUnbacked (s : State) (site ctx a : Nat) : State :=
  s.logMc { McRec.zero with kind := 8, site := if site < 24 then site else 22, ctx := ctx, addr := a }

/-- A flit leaves towards a peer under the present selector and stands in the replay buffer; of the older ones, a free number have
been acknowledged (23 R402, R404). -/
def State.sendFlit (s : State) (p : Nat) : State :=
  let x := s.peer p
  s.tickFree.setPeer p { x with flits := x.flits.drop (Config.choice s.freeIx % (x.flits.length + 1)) ++ [x.sel] }

/-- Sectors after a write of n bytes from a: poison data poisons, clean data over a whole sector clears (07 R154). -/
def State.writePoison (s : State) (site ctx a n : Nat) (poison : Bool) : State :=
  (sectorsOf a n).foldl (fun s sec =>
    if poison then { s with poison := fset false s.poison sec true }
    else if a ≤ sec * 32 && sec * 32 + 32 ≤ a + n then
      { s with poison := fset false s.poison sec false
               losses := s.losses.map fun l => if l.abrupt then { l with good := fset false l.good sec true } else l }
    else if s.sectorPoisonFor site sec then
      ({ s with poison := if fget false (s.site site).bad sec then fset false s.poison sec true else s.poison }.logMc { McRec.zero with kind := 7, site := if site < 24 then site else 22, ctx := ctx, addr := sec * 32 })
    else s) s

/-- The data unit of a key is the sector: a write under another key leaves the sector's other bytes as that key reads them (11 R205,
23 R406). -/
def State.rekeySector (s : State) (t sec : Nat) : State :=
  let old := fget 0 s.ktag sec
  if sec * 32 < 0x8000000000000 && old != t then
    { s with
      ktag := fset 0 s.ktag sec t
      mem := (upto (sec * 32) 32).foldl (fun m a => fset memDefault m a (Config.scramble t old a (s.rawByte a))) s.mem
      ver := (upto (sec * 32) 32).foldl (fun v a => if fget 0 s.ver a < s.verAt a then fput v a (s.verAt a) else v) s.ver }
  else s

/-- Bytes enter memory under a key: one write of the coherence order (15 R273). -/
def State.putBytes (s : State) (key a : Nat) (bytes : List Byte) : State :=
  let s := (sectorsOf a bytes.length).foldl (fun s x => s.rekeySector (s.tagOf key) x) s
  let s := { s with
    wcount := s.wcount + 1
    undo := if bytes = [] then s.undo else { addr := a, count := s.wcount + 1, bytes := (upto a bytes.length).map s.rawByte } :: s.undo }
  (bytes.foldl (fun (p : Nat × State) b =>
    (p.1 + 1, { p.2 with mem := fset memDefault p.2.mem p.1 b, ver := fput p.2.ver p.1 s.wcount })) (a, s)).2

/-- The dirty data of a line leave the caches of the nodes that satisfy a test; each half of a host line that receives a dirty byte
becomes M (11 Table 11.4). -/
def State.writeBack (s : State) (l : Nat) (f : Nat → Bool) : State :=
  let held (sec : Nat) : Bool := s.sites.any fun x => f x.1 && fget false x.2.dirty sec
  let secs := (upto (l * 4) 4).filter held
  if secs = [] then s
  else
    let h := s.hline l
    let up (a b : Nat) (x : HSt) : HSt := if x != .i && (secs.contains a || secs.contains b) then .m else x
    { s with
      sites := s.sites.map fun x => if f x.1 then (x.1, { x.2 with dirty := (upto (l * 4) 4).foldl fdel x.2.dirty }) else x
      bridge := if s.paKind (l * 128) = .host then
          fput s.bridge l { h0 := up (l * 4) (l * 4 + 1) h.h0, h1 := up (l * 4 + 2) (l * 4 + 3) h.h1 } else s.bridge }

/-- A line of device memory that the die's caches hold modified under another key than an access's is written back first (11 R205). -/
def State.spill (s : State) (site key l : Nat) : State :=
  if (upto (l * 4) 4).any fun x => fget false (s.site site).dirty x && fget 0 s.ktag x != s.tagOf key then s.writeBack l (· == site) else s

/-- What a read of n bytes under a key does besides returning them: bridge requests, sharers, the record of an unbacked access (01
R26). -/
def State.touchRead (s : State) (site ctx key a n : Nat) : State :=
  match s.paKind a with
  | .host => (linesOf a n).foldl (fun s l => ((s.refetch site l).bridgeRead l).renewStamped site l) s
  | .unbacked => s.logUnbacked site ctx a
  | .hbm => (linesOf a n).foldl (fun s l => ((s.spill site key l).refetch site l).addSharer site l) s
  | .peer p => s.sendFlit p

/-- Poisoned clean copies of a line leave the caches of the nodes that satisfy a test. -/
def State.dropBad (s : State) (l : Nat) (f : Nat → Bool) : State :=
  { s with sites := s.sites.map fun x =>
      if x.2.bad = [] || !f x.1 then x else (x.1, { x.2 with bad := (upto (l * 4) 4).foldl fdel x.2.bad }) }

/-- Sectors that a die has written are modified in its caches, and its copies of them good; the host and the home (24 to 26) keep no
dirt. -/
def State.soil (s : State) (site a n : Nat) : State :=
  if site < 24 then
    s.setSite site { s.site site with
      dirty := (sectorsOf a n).foldl (fun d sec => fset false d sec true) (s.site site).dirty
      bad := (sectorsOf a n).foldl fdel (s.site site).bad }
  else s

/-- A node obtains ownership of a line, or the home or the host writes it: others' dirt is written back, their copies go, and before
a grant to an agent of the package the host is snooped for each half it holds (11 R218). -/
def State.ownLine (s : State) (site l : Nat) : State :=
  let old := fget [] s.dir l
  let mine := old.filter fun n => 24 ≤ n && n != site
  let host := site == 24 || site == 25
  let s := (s.writeBack l (· != site)).dropBad l (· != site)
  { s with
    dir := fset [] s.dir l ((if site = home then [] else [site]) ++ (if host then mine else []))
    outs := s.outs ++ (if host then [] else mine.map fun n => .backInvalidate l (n - 24)) }

/-- A write performed at the place of its line: host lines through the bridge, an unbacked address discards it (01 R26).
`site` is the node that writes. -/
def State.writeMem (s : State) (site ctx key a : Nat) (bytes : List Byte) (poison : Bool) : State :=
  if bytes = [] then s
  else match s.paKind a with
  | .unbacked => s.logUnbacked site ctx a
  | .host =>
      let ls := linesOf a bytes.length
      let s := ls.foldl (fun s l => ((s.bridgeOwn l).writeBack l (· != site)).dropBad l (· != site)) s
      let s := ((s.writePoison site ctx a bytes.length poison).putBytes key a bytes).soil site a bytes.length
      let s := ls.foldl (fun s l => (s.renewStamped site l).witherLine l) s
      if site < 24 then s else (s.bridgeDirty a).bridgeDirty (a + bytes.length - 1)
  | .hbm =>
      let s := (linesOf a bytes.length).foldl (fun s l => s.spill site key l) s
      let s := (s.writePoison site ctx a bytes.length poison).putBytes key a bytes
      let s := (linesOf a bytes.length).foldl (fun s l => ((s.ownLine site l).renewStamped site l).witherLine l) s
      s.soil site a bytes.length
  | .peer p =>
      let s := ((s.sendFlit p).writePoison site ctx a bytes.length poison).putBytes key a bytes
      (linesOf a bytes.length).foldl State.witherLine s

/-- Little-endian value of bytes. -/
def leNat : List Byte → Nat
  | [] => 0
  | b :: r => b.toNat + 256 * leNat r

/-- n little-endian bytes of a value. -/
def leBytes : Nat → Nat → List Byte
  | 0, _ => []
  | n + 1, v => BitVec.ofNat 8 v :: leBytes n (v / 256)

/-! ### Stores between issue and performance (15 R273 to R275, 23 R394) -/

/-- A replayable block that has not committed holds its stores (23 R394). -/
def State.holding (s : State) (b : Nat) : Bool := (s.gridOf b).replay && !(s.blk b).committed

/-- The lane has performed a write to bytes: it has seen it (19 R358). -/
def Lane.see (l : Lane) (a n v : Nat) : Lane := { l with seen := (upto a n).foldl (fun m i => fput m i v) l.seen }

/-- Perform one issued store of a block; its lanes have then performed it. -/
def State.performStore (s : State) (b : Nat) (p : PStore) : State :=
  let s := s.writeMem (s.blk b).site (s.gridOf b).asid p.key p.addr p.bytes p.poison
  p.lanes.foldl (fun s i => s.setLane b p.warp i ((s.lane b p.warp i).see p.addr p.bytes.length s.wcount)) s

/-- A lane has a store in its program order. -/
def PStore.byLane (p : PStore) (w i : Nat) : Bool := p.warp == w && p.lanes.contains i

/-- A store that comes before another in the order of a common byte: one execution's lanes in ascending order (11 R209), one
thread's stores in program order (15 R273). -/
def PStore.before (p q : PStore) : Bool :=
  (p.exec == q.exec || (p.warp == q.warp && p.lanes.any q.lanes.contains)) && p.addr < q.addr + q.bytes.length && q.addr < p.addr + p.bytes.length

/-- Split pending stores into those to perform, each with what comes before it, and the rest. -/
def splitPend (f : PStore → Bool) : List PStore → List PStore × List PStore
  | [] => ([], [])
  | p :: r =>
      let x := splitPend f r
      if f p || x.1.any p.before then (p :: x.1, x.2) else (x.1, p :: x.2)

/-- Perform, in issue order, the pending stores of a block that satisfy a test, and what must come before them. -/
def State.drainIf (s : State) (b : Nat) (f : PStore → Bool) : State :=
  let r := splitPend f (s.blk b).pend
  let s := s.modBlk b fun k => { k with pend := r.2 }
  r.1.foldl (fun s p => s.performStore b p) s

/-- A lane's own stores become visible: release, fence, trap entry and return (15 R280, R286). -/
def State.drainLane (s : State) (b w i : Nat) : State := s.drainIf b fun p => p.byLane w i

/-- Every store of a block becomes visible (15 R287). -/
def State.drainBlock (s : State) (b : Nat) : State := s.drainIf b fun _ => true

/-- Commit a replayable block: its held stores are performed in issue order (23 R395). -/
def State.commit (s : State) (b : Nat) : State :=
  if s.holding b then
    let ps := (s.blk b).hold
    let s := s.modBlk b fun k => { k with hold := [], committed := true }
    ps.foldl (fun s p => s.performStore b p) s
  else s

/-- A release at a scope: the lane's stores are performed first; at die scope or wider it commits (15 R280, 23 R395). -/
def State.releaseLane (s : State) (b w i : Nat) (sc : Scope) : State :=
  let s := if sc.isWide then s.commit b else s
  s.drainLane b w i

/-! ### Writes to a scratchpad (07 R154, 11 R212) -/

/-- Write bytes into a scratchpad, with sector poison (07 R154). -/
def Block.putScratch (k : Block) (off : Nat) (bytes : List Byte) (poison : Bool) : Block :=
  let scratch := (bytes.foldl (fun (p : Nat × FMap Byte) x => (p.1 + 1, fset 0 p.2 p.1 x)) (off, k.scratch)).2
  let whole (sec : Nat) : Bool := off ≤ sec * 32 && sec * 32 + 32 ≤ off + bytes.length
  let sp := (sectorsOf off bytes.length).foldl (fun m sec =>
    if poison then fset false m sec true else if whole sec then fset false m sec false else m) k.spoison
  { k with
    scratch := scratch, spoison := if bytes = [] then k.spoison else sp
    marred := if bytes = [] || poison then k.marred
      else k.marred ++ (sectorsOf off bytes.length).filter fun sec => !whole sec && fget false k.spoison sec }

/-- The records of clean stores over parts of poisoned sectors of scratchpad; `ADDR` is the sector's offset (23 R390, log 62). -/
def State.logMarred (s : State) (m : Nat) : State :=
  if (s.blk m).marred = [] then s
  else
    let s1 := (s.blk m).marred.foldl (fun s sec =>
      s.logMc { McRec.zero with kind := 7, site := (s.blk m).site, ctx := s.asidOf m, addr := sec * 32 }) s
    s1.modBlk m fun k => { k with marred := [] }

/-- A change of a block's scratchpad. -/
def State.modScr (s : State) (m : Nat) (f : Block → Block) : State := (s.modBlk m f).logMarred m

/-- Apply the held stores of a line that no command accepted before them has still to write; the line becomes present when no command
and no store is left (11 R212). -/
def Block.settleLine (k : Block) (line : Nat) : Block :=
  let isCmd (op : LineOp) : Bool := match op with | .cmd _ _ => true | _ => false
  let r := (fget [] k.lines line).foldl (fun (acc : List LineOp × Block) op =>
    match op with
    | .store _ _ _ off bytes poison => if acc.1.any isCmd then (acc.1 ++ [op], acc.2) else (acc.1, acc.2.putScratch off bytes poison)
    | op => (acc.1 ++ [op], acc.2)) ([], k)
  { r.2 with lines := fset [] r.2.lines line r.1 }

/-- What a block had begun to deliver goes: it stands in no line's order any more (11 R235). -/
def State.dropBegun (s : State) (b : Nat) : State :=
  let mine (op : LineOp) : Bool := match op with | .cmd x _ => x == b | _ => false
  ((fkeys s.blocks).filter fun m => m != b && (s.blk m).grid == (s.blk b).grid).foldl (fun s m =>
    let ls := (s.blk m).lines.filter fun e => e.2.any mine
    if ls = [] then s
    else s.modScr m fun k => ls.foldl (fun k e =>
      ({ k with lines := fset [] k.lines e.1 ((fget [] k.lines e.1).filter fun op => !mine op) } : Block).settleLine e.1) k) s

/-! ### Failure and containment (03 R63, 23 R391 to R393) -/

/-- The root of a grid's tree; nest depth is at most 9 (03 R60). -/
def State.rootOf (s : State) : Nat → Nat → Nat
  | 0, g => g
  | n + 1, g => match (s.grid g).parent with
    | some p => State.rootOf s n p
    | none => g

/-- A command to global memory. -/
def Cmd.drains (c : Cmd) : Bool := c.kind == .out || c.kind == .red

/-- A block's stop at the failure of its grid: its stores are performed; it stays on its core until its commands to global memory have
drained (03 R61, R63). -/
def State.stopBlock (s : State) (b : Nat) : State :=
  let s := (s.commit b).drainBlock b
  let s := s.modBlk b fun k => { k with phase := if k.phase == .resident && k.cmds.any Cmd.drains then .failing else .failed
                                        pend := [], hold := [], cancelled := [], hops := []
                                        tiller := { k.tiller with run := false, wait := none, flight := [], loading := none } }
  if (s.blk b).phase == .failed then s.dropBegun b else s

/-- Release the reference that a replica-affine grid holds (21 R375); the engine settles the slot. -/
def State.dropAffine (s : State) (g : Nat) : State :=
  match (s.grid g).affine with
  | some (t, e, sl) =>
      let c := s.ctx (s.grid g).asid
      let tab := c.tab t
      let x := tab.expert e
      let slot := x.slot sl
      let slot := { slot with ref := slot.ref - 1 }
      let s := s.setCtx (s.grid g).asid (c.setTab t (tab.setExpert e (x.setSlot sl slot)))
      s.setGrid g { s.grid g with affine := none }
  | none => s

/-- Records that grids of a failed tree have queued go with them (03 R63). -/
def Ctx.dropQueued (c : Ctx) (tree : List Nat) : Ctx :=
  let keep (r : LaunchRec) : Bool := match r.parent with
    | some p => !tree.contains p
    | none => true
  { c with devq := c.devq.map fun q => (q.1, List.filter keep q.2) }

/-- A grid fails: with it its whole tree, and every block of that tree stops (03 R63). -/
def State.failGrid (s : State) (g : Nat) : State :=
  let root := s.rootOf 10 g
  let tree := (fkeys s.grids).filter fun x => (s.grid x).phase == .live && s.rootOf 10 x == root
  if tree = [] then s
  else
    let s := tree.foldl (fun s x => (s.setGrid x { s.grid x with phase := .failed }).dropAffine x) s
    let s := ((fkeys s.blocks).filter fun b => tree.contains (s.blk b).grid &&
      ((s.blk b).phase == .resident || (s.blk b).phase == .preempted || (s.blk b).phase == .relaunch)).foldl State.stopBlock s
    let s := { s with ctxs := s.ctxs.map fun (c : Nat × Ctx) => (c.1, c.2.dropQueued tree) }
    let n := (tree.map fun x => (s.grid x).fails).foldl (· + ·) 0
    s.logMc { McRec.zero with kind := 3, ctx := (s.grid root).asid, gridh := (s.grid root).handle, detail := n }

/-- The record of a block: site, attempts, context, grid and index (23 Table 23.2). -/
def State.blockRec (s : State) (b kind cause : Nat) (epc val : DWord) (addr : Nat) : McRec :=
  let k := s.blk b
  let g := s.grid k.grid
  { McRec.zero with kind := kind, site := k.site, cause := cause, attempt := k.attempts, ctx := g.asid, gridh := g.handle,
                    block := k.lin, epc := epc, val := val, addr := addr }

/-- A kind-2 record of a block is written and counted (23 R391). -/
def State.noteRec (s : State) (b : Nat) (r : McRec) : State :=
  let g := (s.blk b).grid
  let s := s.logMc r
  s.setGrid g { s.grid g with fails := (s.grid g).fails + 1 }

/-- The kind-2 record of a block that fails for a cause of its own (23 R391). -/
def State.noteFail (s : State) (b cause : Nat) (epc val : DWord) (addr : Nat) : State :=
  s.noteRec b (s.blockRec b 2 cause epc val addr)

/-- A block fails for a cause of its own: one kind-2 record, then its grid fails (23 R391). -/
def State.failBlock (s : State) (b cause : Nat) (epc val : DWord) (addr : Nat) : State :=
  (s.noteFail b cause epc val addr).failGrid (s.blk b).grid

/-- A machine check: the block fails, and its report names the lane; the cause and the value that it names are those first raised (19
R345, log 53). -/
def State.failCheck (s : State) (b w lane cause : Nat) (epc val : DWord) : State :=
  (s.noteRec b { s.blockRec b 2 cause epc val 0 with check := some (w, lane) }).failGrid (s.blk b).grid

/-- Deliveries into a block that begin afresh: they wait again (11 R235, 19 R362). -/
def State.resetDeliv (s : State) (b : Nat) : State :=
  let k := s.blk b
  let n := (s.grid k.grid).gsize
  { s with blocks := s.blocks.map fun x =>
      if x.2.grid = k.grid && x.2.lin / n = k.lin / n then
        let again (c : Cmd) : Cmd :=
          if fget Deliv.waiting c.deliv (k.lin % n) = Deliv.begun then { c with deliv := fput c.deliv (k.lin % n) .waiting } else c
        (x.1, { x.2 with cmds := x.2.cmds.map again })
      else x }

/-- A contained block may be relaunched: it is replayable, uncommitted, and has fewer than 3 relaunches (23 R393). -/
def State.mayRelaunch (s : State) (b : Nat) : Bool := s.holding b && (s.blk b).attempts < 3

/-- Discard a contained block's state and held stores; it awaits its relaunch (23 R393). -/
def State.relaunch (s : State) (b cause : Nat) (epc val : DWord) (addr : Nat) : State :=
  let k := s.blk b
  ((s.logMc (s.blockRec b 4 cause epc val addr)).resetDeliv b).setBlk b
    { Block.absent with
      grid := k.grid, lin := k.lin, phase := .relaunch, site := k.site, core := k.core, attempts := k.attempts + 1
      nwarps := k.nwarps }

/-- Containment (23 R393): an uncommitted replayable block is relaunched at most 3 times, any other fails. -/
def State.contain (s : State) (b cause : Nat) (epc val : DWord) (addr : Nat) : State :=
  if s.mayRelaunch b then s.relaunch b cause epc val addr else s.failBlock b cause epc val addr

/-- Blocks contained together: the records of all of them come before any grid fails (23 R391). -/
def State.containAll (s : State) (bs : List Nat) (cause : Nat) : State :=
  let lost := bs.filter fun b => !s.mayRelaunch b
  let gs := (lost.map fun b => (s.blk b).grid).eraseDups
  let s1 := bs.foldl (fun s b => if s.mayRelaunch b then s.relaunch b cause 0 0 0 else s.noteFail b cause 0 0 0) s
  gs.foldl State.failGrid s1

/-! ### Taking an exception (19 R342 to R347) -/

/-- A cause raised by one lane, with what its frame receives. -/
structure Raise where
  lane : Nat
  cause : Nat
  val : DWord
  epc : DWord
  pi : Nat
  /-- The execution or event: traps of one are one cohort (19 R342). -/
  exec : Nat
  deriving DecidableEq, Repr

/-- The number of an entry's execution in this step, of the completion of a meet by its lowest lane, of a mismatch (19 R342). -/
def State.execEntry (s : State) : Nat := s.steps * 256
def State.execMeet (s : State) (i : Nat) : Nat := s.steps * 256 + 1 + i
def State.execMismatch (s : State) (n : Nat) : Nat := s.steps * 256 + 65 + n % 190

/-- The wider of two levels. -/
def Level.max (a b : Level) : Level := if a.num < b.num then b else a

/-- The target level of a cause raised at a level (19 R343). -/
def trapTarget (deleg : DWord) (cause : Nat) (l : Level) : Level := (if deleg.getLsbD cause then Level.h else .s).max l

/-- The frame of a level; U has none and reads the S frame. -/
def Lane.frame (l : Lane) : Level → Frame
  | .h => l.frameH
  | _ => l.frameS

def Lane.setFrame (l : Lane) (lv : Level) (f : Frame) : Lane :=
  match lv with
  | .h => { l with frameH := f }
  | _ => { l with frameS := f }

/-- A frame that cannot be entered: live, or the nest counter full (19 R345). -/
def Lane.frameFull (l : Lane) (t : Level) : Bool := (l.frame t).nest || l.ncnt == 255

/-- Where a cause goes after escalation (19 R345, R347): cause, value, level; none is a machine check. -/
def Lane.route (l : Lane) (deleg : DWord) (cause : Nat) (val : DWord) : Option (Nat × DWord × Level) :=
  let t := trapTarget deleg cause l.level
  let r : Option (Nat × DWord × Level) :=
    if l.frameFull t then
      if t = .h || l.frameFull .h then none else some (0x12, BitVec.ofNat 64 cause, .h)
    else some (cause, val, t)
  r.bind fun x => if (l.frame x.2.2).vec = 0 then none else some x

/-- `XVEC` of a frame: the vector table is 4 KiB aligned (19 Table 19.1). -/
def Frame.vecAddr (f : Frame) : DWord := f.vec ++ (0 : BitVec 12)

/-- A lane's entry into level t (19 R345); pending results have landed (05 R110). -/
def Lane.enter (l : Lane) (cause : Nat) (val epc : DWord) (pi : Nat) (t : Level) (cohort : DWord) : Lane :=
  let l := l.landAll
  let f := l.frame t
  let f' := { f with nest := true, epc := epc, cause := BitVec.ofNat 6 cause, val := val, pi := BitVec.ofNat 32 pi,
                     plvl := BitVec.ofNat 2 l.level.num, ppri := BitVec.ofNat 8 l.prio, tlanes := cohort }
  { l.setFrame t f' with ncnt := l.ncnt + 1, level := t, prio := 255, pc := f.vecAddr + BitVec.ofNat 64 (64 * cause), prog := 0,
                         park := .none, held := none }

/-- One lane of a cohort enters level t: its stores are performed, then it takes the trap where its frame lets it. -/
def State.enterOne (b w : Nat) (deleg : DWord) (t : Level) (m : DWord) (s : State) (r : Raise) : State :=
  let s := s.drainLane b w r.lane
  let l := s.lane b w r.lane
  match l.route deleg r.cause r.val with
  | some x => s.setLane b w r.lane (l.enter x.1 x.2.1 r.epc r.pi t m)
  | none => s

/-- Lanes of a cohort enter level t; the warp's bank of that level receives their mask in `s56:s57`. -/
def State.enterInto (s : State) (b w : Nat) (deleg : DWord) (t : Level) (rs : List Raise) : State :=
  let m := maskOf (rs.map (·.lane))
  let s := rs.foldl (State.enterOne b w deleg t m) s
  s.setWarp b w ((s.warp b w).ws2 t 56 m)

/-- The raises of a cohort that end at level t after escalation. -/
def State.routedTo (s : State) (b w : Nat) (deleg : DWord) (rs : List Raise) (t : Level) : List Raise :=
  rs.filter fun r => match (s.lane b w r.lane).route deleg r.cause r.val with
    | some x => x.2.2 == t
    | none => false

/-- One cohort enters (19 R342, R345): lanes that cannot take their trap end the block in a machine check, reported for the first of
them (log 53). -/
def State.enterCohort (s : State) (b w : Nat) (rs : List Raise) : State :=
  let deleg := (s.ctxOf b).xdeleg
  match rs.find? fun r => ((s.lane b w r.lane).route deleg r.cause r.val).isNone with
  | some r => s.failCheck b w r.lane r.cause r.epc r.val
  | none =>
      let at_ (t : Level) := s.routedTo b w deleg rs t
      let s1 := if at_ .s = [] then s else s.enterInto b w deleg .s (at_ .s)
      if at_ .h = [] then s1 else s1.enterInto b w deleg .h (at_ .h)

/-- Level t of a warp is occupied while a lane stands at it (19 R344). -/
def State.occupied (s : State) (b w : Nat) (t : Level) : Bool :=
  (s.warp b w).live.any fun i => (s.lane b w i).level == t

/-- Frontier order of the entries in which two lanes trapped, then the cause (03 R50, 05 R116, 19 R344). -/
def State.raiseBefore (s : State) (b w : Nat) (x y : Raise) : Bool :=
  let a := s.lane b w x.lane
  let c := s.lane b w y.lane
  if a.prio != c.prio then c.prio < a.prio
  else if a.pc != c.pc then a.pc.toNat < c.pc.toNat
  else if a.level != c.level then c.level.num < a.level.num
  else if a.prog != c.prog then a.prog < c.prog
  else if x.cause != y.cause then x.cause < y.cause
  else x.epc.toNat < y.epc.toNat

/-- The raises of the first cohort among raises towards one level, and the rest. -/
def State.firstCohort (s : State) (b w : Nat) : List Raise → List Raise × List Raise
  | [] => ([], [])
  | r :: rs =>
      let deleg := (s.ctxOf b).xdeleg
      let m := rs.foldl (fun m x => if s.raiseBefore b w x m then x else m) r
      let l := s.lane b w m.lane
      let same (x : Raise) := x.exec == m.exec && x.cause == m.cause && x.epc == m.epc &&
        trapTarget deleg x.cause (s.lane b w x.lane).level == trapTarget deleg m.cause l.level
      ((r :: rs).filter same, (r :: rs).filter fun x => !same x)

/-- Hold a trap (19 R344): the lane stays at its instruction with cause, value and `XEPC` recorded. -/
def State.hold (s : State) (b w : Nat) (r : Raise) : State :=
  s.setLane b w r.lane { s.lane b w r.lane with held := some { cause := r.cause, val := r.val, epc := r.epc, pi := r.pi, exec := r.exec },
                                                park := .none }

/-- A lane has a held scratchpad store that is not applied: the `fence.full` of a trap's entry or return waits for it (15 R286,
R288). -/
def State.heldScratch (s : State) (b w i : Nat) : Bool :=
  (fkeys s.blocks).any fun m => (s.blk m).lines.any fun e => e.2.any fun op => match op with
    | .store x y z _ _ _ => x == b && y == w && z == i
    | _ => false

/-- Raises whose execution has a lane whose fence still waits. -/
def State.fenceWaits (s : State) (b w : Nat) (rs : List Raise) (r : Raise) : Bool :=
  rs.any fun x => x.exec == r.exec && s.heldScratch b w x.lane

/-- Held traps towards a level. -/
def State.heldTo (s : State) (b w : Nat) (t : Level) : List Raise :=
  (s.warp b w).live.filterMap fun i =>
    let l := s.lane b w i
    match l.held with
    | some h => if trapTarget (s.ctxOf b).xdeleg h.cause l.level = t then
        some { lane := i, cause := h.cause, val := h.val, epc := h.epc, pi := h.pi, exec := h.exec : Raise } else none
    | none => none

/-- Held traps enter, one cohort at a time, when no fence of theirs waits and their level is not occupied by other lanes; one of
lanes that stand at that level waits for its fence alone (19 R344, R347). -/
def State.settleHeldAt (s : State) (b w : Nat) (t : Level) : Nat → State
  | 0 => s
  | n + 1 =>
      let rs := s.heldTo b w t
      let rs := rs.filter fun r => !s.fenceWaits b w rs r && (!s.occupied b w t || (s.lane b w r.lane).level == t)
      if rs = [] then s
      else State.settleHeldAt (s.enterCohort b w (s.firstCohort b w rs).1) b w t n

def State.settleHeld (s : State) (b w : Nat) : State :=
  let s := s.settleHeldAt b w .s 65
  s.settleHeldAt b w .h 65

/-- Distinct cohorts of raises of lanes that stand at the target level already (19 R347). -/
def State.enterAll (s : State) (b w : Nat) : Nat → List Raise → State
  | 0, _ => s
  | _, [] => s
  | n + 1, r :: rs =>
      let c := s.firstCohort b w (r :: rs)
      State.enterAll (s.enterCohort b w c.1) b w n c.2

/-- Raise causes in lanes of a warp in one step (19 R342 to R345). -/
def State.raiseAll (s : State) (b w : Nat) (rs : List Raise) : State :=
  if rs = [] then s
  else
    let deleg := (s.ctxOf b).xdeleg
    let tgt (s : State) (r : Raise) := trapTarget deleg r.cause (s.lane b w r.lane).level
    let s0 := s
    let late (r : Raise) : Bool := s0.fenceWaits b w rs r
    let s := (rs.filter late).foldl (fun s r => s.hold b w r) s
    let rs := rs.filter fun r => !late r
    let s := s.enterAll b w 64 (rs.filter fun r => tgt s0 r == (s0.lane b w r.lane).level)
    let s := [Level.s, Level.h].foldl (fun s t =>
      let below := rs.filter fun r => tgt s0 r == t && (s0.lane b w r.lane).level != t
      if below = [] then s
      else if s.occupied b w t then below.foldl (fun s r => s.hold b w r) s
      else
        let c := s.firstCohort b w below
        c.2.foldl (fun s r => s.hold b w r) (s.enterCohort b w c.1)) s
    s.settleHeld b w

/-! ### Returning from an exception (19 R348) -/

/-- A lane's return from the frame of its level L; the caller has checked `PLVL`. `NCNT` goes one down; below 0 it is free
(log 13). -/
def Lane.leave (l : Lane) (lv : Level) (dst : Level) (free : Nat) : Lane :=
  let l := l.landAll
  let f := l.frame lv
  { l.setFrame lv { f with nest := false } with
    prog := f.pi.toNat, ncnt := if l.ncnt = 0 then free % 256 else l.ncnt - 1, level := dst, prio := f.ppri.toNat, pc := f.epc }

/-- `sret` and `hret` of one lane at level lv. -/
def State.trapReturn (s : State) (b w i : Nat) (lv dst : Level) : State :=
  let s := s.drainLane b w i
  let wp := s.warp b w
  let wp := wp.ws2 lv 56 (wp.rs2 lv 56 &&& ~~~((1 : DWord) <<< i))
  let s := s.setWarp b w wp
  s.tickFree.setLane b w i ((s.lane b w i).leave lv dst (Config.choice s.freeIx))

end Sys2Proof.Machine
end

