-- ==== Sys2Proof/Machine/Num.lean ====
section
/-! DEFINITION. Number formats and exact arithmetic with one rounding (07 R136 to R150, 09 R179). A finite value is a sign, a
natural magnitude and a power of two; flags are the bits NV = 1, OF = 2, NX = 4 (07 Table 7.11). -/

namespace Sys2Proof.Machine

open Sys2Proof

/-- A value read from a format: NaN, an infinity, or (−1)^neg × m × 2^e with signed zeros (07 R137). -/
inductive FVal where
  | nan
  | inf (neg : Bool)
  | num (neg : Bool) (m : Nat) (e : Int)
  deriving DecidableEq, Repr

/-- A format (07 Table 7.2): width, mantissa bits, bias, code of `MAX`, infinities, canonical NaN (07 Table 7.4). -/
structure Fmt where
  width : Nat
  mb : Nat
  bias : Int
  maxCode : Nat
  hasInf : Bool
  nan : Option Nat
  deriving DecidableEq, Repr

def fp32 : Fmt := { width := 32, mb := 23, bias := 127, maxCode := 0x7F7FFFFF, hasInf := true, nan := some 0x7FC00000 }
def fp16 : Fmt := { width := 16, mb := 10, bias := 15, maxCode := 0x7BFF, hasInf := true, nan := some 0x7E00 }
def fbf16 : Fmt := { width := 16, mb := 7, bias := 127, maxCode := 0x7F7F, hasInf := true, nan := some 0x7FC0 }
def fe5m2 : Fmt := { width := 8, mb := 2, bias := 15, maxCode := 0x7B, hasInf := true, nan := some 0x7E }
def fe4m3 : Fmt := { width := 8, mb := 3, bias := 7, maxCode := 0x7E, hasInf := false, nan := some 0x7F }
def fe3m2 : Fmt := { width := 6, mb := 2, bias := 3, maxCode := 0x1F, hasInf := false, nan := none }
def fe2m3 : Fmt := { width := 6, mb := 3, bias := 1, maxCode := 0x1F, hasInf := false, nan := none }
def fe2m1 : Fmt := { width := 4, mb := 1, bias := 1, maxCode := 0x7, hasInf := false, nan := none }

/-- `fmt.EMIN` (07 R137). -/
def Fmt.emin (f : Fmt) : Int := 1 - f.bias

/-- The sign bit of a code. -/
def Fmt.signBit (f : Fmt) (neg : Bool) : Nat := if neg then 2 ^ (f.width - 1) else 0

/-- The code of an infinity. -/
def Fmt.infCode (f : Fmt) (neg : Bool) : Nat := f.signBit neg + (f.maxCode + 1)

/-- The canonical NaN of a format that has one; `MAX` stands in for the formats without (07 R149 handles those). -/
def Fmt.nanCode (f : Fmt) : Nat := f.nan.getD f.maxCode

/-- `fv(x, fmt)` (09 Table 9.1, 07 R137); bits above the width are ignored. -/
def Fmt.decode (f : Fmt) (code : Nat) : FVal :=
  let neg := code / 2 ^ (f.width - 1) % 2 == 1
  let mag := code % 2 ^ (f.width - 1)
  let e := mag / 2 ^ f.mb
  let m := mag % 2 ^ f.mb
  if f.hasInf && e == 2 ^ (f.width - 1 - f.mb) - 1 then (if m = 0 then .inf neg else .nan)
  else if f.width == 8 && !f.hasInf && mag == 0x7F then .nan
  else if e = 0 then .num neg m (f.emin - f.mb)
  else .num neg (2 ^ f.mb + m) (f.emin - f.mb + (e - 1 : Nat))

/-- The sign of a value. -/
def FVal.neg : FVal → Bool
  | .nan => false
  | .inf n => n
  | .num n _ _ => n

/-- NaN or a zero. -/
def FVal.isNan (v : FVal) : Bool := v == .nan
def FVal.isZero : FVal → Bool
  | .num _ 0 _ => true
  | _ => false

/-- Negation of a value. -/
def FVal.negate : FVal → FVal
  | .nan => .nan
  | .inf n => .inf (!n)
  | .num n m e => .num (!n) m e

/-- A subnormal replaced by the zero of its sign (07 R147). -/
def FVal.flush (f : Fmt) : FVal → FVal
  | .num n m e => if m < 2 ^ f.mb then .num n 0 e else .num n m e
  | v => v

/-- A code and the flags its rounding set. -/
abbrev Rounded := Nat × Nat

/-- `overflow(fmt, s, mode)` (07 R144, Table 7.6). -/
def Fmt.overflow (f : Fmt) (neg : Bool) (r : Rnd) (sat : Bool) : Nat :=
  let max := f.signBit neg + f.maxCode
  let big := if f.hasInf then f.infCode neg else match f.nan with
    | some c => c
    | none => max
  if sat then max
  else match r with
    | .rn | .rs => big
    | .rz => max
    | .ru => if neg then max else big
    | .rd => if neg then big else max

/-- The integer steps of `round_to` (07 R143): floor of m × 2^e in units of 2^q, rounded under the mode. The flag says that the
value was not a multiple of the unit. -/
def roundUnits (neg : Bool) (m : Nat) (e q : Int) (r : Rnd) (draw : Word) : Nat × Bool :=
  if q ≤ e then (m * 2 ^ (e - q).toNat, false)
  else
    let u := 2 ^ (q - e).toNat
    let lo := m / u
    let rem := m % u
    let up := match r with
      | .rn => u < 2 * rem || (2 * rem == u && lo % 2 == 1)
      | .rz => false
      | .ru => !neg && rem != 0
      | .rd => neg && rem != 0
      | .rs => u * 65536 ≤ rem * 65536 + draw.toNat / 65536 * u
    (if up then lo + 1 else lo, rem != 0)

/-- `round_to(fmt, x, mode)` for x = (−1)^neg × m × 2^e with m ≠ 0 (07 R143); a zero keeps its sign. -/
def Fmt.roundTo (f : Fmt) (neg : Bool) (m : Nat) (e : Int) (r : Rnd) (draw : Word) (sat flush : Bool) : Rounded :=
  if m = 0 then (f.signBit neg, 0)
  else
    let top := e + (Nat.log2 m : Nat)
    let ex := if top < f.emin then f.emin else top
    let (lo, inexact) := roundUnits neg m e (ex - f.mb) r draw
    let code := (ex - f.emin).toNat * 2 ^ f.mb + lo
    if f.maxCode < code then (f.overflow neg r sat, 6)
    else if flush && code < 2 ^ f.mb then (f.signBit neg, 4)
    else (f.signBit neg + code, if inexact then 4 else 0)

/-- `rne` into FP32 of a value that is not NaN nor an infinity. -/
def rne (neg : Bool) (m : Nat) (e : Int) : Rounded := fp32.roundTo neg m e .rn 0 false false

/-- A product of two values; none for ∞ × 0. -/
def FVal.mul : FVal → FVal → Option FVal
  | .nan, _ | _, .nan => some .nan
  | .inf a, .inf b => some (.inf (a != b))
  | .inf a, .num b m _ | .num b m _, .inf a => if m = 0 then none else some (.inf (a != b))
  | .num a m e, .num b n k => some (.num (a != b) (m * n) (e + k))

/-- The least exponent of finite terms. -/
def minExp : List FVal → Int → Int
  | [], x => x
  | .num _ _ e :: r, x => minExp r (if e < x then e else x)
  | _ :: r, x => minExp r x

/-- A finite value as an integer in units of 2^q, q at most its exponent. -/
def FVal.units (q : Int) : FVal → Int
  | .num n m e => if n then -((m * 2 ^ (e - q).toNat : Nat) : Int) else ((m * 2 ^ (e - q).toNat : Nat) : Int)
  | _ => 0

/-- The exact sum of finite terms as a value with the zero sign of 07 R140. -/
def sumTerms (ts : List FVal) (r : Rnd) : FVal :=
  let q := minExp ts 0
  let t := (ts.map (FVal.units q)).foldl (· + ·) 0
  if t = 0 then
    let allNeg := ts.all fun v => v.isZero && v.neg
    let allPos := ts.all fun v => v.isZero && !v.neg
    .num (allNeg || (!allPos && r == .rd)) 0 0
  else .num (t < 0) t.natAbs q

/-- `fdot` (09 R179): exact sum of products and an addend, special cases in its order, one rounding. -/
def fdot (f : Fmt) (ps : List (FVal × FVal)) (z : Option FVal) (r : Rnd) (flush : Bool) : Rounded :=
  if ps.any fun p => p.1.isNan || p.2.isNan then (f.nanCode, 0)
  else
    let prods := ps.map fun p => p.1.mul p.2
    if prods.any Option.isNone then (f.nanCode, 1)
    else if z == some .nan then (f.nanCode, 0)
    else
      let ts := prods.filterMap id ++ z.toList
      let pinf := ts.any fun v => v == .inf false
      let ninf := ts.any fun v => v == .inf true
      if pinf && ninf then (f.nanCode, 1)
      else if pinf then (f.infCode false, 0)
      else if ninf then (f.infCode true, 0)
      else match sumTerms ts r with
        | .num n m e => f.roundTo n m e r 0 false flush
        | _ => (f.nanCode, 0)

/-- The value 1, and −1. -/
def fone : FVal := .num false 1 0
def fmone : FVal := .num true 1 0

/-- Order of values that are not NaN, −0 equal to +0. -/
def FVal.lt (a b : FVal) : Bool :=
  match a, b with
  | .inf x, .inf y => x && !y
  | .inf x, _ => x
  | _, .inf y => !y
  | .num _ _ e, .num _ _ k => let q := if e < k then e else k; a.units q < b.units q
  | _, _ => false

end Sys2Proof.Machine

namespace Sys2Proof

open Sys2Proof.Machine

/-- 09 Table 9.6. -/
def FCond.holds (c : FCond) (a b : FVal) : Bool :=
  if a.isNan || b.isNan then c == .ne || c == .nan
  else match c with
    | .eq => !a.lt b && !b.lt a
    | .ne => a.lt b || b.lt a
    | .lt => a.lt b
    | .le => !b.lt a
    | .gt => b.lt a
    | .ge => !a.lt b
    | .num => true
    | .nan => false

end Sys2Proof

namespace Sys2Proof.Machine

open Sys2Proof

/-- `fmin` and `fmax` on codes (09 R182): −0 orders below +0, a NaN operand gives the canonical NaN. -/
def fminmax (f : Fmt) (max : Bool) (x y : Nat) (vx vy : FVal) : Nat :=
  if vx.isNan || vy.isNan then f.nanCode
  else
    let below := vx.lt vy || (!vy.lt vx && vx.neg && !vy.neg)
    if below != max then x else y

/-- Round a value to an integer (07 R143 with q fixed at 1): its exact integer and whether it changed. -/
def roundInt (neg : Bool) (m : Nat) (e : Int) (r : Rnd) (draw : Word) : Int × Bool :=
  let (lo, inexact) := roundUnits neg m e 0 r draw
  (if neg then -(lo : Int) else (lo : Int), inexact)

/-- `sat(x, fmt)` into an integer format of w bits (00 Table 0.5). -/
def satInt (signed : Bool) (w : Nat) (x : Int) : Int :=
  let lo : Int := if signed then -(2 ^ (w - 1) : Nat) else 0
  let hi : Int := if signed then (2 ^ (w - 1) : Nat) - 1 else (2 ^ w : Nat) - 1
  if x < lo then lo else if hi < x then hi else x

/-- Reduce an exact result into w bits: wrap, or saturate with `OF` on a clamp (07 R136, 09 R165). -/
def reduceInt (m : Sat) (w : Nat) (t : Int) : BitVec w × Nat :=
  match m with
  | .wrap => (BitVec.ofInt w t, 0)
  | .signed => let r := satInt true w t; (BitVec.ofInt w r, if r = t then 0 else 2)
  | .unsigned => let r := satInt false w t; (BitVec.ofInt w r, if r = t then 0 else 2)

/-- A finite or infinite value into an integer format (07 R149, R150, Table 7.8): bits modulo 2^w, flags. -/
def floatToInt (signed : Bool) (w : Nat) (v : FVal) (r : Rnd) (draw : Word) : Int × Nat :=
  match v with
  | .nan => (0, 1)
  | .inf n => (satInt signed w (if n then -(2 ^ 200 : Nat) else (2 ^ 200 : Nat)), 1)
  | .num n m e =>
      let (x, inexact) := roundInt n m e r draw
      let y := satInt signed w x
      if y = x then (x, if inexact then 4 else 0) else (y, 1 + (if inexact then 4 else 0))

/-- A value into a floating-point format by a narrowing conversion (07 R148, R149, 08 R161). `negNan` is the sign bit of a NaN
source. -/
def narrow (f : Fmt) (v : FVal) (negNan : Bool) (r : Rnd) (draw : Word) (sat flush : Bool) : Rounded :=
  match v with
  | .nan => match f.nan with
    | some c => (c, 0)
    | none => (f.signBit negNan + f.maxCode, 1)
  | .inf n =>
      if f.hasInf then (if sat then (f.signBit n + f.maxCode, 4) else (f.infCode n, 0))
      else match f.nan with
        | some c => if sat then (f.signBit n + f.maxCode, 1) else (c, 1)
        | none => (f.signBit n + f.maxCode, 1)
  | .num n m e => f.roundTo n m e r draw sat flush

/-- A value into a format that holds it exactly (07 R148). -/
def widen (f : Fmt) (v : FVal) : Nat :=
  match v with
  | .nan => f.nanCode
  | .inf n => f.infCode n
  | .num n m e => (f.roundTo n m e .rn 0 false false).1

/-- `rngs_next` (07 R145). -/
def rngsNext (x : Word) : Word :=
  let x := x ^^^ (x <<< 13)
  let x := x ^^^ (x >>> 17)
  x ^^^ (x <<< 5)

/-- Integer square root, bit by bit from 2^k down. -/
def isqrt : Nat → Nat → Nat → Nat
  | 0, _, r => r
  | k + 1, n, r => let c := r + 2 ^ k; isqrt k n (if c * c ≤ n then c else r)

/-- Multiply a value by 2^e. -/
def FVal.scale (k : Int) : FVal → FVal
  | .num n m e => .num n m (e + k)
  | v => v

/-- Poison payloads (07 R151). -/
def poison32 : Word := 0x7FE05EED
def poison16 : Nat := 0x7F5E
def poisonBf : Nat := 0x7FE5

/-- A poison register with the data of an FP32, integer or raw result (07 Table 7.10). -/
def RegVal.poison : RegVal := { val := poison32, side := true }

/-- A clean register. -/
def RegVal.clean (x : Word) : RegVal := { val := x, side := false }

/-- `poison_of` of a register read as an integer, as FP32, as packed FP16 or BF16 (07 R151). -/
def RegVal.pInt (x : RegVal) : Bool := x.side
def RegVal.pF32 (x : RegVal) : Bool := x.side || x.val == poison32
def RegVal.pPk (bf : Bool) (x : RegVal) : Bool :=
  let p := if bf then poisonBf else poison16
  x.side || x.val.toNat % 65536 == p || x.val.toNat / 65536 == p

/-- The FP32 value of a register. -/
def fv32 (x : Word) : FVal := fp32.decode x.toNat

/-- FP16 or BF16. -/
def fmt16 (bf : Bool) : Fmt := if bf then fbf16 else fp16

end Sys2Proof.Machine
end

