-- ==== Sys2Proof/Machine/Operands.lean ====
section
/-! DEFINITION. Operand forms and the shape of every execution: which registers an instruction names (03 R57), second
sources (05 R100), one simultaneous step over the lanes of an entry (00 R10, 09 R162), one execution of a uniform
instruction for an entry or for the tiller (03 R49, 09 R164). -/

namespace Sys2Proof.Machine

open Sys2Proof

/-- The registers of a group (05 R99). -/
def grp (n k : Nat) : List Nat := upto n k

end Sys2Proof.Machine

namespace Sys2Proof

open Sys2Proof.Machine

/-- Lane registers that a second source names. -/
def Src2.vregs : Src2 → List Nat
  | .reg n => [n]
  | _ => []

/-- The second source of an integer lane cell (09 Table 9.1): an immediate or literal is never poison. -/
def Src2.val (l : Lane) : Src2 → RegVal
  | .reg n => l.rv n
  | .imm i => .clean (i.signExtend 32)
  | .lit w => .clean w

end Sys2Proof

namespace Sys2Proof.Machine

open Sys2Proof

/-! ### What one lane's execution answers -/

/-- Register and predicate results of a lane, flags it sets, its `RNGS` when the instruction draws (07 R145), and of a load what it is
in flight to. -/
structure Out1 where
  regs : List (Nat × RegVal)
  preds : List (Nat × Bool)
  flags : Nat
  rngs : Option Word
  src : Option Nat
  deriving DecidableEq, Repr

/-- No result. -/
def Out1.none : Out1 := { regs := [], preds := [], flags := 0, rngs := .none, src := .none }

/-- The answer of one lane: it completes, raises a cause, parks, stays at its instruction because it is not ready, or has a request that
the homes of some lines hold (23 R402). -/
inductive Ans where
  | ok (o : Out1)
  | trap (cause : Nat) (val : DWord)
  /-- A raise whose `XEPC` is the next instruction (19 Table 19.3). -/
  | trapNext (cause : Nat) (val : DWord)
  | park (p : Park)
  /-- It completes and then waits parked past its instruction. -/
  | parkNext (p : Park)
  | stay
  | held (lines : List Nat)
  /-- It completes and control goes to a target of its own (13 R254, R255). -/
  | jump (o : Out1) (dst : DWord)
  deriving DecidableEq, Repr

/-- A lane that writes registers, clean, and sets no flag. -/
def Ans.regs (rs : List (Nat × RegVal)) : Ans := .ok { Out1.none with regs := rs }
def Ans.reg (d : Nat) (x : RegVal) : Ans := .regs [(d, x)]
def Ans.word (d : Nat) (x : Word) : Ans := .reg d (.clean x)
def Ans.pred (p : Nat) (x : Bool) : Ans := .ok { Out1.none with preds := [(p, x)] }
def Ans.pair (d : Nat) (x : DWord) : Ans := .regs [(d, .clean (lo32 x)), (d + 1, .clean (hi32 x))]
def Ans.poison2 (d : Nat) : Ans := .regs [(d, .poison), (d + 1, .poison)]
def Ans.done : Ans := .ok Out1.none

/-- A word with flags. -/
def Ans.wordF (d : Nat) (x : Word) (flags : Nat) : Ans := .ok { Out1.none with regs := [(d, .clean x)], flags := flags }

/-! ### Legality (03 R57, 05 R91) -/

/-- Lane registers at or beyond `LREGS` and uniform registers at or beyond `UREGS`, banked ones apart (03 R57); the tiller
names all its registers (17 R302). -/
def State.namesOk (s : State) (vs ss : List Nat) : Bool :=
  let h := (s.gridOf s.cur.blk).khdr
  vs.all (fun n => n < h.lregs || 120 ≤ n) && (s.cur.agent == .tiller || ss.all fun n => n < h.uregs || 56 ≤ n)

/-- A lane-class instruction may name its registers here; the tiller executes none (05 R122). -/
def State.laneOk (s : State) (vs ss : List Nat) : Bool := s.cur.agent != .tiller && s.namesOk vs ss

/-- The warp of the issue in progress, and one of its lanes. -/
def State.cw (s : State) : Warp := s.warp s.cur.blk s.cur.warp
def State.cl (s : State) (i : Nat) : Lane := s.lane s.cur.blk s.cur.warp i
def State.setCl (s : State) (i : Nat) (l : Lane) : State := s.setLane s.cur.blk s.cur.warp i l

/-- A raise at the issuing instruction: `XEPC` is its address, or that of its `rep`, `XPI` the progress (05 R116). -/
def State.raiseHere (s : State) (i cause : Nat) (val : DWord) : Raise :=
  { lane := i, cause := cause, val := val, epc := s.cur.pc, pi := s.cur.prog, exec := s.execEntry }

/-- A cause raised in every lane of the entry whatever the guard; on the tiller, a tiller fault (05 R91, 17 R306). -/
def State.raiseEntry (s : State) (cause : Nat) (val : DWord) : State :=
  match s.cur.agent with
  | .tiller => s.failBlock s.cur.blk cause s.cur.pc val 0
  | _ => s.raiseAll s.cur.blk s.cur.warp (s.cur.lanes.map fun i => s.raiseHere i cause val)

/-- Cause 0x01 with the base word (05 R91). -/
def State.illegal (s : State) : State := s.raiseEntry 0x01 (s.cur.word.zeroExtend 64)

/-- Cause 0x02 with the base word. -/
def State.privileged (s : State) : State := s.raiseEntry 0x02 (s.cur.word.zeroExtend 64)

/-! ### Lane-class execution -/

/-- The guard of a lane (05 R96). -/
def Lane.guard (l : Lane) (g : Guard) : Bool := l.rp g.p != g.neg

/-- The PC after an instruction: the sequential PC, or under `rep` the prefix again with the progress one higher (05 R114). -/
def Lane.advance (l : Lane) (g : Grid) (c : Issue) : Lane :=
  if c.rep ≤ l.prog + 1 then ({ l with prog := 0 }).goto g c.next else { l with prog := l.prog + 1 }

/-- Results enter the lane (05 R107, R108): a short result is written, behind a due result of the same register it is due after that; a
long one is due at once or after its lookahead. -/
def Lane.result (l : Lane) (la : Option Nat) (regs : List (Nat × RegVal)) (preds : List (Nat × Bool)) (src : Option Nat) : Lane :=
  let rk := l.regKeys regs
  let pk := l.predKeys preds
  let l := l.countPos
  let x (n : Nat) : Pending := { dist := n, regs := rk, preds := pk, src := src }
  match la with
  | none => if l.pending.any fun p => p.meets (rk.map (·.1)) (pk.map (·.1)) then l.owe (x 0) else l.write rk pk
  | some n => if rk = [] && pk = [] then l else if n = 0 then l.owe (x 0) else { l with pending := l.pending ++ [x n] }

/-- A lane completes its instruction, without the move of its PC. -/
def Lane.finish (l : Lane) (la : Option Nat) (o : Out1) : Lane :=
  let l := l.result la o.regs o.preds o.src
  { l with flags := l.flags ||| BitVec.ofNat 32 o.flags
           rngs := match o.rngs with | some x => x | .none => l.rngs }

/-- A lane takes its answer; a raise, a lane that stays and one whose request is held are no change here. -/
def Lane.take (l : Lane) (g : Grid) (c : Issue) (la : Option Nat) : Ans → Lane
  | .ok o => (l.finish la o).advance g c
  | .jump o dst => ({ l.finish la o with prog := 0 }).goto g dst
  | .park p => { l with park := p }
  | .parkNext p => { (l.finish la Out1.none).advance g c with park := p }
  | .trap _ _ => l
  | .trapNext _ _ => l
  | .stay => l
  | .held _ => l

/-- A lane that parked has left its instruction's wait behind when it completes. -/
def Lane.unpark (l : Lane) : Lane := { l with park := .none }

/-- Every answer takes effect: completing lanes first, then the raises in one step (00 R10, R11, 19 R342). -/
def State.commitAns (s : State) (la : Option Nat) (rs : List (Nat × Ans)) : State :=
  let g := s.gridOf s.cur.blk
  let s1 := rs.foldl (fun s r => s.setCl r.1 ((s.cl r.1).take g s.cur la r.2)) s
  s1.raiseAll s.cur.blk s.cur.warp (rs.filterMap fun r => match r.2 with
    | .trap k v => some (s.raiseHere r.1 k v)
    | .trapNext k v => some { s.raiseHere r.1 k v with epc := s.cur.next }
    | _ => .none)

/-- An instruction whose effect is on its own lane alone; `f` also receives the lane number. -/
def State.laneOpI (s : State) (vs ss : List Nat) (g : Guard) (la : Option Nat) (f : Nat → Lane → Ans) : State :=
  if s.laneOk vs ss then
    s.commitAns la (s.cur.lanes.map fun i => (i, if (s.cl i).guard g then f i (s.cl i) else .done))
  else s.illegal

/-- An instruction whose effect is on its own lane alone. -/
def State.laneOp (s : State) (vs ss : List Nat) (g : Guard) (la : Option Nat) (f : Lane → Ans) : State :=
  s.laneOpI vs ss g la fun _ l => f l

/-- An instruction whose lanes act on shared state one after the other, each reading its sources as they stood before. -/
def State.laneFold (s : State) (g : Guard) (f : State → Nat → Lane → State × Ans) :
    List Nat → State × List (Nat × Ans)
  | [] => (s, [])
  | i :: r =>
      let l := s.cl i
      let (s, a) := if l.guard g then f s i l else (s, .done)
      let (s, as) := s.laneFold g f r
      (s, (i, a) :: as)

/-- The uniform registers and predicates that the issue in progress reads. -/
def State.snapshot (s : State) : Snapshot := s.cur.redo.getD { s := s.cw.s, q := s.cw.q }

/-- A home receives a request that it holds (23 R401, R402, 24 R408). -/
def State.ask (s : State) (lines : List Nat) (who : Asker) : State := { s with homeq := s.homeq ++ [{ lines := lines, who := who }] }

/-- The issue in progress waits for homes, with what it has read (log 68). -/
def State.holdIssue (s : State) (lines : List Nat) : State := s.ask lines (.issue { s.cur with redo := some s.snapshot })

/-- Lines at whose homes requests of an execution are held. -/
def heldLines (rs : List (Nat × Ans)) : List Nat := (rs.map fun r => match r.2 with | .held ls => ls | _ => []).flatten.eraseDups

/-- A lane-class instruction that acts on more than its lanes' registers; while a request of a lane is held, no lane of the entry
executes it. -/
def State.laneMem (s : State) (vs ss : List Nat) (g : Guard) (la : Option Nat)
    (f : State → Nat → Lane → State × Ans) : State :=
  if s.laneOk vs ss then
    let r := s.laneFold g f s.cur.lanes
    if heldLines r.2 = [] then r.1.commitAns la r.2 else s.holdIssue (heldLines r.2)
  else s.illegal

/-- A privileged lane-class instruction: names, then the level (05 R91, R120). -/
def State.privOp (s : State) (need : Level) (vs : List Nat) (g : Guard) (la : Option Nat)
    (f : State → Nat → Lane → State × Ans) : State :=
  if s.laneOk vs [] then
    if s.cur.level.num < need.num then s.privileged else s.laneMem vs [] g la f
  else s.illegal

/-! ### Uniform-class execution -/

/-- A uniform register of the executing warp, as the instruction reads it, or of the tiller. -/
def State.ur (s : State) (n : Nat) : Word :=
  match s.cur.agent with
  | .tiller => fget 0 (s.blk s.cur.blk).tiller.s n
  | _ => { s.cw with s := s.snapshot.s }.rs s.cur.level n

def State.ur2 (s : State) (n : Nat) : DWord := pairOf (s.ur n) (s.ur (n + 1))

/-- A uniform predicate; `q7` reads true. -/
def State.uq (s : State) (n : Nat) : Bool :=
  match s.cur.agent with
  | .tiller => if n = 7 then true else fget false (s.blk s.cur.blk).tiller.q n
  | _ => { s.cw with q := s.snapshot.q }.rq n

def State.modTiller (s : State) (b : Nat) (f : Tiller → Tiller) : State := s.modBlk b fun k => { k with tiller := f k.tiller }

/-- Write a uniform register. -/
def State.uw (s : State) (n : Nat) (x : Word) : State :=
  match s.cur.agent with
  | .tiller => s.modTiller s.cur.blk fun t => { t with s := fset 0 t.s n x }
  | _ => s.setWarp s.cur.blk s.cur.warp (s.cw.ws s.cur.level n x)

def State.uw2 (s : State) (n : Nat) (x : DWord) : State := (s.uw n (lo32 x)).uw (n + 1) (hi32 x)

/-- Write a uniform predicate; a write to `q7` is ignored. -/
def State.uwq (s : State) (n : Nat) (x : Bool) : State :=
  match s.cur.agent with
  | .tiller => if n = 7 then s else s.modTiller s.cur.blk fun t => { t with q := fset false t.q n x }
  | _ => s.setWarp s.cur.blk s.cur.warp (s.cw.wq n x)

/-- The guard of a uniform instruction, read once (05 R96). -/
def State.uguard (s : State) (g : Guard) : Bool := s.uq g.p != g.neg

/-- Every lane of the entry counts the position and goes on to a PC; the tiller's PC moves (05 R108, 17 R304). -/
def State.ugoto (s : State) (pc : DWord) : State :=
  match s.cur.agent with
  | .tiller => s.modTiller s.cur.blk fun t => { t with pc := pc }
  | _ =>
      let g := s.gridOf s.cur.blk
      s.cur.lanes.foldl (fun s i => s.setCl i (({ (s.cl i).countPos with prog := 0 } : Lane).goto g pc)) s

def State.unext (s : State) : State := s.ugoto s.cur.next

/-- A uniform instruction: names checked, guard read once, effect once, then on to the next (03 R49, 09 R164). -/
def State.uniOp (s : State) (ss : List Nat) (g : Guard) (f : State → State) : State :=
  if s.namesOk [] ss then
    if s.uguard g then f s else s.unext
  else s.illegal

/-- A uniform instruction that writes its results and goes on. -/
def State.uniAlu (s : State) (ss : List Nat) (g : Guard) (f : State → State) : State :=
  s.uniOp ss g fun s => (f s).unext

/-- A uniform instruction that only warps execute (05 R122). -/
def State.warpOp (s : State) (ss : List Nat) (g : Guard) (f : State → State) : State :=
  if s.cur.agent == .tiller then s.illegal else s.uniOp ss g f

/-- A uniform instruction that only the tiller executes (05 R122). -/
def State.tillerOp (s : State) (g : Guard) (f : State → State) : State :=
  if s.cur.agent == .tiller then (if s.uguard g then f s else s.unext) else s.illegal

end Sys2Proof.Machine

namespace Sys2Proof

open Sys2Proof.Machine

/-- Uniform registers that a second source names, as a group of k. -/
def Src2.sregs (k : Nat) : Src2 → List Nat
  | .reg n => grp n k
  | _ => []

/-- The second source of a uniform cell (05 R100). -/
def Src2.uval (s : State) : Src2 → Word
  | .reg n => s.ur n
  | .imm i => i.signExtend 32
  | .lit w => w

/-- The second source as 64 bits: an even pair, or an immediate or literal sign-extended (09 R198). -/
def Src2.uval64 (s : State) : Src2 → DWord
  | .reg n => s.ur2 n
  | .imm i => i.signExtend 64
  | .lit w => w.signExtend 64

end Sys2Proof

namespace Sys2Proof.Machine

open Sys2Proof

end Sys2Proof.Machine
end

