-- ==== Sys2Proof/Machine/Flags.lean ====
section
/-! DEFINITION. Conditions of comparisons (09 Table 9.3) and exact integer results with the flag of a clamp (07 R136, 09
R165). The floating-point flags come from the roundings of Num.lean. -/

namespace Sys2Proof.Machine

open Sys2Proof

end Sys2Proof.Machine

namespace Sys2Proof

open Sys2Proof.Machine

/-- 09 Table 9.3. -/
def ICond.holds (c : ICond) (a b : Word) : Bool :=
  match c with
  | .eq => a == b
  | .ne => a != b
  | .ltS => sv a < sv b
  | .leS => sv a ≤ sv b
  | .gtS => sv b < sv a
  | .geS => sv b ≤ sv a
  | .ltZ => zv a < zv b
  | .leZ => zv a ≤ zv b
  | .gtZ => zv b < zv a
  | .geZ => zv b ≤ zv a

/-- A source as the treatment of the result reads it (09 R165). -/
def Sat.read {w : Nat} (m : Sat) (x : BitVec w) : Int :=
  match m with
  | .signed => sv x
  | _ => (zv x : Int)

end Sys2Proof

namespace Sys2Proof.Machine

open Sys2Proof

/-- An exact 32-bit result reduced, with `OF` on a clamp. -/
def Ans.reduced (d : Nat) (m : Sat) (t : Int) : Ans :=
  let r : Word × Nat := reduceInt m 32 t
  .wordF d r.1 r.2

/-- `shl` and `shr` give 0 for an amount of 32 or more, `sar` the sign (09 R165). -/
def shlW (a b : Word) : Word := if 32 ≤ zv b then 0 else a <<< zv b
def shrW (a b : Word) : Word := if 32 ≤ zv b then 0 else a >>> zv b
def sarW (a b : Word) : Word := a.sshiftRight (min (zv b) 31)

/-- `bfx` (09 R170). -/
def bfxW (sgn : Bool) (a ctl : Word) : Word :=
  let len := min (zv ctl / 256 % 256) 32
  let pos := zv ctl % 256
  if len = 0 then 0
  else
    let x : Int := if sgn then sv a else (zv a : Int)
    let f : Int := x / (2 ^ pos : Nat) % (2 ^ len : Nat)
    BitVec.ofInt 32 (if sgn && (2 ^ (len - 1) : Nat) ≤ f then f - (2 ^ len : Nat) else f)

/-- `bfi` (09 R171). -/
def bfiW (a ctl c : Word) : Word :=
  let len := min (zv ctl / 256 % 256) 32
  let pos := zv ctl % 256
  let m : Nat := (2 ^ len - 1) * 2 ^ pos
  let mask := BitVec.ofNat 32 m
  (c &&& ~~~mask) ||| (BitVec.ofNat 32 (zv a * 2 ^ pos) &&& mask)

/-- Bytes of `bsel` from byte 0 upward (09 R173): the fields still to do, the byte below. -/
def bselBytes (sx : Bool) (src : List Byte) (ctl : Word) : Nat → Nat → Byte → List Byte
  | 0, _, _ => []
  | n + 1, k, below =>
      let f := zv ctl / 16 ^ k % 16
      let x : Byte :=
        if f < 8 then src[f]?.getD 0
        else if !sx || k = 0 then 0
        else if below.getLsbD 7 then 0xFF else 0
      x :: bselBytes sx src ctl n (k + 1) x

def bselW (sx : Bool) (a ctl c : Word) : Word :=
  BitVec.ofNat 32 (leNat (bselBytes sx (leBytes 4 a.toNat ++ leBytes 4 c.toNat) ctl 4 0 0))

/-- Number of 1 bits. -/
def popcNat (x : Word) : Nat := ((upto 0 32).filter fun i => x.getLsbD i).length

/-- Leading zeros from bit 31, trailing zeros from bit 0; 32 for 0 (09 Table 9.5). -/
def clzNat (x : Word) : Nat := ((upto 0 32).takeWhile fun i => !x.getLsbD (31 - i)).length
def ctzNat (x : Word) : Nat := ((upto 0 32).takeWhile fun i => !x.getLsbD i).length

/-- Bits reversed. -/
def brevW (x : Word) : Word := BitVec.ofNat 32 (((upto 0 32).map fun i => if x.getLsbD i then 2 ^ (31 - i) else 0).foldl (· + ·) 0)

end Sys2Proof.Machine
end

