-- ==== Sys2Proof/Machine/Alu.lean ====
section
/-! DEFINITION. Integer lane operations, cells 0x01 to 0x16 (09 R165 to R178). -/

namespace Sys2Proof.Machine

open Sys2Proof

/-- The outcome of every meaning that answers a next state. -/
abbrev Res := Host.Outcome State Fault Refusal

/-- Two sources, poison in, poison out (09 R165). -/
def clean2 (d : Nat) (a b : RegVal) (k : Word → Word → Ans) : Ans :=
  if a.side || b.side then .reg d .poison else k a.val b.val

def clean3 (d : Nat) (a b c : RegVal) (k : Word → Word → Word → Ans) : Ans :=
  if a.side || b.side || c.side then .reg d .poison else k a.val b.val c.val

/-- A source in a role that consumes poison raises cause 0x08 (07 R153). -/
def consume (p : Bool) (k : Ans) : Ans := if p then .trap 0x08 0 else k

/-- A two-source integer cell. -/
def State.int2 (s : State) (g : Guard) (d a : Nat) (b : Src2) (k : Word → Word → Ans) : State :=
  s.laneOp ([d, a] ++ b.vregs) [] g none fun l => clean2 d (l.rv a) (b.val l) k

/-- A shift: a poison amount raises cause 0x08 first (09 R165). -/
def State.shift (s : State) (g : Guard) (d a : Nat) (b : Src2) (k : Word → Word → Word) : State :=
  s.laneOp ([d, a] ++ b.vregs) [] g none fun l =>
    consume (b.val l).side (clean2 d (l.rv a) (b.val l) fun x y => .word d (k x y))

/-- A one-source integer cell. -/
def State.int1 (s : State) (g : Guard) (d a : Nat) (k : Word → Ans) : State :=
  s.laneOp [d, a] [] g none fun l => if (l.rv a).side then .reg d .poison else k (l.rd a)

/-- A register two-source member. -/
def State.int2r (s : State) (g : Guard) (d a b : Nat) (k : Word → Word → Word) : State :=
  s.laneOp [d, a, b] [] g none fun l => clean2 d (l.rv a) (l.rv b) fun x y => .word d (k x y)

def execAdd (g : Guard) (d a : Nat) (b : Src2) (sat : Sat) (s : State) : Res :=
  .next (s.int2 g d a b fun x y => .reduced d sat (sat.read x + sat.read y))

def execSub (g : Guard) (d a : Nat) (b : Src2) (sat : Sat) (s : State) : Res :=
  .next (s.int2 g d a b fun x y => .reduced d sat (sat.read x - sat.read y))

def execMul (g : Guard) (d a : Nat) (b : Src2) (sat : Sat) (s : State) : Res :=
  .next (s.int2 g d a b fun x y => .reduced d sat (sat.read x * sat.read y))

/-- 09 R166. -/
def execMad (g : Guard) (d a : Nat) (b : Src2) (c : Nat) (sat : Sat) (s : State) : Res :=
  .next (s.laneOp ([d, a, c] ++ b.vregs) [] g none fun l => clean3 d (l.rv a) (b.val l) (l.rv c) fun x y z =>
    .reduced d sat (sat.read x * sat.read y + sat.read z))

def execAnd (g : Guard) (d a : Nat) (b : Src2) (s : State) : Res := .next (s.int2 g d a b fun x y => .word d (x &&& y))
def execOr (g : Guard) (d a : Nat) (b : Src2) (s : State) : Res := .next (s.int2 g d a b fun x y => .word d (x ||| y))
def execXor (g : Guard) (d a : Nat) (b : Src2) (s : State) : Res := .next (s.int2 g d a b fun x y => .word d (x ^^^ y))
def execShl (g : Guard) (d a : Nat) (b : Src2) (s : State) : Res := .next (s.shift g d a b shlW)
def execShr (g : Guard) (d a : Nat) (b : Src2) (s : State) : Res := .next (s.shift g d a b shrW)
def execSar (g : Guard) (d a : Nat) (b : Src2) (s : State) : Res := .next (s.shift g d a b sarW)

def execMin (g : Guard) (d a : Nat) (b : Src2) (s : State) : Res :=
  .next (s.int2 g d a b fun x y => .word d (if sv y < sv x then y else x))

def execMax (g : Guard) (d a : Nat) (b : Src2) (s : State) : Res :=
  .next (s.int2 g d a b fun x y => .word d (if sv x < sv y then y else x))

/-- 09 R167: bit for bit, with the side bit of the source selected. -/
def execSel (g : Guard) (d a : Nat) (b : Src2) (pc : Nat) (s : State) : Res :=
  .next (s.laneOp ([d, a] ++ b.vregs) [] g none fun l => .reg d (if l.rp pc then l.rv a else b.val l))

/-- 09 R168. -/
def execIcmp (g : Guard) (pd a : Nat) (b : Src2) (cond : ICond) (s : State) : Res :=
  .next (s.laneOp (a :: b.vregs) [] g none fun l =>
    consume ((l.rv a).side || (b.val l).side) (.pred pd (ICond.holds cond (l.rd a) (b.val l).val)))

/-- 09 R169. -/
def execMovi (g : Guard) (d : Nat) (b : Src2) (s : State) : Res :=
  .next (s.laneOp (d :: b.vregs) [] g none fun l => .word d (b.val l).val)

/-- 09 R170. -/
def execBfx (g : Guard) (d a : Nat) (b : Src2) (sgn : Bool) (s : State) : Res :=
  .next (s.laneOp ([d, a] ++ b.vregs) [] g none fun l =>
    consume (b.val l).side (clean2 d (l.rv a) (b.val l) fun x y => .word d (bfxW sgn x y)))

/-- 09 R171. -/
def execBfi (g : Guard) (d a : Nat) (b : Src2) (c : Nat) (s : State) : Res :=
  .next (s.laneOp ([d, a, c] ++ b.vregs) [] g none fun l =>
    consume (b.val l).side (clean3 d (l.rv a) (b.val l) (l.rv c) fun x y z => .word d (bfiW x y z)))

/-- 09 R172. -/
def execLea (g : Guard) (d a : Nat) (b : Src2) (n : Nat) (s : State) : Res :=
  .next (s.int2 g d a b fun x y => .word d (x + y * BitVec.ofNat 32 (2 ^ n)))

/-- 09 R173. -/
def execBsel (g : Guard) (d a : Nat) (b : Src2) (c : Nat) (sx : Bool) (s : State) : Res :=
  .next (s.laneOp ([d, a, c] ++ b.vregs) [] g none fun l =>
    consume (b.val l).side (clean3 d (l.rv a) (b.val l) (l.rv c) fun x y z => .word d (bselW sx x y z)))

/-- The carry-in of `addc` and `subb` (09 R174). -/
def carryIn (l : Lane) : Option Nat → Nat
  | some c => if l.rp c then 1 else 0
  | none => 0

/-- `addc` and `subb`: a carry-out of poison sources raises cause 0x08 (09 R174). -/
def State.carryOp (s : State) (g : Guard) (d a b po : Nat) (k : Lane → Int) : State :=
  s.laneOp [d, a, b] [] g none fun l =>
    if (l.rv a).side || (l.rv b).side then (if po = 7 then .reg d .poison else .trap 0x08 0)
    else
      let t := k l
      .ok { Out1.none with regs := [(d, .clean (BitVec.ofInt 32 t))], preds := [(po, t < 0 || (2 ^ 32 : Nat) ≤ t)] }

def execAddc (g : Guard) (d a b po : Nat) (ci : Option Nat) (s : State) : Res :=
  .next (s.carryOp g d a b po fun l => (zv (l.rd a) : Int) + zv (l.rd b) + carryIn l ci)

def execSubb (g : Guard) (d a b po : Nat) (ci : Option Nat) (s : State) : Res :=
  .next (s.carryOp g d a b po fun l => (zv (l.rd a) : Int) - zv (l.rd b) - carryIn l ci)

/-- The exact product read unsigned or signed. -/
def wideProduct (uns : Bool) (x y : Word) : DWord :=
  BitVec.ofInt 64 (if uns then (zv x * zv y : Nat) else sv x * sv y)

/-- 09 Table 9.4. -/
def execMulh (g : Guard) (d a b : Nat) (uns : Bool) (s : State) : Res :=
  .next (s.int2r g d a b fun x y => hi32 (wideProduct uns x y))

/-- 09 Table 9.4. -/
def execMulw (g : Guard) (d a b : Nat) (uns : Bool) (s : State) : Res :=
  .next (s.laneOp [d, d + 1, a, b] [] g none fun l =>
    if (l.rv a).side || (l.rv b).side then .poison2 d else .pair d (wideProduct uns (l.rd a) (l.rd b)))

def execMinz (g : Guard) (d a b : Nat) (s : State) : Res := .next (s.int2r g d a b fun x y => if zv y < zv x then y else x)
def execMaxz (g : Guard) (d a b : Nat) (s : State) : Res := .next (s.int2r g d a b fun x y => if zv x < zv y then y else x)
def execAndn (g : Guard) (d a b : Nat) (s : State) : Res := .next (s.int2r g d a b fun x y => x &&& ~~~y)

end Sys2Proof.Machine

namespace Sys2Proof

open Sys2Proof.Machine

/-- Registers and value of a rotate amount. -/
def RotAmt.vregs : RotAmt → List Nat
  | .reg n => [n]
  | .imm _ => []

def RotAmt.val (l : Lane) : RotAmt → RegVal
  | .reg n => l.rv n
  | .imm i => .clean (i.zeroExtend 32)

end Sys2Proof

namespace Sys2Proof.Machine

open Sys2Proof

/-- 09 Table 9.4. -/
def execRot (g : Guard) (d a : Nat) (amt : RotAmt) (s : State) : Res :=
  .next (s.laneOp ([d, a] ++ amt.vregs) [] g none fun l =>
    consume (amt.val l).side (clean2 d (l.rv a) (amt.val l) fun x y => .word d (x.rotateLeft (zv y % 32))))

/-- 09 Table 9.5. -/
def execNeg (g : Guard) (d a : Nat) (sat : Bool) (s : State) : Res :=
  .next (s.int1 g d a fun x => .reduced d (if sat then .signed else .wrap) (-sv x))

def execAbs (g : Guard) (d a : Nat) (sat : Bool) (s : State) : Res :=
  .next (s.int1 g d a fun x => .reduced d (if sat then .signed else .wrap) (sv x).natAbs)

def execNot (g : Guard) (d a : Nat) (s : State) : Res := .next (s.int1 g d a fun x => .word d (~~~x))
def execPopc (g : Guard) (d a : Nat) (s : State) : Res := .next (s.int1 g d a fun x => .word d (BitVec.ofNat 32 (popcNat x)))
def execClz (g : Guard) (d a : Nat) (s : State) : Res := .next (s.int1 g d a fun x => .word d (BitVec.ofNat 32 (clzNat x)))
def execCtz (g : Guard) (d a : Nat) (s : State) : Res := .next (s.int1 g d a fun x => .word d (BitVec.ofNat 32 (ctzNat x)))
def execBrev (g : Guard) (d a : Nat) (s : State) : Res := .next (s.int1 g d a fun x => .word d (brevW x))

/-- 09 Table 9.5: side bit and data as they stand. -/
def execMov (g : Guard) (d a : Nat) (s : State) : Res := .next (s.laneOp [d, a] [] g none fun l => .reg d (l.rv a))

/-- A pair result from pair sources, reduced with `OF` on a clamp (09 R177). -/
def State.pairOp (s : State) (g : Guard) (d a b : Nat) (sat : Sat) (k : Int → Int → Int) : State :=
  s.laneOp [d, d + 1, a, a + 1, b, b + 1] [] g none fun l =>
    if l.sideAny a 2 || l.sideAny b 2 then .poison2 d
    else
      let r : DWord × Nat := reduceInt sat 64 (k (sat.read (l.rd2 a)) (sat.read (l.rd2 b)))
      .ok { Out1.none with regs := [(d, .clean (lo32 r.1)), (d + 1, .clean (hi32 r.1))], flags := r.2 }

def execAdd64 (g : Guard) (d a b : Nat) (sat : Sat) (s : State) : Res := .next (s.pairOp g d a b sat fun x y => x + y)
def execSub64 (g : Guard) (d a b : Nat) (sat : Sat) (s : State) : Res := .next (s.pairOp g d a b sat fun x y => x - y)

/-- 09 R178. -/
def execLea64 (g : Guard) (d a b n : Nat) (sgn : Bool) (s : State) : Res :=
  .next (s.laneOp [d, d + 1, a, a + 1, b] [] g none fun l =>
    if l.sideAny a 2 || (l.rv b).side then .poison2 d
    else
      let x : DWord := if sgn then (l.rd b).signExtend 64 else (l.rd b).zeroExtend 64
      .pair d (l.rd2 a + x * BitVec.ofNat 64 (2 ^ n)))

end Sys2Proof.Machine
end

