-- ==== Sys2Proof/Machine/Fp.lean ====
section
/-! DEFINITION. FP32, packed 16-bit and dot-product lane operations, cells 0x17 to 0x25 but SFN (09 R179 to R188). -/

namespace Sys2Proof.Machine

open Sys2Proof

end Sys2Proof.Machine

namespace Sys2Proof

open Sys2Proof.Machine

/-- Poison of a second source read as FP32 or as packed elements; a literal is never poison (09 Table 9.1). -/
def Src2.pF32 (l : Lane) : Src2 → Bool
  | .reg n => (l.rv n).pF32
  | _ => false

def Src2.pPk (bf : Bool) (l : Lane) : Src2 → Bool
  | .reg n => (l.rv n).pPk bf
  | _ => false

end Sys2Proof

namespace Sys2Proof.Machine

open Sys2Proof

/-- An FP32 result from a rounding. -/
def Ans.f32 (d : Nat) (r : Rounded) : Ans := .wordF d (BitVec.ofNat 32 r.1) r.2

/-- A two-source FP32 cell (09 R179). -/
def State.fp2 (s : State) (g : Guard) (d a : Nat) (b : Src2) (k : FVal → FVal → Rounded) : State :=
  s.laneOp ([d, a] ++ b.vregs) [] g none fun l =>
    if (l.rv a).pF32 || b.pF32 l then .reg d .poison else .f32 d (k (fv32 (l.rd a)) (fv32 (b.val l).val))

def execFadd (g : Guard) (d a : Nat) (b : Src2) (rnd : Rnd) (s : State) : Res :=
  .next (s.fp2 g d a b fun x y => fdot fp32 [(x, fone), (y, fone)] none rnd false)

def execFsub (g : Guard) (d a : Nat) (b : Src2) (rnd : Rnd) (s : State) : Res :=
  .next (s.fp2 g d a b fun x y => fdot fp32 [(x, fone), (y, fmone)] none rnd false)

def execFmul (g : Guard) (d a : Nat) (b : Src2) (rnd : Rnd) (s : State) : Res :=
  .next (s.fp2 g d a b fun x y => fdot fp32 [(x, y)] none rnd false)

/-- 09 R180. -/
def execFfma (g : Guard) (d a : Nat) (b : Src2) (c : Nat) (rnd : Rnd) (s : State) : Res :=
  .next (s.laneOp ([d, a, c] ++ b.vregs) [] g none fun l =>
    if (l.rv a).pF32 || b.pF32 l || (l.rv c).pF32 then .reg d .poison
    else .f32 d (fdot fp32 [(fv32 (l.rd a), fv32 (b.val l).val)] (some (fv32 (l.rd c))) rnd false))

/-- 09 R181. -/
def execFcmp (g : Guard) (pd a : Nat) (b : Src2) (cond : FCond) (s : State) : Res :=
  .next (s.laneOp (a :: b.vregs) [] g none fun l =>
    consume ((l.rv a).pF32 || b.pF32 l) (.pred pd (FCond.holds cond (fv32 (l.rd a)) (fv32 (b.val l).val))))

/-- `fmin` and `fmax` (09 R182). -/
def State.fpMinMax (s : State) (g : Guard) (d a b : Nat) (max : Bool) : State :=
  s.laneOp [d, a, b] [] g none fun l =>
    if (l.rv a).pF32 || (l.rv b).pF32 then .reg d .poison
    else .word d (BitVec.ofNat 32 (fminmax fp32 max (l.rd a).toNat (l.rd b).toNat (fv32 (l.rd a)) (fv32 (l.rd b))))

def execFmin (g : Guard) (d a b : Nat) (s : State) : Res := .next (s.fpMinMax g d a b false)
def execFmax (g : Guard) (d a b : Nat) (s : State) : Res := .next (s.fpMinMax g d a b true)

/-- The class bit of a register read as FP32 (09 R183). -/
def fclassBit (x : RegVal) : Nat :=
  if x.pF32 then 9
  else match fv32 x.val with
    | .nan => 8
    | .inf n => if n then 0 else 7
    | .num n m _ => if m = 0 then (if n then 3 else 4) else if m < 2 ^ 23 then (if n then 2 else 5) else if n then 1 else 6

def execFclass (g : Guard) (d a : Nat) (s : State) : Res :=
  .next (s.laneOp [d, a] [] g none fun l => .word d (BitVec.ofNat 32 (2 ^ fclassBit (l.rv a))))

/-- `fround` of a value (09 R184). -/
def froundVal (v : FVal) (x : Word) (rnd : Rnd) : Rounded :=
  match v with
  | .nan => (fp32.nanCode, 0)
  | .inf _ => (x.toNat, 0)
  | .num n m e =>
      let r := roundUnits n m e 0 rnd 0
      ((fp32.roundTo n r.1 0 .rn 0 false false).1, if r.2 then 4 else 0)

def execFround (g : Guard) (d a : Nat) (rnd : Rnd) (s : State) : Res :=
  .next (s.laneOp [d, a] [] g none fun l =>
    if (l.rv a).pF32 then .reg d .poison else .f32 d (froundVal (fv32 (l.rd a)) (l.rd a) rnd))

/-! ### Packed 16-bit (09 R185, R186) -/

/-- Element h of a packed register. -/
def half (x : Word) (h : Nat) : Nat := x.toNat / 65536 ^ h % 65536

/-- The flushed value of element h. -/
def halfVal (bf : Bool) (x : Word) (h : Nat) : FVal := ((fmt16 bf).decode (half x h)).flush (fmt16 bf)

/-- A poison packed result (07 Table 7.10). -/
def poisonPk (bf : Bool) : RegVal :=
  let p := if bf then poisonBf else poison16
  { val := BitVec.ofNat 32 (p + p * 65536), side := true }

/-- Two element results as a register, their flags combined. -/
def Ans.packed (d : Nat) (k : Nat → Rounded) : Ans :=
  .wordF d (BitVec.ofNat 32 ((k 0).1 + (k 1).1 * 65536)) ((k 0).2 ||| (k 1).2)

/-- A packed cell of two sources. -/
def State.pk2 (s : State) (g : Guard) (d a : Nat) (b : Src2) (bf : Bool) (k : FVal → FVal → Rounded) : State :=
  s.laneOp ([d, a] ++ b.vregs) [] g none fun l =>
    if (l.rv a).pPk bf || b.pPk bf l then .reg d (poisonPk bf)
    else .packed d fun h => k (halfVal bf (l.rd a) h) (halfVal bf (b.val l).val h)

def execHadd2 (g : Guard) (d a : Nat) (b : Src2) (bf : Bool) (s : State) : Res :=
  .next (s.pk2 g d a b bf fun x y => fdot (fmt16 bf) [(x, fone), (y, fone)] none .rn true)

def execHsub2 (g : Guard) (d a : Nat) (b : Src2) (bf : Bool) (s : State) : Res :=
  .next (s.pk2 g d a b bf fun x y => fdot (fmt16 bf) [(x, fone), (y, fmone)] none .rn true)

def execHmul2 (g : Guard) (d a : Nat) (b : Src2) (bf : Bool) (s : State) : Res :=
  .next (s.pk2 g d a b bf fun x y => fdot (fmt16 bf) [(x, y)] none .rn true)

def execHfma2 (g : Guard) (d a : Nat) (b : Src2) (c : Nat) (bf : Bool) (s : State) : Res :=
  .next (s.laneOp ([d, a, c] ++ b.vregs) [] g none fun l =>
    if (l.rv a).pPk bf || b.pPk bf l || (l.rv c).pPk bf then .reg d (poisonPk bf)
    else .packed d fun h =>
      fdot (fmt16 bf) [(halfVal bf (l.rd a) h, halfVal bf (b.val l).val h)] (some (halfVal bf (l.rd c) h)) .rn true)

/-- The code of element h with a subnormal flushed. -/
def halfCode (bf : Bool) (x : Word) (h : Nat) : Nat :=
  let c := half x h
  if c % 32768 < 2 ^ (fmt16 bf).mb then c / 32768 * 32768 else c

/-- `hmin2` and `hmax2` (09 Table 9.7). -/
def State.pkMinMax (s : State) (g : Guard) (d a b : Nat) (bf max : Bool) : State :=
  s.laneOp [d, a, b] [] g none fun l =>
    if (l.rv a).pPk bf || (l.rv b).pPk bf then .reg d (poisonPk bf)
    else .packed d fun h =>
      (fminmax (fmt16 bf) max (halfCode bf (l.rd a) h) (halfCode bf (l.rd b) h) (halfVal bf (l.rd a) h) (halfVal bf (l.rd b) h), 0)

def execHmin2 (g : Guard) (d a b : Nat) (bf : Bool) (s : State) : Res := .next (s.pkMinMax g d a b bf false)
def execHmax2 (g : Guard) (d a b : Nat) (bf : Bool) (s : State) : Res := .next (s.pkMinMax g d a b bf true)

def execHcmp2 (g : Guard) (d a b : Nat) (bf : Bool) (cond : FCond) (s : State) : Res :=
  .next (s.laneOp [d, a, b] [] g none fun l =>
    if (l.rv a).pPk bf || (l.rv b).pPk bf then .reg d (poisonPk bf)
    else .packed d fun h => (if FCond.holds cond (halfVal bf (l.rd a) h) (halfVal bf (l.rd b) h) then 0xFFFF else 0, 0))

/-! ### Dot products (09 R187, R188) -/

/-- Element j of width w, signed or not (07 Table 7.3). -/
def elemInt (w : Nat) (sgn : Bool) (x : Word) (j : Nat) : Int :=
  let e := x.toNat / 2 ^ (w * j) % 2 ^ w
  if sgn && 2 ^ (w - 1) ≤ e then (e : Int) - (2 ^ w : Nat) else e

/-- The exact sum of `idp4` and `idp8`. -/
def idpSum (w : Nat) (sa sb : Bool) (a b c : Word) : Int :=
  ((upto 0 (32 / w)).map fun j => elemInt w sa a j * elemInt w sb b j).foldl (· + ·) (sv c)

def State.idp (s : State) (g : Guard) (w d a b c : Nat) (sa sb sat : Bool) : State :=
  s.laneOp [d, a, b, c] [] g none fun l => clean3 d (l.rv a) (l.rv b) (l.rv c) fun x y z =>
    .reduced d (if sat then .signed else .wrap) (idpSum w sa sb x y z)

def execIdp4 (g : Guard) (d a b c : Nat) (sa sb sat : Bool) (s : State) : Res := .next (s.idp g 8 d a b c sa sb sat)
def execIdp8 (g : Guard) (d a b c : Nat) (sa sb sat : Bool) (s : State) : Res := .next (s.idp g 4 d a b c sa sb sat)

def execHdp2 (g : Guard) (d a b c : Nat) (rnd : Rnd) (bf : Bool) (s : State) : Res :=
  .next (s.laneOp [d, a, b, c] [] g none fun l =>
    if (l.rv a).pPk bf || (l.rv b).pPk bf || (l.rv c).pF32 then .reg d .poison
    else .f32 d (fdot fp32 [(halfVal bf (l.rd a) 0, halfVal bf (l.rd b) 0), (halfVal bf (l.rd a) 1, halfVal bf (l.rd b) 1)]
      (some (fv32 (l.rd c))) rnd false))

end Sys2Proof.Machine
end

