-- ==== Sys2Proof/Machine/Conv.lean ====
section
/-! DEFINITION. Conversions: `cvt`, `pack`, `unpk` (09 R189 to R194, 07 R145, R148 to R150). -/

namespace Sys2Proof.Machine

open Sys2Proof

end Sys2Proof.Machine

namespace Sys2Proof

open Sys2Proof.Machine

/-- The format of a floating-point type. -/
def Ty.fmt : Ty → Fmt
  | .f16 => fp16
  | .bf16 => fbf16
  | .e4m3 => fe4m3
  | .e5m2 => fe5m2
  | .e3m2 => fe3m2
  | .e2m3 => fe2m3
  | .e2m1 => fe2m1
  | _ => fp32

/-- Signedness and width of an integer type. -/
def Ty.signed : Ty → Bool
  | .s8 | .s16 | .s32 | .s64 => true
  | _ => false

def Ty.width (t : Ty) : Nat := 8 * t.bytes

end Sys2Proof

namespace Sys2Proof.Machine

open Sys2Proof

/-- The bits of a `cvt` source (09 Table 9.8). -/
def cvtBits (l : Lane) (st : Ty) (a : Nat) : Nat :=
  if st.regs = 2 then (l.rd2 a).toNat else (l.rd a).toNat % 2 ^ st.width

/-- Poison of a `cvt` source. -/
def cvtPoison (l : Lane) (st : Ty) (a : Nat) : Bool :=
  l.sideAny a st.regs ||
    (match st with
     | .f32 => (l.rd a) == poison32
     | .f16 => cvtBits l st a == poison16
     | .bf16 => cvtBits l st a == poisonBf
     | _ => false)

/-- An integer of a type from its bits. -/
def intOf (t : Ty) (x : Nat) : Int := if t.signed && 2 ^ (t.width - 1) ≤ x then (x : Int) - (2 ^ t.width : Nat) else x

/-- Registers of a `cvt` destination from an exact integer or a code (09 Table 9.8). -/
def cvtRegs (d : Nat) (t : Ty) (x : Int) : List (Nat × RegVal) :=
  if t.regs = 2 then
    let v := BitVec.ofInt 64 x
    [(d, .clean (lo32 v)), (d + 1, .clean (hi32 v))]
  else if t.isFloat then [(d, .clean (BitVec.ofInt 32 x))]
  else [(d, .clean (BitVec.ofInt 32 (intOf t (x % (2 ^ t.width : Nat)).toNat)))]

/-- The value and flags of a `cvt` of a source that is not poison (09 R190). -/
def cvtVal (dt st : Ty) (rnd : Rnd) (draw : Word) (sat ftz : Bool) (bits : Nat) : Int × Nat :=
  if st.isFloat then
    let v := st.fmt.decode bits
    let neg := bits / 2 ^ (st.width - 1) % 2 == 1
    if dt.isFloat then
      if cvtWidening dt st then (widen dt.fmt v, 0)
      else let r := narrow dt.fmt v neg rnd draw sat ftz; ((r.1 : Int), r.2)
    else floatToInt dt.signed dt.width v rnd draw
  else
    let x := intOf st bits
    if dt.isFloat then
      let r := dt.fmt.roundTo (x < 0) x.natAbs 0 rnd draw sat false
      ((r.1 : Int), r.2)
    else if sat then let y := satInt dt.signed dt.width x; (y, if y = x then 0 else 2)
    else (x, 0)

/-- The poison registers of a `cvt` (09 R190). -/
def cvtPoisonRegs (d : Nat) : Ty → List (Nat × RegVal)
  | .f16 => [(d, { val := BitVec.ofNat 32 poison16, side := true })]
  | .bf16 => [(d, { val := BitVec.ofNat 32 poisonBf, side := true })]
  | t => (grp d t.regs).map fun n => (n, .poison)

/-- 09 R189, R190; under `rs` the draw happens whatever the source (07 R145). -/
def execCvt (g : Guard) (d a : Nat) (dt st : Ty) (rnd : Rnd) (sat ftz : Bool) (s : State) : Res :=
  .next (s.laneOp (grp d dt.regs ++ grp a st.regs) [] g none fun l =>
    let draw := rngsNext l.rngs
    let o := { Out1.none with rngs := if rnd = Rnd.rs then some draw else .none }
    if cvtPoison l st a then .ok { o with regs := cvtPoisonRegs d dt }
    else
      let r := cvtVal dt st rnd draw sat ftz (cvtBits l st a)
      .ok { o with regs := cvtRegs d dt r.1, flags := r.2 })

/-! ### pack (09 R191 to R193) -/

end Sys2Proof.Machine

namespace Sys2Proof

open Sys2Proof.Machine

/-- Width of an element's place in a register (07 Table 7.3). -/
def Ty.slotBits (t : Ty) : Nat := 32 / t.perReg

end Sys2Proof

namespace Sys2Proof.Machine

open Sys2Proof

/-- The least e with m × 2^x ≤ MAX × 2^e, for m ≠ 0. -/
def leastScale (f : Fmt) (m : Nat) (x : Int) : Int :=
  match f.decode f.maxCode with
  | .num _ k y =>
      let c := (x + (Nat.log2 m : Nat)) - (y + (Nat.log2 k : Nat))
      let q := if x < y + c then x else y + c
      if m * 2 ^ (x - q).toNat ≤ k * 2 ^ (y + c - q).toNat then c else c + 1
  | _ => 0

/-- Clamp to −127 … 127. -/
def clampScale (e : Int) : Int := if e < -127 then -127 else if 127 < e then 127 else e

/-- The scale exponent of a `pack` (09 R192). -/
def packExp (ty : Ty) (l : Lane) : PackScale → Int
  | .none => 0
  | .sx b => clampScale (sv (l.rd b))
  | .sa b _ => match fv32 (l.rd b) with
    | .nan => 0
    | .inf _ => 127
    | .num _ m x => if m = 0 then 0 else clampScale (leastScale ty.fmt m x)

end Sys2Proof.Machine

namespace Sys2Proof

open Sys2Proof.Machine

/-- Registers that the scale names. -/
def PackScale.vregs : PackScale → List Nat
  | .none => []
  | .sx b => [b]
  | .sa b c => [b, c]

end Sys2Proof

namespace Sys2Proof.Machine

open Sys2Proof

def packScalePoison (l : Lane) : PackScale → Bool
  | .none => false
  | .sx b => (l.rv b).side
  | .sa b _ => (l.rv b).pF32

/-- The scale byte that `.sa` writes. -/
def packScaleRegs (x : RegVal) : PackScale → List (Nat × RegVal)
  | .sa _ c => [(c, x)]
  | _ => []

/-- Poison data of packed elements (07 Table 7.10). -/
def poisonElems (ty : Ty) : RegVal :=
  let p : Nat := match ty with
    | .f16 => poison16 | .bf16 => poisonBf | .e4m3 => 0x7F | .e5m2 => 0x7E | .e2m1 => 0x7 | _ => 0x1F
  { val := BitVec.ofNat 32 (((upto 0 ty.perReg).map fun j => p * 2 ^ (ty.slotBits * j)).foldl (· + ·) 0), side := true }

/-- Elements of a `pack` from the source values in order: bits, flags and `RNGS` after the draws. -/
def packElems (ty : Ty) (rnd : Rnd) (sat ftz : Bool) (e : Int) : Nat → List Word → Word → Nat × Nat × Word
  | _, [], rngs => (0, 0, rngs)
  | j, x :: r, rngs =>
      let rngs := if rnd = Rnd.rs then rngsNext rngs else rngs
      let c := narrow ty.fmt ((fv32 x).scale (-e)) (x.getLsbD 31) rnd rngs sat ftz
      let t := packElems ty rnd sat ftz e (j + 1) r rngs
      (c.1 * 2 ^ (ty.slotBits * j) + t.1, c.2 ||| t.2.1, t.2.2)

def execPack (g : Guard) (d a : Nat) (ty : Ty) (rnd : Rnd) (sat ftz : Bool) (sc : PackScale) (s : State) : Res :=
  .next (s.laneOp ([d] ++ grp a ty.perReg ++ sc.vregs) [] g none fun l =>
    let e := packExp ty l sc
    let r := packElems ty rnd sat ftz e 0 ((grp a ty.perReg).map l.rd) l.rngs
    let o := { Out1.none with rngs := if rnd = Rnd.rs then some r.2.2 else .none }
    if (grp a ty.perReg).any (fun n => (l.rv n).pF32) || packScalePoison l sc then
      .ok { o with regs := (d, poisonElems ty) :: packScaleRegs .poison sc }
    else
      .ok { o with
        regs := (d, .clean (BitVec.ofNat 32 r.1)) :: packScaleRegs (.clean (BitVec.ofInt 32 (e + 127))) sc
        flags := r.2.1 })

/-! ### unpk (09 R194) -/

end Sys2Proof.Machine

namespace Sys2Proof

open Sys2Proof.Machine

def UnpkScale.vregs : UnpkScale → List Nat
  | .none => []
  | .sx b | .se b => [b]

end Sys2Proof

namespace Sys2Proof.Machine

open Sys2Proof

/-- The scale exponent of an `unpk`; none for the NaN scale byte. -/
def unpkExp (l : Lane) : UnpkScale → Option Int
  | .none => some 0
  | .sx b => some (clampScale (sv (l.rd b)))
  | .se b => let x := (l.rd b).toNat % 256; if x = 255 then .none else some ((x : Int) - 127)

/-- Poison of the unpacked register: the side bit, or a payload where it is read as FP16 or BF16 (07 R151). -/
def unpkPoison (ty : Ty) (x : RegVal) : Bool :=
  match ty with
  | .f16 => x.pPk false
  | .bf16 => x.pPk true
  | _ => x.side

/-- One element of an `unpk`. -/
def unpkElem (ty : Ty) (e : Option Int) (x : Word) (j : Nat) : Rounded :=
  let c := x.toNat / 2 ^ (ty.slotBits * j) % 2 ^ ty.slotBits
  if ty = .s8 || ty = .z8 then ((intOf ty c % (2 ^ 32 : Nat)).toNat, 0)
  else match e, ty.fmt.decode (c % 2 ^ ty.fmt.width) with
    | .none, _ | _, .nan => (fp32.nanCode, 0)
    | some _, .inf n => (fp32.infCode n, 0)
    | some k, .num n m y => rne n m (y + k)

def execUnpk (g : Guard) (d a : Nat) (ty : Ty) (sc : UnpkScale) (s : State) : Res :=
  .next (s.laneOp (grp d ty.perReg ++ [a] ++ sc.vregs) [] g none fun l =>
    if unpkPoison ty (l.rv a) || sc.vregs.any (fun n => (l.rv n).side) then .regs ((grp d ty.perReg).map fun n => (n, .poison))
    else
      let rs := (upto 0 ty.perReg).map fun j => (d + j, unpkElem ty (unpkExp l sc) (l.rd a) j)
      .ok { Out1.none with
        regs := rs.map fun r => (r.1, .clean (BitVec.ofNat 32 r.2.1))
        flags := (rs.map fun r => r.2.2).foldl (· ||| ·) 0 })

end Sys2Proof.Machine
end

