-- ==== Sys2Proof/Decode.lean ====
section
/-! DEFINITION. Decoding of instruction words, total and rejecting by name, and the encoder (chapter 05, with the field
tables of chapters 09, 11, 13, 15, 17, 19 and 21). Words split into fields once; cells read fields only. -/

namespace Sys2Proof

/-- Why words are no instruction: every one raises cause 0x01 (05 R91). -/
inductive DecodeError where
  /-- A reserved major opcode, member or function value (05 R118, R119, R121). -/
  | reserved
  /-- `X` = 0 where the entry requires an extension word (05 R106, R119). -/
  | needsExtension
  /-- Nonzero `LA` on a short-latency or uniform-class instruction (05 R106). -/
  | lookahead
  /-- A negated guard on `G` = 7 (05 R96). -/
  | guardNegated
  /-- A nonzero unused field (05 R97). -/
  | unusedField
  /-- An operand outside its range or group alignment (05 R98, R99). -/
  | operandRange
  /-- A modifier, type, scope or immediate that the entry does not list. -/
  | badModifier
  deriving DecidableEq, Repr

/-- The fields of an instruction's words (05 Tables 5.1 to 5.3). `uni` is bit 31; without an extension word its fields
are zero; `lit` is the literal word, zero when there is none. -/
structure Fields where
  uni : Bool
  x : Bool
  op : Nat
  d : Nat
  a : Nat
  b : Nat
  g : Nat
  f : Nat
  la : Nat
  c : Nat
  gn : Bool
  md : Nat
  imm : Nat
  lit : Nat
  deriving DecidableEq, Repr

/-- Continue when the condition holds, else reject under the given name. -/
def chk {α : Type} (ok : Bool) (e : DecodeError) (k : Except DecodeError α) : Except DecodeError α :=
  if ok then k else .error e

/-- Continue with the value, or reject. -/
def pick {α β : Type} (o : Option α) (e : DecodeError) (k : α → Except DecodeError β) : Except DecodeError β :=
  match o with
  | some x => k x
  | none => .error e

/-! ### Codes -/

/-- 07 Table 7.5. -/
def rndOf : Nat → Option Rnd
  | 0 => some .rn | 1 => some .rz | 2 => some .ru | 3 => some .rd | 4 => some .rs | _ => none

/-- 07 Table 7.5. -/
def Rnd.code : Rnd → Nat
  | .rn => 0 | .rz => 1 | .ru => 2 | .rd => 3 | .rs => 4

/-- 09 Table 9.3. -/
def icondOf : Nat → Option ICond
  | 0 => some .eq | 1 => some .ne | 2 => some .ltS | 3 => some .leS | 4 => some .gtS | 5 => some .geS
  | 6 => some .ltZ | 7 => some .leZ | 8 => some .gtZ | 9 => some .geZ | _ => none

/-- 09 Table 9.3. -/
def ICond.code : ICond → Nat
  | .eq => 0 | .ne => 1 | .ltS => 2 | .leS => 3 | .gtS => 4 | .geS => 5 | .ltZ => 6 | .leZ => 7 | .gtZ => 8 | .geZ => 9

/-- 09 Table 9.6. -/
def fcondOf : Nat → Option FCond
  | 0 => some .eq | 1 => some .ne | 2 => some .lt | 3 => some .le | 4 => some .gt | 5 => some .ge | 6 => some .num
  | 7 => some .nan | _ => none

/-- 09 Table 9.6. -/
def FCond.code : FCond → Nat
  | .eq => 0 | .ne => 1 | .lt => 2 | .le => 3 | .gt => 4 | .ge => 5 | .num => 6 | .nan => 7

/-- 05 Table 5.5. -/
def tyOf : Nat → Option Ty
  | 0 => some .b8 | 1 => some .b16 | 2 => some .b32 | 3 => some .b64 | 4 => some .b128 | 5 => some .s8 | 6 => some .s16
  | 7 => some .s32 | 8 => some .s64 | 9 => some .z8 | 10 => some .z16 | 11 => some .z32 | 12 => some .z64
  | 13 => some .f32 | 14 => some .f16 | 15 => some .bf16 | 16 => some .e4m3 | 17 => some .e5m2 | 18 => some .e3m2
  | 19 => some .e2m3 | 20 => some .e2m1 | _ => none

/-- 05 Table 5.5. -/
def Ty.code : Ty → Nat
  | .b8 => 0 | .b16 => 1 | .b32 => 2 | .b64 => 3 | .b128 => 4 | .s8 => 5 | .s16 => 6 | .s32 => 7 | .s64 => 8 | .z8 => 9
  | .z16 => 10 | .z32 => 11 | .z64 => 12 | .f32 => 13 | .f16 => 14 | .bf16 => 15 | .e4m3 => 16 | .e5m2 => 17
  | .e3m2 => 18 | .e2m3 => 19 | .e2m1 => 20

/-- Scope encodings grow with width (00 "Notation"). -/
def scopeOf : Nat → Option Scope
  | 0 => some .self | 1 => some .blk | 2 => some .grp | 3 => some .die | 4 => some .dev | 5 => some .sys | _ => none

/-- Scope encodings grow with width (00 "Notation"). -/
def Scope.code : Scope → Nat
  | .self => 0 | .blk => 1 | .grp => 2 | .die => 3 | .dev => 4 | .sys => 5

/-- 11 Table 11.7. -/
def aopOf : Nat → Option AOp
  | 0 => some .add | 1 => some .min | 2 => some .max | 3 => some .and | 4 => some .or | 5 => some .xor | 6 => some .exch
  | 7 => some .cas | _ => none

/-- 11 Table 11.7. -/
def AOp.code : AOp → Nat
  | .add => 0 | .min => 1 | .max => 2 | .and => 3 | .or => 4 | .xor => 5 | .exch => 6 | .cas => 7

/-- 11 R227. -/
def semOf : Nat → Option Sem
  | 0 => some .relaxed | 1 => some .acq | 2 => some .rel | 3 => some .ar | _ => none

/-- 11 R227. -/
def Sem.code : Sem → Nat
  | .relaxed => 0 | .acq => 1 | .rel => 2 | .ar => 3

/-- 13 Table 13.4. -/
def sopOf : Nat → Option SOp
  | 0 => some .add | 1 => some .min | 2 => some .max | 3 => some .and | 4 => some .or | 5 => some .xor | 6 => some .lr
  | _ => none

/-- 13 Table 13.4. -/
def SOp.code : SOp → Nat
  | .add => 0 | .min => 1 | .max => 2 | .and => 3 | .or => 4 | .xor => 5 | .lr => 6

/-- 13 Table 13.2. -/
def shflModeOf : Nat → ShflMode
  | 0 => .abs | 1 => .rel | 2 => .rot | _ => .xor

/-- 13 Table 13.2. -/
def ShflMode.code : ShflMode → Nat
  | .abs => 0 | .rel => 1 | .rot => 2 | .xor => 3

/-- 11 R222. -/
def chOf : Nat → Option CacheHint
  | 0 => some .dflt | 1 => some .cg | 2 => some .cs | _ => none

/-- 11 R222. -/
def CacheHint.code : CacheHint → Nat
  | .dflt => 0 | .cg => 1 | .cs => 2

/-- 11 R229. -/
def lvlOf : Nat → Option CacheLvl
  | 0 => some .l1 | 1 => some .l2 | 2 => some .l3 | _ => none

/-- 11 R229. -/
def CacheLvl.code : CacheLvl → Nat
  | .l1 => 0 | .l2 => 1 | .l3 => 2

/-- 15 Table 15.4. -/
def fenceOf : Nat → Option FenceKind
  | 1 => some .acq | 2 => some .rel | 3 => some .full | _ => none

/-- 15 Table 15.4. -/
def FenceKind.code : FenceKind → Nat
  | .acq => 1 | .rel => 2 | .full => 3

/-- 13 R252. -/
def dirOf : Nat → Dir
  | 0 => .next | _ => .prev

/-- 13 R252. -/
def Dir.code : Dir → Nat
  | .next => 0 | .prev => 1

/-- 05 Table 5.6. -/
def statusOf : Nat → Option StatusReg
  | 0 => some .warpw | 1 => some .laneid | 2 => some .clock | 3 => some .nsclk | 4 => some .capgen | 5 => some .priv
  | 6 => some .gdepth | 7 => some .gridh | 8 => some .rngs | 9 => some .flags | _ => none

/-- 05 Table 5.6. -/
def StatusReg.code : StatusReg → Nat
  | .warpw => 0 | .laneid => 1 | .clock => 2 | .nsclk => 3 | .capgen => 4 | .priv => 5 | .gdepth => 6 | .gridh => 7
  | .rngs => 8 | .flags => 9

/-- 05 Table 5.7. -/
def privOf : Nat → Option PrivReg
  | 0 => some .xstatus | 1 => some .xepc | 2 => some .xcause | 3 => some .xval | 4 => some .xpi | 5 => some .xprev
  | 6 => some .xvec | 7 => some .xdeleg | 8 => some .xtlanes | 9 => some .xage | 10 => some .xshadow | 11 => some .xasid
  | 12 => some .xptb | 13 => some .xvmid | 14 => some .xptb2 | 15 => some .xkey | 16 => some .xresume | 17 => some .xgwin
  | 18 => some .xackto | 19 => some .xhvec | 20 => some .xgpart | _ => none

/-- 05 Table 5.7. -/
def PrivReg.code : PrivReg → Nat
  | .xstatus => 0 | .xepc => 1 | .xcause => 2 | .xval => 3 | .xpi => 4 | .xprev => 5 | .xvec => 6 | .xdeleg => 7
  | .xtlanes => 8 | .xage => 9 | .xshadow => 10 | .xasid => 11 | .xptb => 12 | .xvmid => 13 | .xptb2 => 14 | .xkey => 15
  | .xresume => 16 | .xgwin => 17 | .xackto => 18 | .xhvec => 19 | .xgpart => 20

/-- 05 R105. -/
def frameSelOf : Nat → Option FrameSel
  | 0 => some .own | 1 => some .s | 2 => some .h | _ => none

/-- 05 R105. -/
def FrameSel.code : FrameSel → Nat
  | .own => 0 | .s => 1 | .h => 2

/-- 11 R230. -/
def cpWidthOf : Nat → Option CpWidth
  | 0 => some .hdr | 1 => some .w4 | 2 => some .w2 | _ => none

/-- 11 R230. -/
def CpWidth.code : CpWidth → Nat
  | .hdr => 0 | .w4 => 1 | .w2 => 2

/-- 17 R328. -/
def accCvOf : Nat → Option AccCv
  | 0 => some .b32 | 1 => some .bf16 | 2 => some .f16 | 3 => some .e4m3 | 4 => some .e5m2 | _ => none

/-- 17 R328. -/
def AccCv.code : AccCv → Nat
  | .b32 => 0 | .bf16 => 1 | .f16 => 2 | .e4m3 => 3 | .e5m2 => 4

/-- 09 R165: 0 wrap, 1 signed, 2 unsigned. -/
def satOf : Nat → Option Sat
  | 0 => some .wrap | 1 => some .signed | 2 => some .unsigned | _ => none

/-- 09 R165. -/
def Sat.code : Sat → Nat
  | .wrap => 0 | .signed => 1 | .unsigned => 2

/-- A one-bit field. -/
def b2n (b : Bool) : Nat := if b then 1 else 0

/-! ### Fields of words -/

/-- The arithmetic cells, which have a literal form (05 R100). -/
def literalCell (uni : Bool) (op : Nat) : Bool :=
  if uni then 1 ≤ op && op ≤ 3
  else (1 ≤ op && op ≤ 0x13) || (0x17 ≤ op && op ≤ 0x1B) || (0x1E ≤ op && op ≤ 0x21)

/-- Bit 30 of the base word: an extension word follows. -/
def hasExt (w0 : Nat) : Bool := w0 / 2 ^ 30 % 2 == 1

/-- Number of words of the instruction (05 R89, R101). -/
def wordCount (w0 w1 : Nat) : Nat :=
  if hasExt w0 then
    if w1 / 2 ^ 16 % 16 == 15 && literalCell (w0 / 2 ^ 31 % 2 == 1) (w0 / 2 ^ 24 % 64) then 3 else 2
  else 1

/-- Split base, extension and literal word into fields (05 Tables 5.1 to 5.3); words the instruction does not have are
not read. -/
def fieldsOfWords (w0 w1 w2 : Nat) : Fields :=
  let uni := w0 / 2 ^ 31 % 2 == 1
  let n := wordCount w0 w1
  let e := if n = 1 then 0 else w1
  { uni := uni
    x := hasExt w0
    op := w0 / 2 ^ 24 % 64
    d := if uni then w0 / 2 ^ 18 % 64 else w0 / 2 ^ 17 % 128
    a := if uni then w0 / 2 ^ 12 % 64 else w0 / 2 ^ 10 % 128
    b := if uni then w0 / 2 ^ 6 % 64 else w0 / 2 ^ 3 % 128
    g := if uni then w0 / 2 ^ 3 % 8 else w0 % 8
    f := if uni then w0 % 8 else 0
    la := e / 2 ^ 28 % 16
    c := e / 2 ^ 21 % 128
    gn := e / 2 ^ 20 % 2 == 1
    md := e / 2 ^ 16 % 16
    imm := e % 2 ^ 16
    lit := if n = 3 then w2 else 0 }

/-- The words of fields: the extension word when `x`, the literal word under 05 R101. -/
def Fields.words (q : Fields) : List Nat :=
  let w0 :=
    if q.uni then 2 ^ 31 + b2n q.x * 2 ^ 30 + q.op * 2 ^ 24 + q.d * 2 ^ 18 + q.a * 2 ^ 12 + q.b * 2 ^ 6 + q.g * 2 ^ 3 + q.f
    else b2n q.x * 2 ^ 30 + q.op * 2 ^ 24 + q.d * 2 ^ 17 + q.a * 2 ^ 10 + q.b * 2 ^ 3 + q.g
  let w1 := q.la * 2 ^ 28 + q.c * 2 ^ 21 + b2n q.gn * 2 ^ 20 + q.md * 2 ^ 16 + q.imm
  if q.x then
    if q.md == 15 && literalCell q.uni q.op then [w0, w1, q.lit] else [w0, w1]
  else [w0]

/-! ### Reading the cells -/

/-- The guard of the fields (05 R96). -/
def Fields.guard (q : Fields) : Guard := { p := q.g, neg := q.gn }

/-- The modifier, at its default under a literal (05 R101). -/
def Fields.mdDef (q : Fields) : Nat := if q.md = 15 then 0 else q.md

/-- The signed immediate offset of an access, as a pattern. -/
def Fields.off (q : Fields) : BitVec 16 := BitVec.ofNat 16 q.imm

/-- Second source of an arithmetic cell (05 R100); `int` says that the cell has the 15-bit form. -/
def Fields.src2 (q : Fields) (int : Bool) : Option Src2 :=
  if !q.x then some (.reg q.b)
  else if q.md = 15 then (if q.imm = 0 && q.b = 0 then some (.lit (BitVec.ofNat 32 q.lit)) else none)
  else if q.imm = 0 then some (.reg q.b)
  else if int && q.imm ≥ 2 ^ 15 && q.b = 0 then some (.imm (BitVec.ofNat 15 (q.imm - 2 ^ 15)))
  else none

/-- An extension word is there only to negate the guard: `mfs`, `mxfork`, `sret`, `hret` (05 R104, 13 R264, 19 R348, log 65). -/
def Fields.onlyNegates (q : Fields) : Bool := !q.x || q.gn

/-- Long-latency lane-class instructions (05 R106). -/
def Fields.long (q : Fields) : Bool :=
  q.op == 0x1D || (0x29 ≤ q.op && q.op ≤ 0x35) || q.op == 0x39 || q.op == 0x3C || (q.op == 0x3E && q.b == 2)

/-- Result of a cell. -/
abbrev Dec := Except DecodeError Instr

/-- A two-source integer cell with the saturation modifiers (09 R165). -/
def decSat (q : Fields) (k : Src2 → Sat → Instr) : Dec :=
  pick (q.src2 true) .operandRange fun s2 => pick (satOf q.mdDef) .badModifier fun m =>
  chk (q.c == 0) .unusedField (.ok (k s2 m))

/-- A two-source integer cell without modifiers (09 R165). -/
def decInt (q : Fields) (k : Src2 → Instr) : Dec :=
  pick (q.src2 true) .operandRange fun s2 => chk (q.mdDef == 0) .badModifier <| chk (q.c == 0) .unusedField (.ok (k s2))

/-- A two-source FP32 cell with a rounding code (09 R179). -/
def decRnd (q : Fields) (k : Src2 → Rnd → Instr) : Dec :=
  pick (q.src2 false) .operandRange fun s2 => pick (rndOf q.mdDef) .badModifier fun r =>
  chk r.arith .badModifier <| chk (q.c == 0) .unusedField (.ok (k s2 r))

/-- A packed two-source cell (09 Table 9.7). -/
def decPk (q : Fields) (k : Src2 → Bool → Instr) : Dec :=
  pick (q.src2 false) .operandRange fun s2 => chk (q.mdDef ≤ 1) .badModifier <|
  chk (q.c == 0) .unusedField (.ok (k s2 (q.mdDef == 1)))

/-- A UNARY member without a modifier (09 Table 9.5). -/
def decUnary (q : Fields) (k : Instr) : Dec :=
  chk (q.md == 0) .badModifier <| chk (q.c == 0 && q.imm == 0) .unusedField (.ok k)

/-- Lane cells 0x01 to 0x16: integer arithmetic (09). -/
def decAlu (q : Fields) : Dec :=
  let g := q.guard
  match q.op with
  | 0x01 => decSat q fun s m => .add g q.d q.a s m
  | 0x02 => decSat q fun s m => .sub g q.d q.a s m
  | 0x03 => decSat q fun s m => .mul g q.d q.a s m
  | 0x04 => chk q.x .needsExtension <| pick (q.src2 true) .operandRange fun s =>
      pick (satOf q.mdDef) .badModifier fun m => .ok (.mad g q.d q.a s q.c m)
  | 0x05 => decInt q fun s => .and g q.d q.a s
  | 0x06 => decInt q fun s => .or g q.d q.a s
  | 0x07 => decInt q fun s => .xor g q.d q.a s
  | 0x08 => decInt q fun s => .shl g q.d q.a s
  | 0x09 => decInt q fun s => .shr g q.d q.a s
  | 0x0A => decInt q fun s => .sar g q.d q.a s
  | 0x0B => decInt q fun s => .min g q.d q.a s
  | 0x0C => decInt q fun s => .max g q.d q.a s
  | 0x0D => chk q.x .needsExtension <| pick (q.src2 true) .operandRange fun s => chk (q.mdDef == 0) .badModifier <|
      chk (pOk q.c) .operandRange (.ok (.sel g q.d q.a s q.c))
  | 0x0E => pick (q.src2 true) .operandRange fun s => pick (icondOf q.mdDef) .badModifier fun cond =>
      chk (pOk q.d) .operandRange <| chk (q.c == 0) .unusedField (.ok (.icmp g q.d q.a s cond))
  | 0x0F => pick (q.src2 true) .operandRange fun s => chk s.isImm .operandRange <| chk (q.mdDef == 0) .badModifier <|
      chk (q.a == 0 && q.c == 0) .unusedField (.ok (.movi g q.d s))
  | 0x10 => pick (q.src2 true) .operandRange fun s => chk (q.mdDef ≤ 1) .badModifier <|
      chk (q.c == 0) .unusedField (.ok (.bfx g q.d q.a s (q.mdDef == 1)))
  | 0x11 => chk q.x .needsExtension <| pick (q.src2 true) .operandRange fun s =>
      chk (q.mdDef == 0) .badModifier (.ok (.bfi g q.d q.a s q.c))
  | 0x12 => pick (q.src2 true) .operandRange fun s => chk (q.mdDef < 8) .badModifier <|
      chk (q.c == 0) .unusedField (.ok (.lea g q.d q.a s q.mdDef))
  | 0x13 => chk q.x .needsExtension <| pick (q.src2 true) .operandRange fun s =>
      chk (q.mdDef ≤ 1) .badModifier (.ok (.bsel g q.d q.a s q.c (q.mdDef == 1)))
  | 0x14 => chk q.x .needsExtension <|
      match q.md with
      | 0 => chk (q.imm < 16) .unusedField <| chk (if q.imm ≥ 8 then pOk q.c else q.c == 0) .operandRange
          (.ok (.addc g q.d q.a q.b (q.imm % 8) (if q.imm ≥ 8 then some q.c else none)))
      | 1 => chk (q.imm < 16) .unusedField <| chk (if q.imm ≥ 8 then pOk q.c else q.c == 0) .operandRange
          (.ok (.subb g q.d q.a q.b (q.imm % 8) (if q.imm ≥ 8 then some q.c else none)))
      | 2 => chk (q.imm < 2 && q.c == 0) .unusedField (.ok (.mulh g q.d q.a q.b (q.imm == 1)))
      | 3 => chk (q.imm < 2 && q.c == 0) .unusedField <| chk (vGrp 2 q.d) .operandRange
          (.ok (.mulw g q.d q.a q.b (q.imm == 1)))
      | 4 => chk (q.imm == 0 && q.c == 0) .unusedField (.ok (.minz g q.d q.a q.b))
      | 5 => chk (q.imm == 0 && q.c == 0) .unusedField (.ok (.maxz g q.d q.a q.b))
      | 6 => chk (q.imm == 0 && q.c == 0) .unusedField (.ok (.andn g q.d q.a q.b))
      | 7 => chk (q.c == 0) .unusedField <|
          if q.imm = 0 then .ok (.rot g q.d q.a (.reg q.b))
          else chk (q.imm ≥ 2 ^ 15 && q.imm < 2 ^ 15 + 32 && q.b == 0) .unusedField
            (.ok (.rot g q.d q.a (.imm (BitVec.ofNat 5 (q.imm - 2 ^ 15)))))
      | _ => .error .reserved
  | 0x15 =>
      match q.b with
      | 0 => chk (q.md ≤ 1) .badModifier <| chk (q.c == 0 && q.imm == 0) .unusedField (.ok (.neg g q.d q.a (q.md == 1)))
      | 1 => chk (q.md ≤ 1) .badModifier <| chk (q.c == 0 && q.imm == 0) .unusedField (.ok (.abs g q.d q.a (q.md == 1)))
      | 2 => decUnary q (.not g q.d q.a)
      | 3 => decUnary q (.popc g q.d q.a)
      | 4 => decUnary q (.clz g q.d q.a)
      | 5 => decUnary q (.ctz g q.d q.a)
      | 6 => decUnary q (.brev g q.d q.a)
      | 7 => decUnary q (.mov g q.d q.a)
      | _ => .error .reserved
  | 0x16 => chk q.x .needsExtension <| chk (vGrp 2 q.d && vGrp 2 q.a) .operandRange <| chk (q.c == 0) .unusedField <|
      match q.md with
      | 0 => chk (vGrp 2 q.b) .operandRange <| pick (satOf q.imm) .badModifier fun m => .ok (.add64 g q.d q.a q.b m)
      | 1 => chk (vGrp 2 q.b) .operandRange <| pick (satOf q.imm) .badModifier fun m => .ok (.sub64 g q.d q.a q.b m)
      | 2 => chk (q.imm < 16) .unusedField (.ok (.lea64 g q.d q.a q.b (q.imm % 8) (q.imm ≥ 8)))
      | _ => .error .reserved
  | _ => .error .reserved

/-- Lane cells 0x17 to 0x25: floating point and dot products (09). -/
def decFp (q : Fields) : Dec :=
  let g := q.guard
  match q.op with
  | 0x17 => decRnd q fun s r => .fadd g q.d q.a s r
  | 0x18 => decRnd q fun s r => .fsub g q.d q.a s r
  | 0x19 => decRnd q fun s r => .fmul g q.d q.a s r
  | 0x1A => chk q.x .needsExtension <| pick (q.src2 false) .operandRange fun s => pick (rndOf q.mdDef) .badModifier fun r =>
      chk r.arith .badModifier (.ok (.ffma g q.d q.a s q.c r))
  | 0x1B => pick (q.src2 false) .operandRange fun s => pick (fcondOf q.mdDef) .badModifier fun cond =>
      chk (pOk q.d) .operandRange <| chk (q.c == 0) .unusedField (.ok (.fcmp g q.d q.a s cond))
  | 0x1C => chk q.x .needsExtension <| chk (q.c == 0) .unusedField <|
      match q.md with
      | 0 => chk (q.imm == 0) .unusedField (.ok (.fmin g q.d q.a q.b))
      | 1 => chk (q.imm == 0) .unusedField (.ok (.fmax g q.d q.a q.b))
      | 2 => chk (q.imm == 0 && q.b == 0) .unusedField (.ok (.fclass g q.d q.a))
      | 3 => chk (q.b == 0) .unusedField <| pick (rndOf q.imm) .badModifier fun r => chk r.arith .badModifier
          (.ok (.fround g q.d q.a r))
      | _ => .error .reserved
  | 0x1D => chk (q.c == 0 && q.md == 0 && q.imm == 0) .unusedField <|
      match q.b with
      | 0 => .ok (.frcp g q.d q.a q.la)
      | 1 => .ok (.frsq g q.d q.a q.la)
      | 2 => .ok (.fsqrt g q.d q.a q.la)
      | 3 => .ok (.fexp2 g q.d q.a q.la)
      | 4 => .ok (.flog2 g q.d q.a q.la)
      | 5 => .ok (.fsin g q.d q.a q.la)
      | 6 => .ok (.fcos g q.d q.a q.la)
      | 7 => .ok (.ftanh g q.d q.a q.la)
      | _ => .error .reserved
  | 0x1E => decPk q fun s t => .hadd2 g q.d q.a s t
  | 0x1F => decPk q fun s t => .hsub2 g q.d q.a s t
  | 0x20 => decPk q fun s t => .hmul2 g q.d q.a s t
  | 0x21 => chk q.x .needsExtension <| pick (q.src2 false) .operandRange fun s =>
      chk (q.mdDef ≤ 1) .badModifier (.ok (.hfma2 g q.d q.a s q.c (q.mdDef == 1)))
  | 0x22 => chk q.x .needsExtension <| chk (q.c == 0) .unusedField <|
      match q.md with
      | 0 => chk (q.imm == 0 || q.imm == 8) .unusedField (.ok (.hmin2 g q.d q.a q.b (q.imm == 8)))
      | 1 => chk (q.imm == 0 || q.imm == 8) .unusedField (.ok (.hmax2 g q.d q.a q.b (q.imm == 8)))
      | 2 => chk (q.imm < 16) .unusedField <| pick (fcondOf (q.imm % 8)) .badModifier fun cond =>
          .ok (.hcmp2 g q.d q.a q.b (q.imm ≥ 8) cond)
      | _ => .error .reserved
  | 0x23 => chk q.x .needsExtension <| chk (q.md < 8) .badModifier <| chk (q.imm == 0) .unusedField
      (.ok (.idp4 g q.d q.a q.b q.c (q.md % 2 == 1) (q.md / 2 % 2 == 1) (q.md ≥ 4)))
  | 0x24 => chk q.x .needsExtension <| chk (q.md < 8) .badModifier <| chk (q.imm == 0) .unusedField
      (.ok (.idp8 g q.d q.a q.b q.c (q.md % 2 == 1) (q.md / 2 % 2 == 1) (q.md ≥ 4)))
  | 0x25 => chk q.x .needsExtension <| pick (rndOf (q.md % 8)) .badModifier fun r => chk r.arith .badModifier <|
      chk (q.imm == 0) .unusedField (.ok (.hdp2 g q.d q.a q.b q.c r (q.md ≥ 8)))
  | _ => .error .reserved

/-- Lane cells 0x26 to 0x28: conversions (09 R189 to R194). -/
def decConv (q : Fields) : Dec :=
  let g := q.guard
  chk q.x .needsExtension <| chk (q.md == 0) .badModifier <|
  match q.op with
  | 0x26 => chk (q.b == 0 && q.c == 0 && q.imm < 2 ^ 15) .unusedField <|
      pick (tyOf (q.imm % 32)) .badModifier fun dt => pick (tyOf (q.imm / 32 % 32)) .badModifier fun sty =>
      pick (rndOf (q.imm / 1024 % 8)) .badModifier fun r =>
      let sat := q.imm / 8192 % 2 == 1
      let ftz := q.imm / 16384 % 2 == 1
      chk (dt.cvtOk && sty.cvtOk && cvtRndOk dt sty r && cvtFtzOk dt sty ftz) .badModifier <|
      chk (vGrp dt.regs q.d && vGrp sty.regs q.a) .operandRange (.ok (.cvt g q.d q.a dt sty r sat ftz))
  | 0x27 => chk (q.imm < 2 ^ 12) .unusedField <|
      pick (tyOf (q.imm % 32)) .badModifier fun ty => pick (rndOf (q.imm / 32 % 8)) .badModifier fun r =>
      let sat := q.imm / 256 % 2 == 1
      let ftz := q.imm / 512 % 2 == 1
      chk ty.packOk .badModifier <| chk (vGrp ty.perReg q.a) .operandRange <|
      match q.imm / 1024 with
      | 0 => chk (q.b == 0 && q.c == 0) .unusedField (.ok (.pack g q.d q.a ty r sat ftz .none))
      | 1 => chk (q.c == 0) .unusedField (.ok (.pack g q.d q.a ty r sat ftz (.sx q.b)))
      | 2 => .ok (.pack g q.d q.a ty r sat ftz (.sa q.b q.c))
      | _ => .error .badModifier
  | 0x28 => chk (q.imm < 2 ^ 12 && q.imm / 32 % 32 == 0 && q.c == 0) .unusedField <|
      pick (tyOf (q.imm % 32)) .badModifier fun ty =>
      chk ty.unpkOk .badModifier <| chk (vGrp ty.perReg q.d) .operandRange <|
      match q.imm / 1024 with
      | 0 => chk (q.b == 0) .unusedField (.ok (.unpk g q.d q.a ty .none))
      | 1 => chk ty.packOk .badModifier (.ok (.unpk g q.d q.a ty (.sx q.b)))
      | 2 => chk ty.packOk .badModifier (.ok (.unpk g q.d q.a ty (.se q.b)))
      | _ => .error .badModifier
  | _ => .error .reserved

/-- Fields common to `vscan` and `vscanc` (13 Table 13.5). -/
def decScan (q : Fields) (k : Option Nat → SOp → Ty → Dec) : Dec :=
  pick (sopOf (q.md % 8)) .badModifier fun op => pick (tyOf (q.imm % 32)) .badModifier fun ty =>
  chk (op.tyOk ty) .badModifier <| chk (vGrp op.regs q.d && vGrp op.regs q.a) .operandRange <|
  if q.imm / 32 % 2 = 1 then chk (pOk q.b) .operandRange (k (some q.b) op ty)
  else chk (q.b == 0) .unusedField (k none op ty)

/-- Lane cells 0x29 to 0x2E: the meet instructions (13 R239 to R252). -/
def decMeet (q : Fields) : Dec :=
  let g := q.guard
  chk (sGrp 2 q.c) .operandRange <|
  match q.op with
  | 0x29 =>
      let w64 := q.md / 4 % 2 == 1
      let k := if w64 then 2 else 1
      let mode := shflModeOf (q.md % 4)
      let seg := q.imm / 256 % 8
      let wr := q.imm / 2048 % 2 == 1
      let pv := q.imm / 4096 % 8
      chk (q.md < 8 && seg < 7 && !(wr && (mode == .abs || mode == .rel))) .badModifier <|
      chk (q.imm / 128 % 2 == 0) .unusedField <| chk (vGrp k q.d && vGrp k q.a) .operandRange <|
      if q.imm / 2 ^ 15 = 1 then
        chk (q.b == 0) .unusedField
          (.ok (.shfl g q.d q.a mode w64 (.imm (BitVec.ofNat 7 (q.imm % 128))) seg wr pv q.c q.la))
      else chk (q.imm % 128 == 0) .unusedField (.ok (.shfl g q.d q.a mode w64 (.reg q.b) seg wr pv q.c q.la))
  | 0x2A => chk (q.md < 8) .badModifier <| chk (q.b == 0 && q.imm < 32) .unusedField <|
      pick (sopOf q.md) .badModifier fun op => pick (tyOf q.imm) .badModifier fun ty =>
      chk (op.tyOk ty) .badModifier <| chk (sGrp op.regs q.d && vGrp op.regs q.a) .operandRange
        (.ok (.redux g q.d q.a op ty q.c q.la))
  | 0x2B => chk (q.imm < 64) .unusedField <| decScan q fun seg op ty =>
      .ok (.vscan g q.d q.a seg op (q.md ≥ 8) ty q.c q.la)
  | 0x2C => chk (q.imm < 2 ^ 12) .unusedField <| decScan q fun seg op ty => chk (sGrp op.regs (q.imm / 64)) .operandRange
      (.ok (.vscanc g q.d q.a seg op (q.md ≥ 8) ty (q.imm / 64) q.c q.la))
  | 0x2D => chk (q.b == 0) .unusedField <|
      match q.md with
      | 0 => chk (q.imm < 4) .unusedField <| chk (pOk q.a) .operandRange <|
          match q.imm with
          | 0 => chk (pOk q.d) .operandRange (.ok (.vote g (.pred .some q.d) q.a q.c q.la))
          | 1 => chk (pOk q.d) .operandRange (.ok (.vote g (.pred .every q.d) q.a q.c q.la))
          | 2 => chk (pOk q.d) .operandRange (.ok (.vote g (.pred .same q.d) q.a q.c q.la))
          | _ => chk (sGrp 2 q.d) .operandRange (.ok (.vote g (.bits q.d) q.a q.c q.la))
      | 1 => chk (q.imm < 2) .unusedField <| chk (vGrp 2 q.d && vGrp (if q.imm = 1 then 2 else 1) q.a) .operandRange
          (.ok (.matchLanes g q.d q.a (q.imm == 1) q.c q.la))
      | _ => .error .reserved
  | 0x2E => chk (q.b == 0) .unusedField <|
      match q.md with
      | 0 => chk (q.d == 0 && q.imm < 2) .unusedField (.ok (.rsend g q.a (dirOf q.imm) q.c q.la))
      | 1 => chk (q.a == 0 && q.imm < 2) .unusedField (.ok (.rrecv g q.d (dirOf q.imm) q.c q.la))
      | 2 => chk (q.a == 0 && q.imm < 4) .unusedField <| chk (pOk q.d) .operandRange
          (.ok (.rpoll g q.d (dirOf (q.imm % 2)) (q.imm ≥ 2) q.c q.la))
      | _ => .error .reserved
  | _ => .error .reserved

/-- Lane cells 0x2F to 0x35: memory and synchronisation (11 R222 to R229, 15 R288 to R298). -/
def decMem (q : Fields) : Dec :=
  let g := q.guard
  match q.op with
  | 0x2F => chk (q.md == 0) .badModifier <| pick (tyOf q.b) .badModifier fun ty => pick (scopeOf (q.c % 8)) .badModifier fun sc =>
      pick (chOf (q.c / 16 % 4)) .badModifier fun ch => chk (q.c < 64) .unusedField <| chk ty.loadOk .badModifier <|
      chk (vGrp ty.regs q.d && vGrp 2 q.a) .operandRange (.ok (.ld g q.d q.a ty (q.c / 8 % 2 == 1) ch sc q.off q.la))
  | 0x30 => chk (q.md == 0) .badModifier <| pick (tyOf q.d) .badModifier fun ty => pick (scopeOf (q.c % 8)) .badModifier fun sc =>
      pick (chOf (q.c / 16 % 4)) .badModifier fun ch => chk (q.c < 64) .unusedField <| chk ty.storeOk .badModifier <|
      chk (vGrp ty.regs q.b && vGrp 2 q.a) .operandRange (.ok (.st g q.b q.a ty (q.c / 8 % 2 == 1) ch sc q.off q.la))
  | 0x31 => chk (q.md ≤ 1) .badModifier <| pick (tyOf q.b) .badModifier fun ty => chk ty.loadOk .badModifier <|
      chk (vGrp ty.regs q.d && vGrp 2 q.a) .operandRange <|
      if q.md = 1 then .ok (.ldb g q.d q.a ty (.target q.c) q.off q.la)
      else chk (q.c < 16) .unusedField (.ok (.ldb g q.d q.a ty (.rf q.c) q.off q.la))
  | 0x32 => chk (q.c == 0) .unusedField <|
      match q.md with
      | 0 => pick (tyOf q.b) .badModifier fun ty => chk ty.loadOk .badModifier <| chk (vGrp ty.regs q.d) .operandRange
          (.ok (.lds g q.d q.a ty q.off q.la))
      | 1 => pick (tyOf q.d) .badModifier fun ty => chk ty.storeOk .badModifier <| chk (vGrp ty.regs q.b) .operandRange
          (.ok (.sts g q.b q.a ty q.off q.la))
      | 2 => pick (tyOf q.b) .badModifier fun ty => chk ty.loadOk .badModifier <| chk (vGrp ty.regs q.d) .operandRange
          (.ok (.ldg g q.d q.a ty q.off q.la))
      | 3 => pick (tyOf q.d) .badModifier fun ty => chk ty.storeOk .badModifier <| chk (vGrp ty.regs q.b) .operandRange
          (.ok (.stg g q.b q.a ty q.off q.la))
      | _ => .error .reserved
  | 0x33 => pick (aopOf (q.imm % 16)) .badModifier fun op => pick (tyOf (q.imm / 16 % 32)) .badModifier fun ty =>
      pick (scopeOf (q.imm / 512 % 8)) .badModifier fun sc => pick (semOf (q.imm / 4096 % 4)) .badModifier fun sem =>
      chk (op.tyOk ty) .badModifier <| chk (vGrp ty.regs q.b) .operandRange <|
      match q.md with
      | 0 => chk (q.imm < 2 ^ 14) .unusedField <| chk (if op == .cas then vGrp ty.regs q.c else q.c == 0) .operandRange <|
          chk (vGrp ty.regs q.d && vGrp 2 q.a) .operandRange (.ok (.atom g q.d q.a q.b q.c op ty sc sem q.la))
      | 1 => chk (q.imm < 2 ^ 14 && q.d == 0 && q.c == 0) .unusedField <|
          chk (!(op == .exch || op == .cas) && (sem == .relaxed || sem == .rel)) .badModifier <|
          chk (vGrp 2 q.a) .operandRange (.ok (.red g q.a q.b op ty sc (sem == .rel) q.la))
      | 2 => chk (q.imm < 2 ^ 15 && sc == .self) .unusedField <|
          chk (if op == .cas then vGrp ty.regs q.c else q.c == 0) .operandRange <| chk (vGrp ty.regs q.d) .operandRange
          (.ok (.atoms g q.d q.a q.b q.c op ty sem (q.imm / 2 ^ 14 == 1) q.la))
      | _ => .error .reserved
  | 0x34 => chk (q.d == 0 && q.b == 0) .unusedField <| chk (vGrp 2 q.a) .operandRange <|
      match q.md with
      | 0 => chk (q.c < 8) .unusedField <| pick (lvlOf (q.c % 4)) .badModifier fun l => .ok (.pf g q.a l (q.c ≥ 4) q.off q.la)
      | 1 => chk (q.c < 8) .unusedField <| pick (scopeOf q.c) .badModifier fun sc => chk sc.isWide .badModifier
          (.ok (.cinv g q.a sc q.off q.la))
      | 2 => chk (q.c < 8) .unusedField <| pick (scopeOf q.c) .badModifier fun sc => chk sc.isWide .badModifier
          (.ok (.cwb g q.a sc q.off q.la))
      | _ => .error .reserved
  | 0x35 => chk (q.b == 0) .unusedField <|
      match q.md with
      | 0 => chk (q.d == 0 && q.a == 0 && q.c == 0 && q.imm < 32) .unusedField <| pick (fenceOf (q.imm % 4)) .badModifier fun k =>
          pick (scopeOf (q.imm / 4)) .badModifier fun sc => chk (sc != .self) .badModifier (.ok (.fence g k sc q.la))
      | 1 => chk (q.c == 0) .unusedField <| chk (vGrp 2 q.a) .operandRange (.ok (.rndadv g q.d q.a q.off q.la))
      | 2 => chk (q.c == 0) .unusedField <| chk (vGrp 2 q.a) .operandRange (.ok (.rndld g q.d q.a q.off q.la))
      | 3 => chk (vGrp 2 q.a) .operandRange (.ok (.rndwait g q.d q.a q.c q.off q.la))
      | _ => .error .reserved
  | _ => .error .reserved

/-- The displacement of `bra` and `call`: 21 bits of the base word, 37 with an extension word (13 R254). -/
def Fields.disp37 (q : Fields) : BitVec 37 :=
  let lo := q.d * 2 ^ 14 + q.a * 2 ^ 7 + q.b
  if q.x then BitVec.ofNat 37 (q.imm * 2 ^ 21 + lo) else (BitVec.ofNat 21 lo).signExtend 37

/-- The displacement of `ubra` and `ucall`: 18 bits, 34 with an extension word (13 R256). -/
def Fields.disp34 (q : Fields) : BitVec 34 :=
  let lo := q.d * 2 ^ 12 + q.a * 2 ^ 6 + q.b
  if q.x then BitVec.ofNat 34 (q.imm * 2 ^ 18 + lo) else (BitVec.ofNat 18 lo).signExtend 34

/-- Lane cells 0x36 to 0x3E: control, routing and privilege (13 R254, R255, R269, 05 R104 to R120, 19, 21 R372). -/
def decFlow (q : Fields) : Dec :=
  let g := q.guard
  match q.op with
  | 0x36 => chk (q.c == 0 && q.md == 0) .unusedField (.ok (.bra g q.disp37))
  | 0x37 => chk (q.c == 0 && q.md == 0) .unusedField (.ok (.call g q.disp37))
  | 0x38 => chk (q.d == 0 && q.c == 0 && q.md == 0) .unusedField <|
      match q.b with
      | 0 => chk (q.a == 0 && q.imm == 0) .unusedField (.ok (.nop g))
      | 1 => chk (q.a == 0 && q.imm == 0) .unusedField (.ok (.exit g))
      | 2 => chk (q.a == 0) .unusedField <| chk (!q.x || q.imm != 0) .badModifier
          (.ok (.pause g (if q.x then BitVec.ofNat 16 q.imm else 32)))
      | 3 => chk (q.imm == 0) .unusedField <| chk (vGrp 2 q.a) .operandRange (.ok (.brx g q.a))
      | 4 => chk (q.imm == 0) .unusedField <| chk (vGrp 2 q.a) .operandRange (.ok (.ret g q.a))
      | 5 => chk (q.a == 0) .unusedField (.ok (.brk g (BitVec.ofNat 16 q.imm)))
      | 6 => chk (q.a == 0 && q.imm < 2 ^ 12) .unusedField (.ok (.sys g (BitVec.ofNat 12 q.imm)))
      | _ => .error .reserved
  | 0x39 => chk (q.d == 0 && q.c == 0 && q.md == 0) .unusedField <| chk (vGrp 2 q.a) .operandRange
      (.ok (.mwait g q.a q.b q.off q.la))
  | 0x3A => chk (q.g == 7 && !q.x) .badModifier <| chk (q.d < 64 && q.a < 4 && q.b < 16) .operandRange
      (.ok (.rep (q.d + 1) (q.a + 1) (BitVec.ofNat 4 q.b)))
  | 0x3B => chk q.onlyNegates .badModifier <| chk (q.a == 0 && q.c == 0 && q.md == 0 && q.imm == 0) .unusedField <| pick (statusOf q.b) .badModifier fun r =>
      chk (vGrp r.regs q.d) .operandRange (.ok (.mfs g q.d r))
  | 0x3C => chk (q.b == 0 && q.imm == 0) .unusedField <|
      match q.md with
      | 0 => chk (vGrp 4 q.d && q.c < 4) .operandRange (.ok (.route g q.d q.a q.c q.la))
      | 1 => chk (q.d == 0 && q.c == 0) .unusedField <| chk (vGrp 2 q.a) .operandRange (.ok (.rdone g q.a q.la))
      | _ => .error .reserved
  | 0x3D => chk q.x .needsExtension <| chk (q.md ≤ 1) .reserved <|
      pick (privOf (q.imm % 2 ^ 12)) .badModifier fun r => pick (frameSelOf (q.imm / 2 ^ 12)) .badModifier fun lvl =>
      chk (r.perLevel || lvl == .own) .badModifier <| chk (q.b == 0 && q.c == 0) .unusedField <|
      if q.md = 0 then chk (q.a == 0) .unusedField <| chk (vGrp r.regs q.d) .operandRange (.ok (.xrd g q.d r lvl))
      else chk (q.d == 0) .unusedField <| chk (r != .xtlanes) .badModifier <| chk (vGrp r.regs q.a) .operandRange
        (.ok (.xwr g q.a r lvl))
  | 0x3E => chk (q.c == 0 && q.md == 0) .unusedField <|
      match q.b with
      | 0 => chk q.onlyNegates .badModifier <| chk (q.d == 0 && q.a == 0 && q.imm == 0) .unusedField (.ok (.sret g))
      | 1 => chk q.onlyNegates .badModifier <| chk (q.d == 0 && q.a == 0 && q.imm == 0) .unusedField (.ok (.hret g))
      | 2 => chk (q.imm < 64) .unusedField <|
          let sc : Option TlbScope := match q.imm / 8 with | 3 => some .die | 4 => some .dev | _ => none
          match q.imm % 8 with
          | 0 => pick sc .badModifier fun sc => chk (q.d == 0) .unusedField <| chk (vGrp 2 q.a) .operandRange
              (.ok (.tlbinvVa g q.a sc q.la))
          | 1 => pick sc .badModifier fun sc => chk (q.d == 0) .unusedField (.ok (.tlbinvAsid g q.a sc q.la))
          | 2 => pick sc .badModifier fun sc => chk (q.d == 0) .unusedField <| chk (vGrp 2 q.a) .operandRange
              (.ok (.tlbinvIpa g q.a sc q.la))
          | 3 => pick sc .badModifier fun sc => chk (q.d == 0) .unusedField (.ok (.tlbinvVmid g q.a sc q.la))
          | 4 => pick sc .badModifier fun sc => chk (q.d == 0 && q.a == 0) .unusedField (.ok (.tlbinvAll g sc q.la))
          | 5 => chk (q.imm / 8 == 0) .badModifier (.ok (.tlbinvRgn g q.d q.a q.la))
          | _ => .error .badModifier
      | _ => .error .reserved
  | _ => .error .reserved

/-- A lane-class instruction (05 R91, R96, R106, R118). -/
def decLane (q : Fields) : Dec :=
  chk (!(q.gn && q.g == 7)) .guardNegated <|
  chk (q.long || q.la == 0) .lookahead <|
  chk (!q.long || q.x) .needsExtension <|
  if q.op ≤ 0x16 then decAlu q
  else if q.op ≤ 0x25 then decFp q
  else if q.op ≤ 0x28 then decConv q
  else if q.op ≤ 0x2E then decMeet q
  else if q.op ≤ 0x35 then decMem q
  else decFlow q

/-- A uniform two-source cell without modifiers (09 R196). -/
def decU2 (q : Fields) (k : Src2 → Instr) : Dec :=
  pick (q.src2 true) .operandRange fun s => chk (q.mdDef == 0) .badModifier <| chk (q.c == 0) .unusedField (.ok (k s))

/-- Uniform cells 0x01 to 0x03: uniform arithmetic (09 R196 to R198). -/
def decUAlu (q : Fields) : Dec :=
  let g := q.guard
  match q.op with
  | 1 =>
      match q.f with
      | 0 => decU2 q fun s => .uadd g q.d q.a s
      | 1 => decU2 q fun s => .usub g q.d q.a s
      | 2 => decU2 q fun s => .umul g q.d q.a s
      | 3 => chk q.x .needsExtension <| pick (q.src2 true) .operandRange fun s => chk (q.mdDef == 0) .badModifier
          (.ok (.umad g q.d q.a s q.c))
      | 4 => pick (q.src2 true) .operandRange fun s => chk (q.mdDef ≤ 1) .badModifier <| chk (q.c == 0) .unusedField
          (.ok (.umin g q.d q.a s (q.mdDef == 1)))
      | 5 => pick (q.src2 true) .operandRange fun s => chk (q.mdDef ≤ 1) .badModifier <| chk (q.c == 0) .unusedField
          (.ok (.umax g q.d q.a s (q.mdDef == 1)))
      | 6 => pick (q.src2 true) .operandRange fun s => pick (icondOf q.mdDef) .badModifier fun cond =>
          chk (pOk q.d) .operandRange <| chk (q.c == 0) .unusedField (.ok (.ucmp g q.d q.a s cond))
      | _ => chk (q.a == 0) .unusedField <| decU2 q fun s => .umov g q.d s
  | 2 =>
      match q.f with
      | 0 => decU2 q fun s => .uand g q.d q.a s
      | 1 => decU2 q fun s => .uor g q.d q.a s
      | 2 => decU2 q fun s => .uxor g q.d q.a s
      | 3 => decU2 q fun s => .ushl g q.d q.a s
      | 4 => decU2 q fun s => .ushr g q.d q.a s
      | 5 => decU2 q fun s => .usar g q.d q.a s
      | 6 => pick (q.src2 true) .operandRange fun s => chk (q.mdDef ≤ 1) .badModifier <| chk (q.c == 0) .unusedField
          (.ok (.ubfx g q.d q.a s (q.mdDef == 1)))
      | _ => chk (q.b == 0 && q.md == 0 && q.imm == 0 && q.c == 0) .unusedField (.ok (.upopc g q.d q.a))
  | _ =>
      match q.f with
      | 0 => pick (q.src2 true) .operandRange fun s => chk (s.isImm && vGrp 2 q.d) .operandRange <|
          chk (q.mdDef == 0) .badModifier <| chk (q.a == 0 && q.c == 0) .unusedField (.ok (.umovi g q.d s))
      | 1 => pick (q.src2 true) .operandRange fun s => chk (s.uInt 2 true && vGrp 2 q.d && vGrp 2 q.a) .operandRange <|
          chk (q.mdDef == 0) .badModifier <| chk (q.c == 0) .unusedField (.ok (.uadd64 g q.d q.a s))
      | 2 => pick (q.src2 true) .operandRange fun s => chk (vGrp 2 q.d && vGrp 2 q.a) .operandRange <|
          chk (q.c == 0) .unusedField (.ok (.ulea64 g q.d q.a s (q.mdDef % 8) (q.mdDef ≥ 8)))
      | _ => .error .reserved

/-- Uniform cells 0x04 to 0x06 and 0x08: memory, flow, barriers, tiller forks (11 R225, 13 R256, R259 to R265). -/
def decUFlow (q : Fields) : Dec :=
  let g := q.guard
  match q.op with
  | 4 => chk q.x .needsExtension <|
      match q.f with
      | 0 => chk (q.md == 0) .badModifier <| pick (tyOf q.b) .badModifier fun ty => pick (scopeOf (q.c % 8)) .badModifier fun sc =>
          chk (q.c < 16) .unusedField <| chk ty.loadOk .badModifier <| chk (sGrp ty.regs q.d && sGrp 2 q.a) .operandRange
          (.ok (.uld g q.d q.a ty (q.c / 8 == 1) sc q.off))
      | 1 => chk (q.md ≤ 1) .badModifier <| pick (tyOf q.b) .badModifier fun ty => chk ty.loadOk .badModifier <|
          chk (sGrp ty.regs q.d && sGrp 2 q.a) .operandRange <|
          if q.md = 1 then .ok (.uldb g q.d q.a ty (.target q.c) q.off)
          else chk (q.c < 16) .unusedField (.ok (.uldb g q.d q.a ty (.rf q.c) q.off))
      | 2 => chk (q.md == 0) .badModifier <| pick (tyOf q.d) .badModifier fun ty => pick (scopeOf (q.c % 8)) .badModifier fun sc =>
          chk (q.c < 16) .unusedField <| chk ty.storeOk .badModifier <| chk (sGrp ty.regs q.b && sGrp 2 q.a) .operandRange
          (.ok (.ust g q.b q.a ty (q.c / 8 == 1) sc q.off))
      | _ => .error .reserved
  | 5 => chk (q.c == 0 && q.md == 0) .unusedField <|
      match q.f with
      | 0 => .ok (.ubra g q.disp34)
      | 1 => chk (q.d == 0 && q.b == 0 && q.imm == 0) .unusedField <| chk (sGrp 2 q.a) .operandRange (.ok (.ubrx g q.a))
      | 2 => .ok (.ucall g q.disp34)
      | 3 => chk (q.d == 0 && q.b == 0 && q.imm == 0) .unusedField <| chk (sGrp 2 q.a) .operandRange (.ok (.uret g q.a))
      | _ => .error .reserved
  | 6 => chk (q.a < 32) .operandRange <| chk (q.c == 0) .unusedField <| chk (q.md < 4) .badModifier <|
      let grp := q.md % 2 == 1
      let tok := q.md ≥ 2
      match q.f with
      | 0 => chk q.x .needsExtension <| chk (!tok && q.d == 0 && q.b == 0) .unusedField <| chk (q.imm != 0) .badModifier
          (.ok (.barInit g q.a grp (BitVec.ofNat 16 q.imm)))
      | 1 => chk (q.b == 0 && q.imm == 0 && (tok || q.d == 0)) .unusedField
          (.ok (.barArr g q.a grp (if tok then some q.d else none)))
      | 2 => chk (q.d == 0 && q.imm == 0 && (tok || q.b == 0)) .unusedField
          (.ok (.barWait g q.a grp (if tok then some q.b else none)))
      | 3 => chk (!tok && q.d == 0 && q.b == 0 && q.imm == 0) .unusedField (.ok (.barSync g q.a grp))
      | _ => .error .reserved
  | 8 => chk (q.c == 0 && q.md == 0 && q.imm == 0) .unusedField <|
      match q.f with
      | 0 => chk q.onlyNegates .badModifier (.ok (.mxfork g (BitVec.ofNat 18 (q.d * 2 ^ 12 + q.a * 2 ^ 6 + q.b))))
      | 1 => chk (q.d == 0 && q.a == 0 && q.b == 0) .unusedField (.ok (.mxjoin g))
      | _ => .error .reserved
  | _ => .error .reserved

/-- Uniform cell 0x07: barrow commands (11 R230). -/
def decCopy (q : Fields) : Dec :=
  let g := q.guard
  chk q.x .needsExtension <| chk (q.md == 0) .badModifier <| chk (q.imm < 256) .unusedField <|
  pick (scopeOf (q.imm / 4 % 8)) .badModifier fun sc => pick (cpWidthOf (q.imm / 32 % 4)) .badModifier fun w =>
  let o : CpOrd := { acq := q.imm % 2 == 1, rel := q.imm / 2 % 2 == 1, scope := sc }
  let rt := q.imm / 128 == 1
  chk o.ok .badModifier <| chk (q.d < 16 && sGrp 2 q.a && q.c < 32) .operandRange <|
  match q.f with
  | 0 => chk (!rt) .badModifier (.ok (.cpIn g q.d q.a q.b q.c o w))
  | 1 => chk (!rt) .badModifier <| chk (sGrp 2 q.b) .operandRange (.ok (.cpGat g q.d q.a q.b q.c o w))
  | 2 => chk (!rt) .badModifier (.ok (.cpOut g q.d q.a q.b q.c o w))
  | 3 => chk (w == .hdr) .badModifier (.ok (.cpRed g q.d q.a q.b q.c o rt))
  | 4 => chk (!rt) .badModifier <| chk (sGrp 2 q.b) .operandRange (.ok (.cpGrp g q.d q.a q.b q.c o w))
  | _ => .error .reserved

/-- Uniform cells 0x09 to 0x0C: the tiller's members (17 R323 to R332). -/
def decTiller (q : Fields) : Dec :=
  let g := q.guard
  chk (q.c == 0 && q.md == 0) .unusedField <|
  match q.op with
  | 9 =>
      match q.f with
      | 0 => chk (q.d < 8 && q.a < 16 && q.b < 16) .operandRange <| chk (q.imm < 4) .unusedField
          (.ok (.mma g q.d q.a q.b (q.imm % 2 == 1) (q.imm ≥ 2)))
      | _ => .error .reserved
  | 10 =>
      match q.f with
      | 0 => chk (q.d < 16 && sGrp 4 q.a) .operandRange <| chk (q.b == 0 && q.imm == 0) .unusedField (.ok (.hset g q.d q.a))
      | 1 => chk q.x .needsExtension <| chk (q.d < 16) .operandRange <| chk (q.b == 0) .unusedField (.ok (.hld g q.d q.a q.off))
      | 2 => chk q.x .needsExtension <| chk (q.d < 4 && sGrp 2 q.a) .operandRange <| chk (q.imm < 32) .unusedField
          (.ok (.mscl g q.d q.a q.b (BitVec.ofNat 5 q.imm)))
      | _ => .error .reserved
  | 11 =>
      match q.f with
      | 0 => chk (q.d < 8) .operandRange <| chk (q.a == 0 && q.b == 0 && q.imm == 0) .unusedField (.ok (.accz g q.d))
      | 1 => chk q.x .needsExtension <| chk (q.d < 16 && q.a < 8) .operandRange <| chk (q.imm < 16) .unusedField <|
          pick (accCvOf (q.imm % 8)) .badModifier fun cv => chk (cv == .e4m3 || cv == .e5m2 || q.b == 0) .unusedField <|
          chk (!(q.imm ≥ 8 && cv == .b32)) .badModifier (.ok (.accrd g q.d q.a q.b cv (q.imm ≥ 8)))
      | 2 => chk q.x .needsExtension <| chk (q.d < 8 && q.a < 16) .operandRange <| chk (q.imm < 8 && q.b == 0) .unusedField <|
          pick (accCvOf q.imm) .badModifier fun cv => chk (!(cv == .e4m3 || cv == .e5m2)) .badModifier
          (.ok (.accwr g q.d q.a cv))
      | _ => .error .reserved
  | 12 =>
      match q.f with
      | 0 => chk (q.d == 0 && q.a == 0 && q.b == 0 && q.imm == 0) .unusedField (.ok (.mexit g))
      | _ => .error .reserved
  | _ => .error .reserved

/-- Uniform cells 0x0D and 0x0E: work and grafting (13 R266 to R268, 21 Table 21.5). -/
def decWork (q : Fields) : Dec :=
  let g := q.guard
  chk q.x .needsExtension <|
  match q.op with
  | 13 => chk (q.md == 0 && q.b == 0) .unusedField <|
      match q.f with
      | 0 => chk (q.c == 0) .unusedField <| chk (sGrp 2 q.d && sGrp 2 q.a) .operandRange (.ok (.launch g q.d q.a q.off))
      | 1 => chk (q.imm == 0) .unusedField <| chk (pOk q.c) .operandRange (.ok (.gridgrow g q.c q.d q.a))
      | 2 => chk (q.c == 0 && q.d == 0) .unusedField <| chk (sGrp 2 q.a) .operandRange (.ok (.capq g q.a q.off))
      | _ => .error .reserved
  | _ => chk (q.c < 4) .unusedField <|
      match q.f with
      | 0 => chk (q.b == 0 && q.imm == 0) .unusedField <|
          match q.md with
          | 0 => .ok (.graftRep g q.c q.d q.a)
          | 1 => chk (q.d == 0) .unusedField <| chk (sGrp 2 q.a) .operandRange (.ok (.graftBind g q.c q.a))
          | 2 => chk (q.d == 0 && q.a == 0) .unusedField (.ok (.graftUnbind g q.c))
          | _ => .error .badModifier
      | 1 => chk (q.md == 0) .badModifier <| chk (q.d == 0 && q.imm == 0) .unusedField (.ok (.prune g q.c q.a q.b))
      | 2 => chk (q.d == 0 && q.imm == 0) .unusedField <| chk (sGrp 2 q.a) .operandRange <|
          match q.md with
          | 0 => .ok (.gmerge g q.c q.a q.b)
          | 1 => chk (q.b == 0) .unusedField (.ok (.gmergeAll g q.c q.a))
          | _ => .error .badModifier
      | 3 => chk (q.md == 0) .badModifier <| chk (q.d == 0 && q.b == 0 && q.imm == 0) .unusedField <|
          chk (sGrp 2 q.a) .operandRange (.ok (.grefresh g q.c q.a))
      | 4 => chk (q.md == 0) .badModifier <| chk (q.d == 0) .unusedField <| chk (sGrp 2 q.a) .operandRange
          (.ok (.gtabq g q.c q.a q.b q.off))
      | _ => .error .reserved

/-- A uniform-class instruction (05 R97, R106, R121). -/
def decUni (q : Fields) : Dec :=
  chk (!(q.gn && q.g == 7)) .guardNegated <|
  chk (q.la == 0) .lookahead <|
  chk (q.c < 64) .unusedField <|
  if q.op == 0 || q.op > 0x0E then .error .reserved
  else if q.op ≤ 3 then decUAlu q
  else if q.op ≤ 6 || q.op == 8 then decUFlow q
  else if q.op == 7 then decCopy q
  else if q.op ≤ 12 then decTiller q
  else decWork q

/-- The instruction of the fields. -/
def Fields.instr (q : Fields) : Dec := if q.uni then decUni q else decLane q

/-- Decode base, extension and literal word; words that the instruction does not have are not read. -/
def decodeWords (w0 w1 w2 : Word) : Dec := (fieldsOfWords w0.toNat w1.toNat w2.toNat).instr

/-- A little-endian word of four bytes (05 R89). -/
def wordOfBytes (b0 b1 b2 b3 : Byte) : Word := b3 ++ b2 ++ b1 ++ b0

/-- The words of a byte sequence; a tail of fewer than four bytes is dropped. -/
def wordsOfBytes : List Byte → List Word
  | b0 :: b1 :: b2 :: b3 :: r => wordOfBytes b0 b1 b2 b3 :: wordsOfBytes r
  | _ => []

/-- Decode the instruction at the head of a byte sequence, total on any bytes. -/
def decodeBytes (bs : List Byte) : Dec :=
  match wordsOfBytes bs with
  | [] => .error .needsExtension
  | [w0] => if hasExt w0.toNat then .error .needsExtension else decodeWords w0 0 0
  | [w0, w1] => if wordCount w0.toNat w1.toNat = 3 then .error .needsExtension else decodeWords w0 w1 0
  | w0 :: w1 :: w2 :: _ => decodeWords w0 w1 w2

/-- The instruction that the decoder reads from an instruction whose bits are `w`, the first word in bits [31:0]; bits
at and above `nbits` are zero. -/
def decodeTableWord (nbits w : Nat) : Option Instr :=
  let v := w % 2 ^ nbits
  match decodeWords (BitVec.ofNat 32 v) (BitVec.ofNat 32 (v / 2 ^ 32)) (BitVec.ofNat 32 (v / 2 ^ 64)) with
  | .ok i => some i
  | .error _ => none

/-! ### Encoding -/

/-- The empty fields of the lane or the uniform class. -/
def Fields.zero (uni : Bool) (op : Nat) (g : Guard) : Fields :=
  { uni := uni, x := g.neg, op := op, d := 0, a := 0, b := 0, g := g.p, f := 0, la := 0, c := 0, gn := g.neg, md := 0,
    imm := 0, lit := 0 }

/-- A lane cell with its three base operands. -/
def Fields.lane (op : Nat) (g : Guard) (d a b : Nat) : Fields := { Fields.zero false op g with d := d, a := a, b := b }

/-- A uniform cell with its function and base operands. -/
def Fields.unif (op f : Nat) (g : Guard) (d a b : Nat) : Fields :=
  { Fields.zero true op g with d := d, a := a, b := b, f := f }

/-- With an extension word. -/
def Fields.ext (q : Fields) (la c md imm : Nat) : Fields := { q with x := true, la := la, c := c, md := md, imm := imm }

/-- A modifier in `MOD`: the extension word only when the modifier is not 0. -/
def Fields.mod (q : Fields) (md : Nat) : Fields := { q with x := q.x || md != 0, md := md }

/-- The second source of an arithmetic cell (05 R100), the modifier already in place. -/
def Fields.withSrc2 (q : Fields) : Src2 → Fields
  | .reg n => { q with b := n }
  | .imm i => { q with x := true, imm := 2 ^ 15 + i.toNat }
  | .lit w => { q with x := true, md := 15, lit := w.toNat }

/-- A third source in `C`, which needs the extension word. -/
def Fields.third (q : Fields) (c : Nat) : Fields := { q with x := true, c := c }

/-- Ordering and width bits of a barrow command (11 R230). -/
def CpOrd.bits (o : CpOrd) : Nat := b2n o.acq + b2n o.rel * 2 + o.scope.code * 4

/-- Carry predicates of `addc` and `subb` (09 R174). -/
def carryBits (po : Nat) (ci : Option Nat) : Nat := po + (match ci with | some _ => 8 | none => 0)

/-- Displacement fields of `bra` and `call`, short when it fits and the guard is plain (13 R254). -/
def Fields.lanedisp (q : Fields) (disp : BitVec 37) : Fields :=
  let n := disp.toNat
  let q := { q with d := n / 2 ^ 14 % 128, a := n / 2 ^ 7 % 128, b := n % 128 }
  if !q.x && (disp.extractLsb' 0 21).signExtend 37 == disp then q else { q with x := true, imm := n / 2 ^ 21 }

/-- Displacement fields of `ubra` and `ucall` (13 R256). -/
def Fields.unidisp (q : Fields) (disp : BitVec 34) : Fields :=
  let n := disp.toNat
  let q := { q with d := n / 2 ^ 12 % 64, a := n / 2 ^ 6 % 64, b := n % 64 }
  if !q.x && (disp.extractLsb' 0 18).signExtend 34 == disp then q else { q with x := true, imm := n / 2 ^ 18 }

/-- `tlbinv` immediate (19 R355). -/
def tlbImm (kind : Nat) (sc : TlbScope) : Nat := kind + (match sc with | .die => 24 | .dev => 32)

/-- The fields of an instruction; events and reserved words have none. -/
def Instr.fields : Instr → Option Fields
  | .add g d a b m => some ((Fields.lane 0x01 g d a 0).mod m.code |>.withSrc2 b)
  | .sub g d a b m => some ((Fields.lane 0x02 g d a 0).mod m.code |>.withSrc2 b)
  | .mul g d a b m => some ((Fields.lane 0x03 g d a 0).mod m.code |>.withSrc2 b)
  | .mad g d a b c m => some (((Fields.lane 0x04 g d a 0).third c).mod m.code |>.withSrc2 b)
  | .and g d a b => some ((Fields.lane 0x05 g d a 0).withSrc2 b)
  | .or g d a b => some ((Fields.lane 0x06 g d a 0).withSrc2 b)
  | .xor g d a b => some ((Fields.lane 0x07 g d a 0).withSrc2 b)
  | .shl g d a b => some ((Fields.lane 0x08 g d a 0).withSrc2 b)
  | .shr g d a b => some ((Fields.lane 0x09 g d a 0).withSrc2 b)
  | .sar g d a b => some ((Fields.lane 0x0A g d a 0).withSrc2 b)
  | .min g d a b => some ((Fields.lane 0x0B g d a 0).withSrc2 b)
  | .max g d a b => some ((Fields.lane 0x0C g d a 0).withSrc2 b)
  | .sel g d a b pc => some (((Fields.lane 0x0D g d a 0).third pc).withSrc2 b)
  | .icmp g pd a b cond => some ((Fields.lane 0x0E g pd a 0).mod cond.code |>.withSrc2 b)
  | .movi g d b => some ((Fields.lane 0x0F g d 0 0).withSrc2 b)
  | .bfx g d a b sgn => some ((Fields.lane 0x10 g d a 0).mod (b2n sgn) |>.withSrc2 b)
  | .bfi g d a b c => some (((Fields.lane 0x11 g d a 0).third c).withSrc2 b)
  | .lea g d a b n => some ((Fields.lane 0x12 g d a 0).mod n |>.withSrc2 b)
  | .bsel g d a b c sx => some (((Fields.lane 0x13 g d a 0).third c).mod (b2n sx) |>.withSrc2 b)
  | .addc g d a b po ci => some ((Fields.lane 0x14 g d a b).ext 0 (ci.getD 0) 0 (carryBits po ci))
  | .subb g d a b po ci => some ((Fields.lane 0x14 g d a b).ext 0 (ci.getD 0) 1 (carryBits po ci))
  | .mulh g d a b u => some ((Fields.lane 0x14 g d a b).ext 0 0 2 (b2n u))
  | .mulw g d a b u => some ((Fields.lane 0x14 g d a b).ext 0 0 3 (b2n u))
  | .minz g d a b => some ((Fields.lane 0x14 g d a b).ext 0 0 4 0)
  | .maxz g d a b => some ((Fields.lane 0x14 g d a b).ext 0 0 5 0)
  | .andn g d a b => some ((Fields.lane 0x14 g d a b).ext 0 0 6 0)
  | .rot g d a (.reg n) => some ((Fields.lane 0x14 g d a n).ext 0 0 7 0)
  | .rot g d a (.imm i) => some ((Fields.lane 0x14 g d a 0).ext 0 0 7 (2 ^ 15 + i.toNat))
  | .neg g d a sat => some ((Fields.lane 0x15 g d a 0).mod (b2n sat))
  | .abs g d a sat => some ((Fields.lane 0x15 g d a 1).mod (b2n sat))
  | .not g d a => some (Fields.lane 0x15 g d a 2)
  | .popc g d a => some (Fields.lane 0x15 g d a 3)
  | .clz g d a => some (Fields.lane 0x15 g d a 4)
  | .ctz g d a => some (Fields.lane 0x15 g d a 5)
  | .brev g d a => some (Fields.lane 0x15 g d a 6)
  | .mov g d a => some (Fields.lane 0x15 g d a 7)
  | .add64 g d a b m => some ((Fields.lane 0x16 g d a b).ext 0 0 0 m.code)
  | .sub64 g d a b m => some ((Fields.lane 0x16 g d a b).ext 0 0 1 m.code)
  | .lea64 g d a b n sgn => some ((Fields.lane 0x16 g d a b).ext 0 0 2 (n + b2n sgn * 8))
  | .fadd g d a b r => some ((Fields.lane 0x17 g d a 0).mod r.code |>.withSrc2 b)
  | .fsub g d a b r => some ((Fields.lane 0x18 g d a 0).mod r.code |>.withSrc2 b)
  | .fmul g d a b r => some ((Fields.lane 0x19 g d a 0).mod r.code |>.withSrc2 b)
  | .ffma g d a b c r => some (((Fields.lane 0x1A g d a 0).third c).mod r.code |>.withSrc2 b)
  | .fcmp g pd a b cond => some ((Fields.lane 0x1B g pd a 0).mod cond.code |>.withSrc2 b)
  | .fmin g d a b => some ((Fields.lane 0x1C g d a b).ext 0 0 0 0)
  | .fmax g d a b => some ((Fields.lane 0x1C g d a b).ext 0 0 1 0)
  | .fclass g d a => some ((Fields.lane 0x1C g d a 0).ext 0 0 2 0)
  | .fround g d a r => some ((Fields.lane 0x1C g d a 0).ext 0 0 3 r.code)
  | .hadd2 g d a b bf => some ((Fields.lane 0x1E g d a 0).mod (b2n bf) |>.withSrc2 b)
  | .hsub2 g d a b bf => some ((Fields.lane 0x1F g d a 0).mod (b2n bf) |>.withSrc2 b)
  | .hmul2 g d a b bf => some ((Fields.lane 0x20 g d a 0).mod (b2n bf) |>.withSrc2 b)
  | .hfma2 g d a b c bf => some (((Fields.lane 0x21 g d a 0).third c).mod (b2n bf) |>.withSrc2 b)
  | .hmin2 g d a b bf => some ((Fields.lane 0x22 g d a b).ext 0 0 0 (b2n bf * 8))
  | .hmax2 g d a b bf => some ((Fields.lane 0x22 g d a b).ext 0 0 1 (b2n bf * 8))
  | .hcmp2 g d a b bf cond => some ((Fields.lane 0x22 g d a b).ext 0 0 2 (cond.code + b2n bf * 8))
  | .idp4 g d a b c sa sb sat => some ((Fields.lane 0x23 g d a b).ext 0 c (b2n sa + b2n sb * 2 + b2n sat * 4) 0)
  | .idp8 g d a b c sa sb sat => some ((Fields.lane 0x24 g d a b).ext 0 c (b2n sa + b2n sb * 2 + b2n sat * 4) 0)
  | .hdp2 g d a b c r bf => some ((Fields.lane 0x25 g d a b).ext 0 c (r.code + b2n bf * 8) 0)
  | .cvt g d a dt sty r sat ftz =>
      some ((Fields.lane 0x26 g d a 0).ext 0 0 0 (dt.code + sty.code * 32 + r.code * 1024 + b2n sat * 8192 + b2n ftz * 16384))
  | .pack g d a ty r sat ftz sc =>
      let m := ty.code + r.code * 32 + b2n sat * 256 + b2n ftz * 512
      match sc with
      | .none => some ((Fields.lane 0x27 g d a 0).ext 0 0 0 m)
      | .sx b => some ((Fields.lane 0x27 g d a b).ext 0 0 0 (m + 1024))
      | .sa b c => some ((Fields.lane 0x27 g d a b).ext 0 c 0 (m + 2048))
  | .unpk g d a ty sc =>
      match sc with
      | .none => some ((Fields.lane 0x28 g d a 0).ext 0 0 0 ty.code)
      | .sx b => some ((Fields.lane 0x28 g d a b).ext 0 0 0 (ty.code + 1024))
      | .se b => some ((Fields.lane 0x28 g d a b).ext 0 0 0 (ty.code + 2048))
  | .frcp g d a la => some ((Fields.lane 0x1D g d a 0).ext la 0 0 0)
  | .frsq g d a la => some ((Fields.lane 0x1D g d a 1).ext la 0 0 0)
  | .fsqrt g d a la => some ((Fields.lane 0x1D g d a 2).ext la 0 0 0)
  | .fexp2 g d a la => some ((Fields.lane 0x1D g d a 3).ext la 0 0 0)
  | .flog2 g d a la => some ((Fields.lane 0x1D g d a 4).ext la 0 0 0)
  | .fsin g d a la => some ((Fields.lane 0x1D g d a 5).ext la 0 0 0)
  | .fcos g d a la => some ((Fields.lane 0x1D g d a 6).ext la 0 0 0)
  | .ftanh g d a la => some ((Fields.lane 0x1D g d a 7).ext la 0 0 0)
  | .shfl g d a mode w64 src seg wr pv m la =>
      let md := mode.code + b2n w64 * 4
      let hi := seg * 256 + b2n wr * 2048 + pv * 4096
      match src with
      | .reg n => some ((Fields.lane 0x29 g d a n).ext la m md hi)
      | .imm i => some ((Fields.lane 0x29 g d a 0).ext la m md (i.toNat + hi + 2 ^ 15))
  | .redux g sd a op ty m la => some ((Fields.lane 0x2A g sd a 0).ext la m op.code ty.code)
  | .vscan g d a seg op exc ty m la =>
      some ((Fields.lane 0x2B g d a (seg.getD 0)).ext la m (op.code + b2n exc * 8) (ty.code + b2n seg.isSome * 32))
  | .vscanc g d a seg op exc ty sc m la =>
      some ((Fields.lane 0x2C g d a (seg.getD 0)).ext la m (op.code + b2n exc * 8) (ty.code + b2n seg.isSome * 32 + sc * 64))
  | .vote g v pa m la =>
      match v with
      | .pred .some pd => some ((Fields.lane 0x2D g pd pa 0).ext la m 0 0)
      | .pred .every pd => some ((Fields.lane 0x2D g pd pa 0).ext la m 0 1)
      | .pred .same pd => some ((Fields.lane 0x2D g pd pa 0).ext la m 0 2)
      | .bits sd => some ((Fields.lane 0x2D g sd pa 0).ext la m 0 3)
  | .matchLanes g d a w64 m la => some ((Fields.lane 0x2D g d a 0).ext la m 1 (b2n w64))
  | .rsend g a dir m la => some ((Fields.lane 0x2E g 0 a 0).ext la m 0 dir.code)
  | .rrecv g d dir m la => some ((Fields.lane 0x2E g d 0 0).ext la m 1 dir.code)
  | .rpoll g pd dir snd m la => some ((Fields.lane 0x2E g pd 0 0).ext la m 2 (dir.code + b2n snd * 2))
  | .ld g d a ty acq ch sc off la =>
      some ((Fields.lane 0x2F g d a ty.code).ext la (sc.code + b2n acq * 8 + ch.code * 16) 0 off.toNat)
  | .st g b a ty rel ch sc off la =>
      some ((Fields.lane 0x30 g ty.code a b).ext la (sc.code + b2n rel * 8 + ch.code * 16) 0 off.toNat)
  | .ldb g d a ty (.rf n) off la => some ((Fields.lane 0x31 g d a ty.code).ext la n 0 off.toNat)
  | .ldb g d a ty (.target c) off la => some ((Fields.lane 0x31 g d a ty.code).ext la c 1 off.toNat)
  | .lds g d a ty off la => some ((Fields.lane 0x32 g d a ty.code).ext la 0 0 off.toNat)
  | .sts g b a ty off la => some ((Fields.lane 0x32 g ty.code a b).ext la 0 1 off.toNat)
  | .ldg g d a ty off la => some ((Fields.lane 0x32 g d a ty.code).ext la 0 2 off.toNat)
  | .stg g b a ty off la => some ((Fields.lane 0x32 g ty.code a b).ext la 0 3 off.toNat)
  | .atom g d a b c op ty sc sem la =>
      some ((Fields.lane 0x33 g d a b).ext la c 0 (op.code + ty.code * 16 + sc.code * 512 + sem.code * 4096))
  | .red g a b op ty sc rel la =>
      some ((Fields.lane 0x33 g 0 a b).ext la 0 1 (op.code + ty.code * 16 + sc.code * 512 + b2n rel * 8192))
  | .atoms g d a b c op ty sem win la =>
      some ((Fields.lane 0x33 g d a b).ext la c 2 (op.code + ty.code * 16 + sem.code * 4096 + b2n win * 2 ^ 14))
  | .pf g a lvl excl off la => some ((Fields.lane 0x34 g 0 a 0).ext la (lvl.code + b2n excl * 4) 0 off.toNat)
  | .cinv g a sc off la => some ((Fields.lane 0x34 g 0 a 0).ext la sc.code 1 off.toNat)
  | .cwb g a sc off la => some ((Fields.lane 0x34 g 0 a 0).ext la sc.code 2 off.toNat)
  | .fence g kind sc la => some ((Fields.lane 0x35 g 0 0 0).ext la 0 0 (kind.code + sc.code * 4))
  | .rndadv g d a off la => some ((Fields.lane 0x35 g d a 0).ext la 0 1 off.toNat)
  | .rndld g d a off la => some ((Fields.lane 0x35 g d a 0).ext la 0 2 off.toNat)
  | .rndwait g d a c off la => some ((Fields.lane 0x35 g d a 0).ext la c 3 off.toNat)
  | .bra g disp => some ((Fields.lane 0x36 g 0 0 0).lanedisp disp)
  | .call g disp => some ((Fields.lane 0x37 g 0 0 0).lanedisp disp)
  | .nop g => some (Fields.lane 0x38 g 0 0 0)
  | .exit g => some (Fields.lane 0x38 g 0 0 1)
  | .pause g n =>
      if n = 32 && !g.neg then some (Fields.lane 0x38 g 0 0 2) else some ((Fields.lane 0x38 g 0 0 2).ext 0 0 0 n.toNat)
  | .brx g a => some (Fields.lane 0x38 g 0 a 3)
  | .ret g a => some (Fields.lane 0x38 g 0 a 4)
  | .brk g n => some (if n = 0 then Fields.lane 0x38 g 0 0 5 else (Fields.lane 0x38 g 0 0 5).ext 0 0 0 n.toNat)
  | .sys g n => some (if n = 0 then Fields.lane 0x38 g 0 0 6 else (Fields.lane 0x38 g 0 0 6).ext 0 0 0 n.toNat)
  | .mwait g a b off la => some ((Fields.lane 0x39 g 0 a b).ext la 0 0 off.toNat)
  | .rep n step fmask => some (Fields.lane 0x3A { p := 7, neg := false } (n - 1) (step - 1) fmask.toNat)
  | .mfs g d r => some (Fields.lane 0x3B g d 0 r.code)
  | .route g d a t la => some ((Fields.lane 0x3C g d a 0).ext la t 0 0)
  | .rdone g a la => some ((Fields.lane 0x3C g 0 a 0).ext la 0 1 0)
  | .xrd g d r lvl => some ((Fields.lane 0x3D g d 0 0).ext 0 0 0 (r.code + lvl.code * 2 ^ 12))
  | .xwr g a r lvl => some ((Fields.lane 0x3D g 0 a 0).ext 0 0 1 (r.code + lvl.code * 2 ^ 12))
  | .sret g => some (Fields.lane 0x3E g 0 0 0)
  | .hret g => some (Fields.lane 0x3E g 0 0 1)
  | .tlbinvVa g a sc la => some ((Fields.lane 0x3E g 0 a 2).ext la 0 0 (tlbImm 0 sc))
  | .tlbinvAsid g a sc la => some ((Fields.lane 0x3E g 0 a 2).ext la 0 0 (tlbImm 1 sc))
  | .tlbinvIpa g a sc la => some ((Fields.lane 0x3E g 0 a 2).ext la 0 0 (tlbImm 2 sc))
  | .tlbinvVmid g a sc la => some ((Fields.lane 0x3E g 0 a 2).ext la 0 0 (tlbImm 3 sc))
  | .tlbinvAll g sc la => some ((Fields.lane 0x3E g 0 0 2).ext la 0 0 (tlbImm 4 sc))
  | .tlbinvRgn g d a la => some ((Fields.lane 0x3E g d a 2).ext la 0 0 5)
  | .uadd g d a b => some ((Fields.unif 1 0 g d a 0).withSrc2 b)
  | .usub g d a b => some ((Fields.unif 1 1 g d a 0).withSrc2 b)
  | .umul g d a b => some ((Fields.unif 1 2 g d a 0).withSrc2 b)
  | .umad g d a b c => some (((Fields.unif 1 3 g d a 0).third c).withSrc2 b)
  | .umin g d a b u => some ((Fields.unif 1 4 g d a 0).mod (b2n u) |>.withSrc2 b)
  | .umax g d a b u => some ((Fields.unif 1 5 g d a 0).mod (b2n u) |>.withSrc2 b)
  | .ucmp g qd a b cond => some ((Fields.unif 1 6 g qd a 0).mod cond.code |>.withSrc2 b)
  | .umov g d b => some ((Fields.unif 1 7 g d 0 0).withSrc2 b)
  | .uand g d a b => some ((Fields.unif 2 0 g d a 0).withSrc2 b)
  | .uor g d a b => some ((Fields.unif 2 1 g d a 0).withSrc2 b)
  | .uxor g d a b => some ((Fields.unif 2 2 g d a 0).withSrc2 b)
  | .ushl g d a b => some ((Fields.unif 2 3 g d a 0).withSrc2 b)
  | .ushr g d a b => some ((Fields.unif 2 4 g d a 0).withSrc2 b)
  | .usar g d a b => some ((Fields.unif 2 5 g d a 0).withSrc2 b)
  | .ubfx g d a b sgn => some ((Fields.unif 2 6 g d a 0).mod (b2n sgn) |>.withSrc2 b)
  | .upopc g d a => some (Fields.unif 2 7 g d a 0)
  | .umovi g d b => some ((Fields.unif 3 0 g d 0 0).withSrc2 b)
  | .uadd64 g d a b => some ((Fields.unif 3 1 g d a 0).withSrc2 b)
  | .ulea64 g d a b n sgn => some ((Fields.unif 3 2 g d a 0).mod (n + b2n sgn * 8) |>.withSrc2 b)
  | .uld g d a ty acq sc off => some ((Fields.unif 4 0 g d a ty.code).ext 0 (sc.code + b2n acq * 8) 0 off.toNat)
  | .uldb g d a ty (.rf n) off => some ((Fields.unif 4 1 g d a ty.code).ext 0 n 0 off.toNat)
  | .uldb g d a ty (.target c) off => some ((Fields.unif 4 1 g d a ty.code).ext 0 c 1 off.toNat)
  | .ust g b a ty rel sc off => some ((Fields.unif 4 2 g ty.code a b).ext 0 (sc.code + b2n rel * 8) 0 off.toNat)
  | .ubra g disp => some ((Fields.unif 5 0 g 0 0 0).unidisp disp)
  | .ubrx g a => some (Fields.unif 5 1 g 0 a 0)
  | .ucall g disp => some ((Fields.unif 5 2 g 0 0 0).unidisp disp)
  | .uret g a => some (Fields.unif 5 3 g 0 a 0)
  | .barInit g b grp n => some ((Fields.unif 6 0 g 0 b 0).ext 0 0 (b2n grp) n.toNat)
  | .barArr g b grp tok => some ((Fields.unif 6 1 g (tok.getD 0) b 0).mod (b2n grp + b2n tok.isSome * 2))
  | .barWait g b grp tok => some ((Fields.unif 6 2 g 0 b (tok.getD 0)).mod (b2n grp + b2n tok.isSome * 2))
  | .barSync g b grp => some ((Fields.unif 6 3 g 0 b 0).mod (b2n grp))
  | .cpIn g h a p b o w => some ((Fields.unif 7 0 g h a p).ext 0 b 0 (o.bits + w.code * 32))
  | .cpGat g h a p b o w => some ((Fields.unif 7 1 g h a p).ext 0 b 0 (o.bits + w.code * 32))
  | .cpOut g h a p b o w => some ((Fields.unif 7 2 g h a p).ext 0 b 0 (o.bits + w.code * 32))
  | .cpRed g h a p b o bf => some ((Fields.unif 7 3 g h a p).ext 0 b 0 (o.bits + b2n bf * 128))
  | .cpGrp g h a p b o w => some ((Fields.unif 7 4 g h a p).ext 0 b 0 (o.bits + w.code * 32))
  | .mxfork g off =>
      some (Fields.unif 8 0 g (off.toNat / 2 ^ 12) (off.toNat / 2 ^ 6 % 64) (off.toNat % 64))
  | .mxjoin g => some (Fields.unif 8 1 g 0 0 0)
  | .mma g d a b ra sat =>
      some (if ra || sat then (Fields.unif 9 0 g d a b).ext 0 0 0 (b2n ra + b2n sat * 2) else Fields.unif 9 0 g d a b)
  | .hset g d a => some (Fields.unif 10 0 g d a 0)
  | .hld g d a off => some ((Fields.unif 10 1 g d a 0).ext 0 0 0 off.toNat)
  | .mscl g n a b ssh => some ((Fields.unif 10 2 g n a b).ext 0 0 0 ssh.toNat)
  | .accz g d => some (Fields.unif 11 0 g d 0 0)
  | .accrd g h a b cv sat => some ((Fields.unif 11 1 g h a b).ext 0 0 0 (cv.code + b2n sat * 8))
  | .accwr g d h cv => some ((Fields.unif 11 2 g d h 0).ext 0 0 0 cv.code)
  | .mexit g => some (Fields.unif 12 0 g 0 0 0)
  | .launch g d a off => some ((Fields.unif 13 0 g d a 0).ext 0 0 0 off.toNat)
  | .gridgrow g qp d a => some ((Fields.unif 13 1 g d a 0).ext 0 qp 0 0)
  | .capq g a off => some ((Fields.unif 13 2 g 0 a 0).ext 0 0 0 off.toNat)
  | .graftRep g t d a => some ((Fields.unif 14 0 g d a 0).ext 0 t 0 0)
  | .graftBind g t a => some ((Fields.unif 14 0 g 0 a 0).ext 0 t 1 0)
  | .graftUnbind g t => some ((Fields.unif 14 0 g 0 0 0).ext 0 t 2 0)
  | .prune g t a b => some ((Fields.unif 14 1 g 0 a b).ext 0 t 0 0)
  | .gmerge g t a b => some ((Fields.unif 14 2 g 0 a b).ext 0 t 0 0)
  | .gmergeAll g t a => some ((Fields.unif 14 2 g 0 a 0).ext 0 t 1 0)
  | .grefresh g t a => some ((Fields.unif 14 3 g 0 a 0).ext 0 t 0 0)
  | .gtabq g t a b off => some ((Fields.unif 14 4 g 0 a b).ext 0 t 0 off.toNat)
  | _ => none

/-- The words of a well-formed instruction, in the shortest form its fields allow (05 R127); events have none. -/
def encode (i : Instr) : Option (List Word) := i.fields.map fun q => q.words.map (BitVec.ofNat 32)

/-- Decoding a list of words that holds one instruction. -/
def decode : List Word → Dec
  | [w0] => if hasExt w0.toNat then .error .needsExtension else decodeWords w0 0 0
  | [w0, w1] => if wordCount w0.toNat w1.toNat = 3 then .error .needsExtension else decodeWords w0 w1 0
  | [w0, w1, w2] => decodeWords w0 w1 w2
  | _ => .error .reserved

end Sys2Proof
end

