-- ==== Sys2Proof/Machine/Sfn.lean ====
section
/-! DEFINITION. The special functions (07 R159, R160, 09 R195). `fsqrt` is exact. Each other member returns a free value of its
operand that lies within Table 7.13, with the exact special values of that table: `Config.special` proposes a result, which
stands when it is inside the bound (tested in whole numbers for `frcp` and `frsq`, and against the result in fixed point with 512 fraction
bits for the others, whose exact results are irrational), and gives way to the rounded exact result otherwise (log 4). -/

namespace Sys2Proof.Machine

open Sys2Proof

/-- The members by their `B` value. -/
inductive Sfn where
  | rcp | rsq | sqrt | exp2 | log2 | sin | cos | tanh
  deriving DecidableEq, Repr

def Sfn.code : Sfn → Nat
  | .rcp => 0 | .rsq => 1 | .sqrt => 2 | .exp2 => 3 | .log2 => 4 | .sin => 5 | .cos => 6 | .tanh => 7

/-! ### Fixed point: a value is an integer in units of 2^−512: fine enough to tell every exact result
from the FP32 values and bounds beside it -/

def fxOne : Nat := 2 ^ 512
def fxLn2 : Nat :=
  0xb17217f7d1cf79abc9e3b39803f2f6af40f343267298b62d8a0d175b8baafa2be7b876206debac98559552fb4afa1b10ed2eae35c138214427573b291169b825
def fxTwoPi : Nat :=
  0x6487ed5110b4611a62633145c06e0e68948127044533e63a0105df531d89cd9128a5043cc71a026ef7ca8cd9e69d218d98158536f92f8a1ba7f09ab6b6a8e122f

/-- A finite value in fixed point, towards −∞. -/
def fxOf (neg : Bool) (m : Nat) (e : Int) : Int :=
  let x : Nat := if 0 ≤ e + 512 then m * 2 ^ (e + 512).toNat else m / 2 ^ (-(e + 512)).toNat
  if neg then -(x : Int) else x

/-- Terms x^k / k! from a running term. -/
def expTerms (x : Nat) : Nat → Nat → Nat → Nat
  | 0, _, _ => 0
  | n + 1, k, t => t + expTerms x n (k + 1) (t * x / fxOne / (k + 1))

/-- e^x for 0 ≤ x < 1. -/
def fxExp (x : Nat) : Nat := expTerms x 100 0 fxOne

/-- 2^x, for x in fixed point and not below −500. -/
def fxExp2 (x : Int) : Int :=
  let n := x / (fxOne : Int)
  let f := (x % (fxOne : Int)).toNat
  let y := fxExp (f * fxLn2 / fxOne)
  if 0 ≤ n then (y * 2 ^ n.toNat : Nat) else (y / 2 ^ (-n).toNat : Nat)

/-- Terms u^(2j+1) / (2j+1) from a running power. -/
def atanhTerms (u2 : Nat) : Nat → Nat → Nat → Nat
  | 0, _, _ => 0
  | n + 1, k, t => t / k + atanhTerms u2 n (k + 2) (t * u2 / fxOne)

/-- log2 of m × 2^e, m ≠ 0. -/
def fxLog2 (m : Nat) (e : Int) : Int :=
  let k := Nat.log2 m
  let u := (m - 2 ^ k) * fxOne / (m + 2 ^ k)
  let ln := 2 * atanhTerms (u * u / fxOne) 170 1 u
  (e + k) * (fxOne : Int) + (ln * fxOne / fxLn2 : Nat)

/-- Alternating terms of the sine and cosine series from a running term. -/
def trigTerms (x2 : Nat) : Nat → Nat → Nat → Int
  | 0, _, _ => 0
  | n + 1, k, t => (t : Int) - trigTerms x2 n (k + 2) (t * x2 / fxOne / (k * (k + 1)))

def fxSin (x : Int) : Int :=
  let r := (x % (fxTwoPi : Int)).toNat
  trigTerms (r * r / fxOne) 80 2 r

def fxCos (x : Int) : Int :=
  let r := (x % (fxTwoPi : Int)).toNat
  trigTerms (r * r / fxOne) 80 1 fxOne

/-- tanh of a magnitude; beyond 24 the result is less than 1 by under 2^−60. -/
def fxTanh (a : Nat) : Int :=
  if 24 * fxOne < a then (fxOne : Int) - 1
  else
    let y := (fxExp2 ((2 * a * fxOne / fxLn2 : Nat) : Int)).toNat
    ((y - fxOne) * fxOne / (y + fxOne) : Nat)

/-- The exact result of a member for a finite source that has no special value; `fexp2` of less than −500 is above 0 by less than any
bound. -/
def Sfn.exact (k : Sfn) (neg : Bool) (m : Nat) (e : Int) : Int :=
  match k with
  | .rcp => let y : Nat := 2 ^ (512 - e).toNat / m; if neg then -(y : Int) else y
  | .rsq => (isqrt 600 (2 ^ (1024 - e).toNat / m) 0 : Nat)
  | .sqrt => 0
  | .exp2 => if neg && fxOf false m e > 500 * (fxOne : Int) then 1 else fxExp2 (fxOf neg m e)
  | .log2 => fxLog2 m e
  | .sin => fxSin (fxOf neg m e)
  | .cos => fxCos (fxOf neg m e)
  | .tanh => let y := fxTanh (fxOf false m e).toNat; if neg then -y else y

/-- The bound of a member around its exact result (07 R159, Table 7.13), in fixed point. -/
def Sfn.bound (k : Sfn) (y : Int) : Int :=
  match k with
  | .sin | .cos => (2 ^ 490 : Nat)
  | _ =>
      let lg : Int := (Nat.log2 y.natAbs : Nat) - (512 : Int)
      2 * (2 ^ ((if lg < -126 then -126 else lg) + 489).toNat : Nat)

/-- The exponent of the greatest power of two not above 1/v and 1/√v, for v = m × 2^e. -/
def rcpLog (m : Nat) (e : Int) : Int :=
  let j := e + (Nat.log2 m : Nat)
  if m = 2 ^ Nat.log2 m then -j else -j - 1
def rsqLog (m : Nat) (e : Int) : Int :=
  let j := e + (Nat.log2 m : Nat)
  if m = 2 ^ Nat.log2 m then -j / 2 else (-j - 1) / 2

/-- p lies within one ulp of 1/x: |p x − 1| ≤ ulp |x|. -/
def rcpNear (neg : Bool) (m : Nat) (e : Int) (pn : Bool) (pm : Nat) (pe : Int) : Bool :=
  let u := (if rcpLog m e < -126 then -126 else rcpLog m e) - 23
  let b := min (min (pe + e) 0) (u + e)
  let px : Int := (pm * m * 2 ^ (pe + e - b).toNat : Nat)
  let d : Int := (if pn = neg then px else -px) - (2 ^ (-b).toNat : Nat)
  d.natAbs ≤ m * 2 ^ (u + e - b).toNat

/-- p lies within one ulp of 1/√x: (p − ulp)² x ≤ 1 ≤ (p + ulp)² x. -/
def rsqNear (m : Nat) (e : Int) (pn : Bool) (pm : Nat) (pe : Int) : Bool :=
  let u := rsqLog m e - 23
  let b := min pe u
  let p := pm * 2 ^ (pe - b).toNat
  let v := 2 ^ (u - b).toNat
  let t := 2 * b + e
  let one := 2 ^ (-t).toNat
  let sq (x : Nat) : Nat := x * x * m * 2 ^ t.toNat
  !pn && sq (p - v) ≤ one && one ≤ sq (p + v)

/-- A proposed result that is finite and inside the bound stands, else the rounded exact one. -/
def Sfn.settle (k : Sfn) (neg : Bool) (m : Nat) (e : Int) (proposal : Word) : Word :=
  let y := k.exact neg m e
  let near : Bool := match fv32 proposal with
    | .num n pm pe =>
        (match k with
         | .rcp => rcpNear neg m e n pm pe
         | .rsq => rsqNear m e n pm pe
         | _ => (fxOf n pm pe - y).natAbs ≤ (k.bound y).natAbs)
    | _ => false
  if near then proposal else BitVec.ofNat 32 (fp32.roundTo (y < 0) y.natAbs (-512) .rn 0 false false).1

/-- The square root of m × 2^e rounded to FP32. -/
def sqrtRne (m : Nat) (e : Int) : Nat :=
  let odd := (e % 2).toNat
  let n := m * 2 ^ (60 + odd)
  let r := isqrt 60 n 0
  let sticky := if r * r = n then 0 else 1
  (fp32.roundTo false (2 * r + sticky) ((e - odd - 60) / 2 - 1) .rn 0 false false).1

/-- An integer value as FP32 bits. -/
def f32OfInt (x : Int) : Word := BitVec.ofNat 32 (fp32.roundTo (x < 0) x.natAbs 0 .rn 0 false false).1

/-- Exponent of a power of two m × 2^e. -/
def pow2Exp (m : Nat) (e : Int) : Option Int := if m = 2 ^ Nat.log2 m then some (e + (Nat.log2 m : Nat)) else none

/-- An integer value m × 2^e. -/
def intVal (neg : Bool) (m : Nat) (e : Int) : Option Int :=
  let x : Option Nat := if 0 ≤ e then some (m * 2 ^ e.toNat)
    else if m % 2 ^ (-e).toNat = 0 then some (m / 2 ^ (-e).toNat) else none
  x.map fun v => if neg then -(v : Int) else v

/-- The special values and flags of Table 7.13; none where the bound governs. A pole sets no flag (log 12). -/
def Sfn.special (k : Sfn) (v : FVal) (x : Word) : Option (Word × Nat) :=
  let nan : Word := BitVec.ofNat 32 fp32.nanCode
  let inf (n : Bool) : Word := BitVec.ofNat 32 (fp32.infCode n)
  let zero (n : Bool) : Word := BitVec.ofNat 32 (fp32.signBit n)
  match k, v with
  | _, .nan => some (nan, 0)
  | .rcp, .inf n => some (zero n, 0)
  | .rcp, .num n m e =>
      if m = 0 then some (inf n, 0)
      else if x.toNat % 2 ^ 31 ≤ 0x00200000 then some (inf n, 2)
      else if pow2Exp m e = some 0 && !n then some (0x3F800000, 0) else none
  | .rsq, .inf n => if n then some (nan, 1) else some (0, 0)
  | .rsq, .num n m _ => if m = 0 then some (inf n, 0) else if n then some (nan, 1) else none
  | .sqrt, .inf n => if n then some (nan, 1) else some (inf false, 0)
  | .sqrt, .num n m e => if m = 0 then some (x, 0) else if n then some (nan, 1) else some (BitVec.ofNat 32 (sqrtRne m e), 0)
  | .exp2, .inf n => if n then some (0, 0) else some (inf false, 0)
  | .exp2, .num n m e =>
      match intVal n m e with
      | some i =>
          if -149 ≤ i && i ≤ 127 then some (BitVec.ofNat 32 (fp32.roundTo false 1 i .rn 0 false false).1, 0)
          else if 127 < i then some (inf false, 2) else none
      | none => if !n && fxOf n m e ≥ 128 * (fxOne : Int) then some (inf false, 2) else none
  | .log2, .inf n => if n then some (nan, 1) else some (inf false, 0)
  | .log2, .num n m e => if m = 0 then some (inf true, 0) else if n then some (nan, 1) else (pow2Exp m e).map fun i => (f32OfInt i, 0)
  | .sin, .inf _ | .cos, .inf _ => some (nan, 1)
  | .sin, .num _ m _ => if m = 0 then some (x, 0) else if 0x4A490FDB ≤ x.toNat % 2 ^ 31 then some (nan, 1) else none
  | .cos, .num _ m _ => if m = 0 then some (0x3F800000, 0) else if 0x4A490FDB ≤ x.toNat % 2 ^ 31 then some (nan, 1) else none
  | .tanh, .inf n => some (if n then 0xBF800000 else 0x3F800000, 0)
  | .tanh, .num _ m _ => if m = 0 then some (x, 0) else none

/-- Result and flags of a member for a source that is not poison. -/
def Sfn.eval (k : Sfn) (x : Word) : Word × Nat :=
  match k.special (fv32 x) x, fv32 x with
  | some r, _ => r
  | none, .num n m e => (k.settle n m e (Config.special k.code x), 0)
  | none, _ => (BitVec.ofNat 32 fp32.nanCode, 0)

/-- A special function: long-latency, poison in, poison out. -/
def State.sfn (s : State) (k : Sfn) (g : Guard) (d a la : Nat) : State :=
  s.laneOp [d, a] [] g (some la) fun l =>
    if (l.rv a).pF32 then .reg d .poison else let r := k.eval (l.rd a); .wordF d r.1 r.2

def execFrcp (g : Guard) (d a la : Nat) (s : State) : Res := .next (s.sfn .rcp g d a la)
def execFrsq (g : Guard) (d a la : Nat) (s : State) : Res := .next (s.sfn .rsq g d a la)
def execFsqrt (g : Guard) (d a la : Nat) (s : State) : Res := .next (s.sfn .sqrt g d a la)
def execFexp2 (g : Guard) (d a la : Nat) (s : State) : Res := .next (s.sfn .exp2 g d a la)
def execFlog2 (g : Guard) (d a la : Nat) (s : State) : Res := .next (s.sfn .log2 g d a la)
def execFsin (g : Guard) (d a la : Nat) (s : State) : Res := .next (s.sfn .sin g d a la)
def execFcos (g : Guard) (d a la : Nat) (s : State) : Res := .next (s.sfn .cos g d a la)
def execFtanh (g : Guard) (d a la : Nat) (s : State) : Res := .next (s.sfn .tanh g d a la)

end Sys2Proof.Machine
end

