-- ==== Sys2Proof/Machine/Cross.lean ====
section
/-! DEFINITION. What the cross-lane instructions compute when their meet completes (13 R243 to R250): shuffles, votes, matches,
scans. `Meet.lean` says when a meet completes. -/

namespace Sys2Proof.Machine

open Sys2Proof

/-- A lane that arrived at a meet, as the completion finds it: the instruction it stands at and whether its guard reads true. -/
structure Party where
  lane : Nat
  l : Lane
  i : Instr
  active : Bool
  deriving DecidableEq, Repr

/-- A lane is an active participant (13 R240). -/
def Party.find (ps : List Party) (i : Nat) : Option Party := ps.find? fun p => p.lane == i && p.active

/-! ### Shuffle (13 R243) -/

/-- The lane within the segment that a participant reads; out of range it reads itself. -/
def shflPos (mode : ShflMode) (wr : Bool) (segw p : Nat) (v : Int) : Int :=
  let k : Int := if wr then ((segw >>> (min v.toNat 31) : Nat) : Int) else v
  match mode with
  | .abs => v
  | .rel => (p : Int) + k
  | .rot => ((p : Int) + k) % (segw : Int)
  | .xor => ((p ^^^ k.toNat : Nat) : Int)

/-- The lane number operand. -/
def shflAmount (mode : ShflMode) (l : Lane) : ShflSrc → Int
  | .reg n => if mode = .rel then sv (l.rd n) else (zv (l.rd n) : Int)
  | .imm i => if mode = .rel then sv i else (zv i : Int)

/-- Registers that the lane number names. -/
def shflRegs : ShflSrc → List Nat
  | .reg n => [n]
  | .imm _ => []

/-- The registers of a group with their side bits. -/
def Lane.group (l : Lane) (n k : Nat) : List RegVal := (grp n k).map l.rv

/-- One active participant of a `shfl`. `src` answers the values of another participant's source. -/
def shflAns (ps : List Party) (p : Party) (d k : Nat) (mode : ShflMode) (sel : ShflSrc) (seg : Nat) (wr : Bool) (pv : Nat)
    (srcReg : Instr → Nat) : Ans :=
  if (shflRegs sel).any fun n => (p.l.rv n).side then .trap 0x08 0
  else
    let segw := 64 >>> seg
    let pos := p.lane % segw
    let t := shflPos mode wr segw pos (shflAmount mode p.l sel)
    let q := if 0 ≤ t && t < (segw : Int) then Party.find ps (p.lane - pos + t.toNat) else none
    let from_ := q.getD p
    .ok { Out1.none with
      regs := (grp d k).zip (from_.l.group (srcReg from_.i) k)
      preds := [(pv, q.isSome)] }

/-! ### Vote and match (13 R244, R245) -/

/-- The value that a predicate vote writes. -/
def voteVal (op : VoteOp) (vs : List Bool) : Bool :=
  match op with
  | .some => vs.any id
  | .every => vs.all id
  | .same => vs.all id || vs.all not

/-- The mask of active participants whose source is clean and equal. -/
def matchMask (ps : List Party) (k : Nat) (srcReg : Instr → Nat) (x : List RegVal) : DWord :=
  maskOf ((ps.filter fun q =>
    q.active && !(q.l.sideAny (srcReg q.i) k) && (q.l.group (srcReg q.i) k).map (·.val) == x.map (·.val)).map (·.lane))

def matchAns (ps : List Party) (p : Party) (d k : Nat) (srcReg : Instr → Nat) : Ans :=
  let x := p.l.group (srcReg p.i) k
  if x.any (·.side) then .poison2 d else .pair d (matchMask ps k srcReg x)

/-! ### Scans (13 R246 to R250, 07 R158) -/

/-- A scan value: one word, or a pair for `.lr`, with poison. -/
structure ScanVal where
  x : List Word
  poison : Bool
  deriving DecidableEq, Repr

/-- The identity of an operation (13 Table 13.4). -/
def scanId (op : SOp) (ty : Ty) : ScanVal :=
  let w : List Word := match op, ty with
    | .add, .f32 => [0x80000000]
    | .add, _ => [0]
    | .min, .s32 => [0x7FFFFFFF]
    | .min, .z32 => [0xFFFFFFFF]
    | .min, _ => [0x7F800000]
    | .max, .s32 => [0x80000000]
    | .max, .z32 => [0]
    | .max, _ => [0xFF800000]
    | .and, _ => [0xFFFFFFFF]
    | .or, _ => [0]
    | .xor, _ => [0]
    | .lr, _ => [0x3F800000, 0]
  { x := w, poison := false }

/-- The poison value of an operation. -/
def scanPoison (op : SOp) : ScanVal := { x := (upto 0 op.regs).map fun _ => poison32, poison := true }

/-- An FP32 product or fused sum as bits. -/
def f32Bits (r : Rounded) : Word := BitVec.ofNat 32 r.1

/-- The combination of clean words, neither the identity. -/
def scanOp (op : SOp) (ty : Ty) (x y : List Word) : List Word :=
  match op, x, y with
  | .lr, [a1, b1], [a2, b2] =>
      [f32Bits (fdot fp32 [(fv32 a2, fv32 a1)] none .rn false), f32Bits (fdot fp32 [(fv32 a2, fv32 b1)] (some (fv32 b2)) .rn false)]
  | op, [a], [b] =>
      match op with
      | .add => if ty = .f32 then [f32Bits (fdot fp32 [(fv32 a, fone), (fv32 b, fone)] none .rn false)] else [a + b]
      | .min =>
          if ty = .f32 then [BitVec.ofNat 32 (fminmax fp32 false a.toNat b.toNat (fv32 a) (fv32 b))]
          else if ty = .s32 then [if sv b < sv a then b else a] else [if zv b < zv a then b else a]
      | .max =>
          if ty = .f32 then [BitVec.ofNat 32 (fminmax fp32 true a.toNat b.toNat (fv32 a) (fv32 b))]
          else if ty = .s32 then [if sv a < sv b then b else a] else [if zv a < zv b then b else a]
      | .and => [a &&& b]
      | .or => [a ||| b]
      | .xor => [a ^^^ b]
      | .lr => x
  | _, _, _ => x

/-- x ∘ y with identities and poison (07 R158). -/
def scanComb (op : SOp) (ty : Ty) (x y : ScanVal) : ScanVal :=
  if x = scanId op ty then y
  else if y = scanId op ty then x
  else if x.poison || y.poison then scanPoison op
  else { x := scanOp op ty x.x y.x, poison := false }

/-- A participant's source reads as poison (07 R151). -/
def scanSrcPoison (ty : Ty) (xs : List RegVal) : Bool := xs.any fun v => if ty = .f32 then v.pF32 else v.side

/-- The source of a lane; poison is carried as the poison value. -/
def scanSrc (op : SOp) (ty : Ty) (xs : List RegVal) : ScanVal :=
  if scanSrcPoison ty xs then scanPoison op else { x := xs.map (·.val), poison := false }

/-- One step of distance d over lanes d and above. -/
def scanStep (op : SOp) (ty : Ty) (d : Nat) (xs : List (ScanVal × Bool)) : List (ScanVal × Bool) :=
  xs.take d ++ List.zipWith (fun p q => (if q.2 then q.1 else scanComb op ty p.1 q.1, p.2 || q.2)) xs (xs.drop d)

/-- The inclusive values of all 64 lanes (13 R247). -/
def scanAll (op : SOp) (ty : Ty) (xs : List (ScanVal × Bool)) : List (ScanVal × Bool) :=
  [1, 2, 4, 8, 16, 32].foldl (fun xs d => scanStep op ty d xs) xs

/-- The lanes before the first step: sources and heads, with the carry on the left of lane 0 (13 R247). -/
def scanStart (ps : List Party) (op : SOp) (ty : Ty) (seg : Option Nat) (srcReg : Instr → Nat) (c : Option ScanVal) :
    List (ScanVal × Bool) :=
  let row := lanes64.map fun i => match Party.find ps i with
    | some p => (scanSrc op ty (p.l.group (srcReg p.i) op.regs), match seg with | some h => p.l.rp h | none => false)
    | none => (scanId op ty, false)
  match c, row with
  | some c, (x, false) :: r => (scanComb op ty c x, false) :: r
  | _, _ => row

/-- Heads before the first step. -/
def scanHead (ps : List Party) (seg : Option Nat) (i : Nat) : Bool :=
  match seg, Party.find ps i with
  | some h, some p => p.l.rp h
  | _, _ => false

/-- The value an active lane receives. -/
def scanLane (ps : List Party) (op : SOp) (ty : Ty) (seg : Option Nat) (exc : Bool) (c : Option ScanVal)
    (xs : List (ScanVal × Bool)) (i : Nat) : ScanVal :=
  let at_ (k : Nat) : ScanVal := match xs[k]? with | some x => x.1 | none => scanId op ty
  if !exc then at_ i
  else if scanHead ps seg i then scanId op ty
  else if i = 0 then c.getD (scanId op ty)
  else at_ (i - 1)

/-- The aggregate: the inclusive value at lane 63. -/
def scanAgg (op : SOp) (ty : Ty) (xs : List (ScanVal × Bool)) : ScanVal :=
  match xs[63]? with | some x => x.1 | none => scanId op ty

/-- Registers of a scan result. -/
def ScanVal.regs (d : Nat) (v : ScanVal) : List (Nat × RegVal) :=
  (upto d v.x.length).zip (v.x.map fun w => { val := w, side := v.poison })

end Sys2Proof.Machine
end

