-- ==== Sys2Proof/Machine/Barrier.lean ====
section
/-! DEFINITION. Barriers (13 R258 to R263): the phase counts, arrivals and waits. The gather of a warp is a meet (Meet.lean). -/

namespace Sys2Proof.Machine

open Sys2Proof

/-- Group and rank of a block (03 R58). -/
def State.groupNo (s : State) (b : Nat) : Nat := (s.blk b).lin / (s.gridOf b).gsize
def State.rank (s : State) (b : Nat) : Nat := (s.blk b).lin % (s.gridOf b).gsize

/-- Blocks of a grid, by linear index. -/
def State.blockAt (s : State) (g lin : Nat) : Option Nat := (fkeys s.blocks).find? fun b => (s.blk b).grid == g && (s.blk b).lin == lin

/-- Members of a block's group that have started. -/
def State.members (s : State) (b : Nat) : List Nat :=
  (fkeys s.blocks).filter fun m => (s.blk m).grid == (s.blk b).grid && s.groupNo m == s.groupNo b

/-- A block barrier, or the group barrier of the block's group. -/
def State.bar (s : State) (b : Nat) (grp : Bool) (n : Nat) : Barrier :=
  if grp then fget Barrier.uninit (s.gridOf b).gbars (s.groupNo b * 32 + n) else fget Barrier.uninit (s.blk b).bars n

def State.setBar (s : State) (b : Nat) (grp : Bool) (n : Nat) (x : Barrier) : State :=
  if grp then
    let g := s.gridOf b
    s.setGrid (s.blk b).grid { g with gbars := fset Barrier.uninit g.gbars (s.groupNo b * 32 + n) x }
  else s.modBlk b fun k => { k with bars := fset Barrier.uninit k.bars n x }

/-- One arrival's step (13 R261). -/
def Barrier.arrive (x : Barrier) : Barrier :=
  if x.cnt + 1 = x.exp then { x with ph := x.ph + 1, cnt := 0 } else { x with cnt := x.cnt + 1 }

/-- One arrival at a barrier; a group-barrier arrival commits a replayable block (23 R395). -/
def State.arriveBar (s : State) (b : Nat) (grp : Bool) (n : Nat) : State :=
  let s := if grp then s.commit b else s
  s.setBar b grp n (s.bar b grp n).arrive

/-- Phase t has completed when the phase count is ph (13 R262). -/
def phasePassed (ph t : Word) : Bool := 1 ≤ (ph - t).toNat && (ph - t).toNat ≤ 2 ^ 31

/-- A lane parked at a barrier still waits there. -/
def State.laneWaits (s : State) (m : Nat) (grp : Bool) (n : Nat) (l : Lane) : Bool :=
  match l.park with
  | .bar g k t => l.occ == .live && g == grp && k == n && !phasePassed (s.bar m grp n).ph t
  | _ => false

/-- Some lane or tiller waits on a barrier of a block or, for a group barrier, of any member (13 R260). -/
def State.barWaited (s : State) (b : Nat) (grp : Bool) (n : Nat) : Bool :=
  (if grp then s.members b else [b]).any fun m =>
    ((s.blk m).warps.any fun w => w.2.lanes.any fun l => s.laneWaits m grp n l.2) ||
    (match (s.blk m).tiller.wait with
     | some (g, k, t, _) => g == grp && k == n && !phasePassed (s.bar m grp n).ph t
     | none => false)

/-- A delivery of a `cp.grp` that has not landed. -/
def Cmd.owes (c : Cmd) (rank : Nat) : Bool :=
  c.kind == .grp && c.mask.getLsbD rank && fget Deliv.waiting c.deliv rank != .done

/-- The accepted commands of a block, those that wait to be reissued among them (19 R363). -/
def Block.accepted (k : Block) : List Cmd := k.cmds ++ k.cancelled

/-- An accepted barrow command or undelivered `cp.grp` delivery names a block barrier (13 R260, 17 R307). -/
def State.barNamed (s : State) (b n : Nat) : Bool :=
  ((s.blk b).accepted.any fun c => c.bar == n) ||
  (s.members b).any fun m => (s.blk m).accepted.any fun c => c.bar == n && c.owes (s.rank b)

/-- A member of the BAR cell passes the checks that hold whatever the guard (13 R259, 03 R57). -/
def State.barOk (s : State) (n : Nat) : Bool :=
  n < (s.gridOf s.cur.blk).khdr.bars && (s.cur.agent == .tiller || s.cur.level == .u)

/-- A member other than `bar.init` under a true guard: cause 0x01 when its barrier is uninitialised (13 R259). -/
def State.needBar (s : State) (grp : Bool) (n : Nat) (f : State → State) : State :=
  if (s.bar s.cur.blk grp n).init then f s else s.illegal

/-- `bar.init` (13 R260): none when it raises cause 0x01. -/
def State.initBar (s : State) (b : Nat) (grp : Bool) (n count : Nat) : Option State :=
  let x := s.bar b grp n
  if !x.init then some (s.setBar b grp n { init := true, exp := count, cnt := 0, ph := 0 })
  else if x.cnt = 0 && !s.barWaited b grp n && (grp || !s.barNamed b n) then some (s.setBar b grp n { x with exp := count })
  else none

/-- Every live lane of a warp releases before the warp's arrival; at group scope the block does not commit (13 R263, 23 R395). -/
def State.releaseWarp (s : State) (b w : Nat) (sc : Scope) : State :=
  (s.warp b w).live.foldl (fun s i => s.releaseLane b w i sc) s

end Sys2Proof.Machine
end

