-- ==== Sys2Proof/Machine/Runner.lean ====
section
/-! DEFINITION. Runner channels (13 R251 to R253): queues of 8 entries, entries in hop, room and arrival. -/

namespace Sys2Proof.Machine

open Sys2Proof

/-- The neighbour of a block of a chained grid on a side; none beyond either end or when the grid is not chained (13 R253). -/
def State.neighbour (s : State) (b : Nat) (dir : Dir) : Option Nat :=
  let k := s.blk b
  let g := s.gridOf b
  if !g.chained then none
  else match dir with
    | .next => if k.lin + 1 < g.gx * g.gy * g.gz then s.blockAt k.grid (k.lin + 1) else none
    | .prev => if k.lin = 0 then none else s.blockAt k.grid (k.lin - 1)

/-- A block has gone: it takes no entry. -/
def State.gone (s : State) (b : Nat) : Bool := (s.blk b).phase == .retired || (s.blk b).phase == .failing || (s.blk b).phase == .failed

/-- A block stands on its core. -/
def Block.onCore (k : Block) : Bool := k.phase == .resident || k.phase == .failing

/-- The receive queue of a warp on a side. -/
def Warp.queue (w : Warp) : Dir → List RunEntry
  | .prev => w.prevq
  | .next => w.nextq

def Warp.setQueue (w : Warp) (dir : Dir) (q : List RunEntry) : Warp :=
  match dir with
  | .prev => { w with prevq := q }
  | .next => { w with nextq := q }

end Sys2Proof.Machine

namespace Sys2Proof

open Sys2Proof.Machine

/-- The side on which the neighbour receives what a block sends. -/
def Dir.back : Dir → Dir
  | .next => .prev
  | .prev => .next

end Sys2Proof

namespace Sys2Proof.Machine

open Sys2Proof

/-- Entries of a warp in hop towards a side. -/
def Block.hopsOf (k : Block) (w : Nat) (dir : Dir) : Nat := (k.hops.filter fun h => h.1 == w && h.2.1 == dir).length

/-- The queue that an `rsend` would target has room, counting entries in hop; a retired target always has (13 R253). -/
def State.sendRoom (s : State) (b w : Nat) (dir : Dir) (t : Nat) : Bool :=
  s.gone t || ((s.warp t w).queue dir.back).length + (s.blk b).hopsOf w dir < 8

/-- An entry leaves the sender; towards a retired target it is discarded (13 R253). -/
def State.sendEntry (s : State) (b w : Nat) (dir : Dir) (t : Nat) (e : RunEntry) : State :=
  if s.gone t then s else s.modBlk b fun k => { k with hops := k.hops ++ [(w, dir, e)] }

/-- The entry that an `rsend` builds (13 Table 13.7). -/
def buildEntry (xs : List (Nat × RegVal)) : RunEntry := { vals := xs.foldl (fun m x => fset RegVal.zero m x.1 x.2) [] }

/-- The first entry of a warp in hop on a side is placed in the receiver's queue. -/
def State.landHop (s : State) (b w : Nat) (dir : Dir) : State :=
  match (s.blk b).hops.find? fun h => h.1 == w && h.2.1 == dir with
  | none => s
  | some h =>
      let s1 := s.modBlk b fun k => { k with hops := k.hops.erase h }
      match s.neighbour b dir with
      | some t =>
          if s.gone t then s1
          else
            let tw := s1.warp t w
            s1.setWarp t w (tw.setQueue dir.back (tw.queue dir.back ++ [h.2.2]))
      | none => s1

end Sys2Proof.Machine
end

