-- ==== Sys2Proof/Machine/Meet.lean ====
section
/-! DEFINITION. Meets of the lanes of a warp (13 R239 to R242, R261, R270): arrival, completion as one step, the mismatch trap,
and with them the cross-lane, runner and gathering barrier instructions. -/

namespace Sys2Proof.Machine

open Sys2Proof

/-- A meet point (13 R240). -/
structure MeetPt where
  pc : DWord
  level : Level
  mask : DWord
  deriving DecidableEq, Repr

/-- All lanes. -/
def allLanes : DWord := 0xFFFFFFFFFFFFFFFF

/-- The meet point or warp gather at which a lane is parked. -/
def Lane.meetPt (l : Lane) : Option MeetPt :=
  if l.occ != .live then none
  else match l.park with
    | .meet _ m _ _ => some { pc := l.pc, level := l.level, mask := m }
    | .gather _ _ _ => some { pc := l.pc, level := l.level, mask := allLanes }
    | _ => none

/-- Every lane that the mask names is exited, unoccupied or arrived at the point (13 R240). -/
def Warp.meetDone (w : Warp) (pt : MeetPt) : Bool :=
  lanes64.all fun j => !maskHas pt.mask j || (w.lane j).occ != .live || (w.lane j).meetPt == some pt

/-- The first point whose meet is complete: of several, that with the lowest arrived lane goes first (the model's choice, log 72). -/
def Warp.firstDone (w : Warp) : Option MeetPt :=
  lanes64.findSome? fun i => match (w.lane i).meetPt with
    | some pt => if w.meetDone pt then some pt else none
    | none => none

/-- Lanes for which both conditions of 13 R241 hold. -/
def Warp.mismatched (w : Warp) : List Nat :=
  lanes64.filter fun i => match (w.lane i).meetPt with
    | some pt => (lanes64.all fun j => !maskHas pt.mask j || (w.lane j).occ != .live || (w.lane j).meetPt.isSome) &&
        !w.meetDone pt
    | none => false

/-- The guard of a meet instruction. -/
def meetGuard : Instr → Guard
  | .shfl g _ _ _ _ _ _ _ _ _ _ | .redux g _ _ _ _ _ _ | .vscan g _ _ _ _ _ _ _ _ | .vscanc g _ _ _ _ _ _ _ _ _
  | .vote g _ _ _ _ | .matchLanes g _ _ _ _ _ | .rsend g _ _ _ _ | .rrecv g _ _ _ _ | .rpoll g _ _ _ _ _ => g
  | _ => { p := 7, neg := false }

/-- The source register of a meet instruction; under `rep` it may differ from lane to lane. -/
def meetSrc : Instr → Nat
  | .shfl _ _ a _ _ _ _ _ _ _ _ | .redux _ _ a _ _ _ _ | .vscan _ _ a _ _ _ _ _ _ | .vscanc _ _ a _ _ _ _ _ _ _
  | .matchLanes _ _ a _ _ _ | .rsend _ a _ _ _ => a
  | _ => 0

/-- The lookahead with which its results land. -/
def meetLa : Instr → Nat
  | .shfl _ _ _ _ _ _ _ _ _ _ la | .vscan _ _ _ _ _ _ _ _ la | .vscanc _ _ _ _ _ _ _ _ _ la | .vote _ _ _ _ la
  | .matchLanes _ _ _ _ _ la | .rrecv _ _ _ _ la | .rpoll _ _ _ _ _ la => la
  | _ => 0

/-- How a parked lane goes on: the sequential PC and the length of its `rep` (0 without). -/
def Lane.resumeIssue (l : Lane) : Issue :=
  match l.park with
  | .meet _ _ next n | .runner _ _ next n => { Issue.idle with next := next, rep := n }
  | .gather _ next _ => { Issue.idle with next := next }
  | _ => Issue.idle

/-- The instruction at which a lane arrived. -/
def Lane.meetInstr (l : Lane) : Instr :=
  match l.park with
  | .meet i _ _ _ | .runner i _ _ _ | .gather i _ _ => i
  | _ => .nop { p := 7, neg := false }

/-- The parties of a set of lanes. -/
def Warp.parties (w : Warp) (ls : List Nat) : List Party :=
  ls.map fun i =>
    let l := w.lane i
    { lane := i, l := l, i := l.meetInstr, active := l.guard (meetGuard l.meetInstr) }

/-- The lanes arrived at a point. -/
def Warp.arrived (w : Warp) (pt : MeetPt) : List Nat := lanes64.filter fun i => (w.lane i).meetPt == some pt

/-- Answers of parties take effect in one step; a lane that completes wakes (13 R240, R242). -/
def State.commitMeet (s : State) (b w : Nat) (rs : List (Party × Ans)) : State :=
  let g := s.gridOf b
  let ex := s.execMeet ((rs.head?.map fun r => r.1.lane).getD 0)
  let s1 := rs.foldl (fun s r =>
    s.setLane b w r.1.lane (match r.2 with
      | .trap _ _ => s.lane b w r.1.lane
      | a => { r.1.l with park := .none }.take g r.1.l.resumeIssue (some (meetLa r.1.i)) a)) s
  s1.raiseAll b w (rs.filterMap fun r => match r.2 with
    | .trap k v => some { lane := r.1.lane, cause := k, val := v, epc := r.1.l.pc,
                          pi := if r.1.l.resumeIssue.rep = 0 then 0 else r.1.l.prog, exec := ex : Raise }
    | _ => none)

/-- Each active participant answers, the others wake with nothing (13 R240). -/
def answers (ps : List Party) (f : Party → Ans) : List (Party × Ans) := ps.map fun p => (p, if p.active then f p else .done)

/-- Write uniform registers of the warp from a first number (13 R242). -/
def State.meetUniform (s : State) (b w : Nat) (lv : Level) (n : Nat) : List Word → State
  | [] => s
  | x :: r => State.meetUniform (s.setWarp b w ((s.warp b w).ws lv n x)) b w lv (n + 1) r

/-- The aggregate is written once, before any lane wakes, unless no lane is active or a source is poison (13 R249, R250). -/
def State.writeAgg (s : State) (b w : Nat) (lv : Level) (sd : Nat) (ps : List Party) (op : SOp) (ty : Ty) (agg : ScanVal) : State :=
  let act := ps.filter (·.active)
  if act = [] || act.any (fun p => scanSrcPoison ty (p.l.group (meetSrc p.i) op.regs)) then s
  else s.meetUniform b w lv sd agg.x

/-- A carry-consuming participant with a poison source raises cause 0x08 (13 R249, R250). -/
def scanTrap (ty : Ty) (op : SOp) (p : Party) (k : Ans) : Ans := consume (scanSrcPoison ty (p.l.group (meetSrc p.i) op.regs)) k

/-! ### Runner meets (13 R252, R253) -/

/-- A runner instruction of a completed meet; none while its queue keeps it parked. -/
def State.runnerStep (s : State) (b w : Nat) (ps : List Party) : Option State :=
  match ps with
  | [] => none
  | p0 :: _ =>
      match p0.i with
      | .rsend _ _ dir _ _ =>
          match s.neighbour b dir with
          | none => some (s.commitMeet b w (ps.map fun p => (p, .trap 0x11 0)))
          | some t =>
              if s.sendRoom b w dir t then
                let e := buildEntry ((ps.filter (·.active)).map fun p => (p.lane, p.l.rv (meetSrc p.i)))
                some ((s.sendEntry b w dir t e).commitMeet b w (ps.map fun p => (p, .done)))
              else none
      | .rrecv _ _ dir _ _ =>
          match s.neighbour b dir with
          | none => some (s.commitMeet b w (ps.map fun p => (p, .trap 0x11 0)))
          | some _ =>
              match (s.warp b w).queue dir with
              | [] => none
              | e :: r =>
                  let s1 := s.setWarp b w ((s.warp b w).setQueue dir r)
                  some (s1.commitMeet b w (answers ps fun p => match p.i with
                    | .rrecv _ d _ _ _ => .reg d (fget RegVal.zero e.vals p.lane)
                    | _ => .done))
      | .rpoll _ _ dir snd _ _ =>
          match s.neighbour b dir with
          | none => some (s.commitMeet b w (ps.map fun p => (p, .trap 0x11 0)))
          | some t =>
              let v := if snd then s.sendRoom b w dir t else (s.warp b w).queue dir != []
              some (s.commitMeet b w (answers ps fun p => match p.i with
                | .rpoll _ pd _ _ _ _ => .pred pd v
                | _ => .done))
      | _ => none

/-- Lanes whose meet is complete stay parked for the queue (13 Table 13.7). -/
def State.parkRunner (s : State) (b w : Nat) (ps : List Party) : State :=
  ps.foldl (fun s p => s.setLane b w p.lane (match p.l.park with
    | .meet i m next n => { p.l with park := .runner i m next n }
    | _ => p.l)) s

/-- The lanes of the first meet parked for a queue. -/
def Warp.runnerLanes (w : Warp) (skip : List Nat) : List Nat :=
  let waits (i : Nat) : Option (DWord × Level × DWord) := match (w.lane i).park with
    | .runner _ m _ _ => if (w.lane i).occ == .live && !skip.contains i then some ((w.lane i).pc, (w.lane i).level, m) else none
    | _ => none
  match lanes64.findSome? waits with
  | some pt => lanes64.filter fun i => waits i == some pt
  | none => []

/-- Complete, one after the other, the runner meets of a warp whose queue allows it. -/
def State.runnerLoop (s : State) (b w : Nat) : Nat → List Nat → State
  | 0, _ => s
  | n + 1, skip =>
      match (s.warp b w).runnerLanes skip with
      | [] => s
      | ls => match s.runnerStep b w ((s.warp b w).parties ls) with
        | some s => State.runnerLoop s b w n skip
        | none => State.runnerLoop s b w n (skip ++ ls)

/-- A runner queue of a warp or of its neighbours may have changed. -/
def State.wakeChain (s : State) (b w : Nat) : State :=
  if (s.gridOf b).chained then
    let ts := b :: [Dir.prev, Dir.next].filterMap fun d => s.neighbour b d
    ts.foldl (fun s t => if (s.blk t).phase == .resident then s.runnerLoop t w 128 [] else s) s
  else s

/-! ### Gathers: `bar.arr` and `bar.sync` of a warp (13 R261, R262) -/

/-- The whole warp goes on from a gather, each lane parked as the instruction says. -/
def State.gatherGo (s : State) (b w : Nat) (ls : List Nat) (park : Park) : State :=
  let g := s.gridOf b
  ls.foldl (fun s i =>
    let l := s.lane b w i
    s.setLane b w i { ({ { l with park := .none }.countPos with prog := 0 }.goto g l.resumeIssue.next) with park := park }) s

/-- A complete gather at an uninitialised barrier: cause 0x01 in every lane (13 R259). -/
def State.gatherIllegal (s : State) (b w : Nat) (ls : List Nat) : State :=
  s.raiseAll b w (ls.filterMap fun i => match (s.lane b w i).park with
    | .gather _ _ word => some { lane := i, cause := 0x01, val := word.zeroExtend 64, epc := (s.lane b w i).pc, pi := 0
                                 exec := s.execMeet (ls.headD 0) : Raise }
    | _ => none)

/-- One arrival of the warp; `bar.sync` then waits on its own phase. -/
def State.gatherStep (s : State) (b w : Nat) (ls : List Nat) (i : Instr) : State :=
  match i with
  | .barArr g n grp tok =>
      if (s.warp b w).rq g.p != g.neg then
        if !(s.bar b grp n).init then s.gatherIllegal b w ls else
        let token := (s.bar b grp n).ph
        let s := s.releaseWarp b w (if grp then .grp else .blk)
        let s := s.arriveBar b grp n
        let s := match tok with
          | some d => s.meetUniform b w .u d [token]
          | none => s
        s.gatherGo b w ls .none
      else s.gatherGo b w ls .none
  | .barSync g n grp =>
      if (s.warp b w).rq g.p != g.neg then
        if !(s.bar b grp n).init then s.gatherIllegal b w ls else
        let token := (s.bar b grp n).ph
        let s := s.releaseWarp b w (if grp then .grp else .blk)
        let s := s.arriveBar b grp n
        s.gatherGo b w ls (if phasePassed (s.bar b grp n).ph token then .none else .bar grp n token)
      else s.gatherGo b w ls .none
  | _ => s

/-! ### Completion -/

/-- The step of a completed meet, for the lanes arrived there (13 R240, R242). A carry of `vscanc` is read from uniform registers, which
have no side bit: its bits are never poison (the model's choice, log 72). -/
def State.meetStep (s : State) (b w : Nat) (pt : MeetPt) : State :=
  let wp := s.warp b w
  let ls := wp.arrived pt
  let ps := wp.parties ls
  match ps with
  | [] => s
  | p0 :: _ =>
      match p0.i with
      | .shfl _ _ _ mode w64 _ seg wr pv _ _ =>
          s.commitMeet b w (answers ps fun p => match p.i with
            | .shfl _ d _ _ _ sel _ _ _ _ _ => shflAns ps p d (if w64 then 2 else 1) mode sel seg wr pv meetSrc
            | _ => .done)
      | .vote _ (.pred op pd) pa _ _ =>
          let v := voteVal op ((ps.filter (·.active)).map fun p => p.l.rp pa)
          s.commitMeet b w (answers ps fun _ => .pred pd v)
      | .vote _ (.bits sd) pa _ _ =>
          let act := ps.filter (·.active)
          let m := maskOf ((act.filter fun p => p.l.rp pa).map (·.lane))
          let s := if act = [] then s else s.meetUniform b w pt.level sd [lo32 m, hi32 m]
          s.commitMeet b w (answers ps fun _ => .done)
      | .matchLanes _ _ _ w64 _ _ =>
          s.commitMeet b w (answers ps fun p => match p.i with
            | .matchLanes _ d _ _ _ _ => matchAns ps p d (if w64 then 2 else 1) meetSrc
            | _ => .done)
      | .vscan _ _ _ seg op exc ty _ _ =>
          let xs := scanAll op ty (scanStart ps op ty seg meetSrc none)
          s.commitMeet b w (answers ps fun p => match p.i with
            | .vscan _ d _ _ _ _ _ _ _ => .regs ((scanLane ps op ty seg exc none xs p.lane).regs d)
            | _ => .done)
      | .vscanc _ _ _ seg op exc ty sc _ _ =>
          let c : ScanVal := { x := (grp sc op.regs).map (wp.rs pt.level), poison := false }
          let xs := scanAll op ty (scanStart ps op ty seg meetSrc (some c))
          let s := s.writeAgg b w pt.level sc ps op ty (scanAgg op ty xs)
          s.commitMeet b w (answers ps fun p => match p.i with
            | .vscanc _ d _ _ _ _ _ _ _ _ => scanTrap ty op p (.regs ((scanLane ps op ty seg exc (some c) xs p.lane).regs d))
            | _ => .done)
      | .redux _ sd _ op ty _ _ =>
          let xs := scanAll op ty (scanStart ps op ty none meetSrc none)
          let s := s.writeAgg b w pt.level sd ps op ty (scanAgg op ty xs)
          s.commitMeet b w (answers ps fun p => scanTrap ty op p .done)
      | .rsend _ _ _ _ _ | .rrecv _ _ _ _ _ | .rpoll _ _ _ _ _ _ => (s.runnerStep b w ps).getD (s.parkRunner b w ps)
      | i => s.gatherStep b w ls i

/-- Raises of the mismatch trap: cause 0x0A with the lane's mask at its PC (13 R241). -/
def Warp.mismatchRaises (w : Warp) (exec : Nat) : List Raise :=
  w.mismatched.filterMap fun i => match (w.lane i).meetPt with
    | some pt => some { lane := i, cause := 0x0A, val := pt.mask, epc := pt.pc,
                        pi := if (w.lane i).resumeIssue.rep = 0 then 0 else (w.lane i).prog, exec := exec : Raise }
    | none => none

/-- Complete every meet that can complete, then trap what is left mismatched, until nothing changes (13 R241, R270). -/
def State.settleMeets (s : State) (b w : Nat) : Nat → State
  | 0 => s
  | n + 1 =>
      match (s.warp b w).firstDone with
      | some pt => State.settleMeets (s.meetStep b w pt) b w n
      | none =>
          match (s.warp b w).mismatchRaises (s.execMismatch n) with
          | [] => s
          | rs => State.settleMeets (s.raiseAll b w rs) b w n

/-- What follows of itself after lanes of a warp arrived, woke, trapped or exited: held traps enter, meets complete, runner
queues move. -/
def State.settleWarp (s : State) (b w : Nat) : State :=
  let s := s.settleHeld b w
  let s := s.settleMeets b w 200
  s.wakeChain b w

/-- The lanes of the entry arrive at a meet instruction with the mask in the uniform pair `m` (13 R240). -/
def State.arrive (s : State) (vs ss : List Nat) (m : Nat) (i : Instr) : State :=
  if s.laneOk vs ([m, m + 1] ++ ss) then
    let mask := s.ur2 m
    let inside := s.cur.lanes.filter fun i => maskHas mask i
    let s1 := inside.foldl (fun s k => s.setCl k { s.cl k with park := .meet i mask s.cur.next s.cur.rep }) s
    let s2 := s1.raiseAll s.cur.blk s.cur.warp ((s.cur.lanes.filter fun i => !maskHas mask i).map fun k => s.raiseHere k 0x0A mask)
    s2.settleWarp s.cur.blk s.cur.warp
  else s.illegal

/-- The lanes of the entry arrive at a warp gather (13 R261). -/
def State.arriveGather (s : State) (i : Instr) : State :=
  let s1 := s.cur.lanes.foldl (fun s k => s.setCl k { s.cl k with park := .gather i s.cur.next s.cur.word }) s
  s1.settleWarp s.cur.blk s.cur.warp

/-! ### The cross-lane instructions -/

def execShfl (g : Guard) (d a : Nat) (mode : ShflMode) (w64 : Bool) (src : ShflSrc) (seg : Nat) (wr : Bool) (pv m la : Nat)
    (s : State) : Res :=
  let k := if w64 then 2 else 1
  .next (s.arrive (grp d k ++ grp a k ++ shflRegs src) [] m (.shfl g d a mode w64 src seg wr pv m la))

def execRedux (g : Guard) (sd a : Nat) (op : SOp) (ty : Ty) (m la : Nat) (s : State) : Res :=
  .next (s.arrive (grp a op.regs) (grp sd op.regs) m (.redux g sd a op ty m la))

def execVscan (g : Guard) (d a : Nat) (seg : Option Nat) (op : SOp) (exc : Bool) (ty : Ty) (m la : Nat) (s : State) : Res :=
  .next (s.arrive (grp d op.regs ++ grp a op.regs) [] m (.vscan g d a seg op exc ty m la))

def execVscanc (g : Guard) (d a : Nat) (seg : Option Nat) (op : SOp) (exc : Bool) (ty : Ty) (sc m la : Nat) (s : State) : Res :=
  .next (s.arrive (grp d op.regs ++ grp a op.regs) (grp sc op.regs) m (.vscanc g d a seg op exc ty sc m la))

/-- Uniform registers that a vote writes. -/
def voteRegs : Vote → List Nat
  | .bits sd => grp sd 2
  | .pred _ _ => []

def execVote (g : Guard) (v : Vote) (pa m la : Nat) (s : State) : Res :=
  .next (s.arrive [] (voteRegs v) m (.vote g v pa m la))

def execMatch (g : Guard) (d a : Nat) (w64 : Bool) (m la : Nat) (s : State) : Res :=
  .next (s.arrive (grp d 2 ++ grp a (if w64 then 2 else 1)) [] m (.matchLanes g d a w64 m la))

def execRsend (g : Guard) (a : Nat) (dir : Dir) (m la : Nat) (s : State) : Res :=
  .next (s.arrive [a] [] m (.rsend g a dir m la))

def execRrecv (g : Guard) (d : Nat) (dir : Dir) (m la : Nat) (s : State) : Res :=
  .next (s.arrive [d] [] m (.rrecv g d dir m la))

def execRpoll (g : Guard) (pd : Nat) (dir : Dir) (snd : Bool) (m la : Nat) (s : State) : Res :=
  .next (s.arrive [] [] m (.rpoll g pd dir snd m la))

/-- Park the entry, or hold the tiller, until phase t has completed (13 R262, 17 R333); the tiller has then acquired. -/
def State.waitBar (s : State) (grp : Bool) (b : Nat) (t : Word) : State :=
  let s1 := s.unext
  let passed := phasePassed (s.bar s.cur.blk grp b).ph t
  match s.cur.agent with
  | .tiller => s1.modTiller s.cur.blk fun x =>
      if passed then { x with synced := s.wcount } else { x with wait := some (grp, b, t, s.cur.pc) }
  | _ => if passed then s1 else s.cur.lanes.foldl (fun s1 i => s1.setCl i { s1.cl i with park := .bar grp b t }) s1

end Sys2Proof.Machine
end

