-- ==== Sys2Proof/Machine/Mmu.lean ====
section
/-! DEFINITION. Translation (19 R338, R350 to R354): stage-1 and stage-2 walks over four levels, TLBs that may serve an
old translation, permission and key checks (11 R202, R205, R219 steps 5 and 6). -/

namespace Sys2Proof.Machine

open Sys2Proof

/-- What an access is for (11 R219, 19 R351). -/
inductive AccKind where
  | load | store | atomic | fetch
  deriving DecidableEq, Repr

/-- The page-fault cause of an access kind (11 R219 step 5). -/
def AccKind.fault : AccKind → Nat
  | .load => 0x04 | .store => 0x05 | .atomic => 0x05 | .fetch => 0x06

/-- A failed check: cause and `XVAL`. -/
abbrev Stop := Nat × DWord

/-- A canonical address: bits [63:56] all equal bit 55 (11 R202). -/
def canonical (a : DWord) : Bool := a.extractLsb' 56 8 == (if a.getLsbD 55 then 0xFF else 0)

/-! ### Table entries (19 Table 19.4) -/

abbrev pteV (e : DWord) : Bool := e.getLsbD 0
abbrev pteLeaf (e : DWord) : Bool := e.getLsbD 1
abbrev pteR (e : DWord) : Bool := e.getLsbD 2
abbrev pteW (e : DWord) : Bool := e.getLsbD 3
abbrev pteX (e : DWord) : Bool := e.getLsbD 4
abbrev pteU (e : DWord) : Bool := e.getLsbD 5
abbrev pteSz (e : DWord) : Bool := e.getLsbD 6
abbrev pteDom (e : DWord) : Nat := e.toNat / 2 ^ 7 % 8
abbrev pteOrd (e : DWord) : Nat := e.toNat / 2 ^ 10 % 4
abbrev pteAddr (e : DWord) : Nat := e.toNat / 2 ^ 12 % 2 ^ 40 * 2 ^ 12
abbrev pteKey (e : DWord) : Nat := e.toNat / 2 ^ 52 % 1024

/-- Bytes that a leaf at a level maps (19 R350); levels 3 and 2 take no leaf. -/
def leafSize (lvl : Nat) (sz : Bool) : Nat :=
  if lvl = 1 then (if sz then 2 ^ 30 else 2 ^ 25) else (if sz then 2 ^ 21 else 2 ^ 16)

/-- Lowest index bit of a level. -/
def lvlShift : Nat → Nat
  | 3 => 45 | 2 => 34 | 1 => 25 | _ => 16

/-- Entries of a table of a level. -/
def lvlEntries (lvl : Nat) : Nat := if lvl ≥ 2 then 2048 else 512

/-- The index of an address in a table of a level. -/
def lvlIndex (lvl a : Nat) : Nat := a / 2 ^ lvlShift lvl % lvlEntries lvl

/-- Validity of an entry met at a level of a stage (19 R351). -/
def pteOk (stage2 : Bool) (lvl : Nat) (e : DWord) : Bool :=
  pteV e && e.toNat / 2 ^ 62 == 0 &&
  (if pteLeaf e then
     (lvl == 0 || lvl == 1) && (pteDom e == 3 || pteDom e == 4 || pteDom e == 5) && pteOrd e != 3 &&
     pteAddr e % leafSize lvl (pteSz e) == 0 && !(stage2 && pteU e)
   else lvl != 0 && e.toNat / 4 % 1024 == 0 && pteKey e == 0)

/-- Read a table entry in physical memory under key id 0; a poisoned entry reads as invalid (log 11). -/
def State.readPte (s : State) (a : Nat) : DWord :=
  if s.poisonAt a 8 then 0 else BitVec.ofNat 64 (leNat (s.bytesAt 0 a 8))

/-- The entry that governs an address at the table of a level: its own, or, where a valid leaf of a larger page stands among its 32
aligned entries and they disagree, one of them (19 R351). `rd` reads an entry. -/
def pickEntry (stage2 : Bool) (ix lvl i : Nat) (rd : Nat → Option DWord) : Option DWord :=
  if lvl ≥ 2 then rd i
  else
    let es := (upto (i / 32 * 32) 32).filterMap rd
    if es.any (fun x => pteLeaf x && pteSz x && pteOk stage2 lvl x) && es.any (fun x => some x != rd i) then
      match es[Config.choice ix % 32]? with
      | some x => some x
      | none => rd i
    else rd i

/-- A walk of the levels in the list: the leaf and the bytes it maps, or nothing; and the table addresses read. `rd` reads 8 bytes at
a table address. -/
def walk (stage2 : Bool) (ix : Nat) (a : Nat) (rd : Nat → Except Stop DWord × List Nat) :
    List Nat → Nat → Except (Option Stop) (DWord × Nat) × List Nat
  | [], _ => (.error none, [])
  | lvl :: r, tab =>
      let i := lvlIndex lvl a
      let own := rd (tab + 8 * i)
      match own.1 with
      | .error e => (.error (some e), own.2)
      | .ok e0 =>
          let e := (pickEntry stage2 ix lvl i fun j => if j = i then some e0 else
            match (rd (tab + 8 * j)).1 with | .ok x => some x | .error _ => none).getD e0
          if pteOk stage2 lvl e then
            if pteLeaf e then (.ok (e, leafSize lvl (pteSz e)), own.2)
            else
              let x := walk stage2 ix a rd r (pteAddr e)
              (x.1, own.2 ++ x.2)
          else (.error none, own.2)

/-- A walk's result. -/
abbrev Found := Except (Option Stop) (DWord × Nat)

def Found.same : Found → Found → Bool
  | .ok x, .ok y => x == y
  | .error x, .error y => x == y
  | _, _ => false

/-! ### What the tables have held (19 R354) -/

/-- The newest write before a count that replaced bytes of the entries read, or of the larger page's entries beside them. -/
def State.lastChange (s : State) (t : Nat) (reads : List Nat) : Option Nat :=
  (s.undo.find? fun u => u.count < t && reads.any fun a =>
    u.addr < a / 256 * 256 + 256 && a / 256 * 256 < u.addr + u.bytes.length).map (·.count)

/-- Memory as it stood before a write. -/
def State.rewind (s : State) (k : Nat) : State :=
  { s with mem := (s.undo.filter fun u => k ≤ u.count).foldl (fun m u =>
      ((upto u.addr u.bytes.length).zip u.bytes).foldl (fun m x => fset memDefault m x.1 x.2) m) s.mem }

/-- What a walk gave before each write to entries that it read, the newest first: the write and the result. -/
def State.past (s : State) (f : State → Found × List Nat) : Nat → Nat → List Nat → List (Nat × Found)
  | 0, _, _ => []
  | n + 1, t, reads =>
      match s.lastChange t reads with
      | none => []
      | some k =>
          let r := f (s.rewind k)
          (k, r.1) :: s.past f n k r.2

/-- A page of a given size that holds an address, or, of a failed walk, the page that the tables give now. -/
def Found.size (now : Found) : Found → Nat
  | .ok x => x.2
  | .error _ => match now with
    | .ok x => x.2
    | .error _ => 65536

/-- A `tlbinv` covers a stage-1 translation, or a stage-2 one, of an address in a page of a size (19 Table 19.5). -/
def Cover.covers1 (tag vmid a size : Nat) : Cover → Bool
  | .va x y v => x == tag && y == vmid && v / size == a / size
  | .asid n => n == tag
  | .vmid n => n == vmid
  | .all => true
  | .ipa _ _ => false

def Cover.covers2 (vmid ipa size : Nat) : Cover → Bool
  | .ipa v i => v == vmid && i / size == ipa / size
  | .vmid n => n == vmid
  | .all => true
  | _ => false

/-- The results of a walk at earlier times that no later `tlbinv` covers. `cov` asks it of a `tlbinv` for what the walk gave before a
write, with the size of its page. -/
def State.olds (s : State) (site : Nat) (cov : Nat → Nat → Cover → Bool) (f : State → Found × List Nat) : List Found :=
  let now := f s
  ((s.past f s.undo.length (s.wcount + 1) now.2).filter fun x =>
    (s.site site).invs.all fun c => c.2 < x.1 || !cov x.1 (Found.size now.1 x.2) c.1).map (·.2)

/-- Add a stage-2 translation to a die's TLB. -/
def State.fillTlb2 (s : State) (site : Nat) (t : Tlb2) : State :=
  if (s.site site).tlb2.any fun x => x.vmid == t.vmid && x.ipage == t.ipage && x.leaf == t.leaf && x.size == t.size
  then s
  else s.setSite site { s.site site with tlb2 := t :: (s.site site).tlb2 }

def State.fillTlb1 (s : State) (site : Nat) (t : Tlb1) : State :=
  if (s.site site).tlb1.any fun x =>
    x.asid == t.asid && x.vmid == t.vmid && x.vpage == t.vpage && x.leaf == t.leaf && x.size == t.size
  then s
  else s.setSite site { s.site site with tlb1 := t :: (s.site site).tlb1 }

/-- Choose between what the tables hold and what a TLB may still serve (19 R354). -/
def serve (ix : Nat) (now : Found) (old : List Found) : Found :=
  let others := old.filter fun x => !Found.same now x
  if others = [] then now else (others[Config.choice ix % (others.length + 1)]?).getD now

/-- The stage-2 walk of an IPA in the tables of a root. -/
def State.walk2 (ix root ipa : Nat) (s : State) : Found × List Nat :=
  walk true ix ipa (fun a => (.ok (s.readPte a), [a])) [3, 2, 1, 0] (root * 2 ^ 14)

/-- Stage 2 of an IPA under a partition (19 R350, R352): the leaf and its size, none when stage 2 is disabled; a failure of the walk;
and the table addresses read. -/
def State.stage2 (s : State) (site p ipa : Nat) : Except Unit (Option (DWord × Nat)) × List Nat :=
  let root := (s.part p).xptb2.toNat
  let vmid := (s.part p).vmid
  if root = 0 then (.ok none, [])
  else if ipa ≥ 2 ^ 52 then (.error (), [])
  else
    let now := s.walk2 s.freeIx root ipa
    let held : List Found := ((s.site site).tlb2.filter fun t => t.vmid == vmid && t.ipage == ipa / 2 ^ 16).map fun t => .ok (t.leaf, t.size)
    match serve (s.freeIx + 1) now.1 (held ++ s.olds site (fun _ => Cover.covers2 vmid ipa) (State.walk2 s.freeIx root ipa)) with
    | .ok x => (.ok (some x), now.2)
    | .error _ => (.error (), now.2)

/-- The physical address that a leaf gives an address. -/
def leafAddr (leaf : DWord) (size a : Nat) : Nat := pteAddr leaf + a % size

/-- Read a stage-1 table entry: its address is an IPA, read through stage 2 with R and key 0 (19 R350). -/
def State.readPte1 (s : State) (site p ipa : Nat) : Except Stop DWord × List Nat :=
  let t := s.stage2 site p ipa
  match t.1 with
  | .error _ => (.error (0x13, BitVec.ofNat 64 ipa), t.2)
  | .ok none => (.ok (s.readPte ipa), ipa :: t.2)
  | .ok (some (leaf, size)) =>
      let pa := leafAddr leaf size ipa
      if pteR leaf && pteKey leaf == 0 then (.ok (s.readPte pa), pa :: t.2) else (.error (0x13, BitVec.ofNat 64 ipa), t.2)

/-- The stage-1 walk of an address in the tables of a context. -/
def State.walk1 (ix site p root a : Nat) (s : State) : Found × List Nat :=
  walk false ix a (s.readPte1 site p) [3, 2, 1, 0] (root * 2 ^ 14)

/-- A stage-1 walk reads a table entry through a stage-2 translation that a `tlbinv` covers: its result is a translation through that
one (19 Table 19.5). -/
def State.tableThrough (ix site p root a : Nat) (c : Cover) (s : State) : Bool :=
  let through (ipa : Nat) : Bool := match (s.stage2 site p ipa).1 with
    | .ok none => false
    | .ok (some (_, size)) => Cover.covers2 (s.part p).vmid ipa size c
    | .error _ => Cover.covers2 (s.part p).vmid ipa 65536 c
  (walk false ix a (fun ipa => ((s.readPte1 site p ipa).1, if through ipa then [ipa] else [])) [3, 2, 1, 0] (root * 2 ^ 14)).2 != []

/-- What reading table entries does: bridge requests, the records of unbacked addresses. -/
def State.touchWalk (s : State) (site asid : Nat) (reads : List Nat) : State :=
  reads.foldl (fun s a => match s.paKind a with
    | .host => s.bridgeRead (a / 128)
    | .unbacked => s.logUnbacked site asid a
    | _ => s) s

/-- A completed walk: physical address, IPA, stage-1 leaf, stage-2 leaf. At level H only the physical address counts. -/
structure Walked where
  pa : Nat
  ipa : Nat
  leaf1 : DWord
  leaf2 : Option DWord
  size1 : Nat
  size2 : Nat
  phys : Bool
  deriving DecidableEq, Repr

/-- Step 5 of 11 R219: canonical form and translation of one address. -/
def State.walkVa (s : State) (site asid : Nat) (lv : Level) (kind : AccKind) (va : DWord) : State × Except Stop Walked :=
  if lv = .h then
    if va.toNat ≥ 2 ^ 52 then (s, .error (kind.fault, va))
    else (s, .ok { pa := va.toNat, ipa := va.toNat, leaf1 := 0, leaf2 := none, size1 := 0, size2 := 0, phys := true })
  else if !canonical va then (s, .error (kind.fault, va))
  else
    let x := s.ctx asid
    let tag := x.xasid.toNat
    let vmid := s.vmidOf asid
    let a := va.toNat % 2 ^ 56
    let f := State.walk1 s.freeIx site x.part x.xptb.toNat a
    let now := f s
    let held : List Found := ((s.site site).tlb1.filter fun t => t.asid == tag && t.vmid == vmid && t.vpage == a / 2 ^ 16).map
      fun t => .ok (t.leaf, t.size)
    let t := { s.touchWalk site asid now.2 with freeIx := s.freeIx + 5 }
    let cov (k size : Nat) (c : Cover) : Bool :=
      Cover.covers1 tag vmid a size c || State.tableThrough s.freeIx site x.part x.xptb.toNat a c (s.rewind k)
    match serve (s.freeIx + 2) now.1 (held ++ s.olds site cov f) with
    | .error (some e) => (t, .error e)
    | .error none => (t, .error (kind.fault, va))
    | .ok (leaf, size) =>
        let ipa := leafAddr leaf size a
        let t := t.fillTlb1 site { asid := tag, vmid := vmid, vpage := a / 2 ^ 16, leaf := leaf, size := size }
        let two := ({ s with freeIx := s.freeIx + 3 }).stage2 site x.part ipa
        let t := { t.touchWalk site asid two.2 with freeIx := s.freeIx + 5 }
        match two.1 with
        | .error _ => (t, .error (0x13, BitVec.ofNat 64 ipa))
        | .ok none => (t, .ok { pa := ipa, ipa := ipa, leaf1 := leaf, leaf2 := none, size1 := size, size2 := 0, phys := false })
        | .ok (some (l2, sz2)) =>
            (t.fillTlb2 site { vmid := vmid, ipage := ipa / 2 ^ 16, leaf := l2, size := sz2 },
             .ok { pa := leafAddr l2 sz2 ipa, ipa := ipa, leaf1 := leaf, leaf2 := some l2, size1 := size, size2 := sz2, phys := false })

/-- A leaf grants the permission of an access kind. -/
def grants (kind : AccKind) (e : DWord) : Bool :=
  match kind with
  | .load => pteR e
  | .store => pteW e
  | .atomic => pteR e && pteW e
  | .fetch => pteX e

/-- The stage-1 part of step 6 of 11 R219: permission, user and key (19 R338, 11 R205). `user` asks for the user permission rule of the
level; the part's own agents do without it (03 R71). -/
def permCheck1 (xkey : Nat) (lv : Level) (kind : AccKind) (user : Bool) (va : DWord) (w : Walked) : Option Stop :=
  let okU := match kind with
    | .fetch => if lv = .u then pteU w.leaf1 else !pteU w.leaf1
    | _ => !(user && lv == .u) || pteU w.leaf1
  if w.phys || (grants kind w.leaf1 && okU && (pteKey w.leaf1 == 0 || pteKey w.leaf1 == xkey)) then none else some (0x07, va)

/-- The stage-2 part of step 6 (19 R352). -/
def permCheck2 (kind : AccKind) (w : Walked) : Option Stop :=
  match w.leaf2 with
  | none => none
  | some e => if w.phys || (grants kind e && (pteKey e == 0 || pteKey e == pteKey w.leaf1)) then none
      else some (0x13, BitVec.ofNat 64 w.ipa)

/-- Step 6 for several pieces: every stage-1 check, then every stage-2 check. -/
def permChecks (xkey : Nat) (lv : Level) (kind : AccKind) (user : Bool) (ws : List (DWord × Walked)) : Option Stop :=
  match ws.findSome? fun w => permCheck1 xkey lv kind user w.1 w.2 with
  | some e => some e
  | none => ws.findSome? fun w => permCheck2 kind w.2

/-- Where an access goes and with which attributes (11 Table 11.2, 19 R352). -/
structure Place where
  pa : Nat
  dom : Nat
  ord : Nat
  key : Nat
  deriving DecidableEq, Repr

/-- Attributes of a walked address. -/
def Walked.place (w : Walked) : Place :=
  if w.phys then { pa := w.pa, dom := 5, ord := 0, key := 0 }
  else
    match w.leaf2 with
    | none => { pa := w.pa, dom := pteDom w.leaf1, ord := pteOrd w.leaf1, key := pteKey w.leaf1 }
    | some e =>
        { pa := w.pa
          dom := if pteDom w.leaf1 < pteDom e then pteDom w.leaf1 else pteDom e
          ord := if pteOrd w.leaf1 = 1 || pteOrd e = 1 then 1 else if pteOrd w.leaf1 = 2 && pteOrd e = 2 then 2 else 0
          key := pteKey w.leaf1 }

/-- Translate and check one address. -/
def State.xlate (s : State) (site asid : Nat) (lv : Level) (kind : AccKind) (user : Bool) (va : DWord) :
    State × Except Stop Place :=
  match s.walkVa site asid lv kind va with
  | (s, .error e) => (s, .error e)
  | (s, .ok w) =>
      match permChecks (s.ctx asid).xkey.toNat lv kind user [(va, w)] with
      | some e => (s, .error e)
      | none => (s, .ok w.place)

/-- The pieces of an access of n bytes (11 R208): offset and length; one piece when aligned. -/
def pieces (a : DWord) (n : Nat) : List (Nat × Nat) :=
  let r := a.toNat % n
  if r = 0 then [(0, n)] else [(0, n - r), (n - r, r)]

/-- Translate every piece (step 5), then check every piece (step 6), before any is performed (11 R208, R219). -/
def State.xlatePieces (s : State) (site asid : Nat) (lv : Level) (kind : AccKind) (user : Bool) (a : DWord) (n : Nat) :
    State × Except Stop (List (Place × Nat × Nat)) :=
  let ps := pieces a n
  let r := ps.foldl (fun (acc : State × Except Stop (List (Walked × Nat × Nat))) p =>
    match acc.2 with
    | .error _ => acc
    | .ok ws =>
        match acc.1.walkVa site asid lv kind (a + BitVec.ofNat 64 p.1) with
        | (s, .error e) => (s, .error e)
        | (s, .ok w) => (s, .ok (ws ++ [(w, p.1, p.2)]))) (s, .ok [])
  match r with
  | (s, .error e) => (s, .error e)
  | (s, .ok ws) =>
      match permChecks (s.ctx asid).xkey.toNat lv kind user (ws.map fun w => (a + BitVec.ofNat 64 w.2.1, w.1)) with
      | some e => (s, .error e)
      | none => (s, .ok (ws.map fun w => (w.1.place, w.2.1, w.2.2)))

end Sys2Proof.Machine
end

