-- ==== Sys2Proof/Machine/Access.lean ====
section
/-! DEFINITION. Accesses to global memory, scratchpad and the group window by the lanes of a block (11 R201 to R228, 15 R273 to
R285, 23 R394, R395). -/

namespace Sys2Proof.Machine

open Sys2Proof

/-! ### Global memory -/

/-- A store touches any of n bytes from a. -/
def PStore.meets (p : PStore) (a n : Nat) : Bool := p.addr < a + n && a < p.addr + p.bytes.length

/-- Stores that a thread sees before they are performed: held stores of its block, then its own in issue order (15 R274,
23 R394). -/
def State.ownStores (s : State) (b w i : Nat) : List PStore :=
  (s.blk b).hold ++ (s.blk b).pend.filter fun p => p.byLane w i

/-- A byte under the stores that a thread sees. -/
def State.overByte (s : State) (key a : Nat) (ps : List PStore) (b : Byte) : Byte :=
  ps.foldl (fun b p =>
    if p.addr ≤ a && a < p.addr + p.bytes.length then
      let x := p.bytes[a - p.addr]?.getD 0
      if p.key = key || 0x8000000000000 ≤ a then x else Config.scramble (s.tagOf key) (s.tagOf p.key) a x
    else b) b

/-- Poison of a sector under the stores that a thread sees (07 R154). -/
def overPoison (sec : Nat) (ps : List PStore) (x : Bool) : Bool :=
  ps.foldl (fun x p =>
    if p.meets (sec * 32) 32 then
      (if p.poison then true else if p.addr ≤ sec * 32 && sec * 32 + 32 ≤ p.addr + p.bytes.length then false else x)
    else x) x

/-- What a thread on a die reads at a physical address: bytes and poison. -/
def State.readAs (s : State) (site : Nat) (ps : List PStore) (key a n : Nat) : List Byte × Bool :=
  let ps := ps.filter fun p => p.meets (a / 32 * 32) (n + 64)
  ((upto a n).map fun k => s.overByte key k ps (s.byteAt key k), (sectorsOf a n).any fun sec => overPoison sec ps (s.sectorPoisonFor site sec))

/-- An access to an `ordered` page comes after every earlier access of the thread and commits (15 R284, 23 R395). -/
def State.orderAt (s : State) (b w i ord : Nat) : State := if ord = 1 then (s.commit b).drainLane b w i else s

/-- One piece of a load by a lane: the bytes and their poison. -/
def State.loadPiece (s : State) (b w i : Nat) (pl : Place) (n : Nat) : State × List Byte × Bool :=
  let a := pl.pa
  let s := s.orderAt b w i pl.ord
  let s := s.touchRead (s.siteOf b) (s.asidOf b) pl.key a n
  let r := s.readAs (s.siteOf b) (s.ownStores b w i) pl.key a n
  let s := s.setLane b w i ((s.lane b w i).see a n s.wcount)
  (s, r.1, r.2)

/-- Every piece of a load, the lower first (11 R208). -/
def State.loadPieces (s : State) (b w i : Nat) : List (Place × Nat × Nat) → State × List Byte × Bool
  | [] => (s, [], false)
  | (pl, _, n) :: r =>
      let x := s.loadPiece b w i pl n
      let y := x.1.loadPieces b w i r
      (y.1, x.2.1 ++ y.2.1, x.2.2 || y.2.2)

/-- Distinct sectors of held stores (23 R394). -/
def heldSectors (ps : List PStore) : Nat := ((ps.map fun p => sectorsOf p.addr p.bytes.length).flatten.eraseDups).length

/-- The buffer of a die, which all its uncommitted blocks share, has room for the held stores of a block (23 R394, R396). -/
def State.bufferHolds (s : State) (site b : Nat) (ps : List PStore) : Bool :=
  heldSectors ps + (s.blocks.map fun x => if x.1 != b && x.2.site == site then heldSectors x.2.hold else 0).foldl (· + ·) 0 ≤ 32768

/-- A store enters the block's held stores, or its list of stores not yet performed; on an `ordered` page, and one of the barrow, it is
performed at once (15 R284, 23 R394, R395). -/
def State.emit (s : State) (b : Nat) (pl : Place) (p : PStore) : State :=
  let s := p.lanes.foldl (fun s i => s.orderAt b p.warp i pl.ord) (if pl.ord = 1 then s.commit b else s)
  if s.holding b && s.bufferHolds (s.siteOf b) b (p :: (s.blk b).hold) then s.modBlk b fun k => { k with hold := k.hold ++ [p] }
  else
    let s := s.commit b
    if pl.ord = 1 || p.lanes == [] then s.performStore b p else s.modBlk b fun k => { k with pend := k.pend ++ [p] }

/-- The home of a line holds a request: it recovers the line (23 R401, R402), or earlier requests still wait for it there (24 R408); of one
that a home has released (`again`) only the first. -/
def State.lineHeld (s : State) (again : Bool) (l : Nat) : Bool :=
  (fget none s.suspects l).isSome || (!again && s.homeq.any fun q => q.lines.contains l)

/-- The lines at whose homes pieces of an access of the issue in progress are held. -/
def State.heldUp (s : State) (ps : List (Place × Nat × Nat)) : List Nat :=
  if s.suspects = [] && s.homeq = [] then []
  else (ps.map fun p => linesOf p.1.pa p.2.2).flatten.filter (s.lineHeld s.cur.redo.isSome)

/-- Every piece of a store by an agent of a block. -/
def State.storePieces (s : State) (b w i : Nat) (bytes : List Byte) (poison : Bool) : List (Place × Nat × Nat) → State
  | [] => s
  | (pl, off, n) :: r =>
      State.storePieces (s.emit b pl { warp := w, lanes := [i], addr := pl.pa, bytes := (bytes.drop off).take n, poison := poison,
                                       key := pl.key, stream := pl.ord == 2, exec := s.steps }) b w i bytes poison r

/-- Translate and check an access of a lane (11 R219 steps 5 and 6). -/
def State.xlateLane (s : State) (b : Nat) (lv : Level) (kind : AccKind) (a : DWord) (n : Nat) :
    State × Except Stop (List (Place × Nat × Nat)) :=
  s.xlatePieces (s.siteOf b) (s.asidOf b) lv kind true a n

/-! ### Registers and bytes (11 Table 11.6) -/

/-- Registers that a load fills from its bytes. -/
def loadRegs (d : Nat) (ty : Ty) (bytes : List Byte) (poison : Bool) : List (Nat × RegVal) :=
  if poison then (grp d ty.regs).map fun n => (n, .poison)
  else
    let v := leNat bytes
    match ty with
    | .s8 => [(d, .clean ((BitVec.ofNat 8 v).signExtend 32))]
    | .s16 => [(d, .clean ((BitVec.ofNat 16 v).signExtend 32))]
    | _ => (upto 0 ty.regs).map fun j => (d + j, .clean (BitVec.ofNat 32 (v / 2 ^ (32 * j))))

/-- The bytes of a register group in memory order. -/
def groupBytes (ws : List Word) (n : Nat) : List Byte := ((ws.map fun x => leBytes 4 x.toNat).flatten).take n

/-- The 64-bit address of a lane access (11 R219 step 2). -/
def laneAddr (l : Lane) (a : Nat) (off : BitVec 16) : DWord := l.rd2 a + off.signExtend 64

/-- The checks of a global access of a lane: poison address, alignment when required, translation; then what follows. -/
def State.globalAddr (s : State) (lv : Level) (kind : AccKind) (l : Lane) (a : Nat) (off : BitVec 16) (n : Nat) (aligned : Bool)
    (k : State → DWord → List (Place × Nat × Nat) → State × Ans) : State × Ans :=
  if l.sideAny a 2 then (s, .trap 0x08 0)
  else
    let va := laneAddr l a off
    if aligned && va.toNat % n != 0 then (s, .trap 0x03 va)
    else match s.xlateLane s.cur.blk lv kind va n with
      | (s, .error e) => (s, .trap e.1 e.2)
      | (s, .ok ps) => k s va ps

/-- A global access of a lane: its checks, then the access itself unless a home holds its request. -/
def State.globalLane (s : State) (lv : Level) (kind : AccKind) (l : Lane) (a : Nat) (off : BitVec 16) (n : Nat) (aligned : Bool)
    (k : State → DWord → List (Place × Nat × Nat) → State × Ans) : State × Ans :=
  s.globalAddr lv kind l a off n aligned fun s va ps =>
    if s.heldUp ps = [] then k s va ps else (s, .held (s.heldUp ps))

/-- What a load of an address is in flight to (23 R405): a peer port, or the host port. -/
def hostPort : Nat := 16
def State.flightTo (s : State) (a : Nat) : Option Nat :=
  match s.paKind a with
  | .peer p => some p
  | .host => some hostPort
  | _ => none

/-- Results of a load of the pieces of an access. -/
def State.loaded (s : State) (ps : List (Place × Nat × Nat)) (rs : List (Nat × RegVal)) : Ans :=
  .ok { Out1.none with regs := rs, src := ps.findSome? fun p => s.flightTo p.1.pa }

/-- The narrower of a scope and a page's `DOM` (00 R12, 11 R204). -/
def effScope (sc : Scope) (dom : Nat) : Scope := if sc.code ≤ dom then sc else if dom = 3 then .die else if dom = 4 then .dev else .sys

/-- A release by a lane at a scope; a release at self scope orders nothing for another agent. At any other, what it orders is visible to
every agent before it, for a store becomes visible to all at one moment (15 R274, R275). -/
def State.relAt (s : State) (b w i : Nat) (rel : Bool) (sc : Scope) : State :=
  if rel && sc != .self then s.releaseLane b w i sc else s

/-! ### Scratchpad (11 R210 to R213) -/

/-- An operation that keeps a line absent: a command still to write there, or a held store (11 R212). -/
def LineOp.absents : LineOp → Bool
  | .cmd _ _ | .store _ _ _ _ _ _ => true
  | .due _ | .reader _ => false

/-- A line of a block's scratchpad is absent (11 R212). -/
def Block.absentLine (k : Block) (line : Nat) : Bool := (fget [] k.lines line).any LineOp.absents

/-- Bytes and poison of a scratchpad. -/
def Block.getScratch (k : Block) (off n : Nat) : List Byte × Bool :=
  ((upto off n).map fun i => fget 0 k.scratch i, (sectorsOf off n).any fun sec => fget false k.spoison sec)

/-- A store to a scratchpad: held while its line is absent. -/
def Block.storeScratch (k : Block) (blk warp lane off : Nat) (bytes : List Byte) (poison : Bool) : Block :=
  let line := off / 128
  if k.absentLine line then
    { k with lines := fset [] k.lines line (fget [] k.lines line ++ [.store blk warp lane off bytes poison]) }
  else k.putScratch off bytes poison

/-- Where a scratchpad or window access goes. -/
inductive ScrTarget where
  | here (blk off : Nat)
  | parked (rank : Nat)
  | gone
  deriving DecidableEq, Repr

/-- The scratchpad that a window address names (11 R211, 03 R77, R84); `va` is the whole sum. -/
def State.windowTarget (s : State) (b : Nat) (va : Int) (n : Nat) : Except Stop ScrTarget :=
  let g := s.gridOf b
  let x := (va % 2 ^ 32).toNat
  let rank := x / 2 ^ 20 % 16
  let off := x % 2 ^ 20
  if 2 ^ 24 ≤ x || g.gsize ≤ rank || g.khdr.scratch < off + n then .error (0x09, BitVec.ofInt 64 va)
  else if rank = s.rank b then .ok (.here b off)
  else match s.blockAt (s.blk b).grid (s.groupNo b * g.gsize + rank) with
    | none => .ok (.parked rank)
    | some m => match (s.blk m).phase with
      | .resident => .ok (.here m off)
      | .preempted | .relaunch => .ok (.parked rank)
      | .retired | .failing | .failed => .ok .gone

/-- A local offset (11 R210). -/
def State.localTarget (s : State) (b : Nat) (va : Int) (n : Nat) : Except Stop ScrTarget :=
  if va < 0 || ((s.gridOf b).khdr.scratch : Int) < va + n then .error (0x09, BitVec.ofInt 64 va) else .ok (.here b va.toNat)

/-- The shape of a scratchpad access: poison, alignment, bounds; then the access at its target. -/
def State.scratchLane (s : State) (l : Lane) (a : Nat) (off : BitVec 16) (n : Nat) (win : Bool)
    (k : ScrTarget → State × Ans) : State × Ans :=
  if (l.rv a).side then (s, .trap 0x08 0)
  else
    let va : Int := (zv (l.rd a) : Int) + off.toInt
    if va % (n : Int) != 0 then (s, .trap 0x03 (BitVec.ofInt 64 va))
    else match if win then s.windowTarget s.cur.blk va n else s.localTarget s.cur.blk va n with
      | .error e => (s, .trap e.1 e.2)
      | .ok t => k t

/-- A load from a scratchpad or the window (11 R211, R212). -/
def State.scratchLoad (s : State) (d : Nat) (ty : Ty) (t : ScrTarget) : State × Ans :=
  match t with
  | .parked r => (s, .park (.window r))
  | .gone => (s, .regs (loadRegs d ty (leBytes ty.bytes 0) false))
  | .here m off =>
      if (s.blk m).absentLine (off / 128) then (s, .park (.line m (off / 128)))
      else let r := (s.blk m).getScratch off ty.bytes; (s, .regs (loadRegs d ty r.1 r.2))

/-- A store to a scratchpad or the window; one to another rank commits (23 R395). -/
def State.scratchStore (s : State) (i : Nat) (bytes : List Byte) (poison : Bool) (t : ScrTarget) : State × Ans :=
  match t with
  | .parked r => (s, .park (.window r))
  | .gone => (s.commit s.cur.blk, .done)
  | .here m off =>
      let s := if m = s.cur.blk then s else s.commit s.cur.blk
      (s.modScr m fun k => k.storeScratch s.cur.blk s.cur.warp i off bytes poison, .done)

/-! ### Atomic steps (11 R227, R228) -/

/-- Two values in the arithmetic of an operation: width in bits, signedness. -/
def aopVal (op : AOp) (ty : Ty) (o b c : Nat) : Nat :=
  let w := 8 * ty.bytes
  let sg (x : Nat) : Int := if (ty == .s32 || ty == .s64) && 2 ^ (w - 1) ≤ x then (x : Int) - (2 ^ w : Nat) else x
  match op with
  | .add => if ty = .f32 then (fdot fp32 [(fp32.decode o, fone), (fp32.decode b, fone)] none .rn false).1 else (o + b) % 2 ^ w
  | .min => if ty = .f32 then fminmax fp32 false o b (fp32.decode o) (fp32.decode b) else if sg b < sg o then b else o
  | .max => if ty = .f32 then fminmax fp32 true o b (fp32.decode o) (fp32.decode b) else if sg o < sg b then b else o
  | .and => o &&& b
  | .or => o ||| b
  | .xor => o ^^^ b
  | .exch => b
  | .cas => if o = c then b else o

/-- An operation writes: a failed `cas` does not. -/
def aopWrites (op : AOp) (o c : Nat) : Bool := op != .cas || o == c

/-- The value of a register group. -/
def Lane.groupNat (l : Lane) (n k : Nat) : Nat := leNat (groupBytes ((grp n k).map l.rd) (4 * k))

/-- Poison of an atomic's operand group (07 R151). -/
def aopPoison (l : Lane) (ty : Ty) (n : Nat) : Bool :=
  l.sideAny n ty.regs || (ty == .f32 && l.rd n == poison32)

/-- The old value as registers, with side bits. -/
def oldRegs (d : Nat) (ty : Ty) (o : Nat) (side : Bool) : List (Nat × RegVal) :=
  (upto 0 ty.regs).map fun j => (d + j, { val := BitVec.ofNat 32 (o / 2 ^ (32 * j)), side := side })

/-- Where an atomic executes (11 Table 11.3): at an effective scope up to die in the issuing die, else at the home of the line; for
host memory at the bridge, for a peer's at its home. -/
def State.atomNode (s : State) (b : Nat) (pl : Place) (sc : Scope) : Nat :=
  if s.paKind pl.pa == .hbm && (effScope sc pl.dom).code ≤ 3 then s.siteOf b else home

/-- One atomic read-modify-write at a place of global memory, under exclusive ownership where a die executes it (11 Table 11.3): the old
value and its poison. -/
def State.atomStep (s : State) (b w i : Nat) (pl : Place) (sc : Scope) (op : AOp) (ty : Ty) (bv cv : Nat) (pois : Bool) :
    State × Nat × Bool :=
  let n := ty.bytes
  let node := s.atomNode b pl sc
  let s := s.commit b
  let s := s.orderAt b w i pl.ord
  let s := s.drainIf b fun p => p.warp == w && p.meets pl.pa n
  let s := s.touchRead node (s.asidOf b) pl.key pl.pa n
  let s := if s.paKind pl.pa == .host then (linesOf pl.pa n).foldl State.bridgeOwn s
    else if node != home then (linesOf pl.pa n).foldl (fun s l => s.ownLine node l) s else s
  let o := leNat (s.bytesAt pl.key pl.pa n)
  let p := s.poisonFor node pl.pa n
  let s :=
    if pois then s.writeMem node (s.asidOf b) pl.key pl.pa (leBytes n o) true
    else if p then s
    else if aopWrites op o cv then s.writeMem node (s.asidOf b) pl.key pl.pa (leBytes n (aopVal op ty o bv cv)) false
    else s
  (s.setLane b w i ((s.lane b w i).see pl.pa n s.wcount), o, p)

/-- One atomic step in a scratchpad. -/
def Block.atomStep (k : Block) (off : Nat) (op : AOp) (ty : Ty) (bv cv : Nat) (pois : Bool) : Block × Nat × Bool :=
  let n := ty.bytes
  let r := k.getScratch off n
  let o := leNat r.1
  let k :=
    if pois then k.putScratch off (leBytes n o) true
    else if r.2 then k
    else if aopWrites op o cv then k.putScratch off (leBytes n (aopVal op ty o bv cv)) false
    else k
  (k, o, r.2)

end Sys2Proof.Machine
end

