-- ==== Sys2Proof/Machine/Mem.lean ====
section
/-! DEFINITION. Loads, stores, atomics and cache maintenance (11 R219 to R229), their uniform forms, and `mwait` (19 R358). -/

namespace Sys2Proof.Machine

open Sys2Proof

/-! ### Global loads and stores (11 R222, R223) -/

/-- A load by one lane. -/
def State.ldLane (s : State) (i : Nat) (l : Lane) (d a : Nat) (ty : Ty) (off : BitVec 16) (aligned : Bool) : State × Ans :=
  s.globalLane s.cur.level .load l a off ty.bytes aligned fun s _ ps =>
    let r := s.loadPieces s.cur.blk s.cur.warp i ps
    (r.1, s.loaded ps (loadRegs d ty r.2.1 r.2.2))

/-- Acquire and cache hint change no value here: a load always reads the newest performed write (log 8). -/
def execLd (g : Guard) (d a : Nat) (ty : Ty) (_acq : Bool) (_ch : CacheHint) (_sc : Scope) (off : BitVec 16) (la : Nat)
    (s : State) : Res :=
  .next (s.laneMem (grp d ty.regs ++ grp a 2) [] g (some la) fun s i l => s.ldLane i l d a ty off false)

/-- A store by one lane, after its release. -/
def State.stLane (s : State) (i : Nat) (l : Lane) (b a : Nat) (ty : Ty) (rel : Bool) (sc : Scope) (off : BitVec 16) :
    State × Ans :=
  s.globalLane s.cur.level .store l a off ty.bytes false fun s _ ps =>
    let s := s.relAt s.cur.blk s.cur.warp i rel sc
    (s.storePieces s.cur.blk s.cur.warp i (groupBytes ((grp b ty.regs).map l.rd) ty.bytes) (l.sideAny b ty.regs) ps, .done)

def execSt (g : Guard) (b a : Nat) (ty : Ty) (rel : Bool) (_ch : CacheHint) (sc : Scope) (off : BitVec 16) (_la : Nat)
    (s : State) : Res :=
  .next (s.laneMem (grp b ty.regs ++ grp a 2) [] g (some 0) fun s i l => s.stLane i l b a ty rel sc off)

/-! ### Scratchpad and window (11 R226) -/

def State.ldsLane (s : State) (l : Lane) (d a : Nat) (ty : Ty) (off : BitVec 16) (win : Bool) : State × Ans :=
  s.scratchLane l a off ty.bytes win (s.scratchLoad d ty)

def State.stsLane (s : State) (i : Nat) (l : Lane) (b a : Nat) (ty : Ty) (off : BitVec 16) (win : Bool) : State × Ans :=
  s.scratchLane l a off ty.bytes win
    (s.scratchStore i (groupBytes ((grp b ty.regs).map l.rd) ty.bytes) (l.sideAny b ty.regs))

def execLds (g : Guard) (d a : Nat) (ty : Ty) (off : BitVec 16) (la : Nat) (s : State) : Res :=
  .next (s.laneMem (a :: grp d ty.regs) [] g (some la) fun s _ l => s.ldsLane l d a ty off false)

def execSts (g : Guard) (b a : Nat) (ty : Ty) (off : BitVec 16) (_la : Nat) (s : State) : Res :=
  .next (s.laneMem (a :: grp b ty.regs) [] g (some 0) fun s i l => s.stsLane i l b a ty off false)

def execLdg (g : Guard) (d a : Nat) (ty : Ty) (off : BitVec 16) (la : Nat) (s : State) : Res :=
  .next (s.laneMem (a :: grp d ty.regs) [] g (some la) fun s _ l => s.ldsLane l d a ty off true)

def execStg (g : Guard) (b a : Nat) (ty : Ty) (off : BitVec 16) (_la : Nat) (s : State) : Res :=
  .next (s.laneMem (a :: grp b ty.regs) [] g (some 0) fun s i l => s.stsLane i l b a ty off true)

/-! ### Atomics (11 R227, R228) -/

/-- Registers of a comparand. -/
def casRegs (op : AOp) (ty : Ty) (c : Nat) : List Nat := if op = .cas then grp c ty.regs else []

/-- Poison of the operand or of the comparand. -/
def atomPoison (l : Lane) (op : AOp) (ty : Ty) (b c : Nat) : Bool := aopPoison l ty b || (op == .cas && l.sideAny c ty.regs)

/-- A value of the operation's width from a register group. -/
def Lane.aopArg (l : Lane) (ty : Ty) (n : Nat) : Nat := l.groupNat n ty.regs % 2 ^ (8 * ty.bytes)

/-- One lane's global atomic: the old value and whether it or an operand was poison. -/
def State.atomLane (s : State) (i : Nat) (l : Lane) (a b c : Nat) (op : AOp) (ty : Ty) (sc : Scope) (rel : Bool)
    (k : Nat → Bool → Ans) : State × Ans :=
  s.globalLane s.cur.level .atomic l a 0 ty.bytes true fun s _ ps =>
    match ps with
    | (pl, _, _) :: _ =>
        let s := s.relAt s.cur.blk s.cur.warp i rel sc
        let pois := atomPoison l op ty b c
        let r := s.atomStep s.cur.blk s.cur.warp i pl sc op ty (l.aopArg ty b) (l.aopArg ty c) pois
        (r.1, k r.2.1 (r.2.2 || pois))
    | [] => (s, .done)

end Sys2Proof.Machine

namespace Sys2Proof

open Sys2Proof.Machine

/-- `.rel` or `.ar`. -/
def Sem.isRel : Sem → Bool
  | .rel | .ar => true
  | _ => false

end Sys2Proof

namespace Sys2Proof.Machine

open Sys2Proof

def execAtom (g : Guard) (d a b c : Nat) (op : AOp) (ty : Ty) (sc : Scope) (sem : Sem) (la : Nat) (s : State) : Res :=
  .next (s.laneMem (grp d ty.regs ++ grp a 2 ++ grp b ty.regs ++ casRegs op ty c) [] g (some la) fun s i l =>
    s.atomLane i l a b c op ty sc sem.isRel fun o p => .regs (oldRegs d ty o p))

def execRed (g : Guard) (a b : Nat) (op : AOp) (ty : Ty) (sc : Scope) (rel : Bool) (_la : Nat) (s : State) : Res :=
  .next (s.laneMem (grp a 2 ++ grp b ty.regs) [] g (some 0) fun s i l => s.atomLane i l a b 0 op ty sc rel fun _ _ => .done)

/-- A scratchpad or window atomic of one lane; one to another rank commits (11 R211, R212, 23 R395). -/
def State.atomsLane (s : State) (i : Nat) (l : Lane) (d a b c : Nat) (op : AOp) (ty : Ty) (sem : Sem) (win : Bool) :
    State × Ans :=
  s.scratchLane l a 0 ty.bytes win fun t =>
    match t with
    | .parked r => (s, .park (.window r))
    | .gone => (s.commit s.cur.blk, .regs (oldRegs d ty 0 false))
    | .here m off =>
        if (s.blk m).absentLine (off / 128) then (s, .park (.line m (off / 128)))
        else
          let s := s.relAt s.cur.blk s.cur.warp i sem.isRel (if win then .grp else .blk)
          let s := if m = s.cur.blk then s else s.commit s.cur.blk
          let pois := atomPoison l op ty b c
          let r := (s.blk m).atomStep off op ty (l.aopArg ty b) (l.aopArg ty c) pois
          (s.setBlk m r.1, .regs (oldRegs d ty r.2.1 (r.2.2 || pois)))

def execAtoms (g : Guard) (d a b c : Nat) (op : AOp) (ty : Ty) (sem : Sem) (win : Bool) (la : Nat) (s : State) : Res :=
  .next (s.laneMem ([a] ++ grp d ty.regs ++ grp b ty.regs ++ casRegs op ty c) [] g (some la) fun s i l =>
    s.atomsLane i l d a b c op ty sem win)

/-! ### Cache maintenance (11 R229) -/

/-- `pf`: a fill; at the bridge a read or an ownership request (11 Table 11.4). It faults for nothing but a poison address; a line that
its home recovers is not fetched. -/
def execPf (g : Guard) (a : Nat) (_lvl : CacheLvl) (excl : Bool) (off : BitVec 16) (_la : Nat) (s : State) : Res :=
  .next (s.laneMem (grp a 2) [] g (some 0) fun s _ l =>
    if l.sideAny a 2 then (s, .trap 0x08 0)
    else match s.xlateLane s.cur.blk s.cur.level .load (laneAddr l a off) 1 with
      | (s, .ok ((pl, x, n) :: _)) =>
          (if s.heldUp [(pl, x, n)] != [] then s else match s.paKind pl.pa with
           | .host => if excl then (s.bridgeOwn (pl.pa / 128)).writeBack (pl.pa / 128) (· != s.siteOf s.cur.blk) else s.bridgeRead (pl.pa / 128)
           | .hbm => if excl then (s.ownLine (s.siteOf s.cur.blk) (pl.pa / 128)).renewStamped (s.siteOf s.cur.blk) (pl.pa / 128)
               else s.addSharer (s.siteOf s.cur.blk) (pl.pa / 128)
           | _ => s, .done)
      | (s, _) => (s, .done))

/-- Stamped copies of a line leave the caches of the nodes that satisfy a test. -/
def State.dropStamped (s : State) (line : Nat) (f : Nat → Bool) : State :=
  { s with
    sites := s.sites.map fun x =>
      if f x.1 then (x.1, { x.2 with stamped := x.2.stamped.filter fun c => c.line != line }) else x }

/-- The dirty data of a line leave the caches below an effective scope: of the die, of every die at device and system scope; `cinv` then
drops the copies there. For host memory at system scope they go out to the host. -/
def State.cleanLine (s : State) (site line : Nat) (sc : Scope) (drop : Bool) : State :=
  let below (n : Nat) : Bool := n == site || sc != .die
  let s := s.writeBack line below
  let s := if drop then
      (s.dropBad line below).dropStamped line below
    else s
  if s.paKind (line * 128) == .host && sc == .sys then
    let h := s.hline line
    let st (x : HSt) : HSt := if drop then .i else if x = .m then .e else x
    { s.sendDirty line with bridge := fset HLine.absent s.bridge line { h0 := st h.h0, h1 := st h.h1 } }
  else s

/-- `cinv` and `cwb` of one lane. -/
def State.cacheLane (s : State) (l : Lane) (a : Nat) (sc : Scope) (off : BitVec 16) (drop : Bool) : State × Ans :=
  s.globalLane s.cur.level .load l a off 1 false fun s _ ps =>
    match ps with
    | (pl, _, _) :: _ => (s.cleanLine (s.siteOf s.cur.blk) (pl.pa / 128) (effScope sc pl.dom) drop, .done)
    | [] => (s, .done)

def execCinv (g : Guard) (a : Nat) (sc : Scope) (off : BitVec 16) (_la : Nat) (s : State) : Res :=
  .next (s.laneMem (grp a 2) [] g (some 0) fun s _ l => s.cacheLane l a sc off true)

def execCwb (g : Guard) (a : Nat) (sc : Scope) (off : BitVec 16) (_la : Nat) (s : State) : Res :=
  .next (s.laneMem (grp a 2) [] g (some 0) fun s _ l => s.cacheLane l a sc off false)

/-! ### Uniform loads and stores (11 R221, R225, 15 R279) -/

/-- The address of a uniform access. -/
def State.uaddr (s : State) (a : Nat) (off : BitVec 16) : DWord := s.ur2 a + off.signExtend 64

/-- Every lane of the entry has the access in its program order: earlier stores to the bytes, or on an `ordered` page all of
them, are performed first. -/
def State.entryOrder (s : State) (pl : Place) (n : Nat) : State :=
  let own (p : PStore) : Bool := p.warp == s.cur.warp && s.cur.lanes.any p.lanes.contains
  let s1 := if pl.ord = 1 then s.commit s.cur.blk else s
  s1.drainIf s.cur.blk fun p => own p && (pl.ord == 1 || p.meets pl.pa n)

/-- Every lane of the entry has read or performed the bytes. -/
def State.entrySee (s : State) (a n : Nat) : State :=
  s.cur.lanes.foldl (fun s i => s.setCl i ((s.cl i).see a n s.wcount)) s

/-- Pieces of a uniform load. -/
def State.uloadPieces (s : State) : List (Place × Nat × Nat) → State × List Byte × Bool
  | [] => (s, [], false)
  | (pl, _, n) :: r =>
      let s := s.entryOrder pl n
      let s := s.touchRead (s.siteOf s.cur.blk) (s.asidOf s.cur.blk) pl.key pl.pa n
      let x := s.readAs (s.siteOf s.cur.blk) (s.blk s.cur.blk).hold pl.key pl.pa n
      let y := (s.entrySee pl.pa n).uloadPieces r
      (y.1, x.1 ++ y.2.1, x.2 || y.2.2)

/-- A global access of an entry: translation and checks, then the access unless a home holds its request. -/
def State.globalEntry (s : State) (kind : AccKind) (va : DWord) (n : Nat) (k : State → List (Place × Nat × Nat) → State) : State :=
  match s.xlateLane s.cur.blk s.cur.level kind va n with
  | (s1, .error e) => s1.raiseEntry e.1 e.2
  | (s1, .ok ps) => if s1.heldUp ps = [] then k s1 ps else s.holdIssue (s1.heldUp ps)

/-- Write a uniform register group. -/
def State.uwGroup (s : State) (rs : List (Nat × RegVal)) : State := rs.foldl (fun s r => s.uw r.1 r.2.val) s

/-- Uniform registers whose results are written but due until the part lands them (05 R106). -/
def State.lateU (s : State) (ns : List Nat) : State :=
  let keys := ns.map (sKey s.cur.level)
  s.setWarp s.cur.blk s.cur.warp { s.cw with due := s.cw.due.filter (fun k => !keys.contains k) ++ keys }

/-- The results of a uniform load. -/
def State.uwLong (s : State) (rs : List (Nat × RegVal)) : State := (s.uwGroup rs).lateU (rs.map (·.1))

def execUld (g : Guard) (d a : Nat) (ty : Ty) (_acq : Bool) (_sc : Scope) (off : BitVec 16) (s : State) : Res :=
  .next (s.warpOp (grp d ty.regs ++ grp a 2) g fun s =>
    s.globalEntry .load (s.uaddr a off) ty.bytes fun s ps =>
      let r := s.uloadPieces ps
      if r.2.2 then r.1.raiseEntry 0x08 0 else (r.1.uwLong (loadRegs d ty r.2.1 false)).unext)

/-- Pieces of a uniform store: one access in the program order of every lane of the entry (15 R279). -/
def State.ustorePieces (s : State) (bytes : List Byte) : List (Place × Nat × Nat) → State
  | [] => s
  | (pl, off, n) :: r =>
      (s.emit s.cur.blk pl { warp := s.cur.warp, lanes := s.cur.lanes, addr := pl.pa, bytes := (bytes.drop off).take n, poison := false
                             key := pl.key, stream := pl.ord == 2, exec := s.steps }).ustorePieces bytes r

def execUst (g : Guard) (b a : Nat) (ty : Ty) (rel : Bool) (sc : Scope) (off : BitVec 16) (s : State) : Res :=
  .next (s.warpOp (grp b ty.regs ++ grp a 2) g fun s =>
    s.globalEntry .store (s.uaddr a off) ty.bytes fun s ps =>
      let s := s.cur.lanes.foldl (fun s i => s.relAt s.cur.blk s.cur.warp i rel sc) s
      (s.ustorePieces (groupBytes ((grp b ty.regs).map s.ur) ty.bytes) ps).unext)

/-! ### mwait (19 R358) -/

/-- Some byte of a line holds a write later than the newest that the lane has read or performed. -/
def State.lineNew (s : State) (l : Lane) (line : Nat) : Bool :=
  (upto (line * 128) 128).any fun a => fget 0 l.seen a < s.verAt a

def execMwait (g : Guard) (a b : Nat) (off : BitVec 16) (_la : Nat) (s : State) : Res :=
  .next (s.laneMem (b :: grp a 2) [] g (some 0) fun s i l =>
    s.globalLane s.cur.level .load l a off 1 false fun s va ps =>
      match ps with
      | (pl, _, _) :: _ =>
          if (l.rv b).side then (s, .trap 0x08 0) else
          let s := if s.paKind pl.pa == .host then s.bridgeRead (pl.pa / 128) else s
          let t := min (zv (l.rd b)) (2 ^ 24)
          let line := pl.pa / 128
          let s := s.drainIf s.cur.blk fun p => p.byLane s.cur.warp i && p.meets (line * 128) 128
          if t = 0 || s.lineNew (s.cl i) line then (s, .done)
          else (s, .parkNext (.mwait line (va &&& ~~~0x7F) (s.clock + t) s.execEntry))
      | [] => (s, .done))

end Sys2Proof.Machine
end

