-- ==== Sys2Proof/Machine/Tiller.lean ====
section
/-! DEFINITION. The tiller and the matrix engine (17 R302 to R335, 07 R156, R157): headers, tile geometry, operands with their
scales and the reuse latch, products, and the tiller's members. A tiller fault fails the block (17 R306). -/

namespace Sys2Proof.Machine

open Sys2Proof

/-! ### Headers (17 R311 to R314) -/

/-- A tile header. -/
abbrev Hdr := BitVec 128

abbrev Hdr.field (h : Hdr) (lo n : Nat) : Nat := h.toNat / 2 ^ lo % 2 ^ n
abbrev Hdr.off (h : Hdr) : Nat := Hdr.field h 0 20
abbrev Hdr.rows (h : Hdr) : Nat := Hdr.field h 32 8 + 1
abbrev Hdr.cols (h : Hdr) : Nat := Hdr.field h 40 8 + 1
abbrev Hdr.fmt (h : Hdr) : Nat := Hdr.field h 48 4
abbrev Hdr.smode (h : Hdr) : Nat := Hdr.field h 52 2
abbrev Hdr.tr (h : Hdr) : Bool := Hdr.field h 54 1 == 1
abbrev Hdr.swz (h : Hdr) : Nat := Hdr.field h 55 3
abbrev Hdr.ssel (h : Hdr) : Nat := Hdr.field h 58 2
abbrev Hdr.stride (h : Hdr) : Nat := Hdr.field h 64 20

/-- Width of a format in half bytes (17 Table 17.2); 0 for a reserved code. -/
def fmtWidth2 (f : Nat) : Nat := if f = 0 then 1 else if f ≤ 6 then 2 else if f ≤ 8 then 4 else 0

/-- The bytes of a row of elements of a width. -/
def Hdr.rowBytes (h : Hdr) (w2 : Nat) : Nat := (Hdr.cols h * w2 + 1) / 2

/-- The common checks that hold whatever the width (17 R314). -/
def Hdr.plainOk (h : Hdr) : Bool :=
  Hdr.field h 20 12 == 0 && Hdr.field h 60 4 == 0 && Hdr.field h 84 44 == 0 && Hdr.off h % 128 == 0 &&
  Hdr.fmt h ≤ 8 && Hdr.smode h != 3 && Hdr.swz h < 4 && (Hdr.swz h == 0 || Hdr.stride h % 128 == 0) && Hdr.stride h % 16 == 0

/-- The common checks for rows of a width in half bytes. -/
def Hdr.ok (h : Hdr) (w2 : Nat) : Bool := Hdr.plainOk h && Hdr.rowBytes h w2 ≤ Hdr.stride h && !(w2 == 1 && Hdr.cols h % 2 == 1)

/-- The unswizzled offset of byte b of row r, and its place in scratchpad (17 R313). -/
def Hdr.unswz (h : Hdr) (r b : Nat) : Nat := Hdr.off h + r * Hdr.stride h + b
def Hdr.place (h : Hdr) (r b : Nat) : Nat := Hdr.unswz h r b ^^^ (r % 2 ^ Hdr.swz h * 16)

/-- Places of the first bytes of the 16-byte chunks of a tile, with the bytes that each holds. -/
def Hdr.chunks (h : Hdr) (w2 : Nat) : List (Nat × Nat) :=
  let n := Hdr.rowBytes h w2
  ((upto 0 (Hdr.rows h)).map fun r => (upto 0 ((n + 15) / 16)).map fun c =>
    (Hdr.place h r (16 * c), min 16 (n - 16 * c))).flatten

/-- Every byte of the tile lies below `SCRATCH` (17 R314). -/
def Hdr.inside (h : Hdr) (w2 scratch : Nat) : Bool := (Hdr.chunks h w2).all fun c => c.1 + c.2 ≤ scratch

/-- The unswizzled offset of the first byte at or beyond `SCRATCH` (19 Table 19.3). -/
def Hdr.firstOut (h : Hdr) (w2 scratch : Nat) : Nat :=
  ((upto 0 (Hdr.rows h)).findSome? fun r => (upto 0 (Hdr.rowBytes h w2)).findSome? fun b =>
    if scratch ≤ Hdr.place h r b then some (Hdr.unswz h r b) else none).getD 0

/-- The lines of scratchpad that a tile touches. -/
def Hdr.lines (h : Hdr) (w2 : Nat) : List Nat := ((Hdr.chunks h w2).map fun c => c.1 / 128).eraseDups

/-- A line of the tile is absent (17 R310). -/
def Block.tileAbsent (k : Block) (h : Hdr) (w2 : Nat) : Bool := (Hdr.lines h w2).any k.absentLine

/-- A header of a block. -/
def Block.hdr (k : Block) (n : Nat) : Hdr := fget 0 k.hdrs n

/-! ### Elements -/

/-- Bits of element j of a row, and its sector's poison. -/
def Block.elem (k : Block) (h : Hdr) (w2 r j : Nat) : RegVal :=
  let n := if w2 = 1 then 1 else w2 / 2
  let x := k.getScratch (Hdr.place h r (j * w2 / 2)) n
  let v := leNat x.1
  { val := BitVec.ofNat 32 (if w2 = 1 then v / 16 ^ (j % 2) % 16 else v), side := x.2 }

/-- The value of a float element (17 Table 17.2). -/
def tileFmt : Nat → Fmt
  | 0 => fe2m1
  | 1 => fe3m2
  | 2 => fe2m3
  | 3 => fe4m3
  | 4 => fe5m2
  | 7 => fbf16
  | _ => fp16

/-- A scale byte's value (07 R139). -/
def scaleVal (smode : Nat) (x : Nat) : FVal :=
  if smode = 1 then (if x = 255 then .nan else .num false 1 ((x : Int) - 127)) else fe4m3.decode x

/-- An accumulator element's key. -/
def accKey (tile i j : Nat) : Nat := tile * 16384 + i * 128 + j

def Block.accAt (k : Block) (key : Nat) : RegVal := fget RegVal.zero k.acc key
def Block.setAcc (k : Block) (key : Nat) (x : RegVal) : Block := { k with acc := fset RegVal.zero k.acc key x }

/-! ### Products (07 R156, R157) -/

/-- The length of a group. -/
def mmaGroup (a b : Operand) : Nat := if a.smode = 2 || b.smode = 2 then 16 else 32

/-- Elements along K of a scale block; 0 without scales. -/
def scaleBlock (smode : Nat) : Nat := if smode = 1 then 32 else if smode = 2 then 16 else 0

/-- Element (x, k) of an operand, and the scale byte of its block. -/
def Operand.at (o : Operand) (x k : Nat) : RegVal := o.elems[x * o.k + k]?.getD RegVal.zero
def Operand.scale (o : Operand) (x k : Nat) : RegVal :=
  let b := scaleBlock o.smode
  if b = 0 then RegVal.zero else o.scales[x * ((o.k + b - 1) / b) + k / b]?.getD RegVal.zero

/-- The exact scaled value of an element. -/
def Operand.fval (o : Operand) (x k : Nat) : FVal :=
  let v := (tileFmt o.fmt).decode (o.at x k).val.toNat
  if o.smode = 0 then v else (v.mul (scaleVal o.smode (o.scale x k).val.toNat)).getD .nan

/-- The value of an INT8 element. -/
def Operand.ival (o : Operand) (x k : Nat) : Int :=
  let v := (o.at x k).val.toNat
  if o.fmt = 5 && 128 ≤ v then (v : Int) - 256 else v

/-- Row x reads a poisoned element or scale. -/
def Operand.poisoned (o : Operand) (x : Nat) : Bool := (upto 0 o.k).any fun k => (o.at x k).side || (o.scale x k).side

/-- An integer operand. -/
def Operand.isInt (o : Operand) : Bool := o.fmt == 5 || o.fmt == 6

/-- One group of one element. -/
def mmaStep (op : MmaOp) (m n g : Nat) (acc : Word) : Word :=
  let len := mmaGroup op.a op.b
  let ks := upto (g * len) len
  if op.a.isInt then
    let t := (ks.map fun k => op.a.ival m k * op.b.ival n k).foldl (· + ·) 0
    (reduceInt (if op.sat then .signed else .wrap) 32 (sv acc + t)).1
  else
    BitVec.ofNat 32 (fdot fp32 (ks.map fun k => (op.a.fval m k, op.b.fval n k)) (some (fv32 acc)) .rn false).1

/-- `mma_element`. -/
def mmaElement (op : MmaOp) (m n : Nat) (acc : Word) : Word :=
  (upto 0 (op.a.k / mmaGroup op.a op.b)).foldl (fun acc g => mmaStep op m n g acc) acc

/-- Add an mma into its tile. -/
def Block.applyMma (k : Block) (op : MmaOp) : Block :=
  (upto 0 op.a.rows).foldl (fun k m => (upto 0 op.b.rows).foldl (fun k n =>
    let key := accKey op.tile m n
    let x := k.accAt key
    k.setAcc key (if x.side || op.a.poisoned m || op.b.poisoned n then RegVal.poison
      else .clean (mmaElement op m n x.val))) k) k

/-- Complete, in order, the mma operations in flight that satisfy a test. -/
def Block.completeMma (k : Block) (f : MmaOp → Bool) : Block :=
  let k' := (k.tiller.flight.filter f).foldl Block.applyMma k
  { k' with tiller := { k'.tiller with flight := k'.tiller.flight.filter fun op => !f op } }

/-- Complete the oldest mma in flight. -/
def Block.completeOldest (k : Block) : Block :=
  match k.tiller.flight with
  | [] => k
  | op :: r => let k' := k.applyMma op; { k' with tiller := { k'.tiller with flight := r } }

/-! ### Operands (17 R316 to R322) -/

/-- Rows along M or N, and K, of a header's tile. -/
def Hdr.mn (h : Hdr) : Nat := if Hdr.tr h then Hdr.cols h else Hdr.rows h
def Hdr.kk (h : Hdr) : Nat := if Hdr.tr h then Hdr.rows h else Hdr.cols h

/-- 17 Table 17.4. -/
def pairOk (a b : Nat) : Bool :=
  (a ≤ 4 && b ≤ 4) || ((a == 5 || a == 6) && (b == 5 || b == 6)) || (a == 7 && b == 7) || (a == 8 && b == 8)

/-- The offsets e − EB of an operand's scale blocks, in row and then block order (17 R319). -/
def Hdr.scaleOffs (h : Hdr) (eb : Word) : List Int :=
  let b := scaleBlock (Hdr.smode h)
  if b = 0 then []
  else ((upto 0 (Hdr.rows h)).map fun r => (upto 0 ((Hdr.cols h + b - 1) / b)).map fun c =>
    ((Hdr.unswz h r (c * b * fmtWidth2 (Hdr.fmt h) / 2) : Nat) : Int) - (zv eb : Int)).flatten

/-- An operand's own checks: the common ones, its dimension, its scales and transposition (17 R317). -/
def Hdr.operandOk (h : Hdr) : Bool :=
  Hdr.ok h (fmtWidth2 (Hdr.fmt h)) && Hdr.mn h ≤ 128 && !(Hdr.tr h && (Hdr.fmt h == 0 || Hdr.smode h != 0)) &&
  (Hdr.smode h == 0 || (Hdr.smode h == 1 && Hdr.fmt h ≤ 4) || (Hdr.smode h == 2 && Hdr.fmt h == 0))

/-- The checks of cause 0x0F on a pair of operands, the scale offsets apart. -/
def mmaOk (a b : Hdr) (sat : Bool) : Bool :=
  Hdr.operandOk a && Hdr.operandOk b && Hdr.kk a == Hdr.kk b && pairOk (Hdr.fmt a) (Hdr.fmt b) &&
  (Hdr.kk a % 32 == 0 || (Hdr.kk a % 16 == 0 && (Hdr.smode a == 2 || Hdr.smode b == 2) && Hdr.smode a != 1 && Hdr.smode b != 1)) &&
  !(sat && Hdr.fmt a != 5 && Hdr.fmt a != 6)

/-- A value taken among several that a read may give. -/
def pickVal (ix : Nat) (now : RegVal) (others : List RegVal) : RegVal :=
  match others.filter (· != now) with
  | [] => now
  | xs => (xs[Config.choice ix % (xs.length + 1)]?).getD now

/-- Values of a byte that writes later than a count have replaced, as a key reads them; whether a past value of a sector that is
poisoned now was poisoned is not held: either (log 42). -/
def State.pastVals (s : State) (site : Nat) (ps : List PStore) (key pa since : Nat) : List RegVal :=
  ((s.undo.filter fun u => since < u.count && u.addr ≤ pa && pa < u.addr + u.bytes.length).map fun u =>
    let r := (s.rewind u.count).readAs site ps key pa 1
    let v : RegVal := { val := BitVec.ofNat 32 (leNat r.1), side := r.2 }
    [v, { v with side := false }]).flatten

/-- A byte of global memory as the tiller of a block reads it now. -/
def State.tillerByte (s : State) (b key pa : Nat) : RegVal :=
  let r := s.readAs (s.siteOf b) (s.blk b).hold key pa 1
  { val := BitVec.ofNat 32 (leNat r.1), side := r.2 }

/-- The scale byte that a cached place gives: any value it has held since its fill could first have been made (17 R320). -/
def State.serveScale (s : State) (b : Nat) (c : ScaleHeld) : State × RegVal :=
  (s.tickFree, pickVal s.freeIx (s.tillerByte b c.key c.pa) (s.pastVals (s.siteOf b) (s.blk b).hold c.key c.pa c.since))

/-- Why a scale byte was not read: a cause with its value, or lines at whose homes the request is held. -/
inductive NoScale where
  | cause (e : Stop)
  | held (lines : List Nat)
  deriving DecidableEq, Repr

/-- One scale byte of a slot at an address: cached, or read as a relaxed load at level U after every acquire of the stream; a cached
byte may be read again (17 R319, R320). -/
def State.scaleByte (s : State) (b slot : Nat) (va : DWord) : State × Except NoScale (RegVal × Nat × Nat) :=
  let t := (s.blk b).tiller
  let old := t.scache.find? fun e => e.slot == slot && e.va == va
  let ix := s.freeIx
  match old, Config.choice ix % 2 with
  | some c, 0 => let r := s.tickFree.serveScale b c; (r.1, .ok (r.2, c.pa, c.key))
  | _, _ =>
      match (if old.isSome then s.tickFree else s).xlate (s.siteOf b) (s.asidOf b) .u .load true va with
      | (s, .error e) => (s, .error (.cause e))
      | (s, .ok pl) =>
          if s.heldUp [(pl, 0, 1)] != [] then (s, .error (.held (s.heldUp [(pl, 0, 1)])))
          else
            let s := if pl.ord = 1 then s.commit b else s
            let s := s.touchRead (s.siteOf b) (s.asidOf b) pl.key pl.pa 1
            let since := match old with
              | some c => if c.pa = pl.pa then c.since else t.synced
              | none => Nat.max t.synced (fget 0 t.sdrop slot)
            let c : ScaleHeld := { slot := slot, va := va, pa := pl.pa, key := pl.key, since := since }
            let s := s.modTiller b fun t => { t with scache := c :: t.scache.filter fun e => !(e.slot == slot && e.va == va) }
            let r := s.serveScale b c
            (r.1, .ok (r.2, c.pa, c.key))

/-- The scale bytes of an operand, with their places. -/
def State.scaleBytes (s : State) (b slot : Nat) (sl : ScaleSlot) : List Int → State × Except NoScale (List (RegVal × Nat × Nat))
  | [] => (s, .ok [])
  | o :: r =>
      match s.scaleByte b slot (sl.scb + BitVec.ofNat 64 (o.toNat / 2 ^ sl.ssh.toNat)) with
      | (s, .error e) => (s, .error e)
      | (s, .ok x) =>
          match s.scaleBytes b slot sl r with
          | (s, .error e) => (s, .error e)
          | (s, .ok xs) => (s, .ok (x :: xs))

/-- A scale slot of the tiller. -/
def Tiller.slot (t : Tiller) (n : Nat) : ScaleSlot := fget ScaleSlot.zero t.slots n

/-- Row and column of each element of an operand, in the order in which it holds them (17 R316). -/
def Hdr.cells (h : Hdr) : List (Nat × Nat) :=
  ((upto 0 (Hdr.mn h)).map fun x => (upto 0 (Hdr.kk h)).map fun j => if Hdr.tr h then (j, x) else (x, j)).flatten

/-- Read an operand afresh (17 R316, R319), with the places of its scale bytes. -/
def State.readOperand (s : State) (b : Nat) (h : Hdr) : State × Except NoScale (Operand × List (Nat × Nat)) :=
  let k := s.blk b
  let sl := k.tiller.slot (Hdr.ssel h)
  match s.scaleBytes b (Hdr.ssel h) sl (Hdr.scaleOffs h sl.eb) with
  | (s, .error e) => (s, .error e)
  | (s, .ok sc) => (s, .ok ({ fmt := Hdr.fmt h, rows := Hdr.mn h, k := Hdr.kk h, smode := Hdr.smode h
                              elems := (Hdr.cells h).map fun x => k.elem h (fmtWidth2 (Hdr.fmt h)) x.1 x.2
                              scales := sc.map (·.1) }, sc.map (·.2)))

/-! ### Reads that take time (17 R334, R337) -/

/-- Each element keeps the value read or takes the present one, by a bit of a free value; E2M1 elements go by their byte. -/
def mixElems (ix w2 : Nat) : Nat → List RegVal → List RegVal → List RegVal
  | i, x :: xs, y :: ys =>
      (if x = y then x else if (Config.choice ix).testBit (if w2 = 1 then i / 2 else i) then y else x) :: mixElems ix w2 (i + 1) xs ys
  | _, xs, _ => xs

/-- Elements as they stand now; those of an absent line as they were read. -/
def Block.elemsNow (k : Block) (h : Hdr) (w2 : Nat) (cells : List (Nat × Nat)) (old : List RegVal) : List RegVal :=
  (cells.zip old).map fun x => if k.absentLine (Hdr.place h x.1.1 (x.1.2 * w2 / 2) / 128) then x.2 else k.elem h w2 x.1.1 x.1.2

/-- An operand that is still being read; its scale bytes at the places to which their addresses were translated at issue (log 42). -/
def State.rereadOperand (s : State) (b ix : Nat) (h : Hdr) (open_ : Bool) (ps : List (Nat × Nat)) (o : Operand) : Operand :=
  { o with
    elems := if open_ then mixElems ix (fmtWidth2 (Hdr.fmt h)) 0 o.elems ((s.blk b).elemsNow h (fmtWidth2 (Hdr.fmt h)) (Hdr.cells h) o.elems)
             else o.elems
    scales := if ps = [] then o.scales else mixElems (ix + 1) 0 0 o.scales (ps.map fun x => s.tillerByte b x.2 x.1) }

/-- An mma in flight reads on; the latch that its A has filled holds what it reads. -/
def State.rereadOp (s : State) (b : Nat) (op : MmaOp) : State × MmaOp :=
  let ix := s.freeIx
  let op' := { op with a := s.rereadOperand b ix op.ha (op.reading && op.afresh) op.sa op.a
                       b := s.rereadOperand b (ix + 2) op.hb op.reading op.sb op.b }
  let s := { s with freeIx := ix + 4 }
  (if op.fill then s.modTiller b fun t => { t with latch := t.latch.map fun l => { l with op := op'.a } } else s, op')

/-- Every mma in flight reads on. -/
def State.reread (s : State) (b : Nat) : State :=
  let r := (s.blk b).tiller.flight.foldl (fun (acc : State × List MmaOp) op =>
    let x := acc.1.rereadOp b op
    (x.1, acc.2 ++ [x.2])) (s, [])
  r.1.modTiller b fun t => { t with flight := r.2 }

/-- Every mma in flight has read its operands from scratchpad (17 R333). -/
def State.closeReads (s : State) (b : Nat) : State :=
  if (s.blk b).tiller.flight.any (·.reading) then
    (s.reread b).modTiller b fun t => { t with flight := t.flight.map fun op => { op with reading := false } }
  else s

/-- Complete, in order, the mma operations in flight that satisfy a test (17 R309). -/
def State.completeMma (s : State) (b : Nat) (f : MmaOp → Bool) : State :=
  if (s.blk b).tiller.flight.any f then (s.reread b).modBlk b fun k => k.completeMma f else s

/-- Complete the oldest mma in flight. -/
def State.completeOldest (s : State) (b : Nat) : State :=
  if (s.blk b).tiller.flight = [] then s else (s.reread b).modBlk b Block.completeOldest

/-- An mma of a block completes (17 R308). -/
def execMmaComplete (blk : Nat) (s : State) : Res := .next (s.completeOldest blk)

/-- A tiller instruction that waits stays at its address. -/
def State.tillerStay (s : State) : State := s

/-- A tile number that the kernel owns (03 R57). -/
def State.tileOk (s : State) (t : Nat) : Bool := t < (s.gridOf s.cur.blk).khdr.acc

end Sys2Proof.Machine

namespace Sys2Proof

open Sys2Proof.Machine

/-! ### Conversions of `accrd` and `accwr` (17 R328 to R331) -/

/-- Bytes of an element under a conversion. -/
def AccCv.bytes : AccCv → Nat
  | .b32 => 4
  | .bf16 | .f16 => 2
  | .e4m3 | .e5m2 => 1

/-- Data of a poison element (07 Table 7.10). -/
def AccCv.payload : AccCv → Nat
  | .b32 => poison32.toNat
  | .bf16 => poisonBf
  | .f16 => poison16
  | .e4m3 => 0x7F
  | .e5m2 => 0x7E

/-- The format of a conversion. -/
def AccCv.fmt : AccCv → Fmt
  | .b32 => fp32
  | .bf16 => fbf16
  | .f16 => fp16
  | .e4m3 => fe4m3
  | .e5m2 => fe5m2

/-- The code that `accrd` writes for a clean element; e is the exponent of its scale. -/
def AccCv.out (cv : AccCv) (x : Word) (e : Int) (sat : Bool) : Nat :=
  match cv with
  | .b32 => x.toNat
  | .bf16 | .f16 => (narrow cv.fmt (fv32 x) false .rn 0 sat false).1
  | .e4m3 | .e5m2 => (narrow cv.fmt ((fv32 x).scale (-e)) false .rn 0 sat false).1

/-- The element that `accwr` writes for source bits. -/
def AccCv.inn (cv : AccCv) (x : Nat) : Word :=
  match cv with
  | .b32 => BitVec.ofNat 32 x
  | _ => BitVec.ofNat 32 (widen fp32 (cv.fmt.decode x))

end Sys2Proof

namespace Sys2Proof.Machine

open Sys2Proof

/-- Elements of a region in ascending destination row, then column: tile row and column, place in scratchpad (17 R329). -/
def Hdr.region (h : Hdr) (n : Nat) : List (Nat × Nat × Nat) :=
  ((upto 0 (Hdr.rows h)).map fun r => (upto 0 (Hdr.cols h)).map fun c =>
    (if Hdr.tr h then c else r, if Hdr.tr h then r else c, Hdr.place h r (c * n))).flatten

/-- The elements of a region as they stand in scratchpad. -/
def Block.regionElems (k : Block) (h : Hdr) (n : Nat) : List RegVal :=
  (Hdr.region h n).map fun x =>
    let r := k.getScratch x.2.2 n
    { val := BitVec.ofNat 32 (leNat r.1), side := r.2 }

/-- Elements of a region go into a tile. -/
def Block.putTile (k : Block) (l : AccLoad) (es : List RegVal) : Block :=
  ((Hdr.region l.hdr l.cv.bytes).zip es).foldl (fun k x =>
    k.setAcc (accKey l.tile x.1.1 x.1.2.1) (if x.2.side then RegVal.poison else .clean (l.cv.inn x.2.val.toNat))) k

/-- An `accwr` has read its elements, each old or new, and takes effect (17 R309, R334). -/
def State.settleLoad (s : State) (b : Nat) : State :=
  match (s.blk b).tiller.loading with
  | none => s
  | some l =>
      let k := s.blk b
      let now := ((Hdr.region l.hdr l.cv.bytes).zip l.elems).zip (k.regionElems l.hdr l.cv.bytes)
      let es := mixElems s.freeIx 0 0 l.elems (now.map fun x => if k.absentLine (x.1.1.2.2 / 128) then x.1.2 else x.2)
      s.tickFree.modBlk b fun k => { k.putTile l es with tiller := { k.tiller with loading := none } }

/-- All that stands earlier in the stream has taken effect (17 R306, R309). -/
def State.settleStream (s : State) (b : Nat) : State := (s.settleLoad b).completeMma b fun _ => true

/-- A tiller fault with a value: what stands earlier in the stream completes, then the block fails (17 R306). -/
def State.tillerFault (s : State) (cause : Nat) (val : DWord) : State := (s.settleStream s.cur.blk).raiseEntry cause val

/-- What stands before an access of a tile in the stream has taken effect (17 R309). -/
def State.settleTile (s : State) (t : Nat) : State :=
  (s.settleLoad s.cur.blk).completeMma s.cur.blk fun op => op.tile == t

/-! ### mma -/

/-- A scale read that gave no value: a fault, or the instruction waits for the homes that hold the request (23 R402). -/
def State.scaleStop (s0 s : State) : NoScale → State
  | .cause e => s.tillerFault e.1 e.2
  | .held ls => s0.holdIssue ls

/-- `mma` after its checks: A from the latch or afresh, B afresh; the fifth in flight lets the oldest complete first. -/
def State.mmaGo (s0 : State) (d a b : Nat) (ra sat : Bool) : State :=
  let blk := s0.cur.blk
  let hit : Bool := match (s0.blk blk).tiller.latch with
    | some l => ra && l.hdr == a
    | none => false
  let s := s0.settleLoad blk
  let s := if hit then s.closeReads blk else s
  let ha := (s.blk blk).hdr a
  let hb := (s.blk blk).hdr b
  let ra1 : State × Except NoScale (Operand × List (Nat × Nat)) := match hit, (s.blk blk).tiller.latch with
    | true, some l => (s, .ok (l.op, []))
    | _, _ => s.readOperand blk ha
  match ra1 with
  | (s1, .error e) => s0.scaleStop s1 e
  | (s1, .ok oa) =>
      match s1.readOperand blk hb with
      | (s2, .error e) => s0.scaleStop s2 e
      | (s2, .ok ob) =>
          let s3 := if 4 ≤ (s2.blk blk).tiller.flight.length then s2.completeOldest blk else s2
          (s3.modBlk blk fun k => { k with tiller := { k.tiller with
              flight := (k.tiller.flight.map fun op => if op.fill then { op with fill := false, sa := if hit then [] else op.sa } else op) ++
                [{ tile := d, a := oa.1, b := ob.1, sat := sat, ha := ha, hb := hb, afresh := !hit, fill := ra && !hit, reading := true
                   sa := oa.2, sb := ob.2 }]
              latch := if ra then some { hdr := a, op := oa.1 } else none } }).unext

/-- 17 R323, R324. -/
def execMma (g : Guard) (d a b : Nat) (ra sat : Bool) (s : State) : Res :=
  .next (if !s.tileOk d then s.illegal
    else s.tillerOp g fun s =>
      let k := s.blk s.cur.blk
      let ha := k.hdr a
      let hb := k.hdr b
      let latched := match k.tiller.latch with
        | some l => ra && l.hdr == a
        | none => false
      let neg (h : Hdr) : Bool := (Hdr.scaleOffs h (k.tiller.slot (Hdr.ssel h)).eb).any fun o => o < 0
      let scr := (s.gridOf s.cur.blk).khdr.scratch
      let wa := fmtWidth2 (Hdr.fmt ha)
      let wb := fmtWidth2 (Hdr.fmt hb)
      if !mmaOk ha hb sat || neg ha || neg hb then s.tillerFault 0x0F 0
      else if !Hdr.inside ha wa scr then s.tillerFault 0x09 (BitVec.ofNat 64 (Hdr.firstOut ha wa scr))
      else if !Hdr.inside hb wb scr then s.tillerFault 0x09 (BitVec.ofNat 64 (Hdr.firstOut hb wb scr))
      else if (!latched && k.tileAbsent ha wa) || k.tileAbsent hb wb then s.tillerStay
      else s.mmaGo d a b ra sat)

/-! ### hset, hld, mscl, accz (17 R325 to R327) -/

/-- Write a header; a latch filled from it is no longer valid (17 R322). -/
def State.putHdr (s : State) (n : Nat) (h : Hdr) : State :=
  s.modBlk s.cur.blk fun k => { k with
    hdrs := fset 0 k.hdrs n h
    tiller := { k.tiller with latch := k.tiller.latch.filter fun l => l.hdr != n } }

def execHset (g : Guard) (d a : Nat) (s : State) : Res :=
  .next (s.tillerOp g fun s => (s.putHdr d (s.ur (a + 3) ++ s.ur (a + 2) ++ s.ur (a + 1) ++ s.ur a)).unext)

def execHld (g : Guard) (d a : Nat) (off : BitVec 16) (s : State) : Res :=
  .next (s.tillerOp g fun s =>
    let va : Int := (zv (s.ur a) : Int) + off.toInt
    if va % 16 != 0 then s.tillerFault 0x03 (BitVec.ofInt 64 va)
    else if va < 0 || ((s.gridOf s.cur.blk).khdr.scratch : Int) < va + 16 then s.tillerFault 0x09 (BitVec.ofInt 64 va)
    else if (s.blk s.cur.blk).absentLine (va.toNat / 128) then s.tillerStay
    else
      let r := (s.blk s.cur.blk).getScratch va.toNat 16
      if r.2 then s.tillerFault 0x08 0 else (s.putHdr d (BitVec.ofNat 128 (leNat r.1))).unext)

/-- The write discards the slot's cached scales (17 R320). -/
def execMscl (g : Guard) (n a b : Nat) (ssh : BitVec 5) (s : State) : Res :=
  .next (s.tillerOp g fun s =>
    let sl : ScaleSlot := { scb := s.ur2 a, eb := s.ur b, ssh := ssh }
    (s.modTiller s.cur.blk fun t => { t with slots := fset ScaleSlot.zero t.slots n sl
                                             scache := t.scache.filter fun e => e.slot != n
                                             sdrop := fput t.sdrop n s.wcount }).unext)

def execAccz (g : Guard) (d : Nat) (s : State) : Res :=
  .next (if !s.tileOk d then s.illegal
    else s.tillerOp g fun s =>
      ((s.settleTile d).modBlk s.cur.blk fun k => { k with acc := k.acc.filter fun e => e.1 / 16384 != d }).unext)

/-! ### accrd and accwr (17 R328 to R331) -/

/-- A region written as one store: bytes, then the poison of each sector it touches (17 R330). -/
def Block.putRegion (k : Block) (n : Nat) (es : List (Nat × Nat × Bool)) : Block :=
  let scratch := es.foldl (fun m e => (upto 0 n).foldl (fun m i => fset 0 m (e.1 + i) (BitVec.ofNat 8 (e.2.1 / 256 ^ i))) m) k.scratch
  let secs := (es.map fun e => e.1 / 32).eraseDups
  let sp := secs.foldl (fun m sec =>
    let here := es.filter fun e => e.1 / 32 == sec
    if here.any fun e => e.2.2 then fset false m sec true
    else if here.length * n = 32 then fset false m sec false else m) k.spoison
  let part (sec : Nat) : Bool :=
    let here := es.filter fun e => e.1 / 32 == sec
    fget false k.spoison sec && !(here.any fun e => e.2.2) && here.length * n != 32
  { k with scratch := scratch, spoison := sp, marred := k.marred ++ secs.filter part }

/-- The checks that `accrd` and `accwr` share; then the transfer, once no line is absent. -/
def State.accOp (s : State) (t h : Nat) (cv : AccCv) (f : State → State) : State :=
  let k := s.blk s.cur.blk
  let hd := k.hdr h
  let n := cv.bytes
  if !(Hdr.plainOk hd && Hdr.cols hd * n ≤ Hdr.stride hd && Hdr.rows hd ≤ 128 && Hdr.cols hd ≤ 128) then s.tillerFault 0x0F 0
  else if !Hdr.inside hd (2 * n) (s.gridOf s.cur.blk).khdr.scratch then
    s.tillerFault 0x09 (BitVec.ofNat 64 (Hdr.firstOut hd (2 * n) (s.gridOf s.cur.blk).khdr.scratch))
  else if k.tileAbsent hd (2 * n) then s.tillerStay
  else (f (s.settleTile t)).unext

def execAccrd (g : Guard) (h a b : Nat) (cv : AccCv) (sat : Bool) (s : State) : Res :=
  .next (if !s.tileOk a then s.illegal
    else s.tillerOp g fun s =>
      let e := sv (s.ur b)
      let e : Int := if e < -127 then -127 else if 127 < e then 127 else e
      s.accOp a h cv fun s => (s.closeReads s.cur.blk).modScr s.cur.blk fun k =>
        k.putRegion cv.bytes ((Hdr.region (k.hdr h) cv.bytes).map fun x =>
          let v := k.accAt (accKey a x.1 x.2.1)
          (x.2.2, if v.side then cv.payload else cv.out v.val e sat, v.side)))

/-- The elements are read from here on; the tile holds them by the time anything depends on it. -/
def execAccwr (g : Guard) (d h : Nat) (cv : AccCv) (s : State) : Res :=
  .next (if !s.tileOk d then s.illegal
    else s.tillerOp g fun s => s.accOp d h cv fun s => s.modBlk s.cur.blk fun k =>
      { k with tiller := { k.tiller with
          loading := some { tile := d, hdr := k.hdr h, cv := cv, elems := k.regionElems (k.hdr h) cv.bytes } } })

/-! ### mexit and waits (17 R307, R332) -/

def execMexit (g : Guard) (s : State) : Res :=
  .next (s.tillerOp g fun s =>
    let s := (s.settleStream s.cur.blk).unext
    s.modTiller s.cur.blk fun t => { t with run := false, latch := none, scache := [] })

/-- No thread of a block lives. -/
def Block.allExited (k : Block) : Bool := k.warps.all fun w => w.2.live == []

/-- The blocks of a group. -/
def State.groupLins (s : State) (b : Nat) : List Nat := upto (s.groupNo b * (s.gridOf b).gsize) (s.gridOf b).gsize

/-- The tiller waits where nothing can still arrive (17 R307); the threads of a member that is to be relaunched have not exited. -/
def State.tillerStuck (s : State) (b : Nat) : Bool :=
  let k := s.blk b
  k.phase == .resident && k.tiller.run && k.allExited &&
  (match k.tiller.wait with
   | none => false
   | some (grp, n, t, _) =>
       !phasePassed (s.bar b grp n).ph t &&
       (if grp then
          (s.groupLins b).all (fun l => (s.blockAt k.grid l).isSome) &&
          (s.members b).all fun m => (s.blk m).allExited && (s.blk m).phase != .relaunch && (m == b || !(s.blk m).tiller.run) &&
            !s.barNamed m n
        else !s.barNamed b n))

/-- Tillers that wait in vain fault with cause 0x0A. -/
def State.settleTillers (s : State) : State :=
  ((fkeys s.blocks).filter s.tillerStuck).foldl (fun s b =>
    if s.tillerStuck b then
      (s.settleStream b).failBlock b 0x0A (match (s.blk b).tiller.wait with | some w => w.2.2.2 | none => (s.blk b).tiller.pc) 0 0
    else s) s

end Sys2Proof.Machine
end

