-- ==== Sys2Proof/Machine/Bars.lean ====
section
/-! DEFINITION. The barrier instructions (13 Table 13.11, R258 to R263; the tiller's, 17 R333). -/

namespace Sys2Proof.Machine

open Sys2Proof

/-- `bar.init`: cause 0x01 in every lane, or the tiller's, where 13 R260 gives no way. -/
def execBarInit (g : Guard) (b : Nat) (grp : Bool) (n : BitVec 16) (s : State) : Res :=
  .next (if n = 0 || !s.barOk b then s.illegal
    else s.uniOp [] g fun s => match s.initBar s.cur.blk grp b n.toNat with
      | some t => t.unext
      | none => s.illegal)

/-- The tiller's arrival is single, after every earlier read of scratchpad by its stream (17 R333). -/
def State.tillerArrive (s : State) (grp : Bool) (b : Nat) : State :=
  ((s.settleLoad s.cur.blk).closeReads s.cur.blk).arriveBar s.cur.blk grp b

def execBarArr (g : Guard) (b : Nat) (grp : Bool) (tok : Option Nat) (s : State) : Res :=
  .next (if !s.barOk b || !s.namesOk [] tok.toList then s.illegal
    else match s.cur.agent with
      | .tiller => s.uniOp tok.toList g fun s => s.needBar grp b fun s =>
          let token := (s.bar s.cur.blk grp b).ph
          let s := s.tillerArrive grp b
          (match tok with | some d => s.uw d token | none => s).unext
      | _ => s.arriveGather (.barArr g b grp tok))

def execBarWait (g : Guard) (b : Nat) (grp : Bool) (tok : Option Nat) (s : State) : Res :=
  .next (if !s.barOk b then s.illegal
    else s.uniOp tok.toList g fun s => s.needBar grp b fun s => s.waitBar grp b (match tok with
      | some n => s.ur n
      | none => (s.bar s.cur.blk grp b).ph))

def execBarSync (g : Guard) (b : Nat) (grp : Bool) (s : State) : Res :=
  .next (if !s.barOk b then s.illegal
    else match s.cur.agent with
      | .tiller => s.uniOp [] g fun s => s.needBar grp b fun s =>
          let token := (s.bar s.cur.blk grp b).ph
          (s.tillerArrive grp b).waitBar grp b token
      | _ => s.arriveGather (.barSync g b grp))

end Sys2Proof.Machine
end

