-- ==== Sys2Proof/Machine/Round.lean ====
section
/-! DEFINITION. Fences and bounded staleness: regions, rounds, views, stamped copies, bounded loads (15 R288 to R300), and the
registration of regions (19 R357). -/

namespace Sys2Proof.Machine

open Sys2Proof

/-! ### Context and partition registers (19 R339 to R341) -/

/-- A value clamped to a field's range. -/
def clampTo (lo hi x : Nat) : Nat := if x < lo then lo else if hi < x then hi else x

/-- A context or partition register takes the value written to it (19 R340, R341). -/
def State.applyX (s : State) (x : XWrite) : State :=
  let c := s.ctx x.asid
  let v := x.val
  match x.reg with
  | .xdeleg => s.setCtx x.asid { c with xdeleg := (v &&& delegMask) ||| delegOnes }
  | .xage => s.setCtx x.asid { c with xage := BitVec.ofNat 16 (clampTo 64 65535 (v.toNat % 65536)) }
  | .xshadow => s.setCtx x.asid { c with xshadow := v.getLsbD 0 }
  | .xasid => s.setCtx x.asid { c with xasid := v.extractLsb' 0 16 }
  | .xptb => s.setCtx x.asid { c with xptb := v.extractLsb' 14 38 }
  | .xkey => s.setCtx x.asid { c with xkey := v.extractLsb' 0 10 }
  | .xvmid => s.setPart x.part { s.part x.part with vmid := v.toNat % 256 }
  | .xptb2 => s.setPart x.part { s.part x.part with xptb2 := v.extractLsb' 14 38 }
  | .xresume => s.setPart x.part { s.part x.part with xresume := clampTo 100 100000 (v.toNat % 2 ^ 17) }
  | .xhvec => s.setPart x.part { s.part x.part with xhvec := v.extractLsb' 12 40 }
  | .xgwin => { s with xgwin := clampTo 100 100000 (v.toNat % 2 ^ 17) }
  | .xackto => { s with xackto := clampTo 5 200 (v.toNat % 256) }
  | .xgpart =>
      let site := clampTo 0 17 (v.toNat % 32)
      let mib := v.toNat / 256 % 128
      let s := { s with xgsite := site }
      if mib = 127 then s else s.setSite site { s.site site with gpart := clampTo 0 96 mib }
  | _ => s

/-- The pending register writes that satisfy a test take effect, in their order. -/
def State.applyXs (s : State) (f : XWrite → Bool) : State :=
  let xs := s.xpend.filter f
  xs.foldl State.applyX { s with xpend := s.xpend.filter fun x => !f x }

/-! ### fence (15 R288) -/

/-- The fence of one lane: not ready while its held scratchpad stores wait; a release performs its stores; `fence.full.dev`
completes its register writes (19 R340). -/
def State.fenceLane (s : State) (i : Nat) (kind : FenceKind) (sc : Scope) : State × Ans :=
  let b := s.cur.blk
  let w := s.cur.warp
  if s.heldScratch b w i then (s, .stay)
  else
    let s := if kind = .acq then s else s.releaseLane b w i sc
    let s := if kind = .full && sc = .dev then s.applyXs fun x => x.blk == b && x.warp == w && x.lanes.contains i else s
    (s, .done)

def execFence (g : Guard) (kind : FenceKind) (sc : Scope) (_la : Nat) (s : State) : Res :=
  .next (s.laneMem [] [] g (some 0) fun s i _ => s.fenceLane i kind sc)

/-! ### Regions (15 R289 to R292) -/

/-- The slot of the region that holds an address. -/
def Ctx.regionAt (c : Ctx) (va : DWord) : Option Nat :=
  (c.regions.find? fun r => r.2.id != 0 && r.2.base.toNat ≤ va.toNat && va.toNat < r.2.base.toNat + r.2.len).map (·.1)

/-- A die's view of a region. -/
def Region.view (r : Region) (site : Nat) : Nat := fget 0 r.views site

/-- Serial arithmetic: u has reached t (15 R291). -/
def reached (u t : Word) : Bool := (u - t).toNat < 2 ^ 31

/-- Compute sites that are active. -/
def State.activeSites (s : State) : List Nat := (upto 0 18).filter fun n => (s.site n).stat == .active || (s.site n).stat == .fencing

/-- A_k: the release, the increment, the notices; the thread goes on when every die has received its notice (15 R292). -/
def State.advanceRound (s : State) (b w i slot : Nat) : State × Nat :=
  let s := s.releaseLane b w i .dev
  let asid := s.asidOf b
  let c := s.ctx asid
  let r := c.region slot
  let k := r.count + 1
  let s := s.setCtx asid (c.setRegion slot { r with count := k, notices := r.notices ++ s.activeSites.map fun d => (d, k) })
  (s.setLane b w i { s.lane b w i with awaits := (s.lane b w i).awaits ++ [(slot, k)] }, k)

/-- A die receives the oldest notice of a region (15 R292). -/
def State.receiveNotice (s : State) (asid slot site : Nat) : State :=
  let c := s.ctx asid
  let r := c.region slot
  match r.notices.find? fun n => n.1 == site with
  | none => s
  | some n => s.setCtx asid (c.setRegion slot { r with
      notices := r.notices.erase n, views := fset 0 r.views site (if r.view site < n.2 then n.2 else r.view site) })

/-- Every die has received the notices of the rounds up to one that a thread has acquired (15 R292, R299). -/
def State.shareRounds (s : State) (asid slot upTo : Nat) : State :=
  let c := s.ctx asid
  let r := c.region slot
  s.setCtx asid (c.setRegion slot { r with
    notices := r.notices.filter fun n => upTo < n.2
    views := (r.notices.filter fun n => n.2 ≤ upTo).foldl (fun m n => if fget 0 m n.1 < n.2 then fset 0 m n.1 n.2 else m) r.views })

/-- An acquire of a region's view by a thread of the block (15 R297, R298): the rounds that it has happen before its return. -/
def State.acquireView (s : State) (b slot : Nat) : State := s.shareRounds (s.asidOf b) slot (((s.ctxOf b).region slot).view (s.siteOf b))

/-- A lane still waits for the receipt of a round it closed. -/
def State.awaiting (s : State) (b : Nat) (l : Lane) : Bool :=
  l.awaits.any fun a => ((s.ctxOf b).region a.1).notices.any fun n => n.2 ≤ a.2

/-- The shape of a round instruction: address, translation, then the region or cause 0x10 (15 R293, R297). -/
def State.roundLane (s : State) (l : Lane) (a : Nat) (off : BitVec 16) (kind : AccKind)
    (k : State → Nat → DWord → State × Ans) : State × Ans :=
  s.globalAddr s.cur.level kind l a off 1 false fun s va _ =>
    match (s.ctxOf s.cur.blk).regionAt va with
    | none => (s, .trap 0x10 va)
    | some slot => k s slot va

/-- The executing die's view of a region of the block's context. -/
def State.viewOf (s : State) (b slot : Nat) : Nat := ((s.ctxOf b).region slot).view (s.siteOf b)

def execRndadv (g : Guard) (d a : Nat) (off : BitVec 16) (la : Nat) (s : State) : Res :=
  .next (s.laneMem (d :: grp a 2) [] g (some la) fun s i l => s.roundLane l a off .store fun s slot _ =>
    let r := s.advanceRound s.cur.blk s.cur.warp i slot
    (r.1, .word d (BitVec.ofNat 32 r.2)))

def execRndld (g : Guard) (d a : Nat) (off : BitVec 16) (la : Nat) (s : State) : Res :=
  .next (s.laneMem (d :: grp a 2) [] g (some la) fun s _ l => s.roundLane l a off .load fun s slot _ =>
    (s.acquireView s.cur.blk slot, .word d (BitVec.ofNat 32 (s.viewOf s.cur.blk slot))))

def execRndwait (g : Guard) (d a c : Nat) (off : BitVec 16) (la : Nat) (s : State) : Res :=
  .next (s.laneMem ([d, c] ++ grp a 2) [] g (some la) fun s _ l =>
    s.roundLane l a off .load fun s slot va =>
      if (l.rv c).side then (s, .trap 0x08 0) else
      let v := BitVec.ofNat 32 (s.viewOf s.cur.blk slot)
      if reached v (l.rd c) then (s.acquireView s.cur.blk slot, .word d v) else (s, .park (.round slot (l.rd c) va s.execEntry)))

/-! ### Bounded loads (15 R294 to R296) -/

/-- A stamped copy may serve a bounded load of these threads: recent enough, filled since the block resumed, and not older than
what a thread has read or performed (15 R273, R294, R295). -/
def Stamped.serves (c : Stamped) (asid slot key need fresh a n : Nat) (ls : List Lane) : Bool :=
  c.asid == asid && c.slot == slot && c.line == a / 128 && c.key == key && need ≤ c.stamp && fresh ≤ c.fill &&
  ls.all fun l => (upto a n).all fun k => fget 0 l.seen k ≤ c.fill

/-- The bytes of a line as the home holds them. -/
def State.fetchLine (s : State) (key line : Nat) : List Byte × List Bool :=
  (s.bytesAt key (line * 128) 128, (upto (line * 4) 4).map s.sectorPoison)

/-- One bounded load of n aligned bytes with need V − N: the stamped copy that may serve it or a refetch that stamps a new one;
the bytes, their poison and the write count they are as new as. -/
def State.boundedRead (s : State) (b slot : Nat) (pl : Place) (n bound : Nat) (ls : List Lane) :
    State × List Byte × Bool × Nat :=
  let site := s.siteOf b
  let asid := s.asidOf b
  let v := s.viewOf b slot
  let a := pl.pa
  let ix := s.freeIx
  let s := s.tickFree
  let use (c : Stamped) : State × List Byte × Bool × Nat :=
    (s, (c.bytes.drop (a % 128)).take n, c.poison[a % 128 / 32]?.getD false, c.fill)
  let refetch : State × List Byte × Bool × Nat :=
    let s := if s.paKind a == .hbm then s else s.touchRead site asid pl.key a n
    let x := s.fetchLine pl.key (a / 128)
    let c : Stamped := { line := a / 128, key := pl.key, asid := asid, slot := slot, bytes := x.1, poison := x.2, stamp := v, fill := s.wcount }
    let s := s.setSite site { s.site site with stamped := c :: (s.site site).stamped.filter fun c => c.line != a / 128 }
    (s, (x.1.drop (a % 128)).take n, x.2[a % 128 / 32]?.getD false, s.wcount)
  match (s.site site).stamped.find? fun c => c.serves asid slot pl.key (v - bound) (s.blk b).fresh a n ls with
  | some c => if Config.choice ix % 2 = 0 then use c else refetch
  | none => refetch

/-- Bytes of a bounded load under the stores that the thread sees (15 R294). -/
def State.overBytes (s : State) (ps : List PStore) (key a : Nat) (bytes : List Byte) (poison : Bool) : List Byte × Bool :=
  (((upto a bytes.length).zip bytes).map fun x => s.overByte key x.1 ps x.2, (sectorsOf a bytes.length).any fun sec => overPoison sec ps poison)

/-- A page on which a bounded load is an `ld` (11 R224, 15 R290). -/
def Place.plain (pl : Place) : Bool := pl.ord == 1 || pl.dom != 4

/-- A bounded load of one lane. -/
def State.ldbLane (s : State) (i : Nat) (l : Lane) (d a : Nat) (ty : Ty) (bound : Bound) (off : BitVec 16) : State × Ans :=
  let b := s.cur.blk
  let w := s.cur.warp
  s.globalLane s.cur.level .load l a off ty.bytes true fun s va ps =>
    match (s.ctxOf b).regionAt va, ps with
    | none, _ | _, [] => (s, .trap 0x10 va)
    | some slot, (pl, x, n) :: r =>
        let go (s : State) (bnd : Nat) : State × Ans :=
          let q := s.boundedRead b slot pl ty.bytes bnd [s.lane b w i]
          let o := q.1.overBytes (q.1.ownStores b w i) pl.key pl.pa q.2.1 q.2.2.1
          (q.1.setLane b w i ((q.1.lane b w i).see pl.pa ty.bytes q.2.2.2), .regs (loadRegs d ty o.1 o.2))
        let plain (s : State) : State × Ans :=
          let q := s.loadPieces b w i ((pl, x, n) :: r)
          (q.1, s.loaded ((pl, x, n) :: r) (loadRegs d ty q.2.1 q.2.2))
        match bound with
        | .rf k => if pl.plain then plain s else go s k
        | .target c =>
            if (l.rv c).side then (s, .trap 0x08 0)
            else if pl.plain then plain s
            else if reached (BitVec.ofNat 32 (s.viewOf b slot)) (l.rd c) then go s 0
            else (s, .park (.round slot (l.rd c) va s.execEntry))

end Sys2Proof.Machine

namespace Sys2Proof

open Sys2Proof.Machine

/-- Register of a bound's target. -/
def Bound.regs : Bound → List Nat
  | .rf _ => []
  | .target c => [c]

end Sys2Proof

namespace Sys2Proof.Machine

open Sys2Proof

def execLdb (g : Guard) (d a : Nat) (ty : Ty) (bound : Bound) (off : BitVec 16) (la : Nat) (s : State) : Res :=
  .next (s.laneMem (grp d ty.regs ++ grp a 2 ++ bound.regs) [] g (some la) fun s i l => s.ldbLane i l d a ty bound off)

/-- The value of a `uldb`; a poisoned sector raises cause 0x08 in every lane (11 R221, R225). -/
def State.uldbEnd (s : State) (d : Nat) (ty : Ty) (bytes : List Byte) (poison : Bool) : State :=
  if poison then s.raiseEntry 0x08 0 else (s.uwLong (loadRegs d ty bytes false)).unext

/-- The bounded load of a `uldb` at a place. -/
def State.uldbGo (s : State) (d : Nat) (ty : Ty) (slot : Nat) (pl : Place) (bound : Nat) : State :=
  let b := s.cur.blk
  let s := s.entryOrder { pl with ord := 0 } ty.bytes
  let q := s.boundedRead b slot pl ty.bytes bound (s.cur.lanes.map s.cl)
  let o := q.1.overBytes (q.1.blk b).hold pl.key pl.pa q.2.1 q.2.2.1
  let s := q.1.cur.lanes.foldl (fun s i => s.setCl i ((s.cl i).see pl.pa ty.bytes q.2.2.2)) q.1
  s.uldbEnd d ty o.1 o.2

/-- `uldb` under a true guard, with the target and address that it reads, or read before it parked (15 R296). -/
def State.uldbAt (s : State) (d : Nat) (ty : Ty) (bound : Bound) (va : DWord) (target : Word) : State :=
  let b := s.cur.blk
  if va.toNat % ty.bytes != 0 then s.raiseEntry 0x03 va
  else s.globalEntry .load va ty.bytes fun s ps =>
    match (s.ctxOf b).regionAt va, ps with
    | none, _ | _, [] => s.raiseEntry 0x10 va
    | some slot, (pl, x, n) :: r =>
        if pl.plain then let q := s.uloadPieces ((pl, x, n) :: r); q.1.uldbEnd d ty q.2.1 q.2.2
        else match bound with
          | .rf k => s.uldbGo d ty slot pl k
          | .target _ =>
              if reached (BitVec.ofNat 32 (s.viewOf b slot)) target then s.uldbGo d ty slot pl 0
              else s.cur.lanes.foldl (fun s i => s.setCl i { s.cl i with park := .uround slot target va s.execEntry }) s

/-- `uldb`: one bounded load for the entry. One that had parked goes on with what it read then: no register, no guard is read again. -/
def execUldb (g : Guard) (d a : Nat) (ty : Ty) (bound : Bound) (off : BitVec 16) (s : State) : Res :=
  .next (match s.cur.given with
    | some x => s.uldbAt d ty bound x.2 x.1
    | none => s.warpOp (grp d ty.regs ++ grp a 2 ++ bound.regs) g fun s =>
        s.uldbAt d ty bound (s.uaddr a off) (match bound with | .target c => s.ur c | .rf _ => 0))

/-! ### Registration of regions (19 R357, 15 R289, R300) -/

/-- Lanes of a block parked on a region wake and raise cause 0x10 (15 R300). -/
def State.wakeRound (s : State) (b slot : Nat) : State :=
  (fkeys (s.blk b).warps).foldl (fun s w =>
    (s.raiseAll b w ((s.warp b w).live.filterMap fun i => match (s.lane b w i).park with
      | .round sl _ va ex | .uround sl _ va ex => if sl = slot then
          some { lane := i, cause := 0x10, val := va, epc := (s.lane b w i).pc, pi := (s.lane b w i).prog, exec := ex : Raise } else none
      | _ => none)).settleWarp b w) s

/-- Remove a region: its stamped copies go, its parked lanes trap. -/
def State.removeRegion (s : State) (asid slot : Nat) : State :=
  if ((s.ctx asid).region slot).id = 0 then s
  else
    let s := s.setCtx asid ((s.ctx asid).setRegion slot Region.absent)
    let s := { s with sites := s.sites.map fun x =>
      (x.1, { x.2 with stamped := x.2.stamped.filter fun c => !(c.asid == asid && c.slot == slot) }) }
    ((fkeys s.blocks).filter fun b => s.asidOf b == asid && ((s.blk b).phase == .resident || (s.blk b).phase == .preempted)).foldl
      (fun s b => s.wakeRound b slot) s

/-- An entry of the region table satisfies 15 R289 beside the other registered slots. -/
def Ctx.regionOk (c : Ctx) (slot : Nat) (id : Word) (base : DWord) (len : Nat) : Bool :=
  canonical base && base.toNat % 65536 == 0 && len != 0 &&
  c.regions.all fun r => r.1 == slot || r.2.id == 0 ||
    (r.2.id != id && (base.toNat + len ≤ r.2.base.toNat || r.2.base.toNat + r.2.len ≤ base.toNat))

/-- Act on the 16 bytes of a slot; the status. -/
def State.registerRegion (s : State) (asid slot : Nat) (bytes : List Byte) : State × Nat :=
  let v := leNat bytes
  let id : Word := BitVec.ofNat 32 v
  let len := v / 2 ^ 32 % 2 ^ 32 * 65536
  let base : DWord := BitVec.ofNat 64 (v / 2 ^ 64)
  let c := s.ctx asid
  let old := c.region slot
  if id = 0 then (s.removeRegion asid slot, 1)
  else if !c.regionOk slot id base len then (s.removeRegion asid slot, 2)
  else if old.id = id && old.base = base && old.len = len then (s, 0)
  else
    let s := s.removeRegion asid slot
    (s.setCtx asid ((s.ctx asid).setRegion slot { Region.absent with id := id, base := base, len := len }), 0)

/-- `tlbinv.rgn` of one lane: the table is read as a level-S access without the user permission (19 R357). -/
def State.rgnLane (s : State) (i : Nat) (l : Lane) (d a : Nat) : State × Ans :=
  let b := s.cur.blk
  if (l.rv a).side then (s, .trap 0x08 0)
  else
    let s := s.releaseLane b s.cur.warp i .dev
    let c := s.ctxOf b
    let k := zv (l.rd a)
    if c.rcnt ≤ k then (s, .word d 3)
    else
      let va := c.rtab + BitVec.ofNat 64 (16 * k)
      match s.xlatePieces (s.siteOf b) (s.asidOf b) .s .load false va 16 with
      | (s, .error e) => (s, .trap e.1 e.2)
      | (s, .ok ps) =>
          let r := s.loadPieces b s.cur.warp i ps
          if r.2.2 then (r.1, .trap 0x08 0)
          else
            let q := r.1.registerRegion (s.asidOf b) k r.2.1
            (q.1, .word d (BitVec.ofNat 32 q.2))

def execTlbinvRgn (g : Guard) (d a la : Nat) (s : State) : Res :=
  .next (s.privOp .s [d, a] g (some la) fun s i l => s.rgnLane i l d a)

end Sys2Proof.Machine
end

