-- ==== Sys2Proof/Machine/Barrow.lean ====
section
/-! DEFINITION. Barrow commands (11 R212, R213, R230 to R237): issue, movement line by line in the order of issue, completion,
deliveries of `cp.grp`, and settling at a save (19 R362 to R364). -/

namespace Sys2Proof.Machine

open Sys2Proof

/-! ### Geometry of a command -/

/-- The scratchpad lines that a command's tile touches, in tile order. -/
def Cmd.tileLines (c : Cmd) : List Nat := Hdr.lines c.hdr c.width2

/-- Bytes of a row. -/
def Cmd.rowLen (c : Cmd) : Nat := Hdr.rowBytes c.hdr c.width2

/-- Rows that lie, at least in part, in a line. -/
def Cmd.rowsIn (c : Cmd) (line : Nat) : List Nat :=
  (upto 0 (Hdr.rows c.hdr)).filter fun r =>
    Hdr.unswz c.hdr r 0 / 128 ≤ line && line ≤ Hdr.unswz c.hdr r (c.rowLen - 1) / 128

/-- Chunks of at most 16 bytes of a line, in row and byte order: row, byte of the row, length. -/
def Cmd.chunksIn (c : Cmd) (line : Nat) : List (Nat × Nat × Nat) :=
  ((c.rowsIn line).map fun r => ((upto 0 ((c.rowLen + 15) / 16)).filter fun x => Hdr.unswz c.hdr r (16 * x) / 128 == line).map
    fun x => (r, 16 * x, min 16 (c.rowLen - 16 * x))).flatten

/-- The global address of byte b of row r (11 R231). -/
def Cmd.gva (c : Cmd) (r b : Nat) : DWord :=
  c.base + BitVec.ofNat 64 ((if c.kind = .gat then c.idx[r]?.getD 0 else r) * c.pitch + b)

/-- The place of a global address under the translations that the command keeps. -/
def Cmd.placeOf (c : Cmd) (va : DWord) : Place :=
  if c.level = .h then { pa := va.toNat, dom := 5, ord := 0, key := 0 }
  else match c.pages.find? fun p => p.vpage == va.toNat / 65536 with
    | some p => { pa := p.ppage * 65536 + va.toNat % 65536, dom := p.dom, ord := p.ord, key := p.key }
    | none => { pa := 0, dom := 5, ord := 0, key := 0 }

/-- Global pages of the footprint in ascending row and byte order, each with the first address met there. -/
def Cmd.footprint (c : Cmd) : List DWord :=
  let rows := (upto 0 (Hdr.rows c.hdr)).map fun r =>
    let a := c.gva r 0
    let n := (a.toNat % 65536 + c.rowLen - 1) / 65536
    a :: (upto 1 n).map fun i => BitVec.ofNat 64 ((a.toNat / 65536 + i) * 65536)
  rows.flatten.foldl (fun acc a => if acc.any fun x => x.toNat / 65536 == a.toNat / 65536 then acc else acc ++ [a]) []

/-- What the command does to global memory (11 R232 step 3). -/
def Cmd.access (c : Cmd) : AccKind :=
  match c.kind with
  | .cin | .gat | .grp => .load
  | .out => .store
  | .red => .atomic

/-- Translate and check every page of the footprint (11 R232 step 3, 19 R363); at level H the command holds no translation. -/
def State.planCmd (s : State) (b : Nat) (c : Cmd) : List DWord → State × Except Stop (List PageMap)
  | [] => (s, .ok [])
  | a :: r =>
      match s.walkVa (s.siteOf b) (s.asidOf b) c.level c.access a with
      | (s, .error e) => (s, .error e)
      | (s, .ok w) =>
          match permChecks (s.ctxOf b).xkey.toNat c.level c.access true [(a, w)] with
          | some e => (s, .error e)
          | none =>
              match s.planCmd b c r with
              | (s, .error e) => (s, .error e)
              | (s, .ok ps) =>
                  let pl := w.place
                  (s, .ok ({ vpage := a.toNat / 65536, ppage := pl.pa / 65536, size1 := w.size1, size2 := w.size2
                             ipage := if w.phys then none else some (w.ipa / 65536), key := pl.key, dom := pl.dom, ord := pl.ord
                             asid := (s.ctxOf b).xasid.toNat, vmid := s.vmidOf (s.asidOf b) } :: ps))

/-! ### Movement -/

/-- Read bytes of global memory for a command: each byte with its poison. -/
def State.readGlobal (s : State) (b : Nat) (c : Cmd) (xs : List (Nat × DWord)) : State × List (Nat × Byte × Bool) :=
  let ps := xs.map fun x => (x.1, c.placeOf x.2)
  let lines := (ps.map fun x => x.2.pa / 128).eraseDups
  let s := if ps.any fun x => x.2.ord == 1 then s.commit b else s
  let s := lines.foldl (fun s l =>
    match ps.find? fun x => x.2.pa / 128 == l with
    | some x => s.touchRead (s.siteOf b) (s.asidOf b) x.2.key x.2.pa 1
    | none => s) s
  let held := (s.blk b).hold
  (s, ps.map fun x =>
    let r := s.readAs (s.siteOf b) held x.2.key x.2.pa 1
    (x.1, r.1.headD 0, r.2))

/-- Bytes of a line of the tile: place in scratchpad, global address. -/
def Cmd.bytesIn (c : Cmd) (line : Nat) : List (Nat × DWord) :=
  ((c.chunksIn line).map fun x => (upto 0 x.2.2).map fun i => (Hdr.place c.hdr x.1 (x.2.1 + i), c.gva x.1 (x.2.1 + i))).flatten

/-- Bytes with their poison enter a scratchpad: sector poison travels with the data (07 R154). -/
def Block.putBytes (k : Block) (es : List (Nat × Byte × Bool)) : Block := k.putRegion 1 (es.map fun e => (e.1, e.2.1.toNat, e.2.2))

/-- The lines at whose homes the requests that moving lines of the tile makes are held (23 R401, R402). -/
def State.cmdHeld (s : State) (c : Cmd) (again : Bool) (lines : List Nat) : List Nat :=
  if s.suspects = [] && s.homeq = [] then []
  else ((lines.map fun l => (c.bytesIn l).map fun x => (c.placeOf x.2).pa / 128).flatten.eraseDups).filter (s.lineHeld again)

/-- A barrow command asks the homes of some lines, once. -/
def State.askCmd (s : State) (lines : List Nat) (b id line : Nat) : State :=
  if s.homeq.any fun q => q.who == .barrow b id line then s else s.ask lines (.barrow b id line)

/-- Sectors of global addresses in which lines of the tile have still to be read. -/
def Cmd.sectorsLeft (c : Cmd) (lines : List Nat) : List Nat :=
  (lines.map fun l => ((c.chunksIn l).map fun x =>
    sectorsOf (c.gva x.1 x.2.1).toNat x.2.2).flatten).flatten.eraseDups

/-- Bytes of one sector, by address, as one store each run: the highest row's last (11 R233). -/
def sectorRuns (m : FMap (Byte × Bool)) : List (Nat × List Byte × Bool) :=
  m.foldl (fun acc x =>
    match acc.getLast? with
    | some y => if y.1 + y.2.1.length = x.1 then acc.dropLast ++ [(y.1, y.2.1 ++ [x.2.1], y.2.2 || x.2.2)] else acc ++ [(x.1, [x.2.1], x.2.2)]
    | none => [(x.1, [x.2.1], x.2.2)]) []

/-- What a `cp.out` has read goes out, a sector at a time: those in which it has nothing still to read; the rest is kept. -/
def State.outSectors (s : State) (b : Nat) (c : Cmd) (xs : List (Nat × Byte × Bool)) (left : List Nat) :
    State × List (Nat × Byte × Bool) :=
  let go := xs.filter fun x => !left.contains (x.1 / 32)
  let secs := (go.map fun x => x.1 / 32).eraseDups
  (secs.foldl (fun s sec =>
    let m : FMap (Byte × Bool) := (go.filter fun x => x.1 / 32 == sec).foldl (fun m x => fput m x.1 x.2) []
    (sectorRuns m).foldl (fun s r =>
      let pl := c.placeOf (BitVec.ofNat 64 r.1)
      s.emit b pl { warp := 0, lanes := [], addr := pl.pa, bytes := r.2.1, poison := r.2.2, key := pl.key, stream := false
                    exec := s.steps }) s) s,
   xs.filter fun x => left.contains (x.1 / 32))

/-- The bytes that a `cp.out` reads from a line: global address, byte, poison. -/
def Cmd.readLine (c : Cmd) (k : Block) (line : Nat) : List (Nat × Byte × Bool) :=
  (c.bytesIn line).map fun x =>
    let r := k.getScratch x.1 1
    (x.2.toNat, r.1.headD 0, r.2)

/-- One addition of a `cp.red`, at the element's home (11 R234). -/
def State.redElem (s : State) (b : Nat) (c : Cmd) (place : Nat) (va : DWord) : State :=
  let n := c.width2 / 2
  let f := if c.bf then fbf16 else fp32
  let payload := if c.bf then poisonBf else poison32.toNat
  let pl := c.placeOf va
  let src := (s.blk b).getScratch place n
  let x := leNat src.1
  let s := s.commit b
  let s := s.touchRead home (s.asidOf b) pl.key pl.pa n
  let s := if s.paKind pl.pa == .host then (linesOf pl.pa n).foldl State.bridgeOwn s else s
  let o := leNat (s.bytesAt pl.key pl.pa n)
  if src.2 || x == payload || s.poisonAt pl.pa n || o == payload then
    s.writeMem home (s.asidOf b) pl.key pl.pa (leBytes n payload) true
  else
    s.writeMem home (s.asidOf b) pl.key pl.pa
      (leBytes n (fdot f [(f.decode o, fone), (f.decode x, fone)] none .rn false).1) false

/-- A command of a block by its number. -/
def Block.cmd (k : Block) (id : Nat) : Option Cmd := k.cmds.find? fun c => c.id == id

def Block.setCmd (k : Block) (c : Cmd) : Block := { k with cmds := k.cmds.map fun x => if x.id = c.id then c else x }

/-- Remove an operation from a line's order and apply what it held back. -/
def Block.passLine (k : Block) (line : Nat) (op : LineOp) : Block :=
  ({ k with lines := fset [] k.lines line ((fget [] k.lines line).erase op) }).settleLine line

/-! ### The order of a line (11 R212, R213) -/

/-- What must pass before an operation of a command on a line of block m: before a write, every write that stands ahead and, for a
command of the block itself, its earlier reads and its own deliveries; before a read, every write and own delivery ahead, and those of
other members behind, up to the block's next own write. -/
def lineBlockers (m : Nat) (ops : List LineOp) (me : LineOp) : List LineOp :=
  let ahead := ops.takeWhile (· != me)
  let behind := (ops.drop (ahead.length + 1)).takeWhile fun op => match op with
    | .cmd x _ => x != m
    | _ => true
  let own := match me with
    | .cmd x _ => x == m
    | _ => true
  let stop (op : LineOp) : Bool := match op, me with
    | .cmd _ _, _ => true
    | .due _, _ => own
    | .reader _, .cmd _ _ => own
    | _, _ => false
  ahead.filter stop ++ (match me with
    | .reader _ => behind.filter fun op => match op with | .cmd _ _ => true | _ => false
    | _ => [])

/-- An operation is at its turn on a line: nothing blocks it, and a write comes after every store held ahead of it. -/
def Block.atTurn (k : Block) (m line : Nat) (me : LineOp) : Bool :=
  let ops := fget [] k.lines line
  ops.contains me && lineBlockers m ops me == [] &&
  (match me with
   | .cmd _ _ => !(ops.takeWhile (· != me)).any LineOp.absents
   | _ => true)

/-- The operation of a command on the lines of its own tile. -/
def Cmd.lineOp (c : Cmd) (b : Nat) : LineOp :=
  match c.kind with
  | .out | .red => .reader c.id
  | _ => .cmd b c.id

/-- A line of a command has been moved. -/
def Cmd.did (c : Cmd) (line : Nat) : Cmd := { c with lines := c.lines ++ [line] }

/-- The first line that a command has not moved. -/
def Cmd.nextLine (c : Cmd) : Option Nat := c.tileLines.find? fun l => !c.lines.contains l

/-- Move one line of a command between global memory and its own scratchpad, whatever stands before it. -/
def State.moveLine (s : State) (b : Nat) (c : Cmd) (line : Nat) : State :=
  match c.kind with
  | .cin | .gat =>
      let r := s.readGlobal b c (c.bytesIn line)
      r.1.modScr b fun k => ((k.putBytes r.2).setCmd (c.did line)).passLine line (.cmd b c.id)
  | .out =>
      let xs := c.data.getD [] ++ c.readLine (s.blk b) line
      let c := c.did line
      let r := s.outSectors b c xs (c.sectorsLeft (c.tileLines.filter fun l => !c.lines.contains l))
      r.1.modScr b fun k => (k.setCmd { c with data := some r.2 }).passLine line (.reader c.id)
  | .red =>
      let n := c.width2 / 2
      let s := (c.chunksIn line).foldl (fun s x => (upto 0 (x.2.2 / n)).foldl (fun s i =>
        s.redElem b c (Hdr.place c.hdr x.1 (x.2.1 + i * n)) (c.gva x.1 (x.2.1 + i * n))) s) s
      s.modScr b fun k => (k.setCmd (c.did line)).passLine line (.reader c.id)
  | .grp => s

/-- A line of a command is at its turn: commands that write take any line, those that read take them in tile order. -/
def State.lineReady (s : State) (b : Nat) (c : Cmd) (line : Nat) : Bool :=
  c.kind != .grp && !c.lines.contains line && c.tileLines.contains line && (s.blk b).atTurn b line (c.lineOp b) &&
  !(c.drains && c.nextLine != some line)

/-! ### Deliveries of `cp.grp` (11 R235) -/

/-- The block of a rank of a block's group, when it has started. -/
def State.memberAt (s : State) (b rank : Nat) : Option Nat :=
  s.blockAt (s.blk b).grid (s.groupNo b * (s.gridOf b).gsize + rank)

/-- The tile of a `cp.grp`, read once. -/
def State.readTile (s : State) (b : Nat) (c : Cmd) : State × Cmd :=
  match c.data with
  | some _ => (s, c)
  | none =>
      let r := s.readGlobal b c ((c.tileLines.map c.bytesIn).flatten)
      (r.1, { c with data := some r.2 })

/-- A delivery enters a line's order as it begins: after the stores held there; the block's own keeps the place of its issue among its
commands (11 R212, R213). -/
def enterLine (m b id : Nat) (ops : List LineOp) : List LineOp :=
  if ops.contains (.cmd b id) then ops
  else if m != b || !ops.contains (.due id) then ops ++ [.cmd b id]
  else
    let pre := ops.takeWhile (· != .due id)
    let post := ops.drop (pre.length + 1)
    let mid := post.takeWhile fun op => match op with
      | .cmd x _ => x != m
      | .store _ _ _ _ _ _ => true
      | .due _ | .reader _ => false
    pre ++ mid ++ [.cmd b id] ++ post.drop mid.length

/-- An earlier `cp.grp` of the block that has not begun its delivery to a rank writes lines of the tile there: its writes come first (11
R213). -/
def State.delivBehind (s : State) (b : Nat) (c : Cmd) (rank : Nat) : Bool :=
  ((s.blk b).cmds.takeWhile fun x => x.id != c.id).any fun x =>
    x.owes rank && fget Deliv.waiting x.deliv rank == .waiting && x.tileLines.any c.tileLines.contains

/-- A delivery begins: the member's presence bits clear; one to another rank commits; one to a member that has gone is dropped. While a
home holds the request for the tile (`again`: has released it), it waits. -/
def State.beginDeliv (s : State) (b id rank : Nat) (again : Bool) : State :=
  match (s.blk b).cmd id with
  | none => s
  | some c =>
      let held := if c.data.isNone then s.cmdHeld c again c.tileLines else []
      if !(c.owes rank && fget Deliv.waiting c.deliv rank == .waiting) || s.delivBehind b c rank then s
      else match s.memberAt b rank with
        | none => s
        | some m =>
            if s.gone m && m != b then s.modBlk b fun k => k.setCmd { c with deliv := fput c.deliv rank .done }
            else if !(s.blk m).onCore then s
            else if held != [] then s.askCmd held b id rank
            else
              let s := if m = b then s else s.commit b
              let r := s.readTile b c
              let c := { r.2 with deliv := fput r.2.deliv rank .begun }
              let s := r.1.modBlk b fun k => k.setCmd c
              s.modBlk m fun k => { k with lines := c.tileLines.foldl (fun ls l => fset [] ls l (enterLine m b id (fget [] ls l))) k.lines }

/-- Write one line of a delivery into the member. -/
def State.delivLine (s : State) (b m : Nat) (c : Cmd) (line : Nat) : State :=
  let es := (c.data.getD []).filter fun e => e.1 / 128 == line
  s.modScr m fun k => (k.putBytes es).passLine line (.cmd b c.id)

/-- Lines of a member that a delivery has still to write. -/
def State.delivLeft (s : State) (b m : Nat) (c : Cmd) : List Nat :=
  c.tileLines.filter fun l => (fget [] (s.blk m).lines l).contains (.cmd b c.id)

/-- Every line of a delivery has been written: it arrives on the member's barrier. -/
def State.endDeliv (s : State) (b m id rank : Nat) : State :=
  match (s.blk b).cmd id with
  | some c => (s.modBlk b fun k => k.setCmd { c with deliv := fput c.deliv rank .done }).arriveBar m false c.bar
  | none => s

/-- A delivery is under way to a member that stands on its core. -/
def State.delivering (s : State) (m : Nat) (c : Cmd) (rank : Nat) : Bool :=
  c.owes rank && fget Deliv.waiting c.deliv rank == .begun && (s.blk m).onCore

/-- A delivery that has begun lands: every line is at its turn, the bytes are written, and it arrives. -/
def State.landDeliv (s : State) (b id rank : Nat) : State :=
  match (s.blk b).cmd id, s.memberAt b rank with
  | some c, some m =>
      let left := s.delivLeft b m c
      if !s.delivering m c rank || left.any fun l => !(s.blk m).atTurn m l (.cmd b id) then s
      else (left.foldl (fun s l => s.delivLine b m c l) s).endDeliv b m id rank
  | _, _ => s

/-! ### Completion (11 R233) -/

/-- Every part of a command is done. -/
def Cmd.allMoved (c : Cmd) : Bool :=
  match c.kind with
  | .grp => (upto 0 16).all fun r => !c.owes r
  | _ => c.tileLines.all c.lines.contains

/-- A command completes: its release orders what precedes it in the issuing lanes' program order and, at die scope or wider, commits
(15 R275, R280, 23 R395); then it arrives on its barrier. A failing block ends when its commands to global memory have drained. -/
def State.finishCmd (s : State) (b : Nat) (c : Cmd) : State :=
  let s := if c.ord.rel then
      (if c.ord.scope.isWide then s.commit b else s).drainIf b fun p =>
        p.warp == c.warp && p.lanes.any c.lanes.contains && p.exec < c.exec
    else s
  let s := s.modBlk b fun k => { k with cmds := k.cmds.filter fun x => x.id != c.id }
  let s := if c.kind = .grp then s else s.arriveBar b false c.bar
  if (s.blk b).phase == .failing && !(s.blk b).cmds.any Cmd.drains then
    (s.modBlk b fun k => { k with phase := .failed, cmds := [] }).dropBegun b
  else s

/-- A block's commands proceed: it is resident, or its grid has failed and they drain. -/
def State.barrowRuns (s : State) (b : Nat) : Bool := (s.blk b).onCore

/-- A command moves a line that is at its turn, unless a home holds its request (`again`: has released it). -/
def State.barrowLine (s : State) (b : Nat) (c : Cmd) (line : Nat) (again : Bool) : State :=
  let held := s.cmdHeld c again [line]
  if !s.lineReady b c line then s else if held != [] then s.askCmd held b c.id line else s.moveLine b c line

/-- A home has released the request of a barrow command. -/
def State.serveBarrow (s : State) (b id line : Nat) : State :=
  match (s.blk b).cmd id with
  | none => s
  | some c => if !s.barrowRuns b then s else if c.kind = .grp then s.beginDeliv b id line true else s.barrowLine b c line true

def execBarrowLineWritten (blk cmd line : Nat) (s : State) : Res :=
  .next (match (s.blk blk).cmd cmd with
    | none => s
    | some c =>
        if !s.barrowRuns blk then s
        else if c.kind = .grp then
          match s.memberAt blk (line / 8192) with
          | some m =>
              if s.delivering m c (line / 8192) && (s.blk m).atTurn m (line % 8192) (.cmd blk cmd) then s.delivLine blk m c (line % 8192)
              else s
          | none => s
        else s.barrowLine blk c line false)

def execBarrowCommandComplete (blk cmd : Nat) (s : State) : Res :=
  .next (match (s.blk blk).cmd cmd with
    | none => s
    | some c => if s.barrowRuns blk && c.allMoved then s.finishCmd blk c else s)

def execCpGrpDeliveryBegin (blk cmd rank : Nat) (s : State) : Res :=
  .next (if s.barrowRuns blk then s.beginDeliv blk cmd rank false else s)

def execCpGrpDeliveryLand (blk cmd rank : Nat) (s : State) : Res :=
  .next (if s.barrowRuns blk then s.landDeliv blk cmd rank else s)

/-! ### Issue (11 R230 to R232) -/

/-- The element width in half bytes (11 R231). -/
def cmdWidth2 (kind : CmdKind) (bf : Bool) (w : CpWidth) (h : Hdr) : Nat :=
  if kind = .red then (if bf then 4 else 8)
  else match w with
    | .hdr => fmtWidth2 (Hdr.fmt h)
    | .w4 => 8
    | .w2 => 4

/-- Commands outstanding on the core of a block (03 Table 3.2). -/
def State.coreCmds (s : State) (b : Nat) : Nat :=
  (s.blocks.map fun x => if x.2.onCore && x.2.site == (s.blk b).site && x.2.core == (s.blk b).core then x.2.cmds.length
    else 0).foldl (· + ·) 0

/-- A fresh number for a command of a block. -/
def Block.nextCmd (k : Block) : Nat := k.accepted.foldl (fun m c => if m < c.id then c.id else m) 0 + 1

/-- Accept a command: its lines, the issuing lanes' stores to its footprint first, and the commits that fall at issue (11 R232
step 5, R233, 15 R275, 23 R395). -/
def State.acceptCmd (s : State) (b : Nat) (c : Cmd) : State :=
  let rows := (upto 0 (Hdr.rows c.hdr)).map fun r => c.placeOf (c.gva r 0)
  let s := s.drainIf b fun p => p.warp == s.cur.warp && p.lanes.any s.cur.lanes.contains &&
    (rows.any (fun pl => p.meets pl.pa c.rowLen) || c.pages.any fun pg => p.addr / 65536 == pg.ppage)
  let s := if c.kind = .red || (c.kind != .out && c.ord.rel && c.ord.scope.isWide) then s.commit b else s
  let mark : Option LineOp := match c.kind with
    | .cin | .gat => some (.cmd b c.id)
    | .out | .red => some (.reader c.id)
    | .grp => if c.mask.getLsbD (s.rank b) then some (.due c.id) else none
  s.modBlk b fun k => { k with
    cmds := k.cmds ++ [c]
    lines := match mark with
      | some op => c.tileLines.foldl (fun ls l => fset [] ls l (fget [] ls l ++ [op])) k.lines
      | none => k.lines }

/-- The index list of a `cp.gat` (11 R232 step 2); none when its lines are absent. -/
def State.readIdx (s : State) (b off rows : Nat) : Option (List Nat × Bool) :=
  let k := s.blk b
  if (linesOf off (4 * rows)).any k.absentLine then none
  else
    let r := k.getScratch off (4 * rows)
    some ((upto 0 rows).map fun i => leNat ((r.1.drop (4 * i)).take 4), r.2)

/-- A barrow command issues for the entry, and waits while its core has no room or cancelled commands of the block are to be reissued; the spec names no XVAL for a rank at or above `GSIZE` (log 14). -/
def State.cpIssue (s : State) (kind : CmdKind) (g : Guard) (h a p b : Nat) (ord : CpOrd) (w : CpWidth) (bf : Bool) : State :=
  let pair := kind == .gat || kind == .grp
  let blk := s.cur.blk
  if s.cur.agent == .tiller || !s.namesOk [] (grp a 2 ++ grp p (if pair then 2 else 1)) ||
      !decide (b < (s.gridOf blk).khdr.bars) then s.illegal
  else s.uniOp [] g fun s =>
    if !(s.bar blk false b).init then s.illegal
    else
    let hd := (s.blk blk).hdr h
    let w2 := cmdWidth2 kind bf w hd
    let scr := (s.gridOf blk).khdr.scratch
    let base := s.ur2 a
    let pitch := zv (s.ur p)
    let unit := if w2 < 2 then 1 else w2 / 2
    let extra := zv (s.ur (p + 1))
    let rows := Hdr.rows hd
    if 64 ≤ s.coreCmds blk || (s.blk blk).cancelled != [] then s
    else if !(Hdr.plainOk hd && Hdr.rowBytes hd w2 ≤ Hdr.stride hd && !(Hdr.fmt hd == 0 && Hdr.cols hd % 2 == 1)) then
      s.raiseEntry 0x0F 0
    else if base.toNat % unit != 0 then s.raiseEntry 0x03 base
    else if pitch % unit != 0 then s.raiseEntry 0x03 (base + BitVec.ofNat 64 pitch)
    else if !Hdr.inside hd w2 scr then s.raiseEntry 0x09 (BitVec.ofNat 64 (Hdr.firstOut hd w2 scr))
    else if kind = .gat && extra % 4 != 0 then s.raiseEntry 0x03 (BitVec.ofNat 64 extra)
    else if kind = .gat && scr < extra + 4 * rows then s.raiseEntry 0x09 (BitVec.ofNat 64 extra)
    else
      match if kind = .gat then s.readIdx blk extra rows else some ([], false) with
      | none => s
      | some (idx, bad) =>
          if bad then s.raiseEntry 0x08 0
          else
            let c : Cmd :=
              { id := (s.blk blk).nextCmd, kind := kind, hdr := hd, base := base, pitch := pitch, width2 := w2, bar := b
                ord := ord, bf := bf, idx := idx, mask := BitVec.ofNat 16 extra, level := s.cur.level, pages := []
                lines := [], deliv := [], data := none, warp := s.cur.warp, lanes := s.cur.lanes, exec := s.steps }
            match s.planCmd blk c c.footprint with
            | (s, .error e) => s.raiseEntry e.1 e.2
            | (s, .ok pages) =>
                if kind = .grp && (upto (s.gridOf blk).gsize 16).any (fun r => r < 16 && c.mask.getLsbD r) then
                  s.tickFree.raiseEntry 0x09 (BitVec.ofNat 64 (Config.choice s.freeIx))
                else (s.acceptCmd blk { c with pages := pages }).unext

def execCpIn (g : Guard) (h a p b : Nat) (ord : CpOrd) (w : CpWidth) (s : State) : Res := .next (s.cpIssue .cin g h a p b ord w false)
def execCpGat (g : Guard) (h a p b : Nat) (ord : CpOrd) (w : CpWidth) (s : State) : Res := .next (s.cpIssue .gat g h a p b ord w false)
def execCpOut (g : Guard) (h a p b : Nat) (ord : CpOrd) (w : CpWidth) (s : State) : Res := .next (s.cpIssue .out g h a p b ord w false)
def execCpRed (g : Guard) (h a p b : Nat) (ord : CpOrd) (bf : Bool) (s : State) : Res := .next (s.cpIssue .red g h a p b ord .hdr bf)
def execCpGrp (g : Guard) (h a p b : Nat) (ord : CpOrd) (w : CpWidth) (s : State) : Res := .next (s.cpIssue .grp g h a p b ord w false)

/-! ### Settling at a save, and reissue (19 R362 to R364) -/

/-- Move every line of a command that is left, each cleared first, and complete it. -/
def State.moveAll (s : State) (b id : Nat) (clear : State → Nat → State) : State :=
  match (s.blk b).cmd id with
  | none => s
  | some c =>
      let s := (c.tileLines.filter fun l => !c.lines.contains l).foldl (fun s l =>
        let s := clear s l
        match (s.blk b).cmd id with
        | some c => s.moveLine b c l
        | none => s) s
      match (s.blk b).cmd id with
      | some c => if c.allMoved then s.finishCmd b c else s
      | none => s

/-- Complete the operation of a command on the lines of block m, each line after what blocks it there, at most n commands deep: a
command of the block wholly, a delivery into it with its arrival. -/
def State.force : Nat → State → Nat → LineOp → State
  | 0, s, _, _ => s
  | n + 1, s, m, op =>
      let clear (s : State) (l : Nat) : State :=
        let s := (lineBlockers m (fget [] (s.blk m).lines l) op).foldl (fun s x => State.force n s m x) s
        s.modScr m fun k => k.settleLine l
      match op with
      | .store _ _ _ _ _ _ => s
      | .due id => State.force n (s.beginDeliv m id (s.rank m) true) m (.cmd m id)
      | .reader id => s.moveAll m id clear
      | .cmd x id =>
          match (s.blk x).cmd id with
          | none => s
          | some c =>
              if c.kind != .grp then s.moveAll m id clear
              else if s.delivering m c (s.rank m) then
                ((s.delivLeft x m c).foldl (fun s l => (clear s l).delivLine x m c l) s).endDeliv x m id (s.rank m)
              else s

/-- Commands outstanding in a block's group: how deep one can wait on another. -/
def State.groupCmds (s : State) (b : Nat) : Nat := ((s.members b).map fun m => (s.blk m).cmds.length).foldl (· + ·) 0

/-- A command cancelled while it moves a line has written any of the line's bytes (20 R364). -/
def State.breakOff (s : State) (b : Nat) (c : Cmd) : State :=
  (c.tileLines.filter fun l => s.lineReady b c l && s.cmdHeld c false [l] == []).foldl (fun s l =>
    let r := s.tickFree.readGlobal b c (c.bytesIn l)
    let es := (r.2.zip (upto 0 r.2.length)).filterMap fun x => if (Config.choice s.freeIx).testBit x.2 then some x.1 else none
    r.1.modScr b fun k => k.putBytes es) s

/-- The barrow of a block settles for a save (19 R362): `cp.out` and `cp.red` drain with what they wait on, deliveries of its `cp.grp`
that have begun complete, the rest is cancelled and recorded; deliveries into it start afresh later. -/
def State.settleBarrow (s : State) (b : Nat) : State :=
  let n := s.groupCmds b + 1
  let outs := (s.blk b).cmds.filter Cmd.drains
  let s := outs.foldl (fun s c => State.force n s b (.reader c.id)) s
  let grps := (s.blk b).cmds.filter fun c => c.kind == .grp
  let s := grps.foldl (fun s c => ((upto 0 16).filter fun r => fget Deliv.waiting c.deliv r == .begun).foldl
    (fun s r => match s.memberAt b r with
      | some m => State.force n s m (.cmd b c.id)
      | none => s) s) s
  let s := s.resetDeliv b
  let s := ((s.blk b).cmds.filter Cmd.allMoved).foldl (fun s c => s.finishCmd b c) s
  let s := ((s.blk b).cmds.filter fun c => c.kind == .cin || c.kind == .gat).foldl (fun s c => s.breakOff b c) s
  s.modBlk b fun k => { k with cancelled := k.cmds ++ k.cancelled, cmds := [] }

/-- A cancelled record takes its place again: its finished lines are counted once more, behind the block's earlier commands and ahead of
what was issued after it (20 R364). -/
def Block.requeue (k : Block) (b : Nat) (c : Cmd) : Block :=
  match c.kind with
  | .cin | .gat => { k with lines := c.tileLines.foldl (fun ls l =>
      let ops := fget [] ls l
      let pre := ops.takeWhile fun op => match op with | .cmd x id => x == b && id < c.id | _ => false
      if ops.contains (.cmd b c.id) then ls else fset [] ls l (pre ++ .cmd b c.id :: ops.drop pre.length)) k.lines }
  | _ => k

/-- Reissue cancelled records in their order while the core has room (03 Table 3.2); the rest wait. A translation that fails fails the
block, with cause and address. -/
def State.reissue (s : State) (b : Nat) : List Cmd → State
  | [] => s
  | c :: r =>
      let c0 := { c with pages := [], lines := [], data := none
                         deliv := c.deliv.map fun d => (d.1, if d.2 = .begun then Deliv.waiting else d.2) }
      if 64 ≤ s.coreCmds b then s.modBlk b fun k => { k with cancelled := c :: r }
      else match s.planCmd b c0 c0.footprint with
      | (s, .error e) => s.failBlock b e.1 0 e.2 0
      | (s, .ok pages) =>
          (s.modBlk b fun k => let k := k.requeue b c0; { k with cmds := k.cmds ++ [{ c0 with pages := pages }] }).reissue b r

/-- Blocks whose cancelled records wait for room reissue them where there is some. -/
def State.settleReissue (s : State) : State :=
  ((fkeys s.blocks).filter fun b => (s.blk b).phase == .resident && (s.blk b).cancelled != []).foldl (fun s b =>
    (s.modBlk b fun k => { k with cancelled := [] }).reissue b (s.blk b).cancelled) s

end Sys2Proof.Machine
end

