-- ==== Sys2Proof/Machine/Capacity.lean ====
section
/-! DEFINITION. Present capacity (01 R14 to R32, R40): what the record counts, what a die can hold, the publication of a
generation with its notice (01 R28, R30, R36) and the test of chained grids that follows (03 R79). -/

namespace Sys2Proof.Machine

open Sys2Proof

/-- 2 GiB, the size of a channel (01 R20). -/
def channelBytes : Nat := 0x80000000

/-! ### Sites -/

/-- Compute sites and the sites of cache dies (01 Table 1.1). -/
def computeSites : List Nat := upto 0 18
def cacheSites : List Nat := upto 18 4

/-- A node takes part: active, or draining for a planned fence. -/
def Site.isActive (x : Site) : Bool := x.stat == .active || x.stat == .fencing

/-- Active compute dies. -/
def State.dies (s : State) : List Nat := computeSites.filter fun n => (s.site n).isActive

def State.modSite (s : State) (n : Nat) (f : Site → Site) : State := s.setSite n (f (s.site n))

/-- A bit of the readiness map (01 Table 1.6). -/
def State.rdy (s : State) (i : Nat) : Bool := s.rdymap.getLsbD i
def State.setRdy (s : State) (i : Nat) : State := { s with rdymap := s.rdymap ||| (1 : DWord) <<< i }
def State.clearRdy (s : State) (i : Nat) : State := { s with rdymap := s.rdymap &&& ~~~((1 : DWord) <<< i) }

/-- A die on which the Dibber may place: its site bit is set and no planned fence drains it (01 R16, R40, 03 R76). -/
def State.eligible (s : State) (n : Nat) : Bool := n < 18 && s.rdy n && (s.site n).stat == .active

/-- Cores in service, in ascending order, and those open to blocks: neither fallow nor about to be (23 R398). -/
def Site.inService (x : Site) : List Nat := (upto 0 32).filter fun c => !x.retiredCores.contains c
def Site.openCores (x : Site) : List Nat := x.inService.filter fun c => c != x.fallow && x.incoming != some c

/-! ### The record (01 Table 1.3, R20) -/

/-- Channels of a stack that carry traffic. -/
def State.channelsOf (s : State) (stack : Nat) : Nat :=
  if s.rdy (24 + stack) then 32 - (s.losses.filter fun l => l.ch / 32 == stack).length else 0

/-- The least of a list, 0 of none. -/
def least : List Nat → Nat
  | [] => 0
  | x :: r => r.foldl (fun m y => if y < m then y else m) x

def sumOf (xs : List Nat) : Nat := xs.foldl (· + ·) 0

/-- Usable L2 bytes of a die (01 Table 1.3, 23 R389). -/
def Site.l2 (x : Site) : Nat := (64 - x.banksL2.length) * 0x200000

/-- The record that the present configuration gives, under a generation. -/
def State.capNow (s : State) (gen : Word) : CapRec :=
  { gen := gen
    dies := s.dies.length
    cores := sumOf (s.dies.map fun n => (s.site n).inService.length - 1)
    clk := least (s.dies.map fun n => (s.site n).mhz)
    hbm := channelBytes * sumOf ((upto 0 12).map fun k => min 31 (s.channelsOf k))
    l3 := sumOf ((cacheSites.filter fun n => (s.site n).isActive).map fun n => (128 - (s.site n).banksL3.length) * 0x400000)
    hbmbw := 250 * sumOf ((upto 0 12).map s.channelsOf)
    l2d := least (s.dies.map fun n => (s.site n).l2) }

/-- The 64 bytes of a record (01 Table 1.3). -/
def CapRec.bytes (r : CapRec) : List Byte :=
  leBytes 4 r.gen.toNat ++ leBytes 4 r.dies ++ leBytes 4 r.cores ++ leBytes 4 r.clk ++ leBytes 8 r.hbm ++ leBytes 8 r.l3 ++
  leBytes 4 r.hbmbw ++ leBytes 4 r.l2d ++ leBytes 24 0

/-! ### What a core and a die hold (03 R56, Table 3.2) -/

def KHdr.threads (h : KHdr) : Nat := h.bx * h.by_ * h.bz
def KHdr.warps (h : KHdr) : Nat := (h.threads + 63) / 64
/-- Scratchpad in 1 KiB units. -/
def KHdr.scr (h : KHdr) : Nat := (h.scratch + 1023) / 1024
/-- The block has a tiller stream. -/
def KHdr.tiller (h : KHdr) : Bool := h.tentry != 0 || 0 < h.acc

/-- Blocks of a kernel that an empty core holds. -/
def KHdr.perCore (h : KHdr) : Nat :=
  let w := min 16 (32 / h.warps)
  let w := if h.scr = 0 then w else min w (640 / h.scr)
  if h.tiller then min w 1 else w

/-- Blocks of a kernel that a die holds with nothing else resident. -/
def State.dieHolds (s : State) (n : Nat) (h : KHdr) : Nat := ((s.site n).inService.length - 1) * h.perCore

/-- Refusal code 0x08: no active die could hold a whole group. -/
def State.groupFits (s : State) (h : KHdr) (gsize : Nat) : Bool := s.dies.any fun n => gsize ≤ s.dieHolds n h

/-- Refusal code 0x05: the part could not hold every block of a chained grid. -/
def State.chainFits (s : State) (h : KHdr) (n : Nat) : Bool := n ≤ sumOf (s.dies.map fun d => s.dieHolds d h)

/-- Blocks of a grid (03 R58). -/
def Grid.total (g : Grid) : Nat := g.gx * g.gy * g.gz

/-- Blocks that stand on a core: resident, or failing until their commands have drained (03 R61, R63). -/
def State.onCore (s : State) (site core : Nat) : List Nat :=
  (fkeys s.blocks).filter fun b => (s.blk b).onCore && (s.blk b).site == site && (s.blk b).core == core

/-- Blocks that stand on a die. -/
def State.onDie (s : State) (site : Nat) : List Nat := (fkeys s.blocks).filter fun b => (s.blk b).onCore && (s.blk b).site == site

/-- Every resource of Table 3.2 is free on a core for one more block of a kernel, beside the blocks given. -/
def State.fitsBeside (s : State) (bs : List Nat) (h : KHdr) : Bool :=
  let hs := bs.map fun b => (s.gridOf b).khdr
  bs.length < 16 && sumOf (hs.map KHdr.warps) + h.warps ≤ 32 && sumOf (hs.map KHdr.scr) + h.scr ≤ 640 &&
  !(h.tiller && hs.any KHdr.tiller) && sumOf (hs.map fun x => x.acc) + h.acc ≤ 8

def State.fits (s : State) (site core : Nat) (h : KHdr) : Bool :=
  (s.site site).openCores.contains core && s.fitsBeside (s.onCore site core) h

/-- Some core of a die has room. -/
def State.dieFits (s : State) (site : Nat) (h : KHdr) : Bool := (s.site site).openCores.any fun c => s.fitsBeside (s.onCore site c) h

/-! ### Notices (01 R30, R36, Table 1.4) -/

/-- The host's memory takes back a line: each half that the package holds modified is written out, and no package copy is left (11
R217). -/
def State.giveBack (s : State) (l : Nat) : State :=
  let s := (s.writeBack l fun _ => true).dropBad l fun _ => true
  { s.sendDirty l with bridge := fdel s.bridge l }

/-- The part writes host memory by PCIe: package copies give way (11 R217). -/
def State.hostPut (s : State) (h : Nat) (bytes : List Byte) : State :=
  let base := 0x8000000000000 + h
  let ls := linesOf base bytes.length
  let s := ls.foldl State.giveBack s
  let put (m : List Host.Cell) : List Host.Cell :=
    (bytes.foldl (fun (p : Nat × List Host.Cell) b => (p.1 + 1, fset memDefault p.2 p.1 b)) (base, m)).2
  if h + bytes.length ≤ 0x4000000000000 then
    ls.foldl State.witherLine { (s.writePoison home 0 base bytes.length false).putBytes 0 base bytes with hostMem := put s.hostMem }
  else { s with hostMem := put s.hostMem }

/-- The 32 bytes of a notice. -/
def noticeBytes (gen : Word) (kind site detail : Nat) (shrink : Nat) : List Byte :=
  leBytes 4 gen.toNat ++ leBytes 2 kind ++ leBytes 2 site ++ leBytes 4 detail ++ leBytes 4 (if shrink = 0 then 0 else 1) ++
  leBytes 8 shrink ++ leBytes 8 0

/-- `NREN` and `DNEN`. -/
def Bar2.nren (x : Bar2) : Bool := x.nrbase.getLsbD 0
def Bar2.dnen (x : Bar2) : Bool := x.dnbase.getLsbD 0

/-- The host notice ring receives a notice: the entry, `NRTAIL`, the message; a full ring drops it and sets `NROVF`. -/
def State.ringNotice (s : State) (bytes : List Byte) : State :=
  let r := s.bar2
  if !r.nren then s
  else if (r.nrtail - r.nrhead).toNat = 2 ^ r.nrsize then { s with bar2 := { r with nrstat := true } }
  else
    let s := s.hostPut (r.nrbase.toNat / 64 * 64 + 32 * (r.nrtail.toNat % 2 ^ r.nrsize)) bytes
    let s := { s with bar2 := { r with nrtail := r.nrtail + 1 } }
    if r.nrvec.getLsbD 11 then s.out (.msix (r.nrvec.toNat % 2048)) else s

/-- The device notice buffer receives the notice of a generation: the bytes from 0x04 first, then `GEN`. -/
def State.bufferNotice (s : State) (gen : Word) (bytes : List Byte) : State :=
  if !s.bar2.dnen then s
  else
    let a := s.bar2.dnbase.toNat % 2 ^ 52 / 4096 * 4096 + 32 * (gen.toNat % 128)
    (s.writeMem home 0 0 (a + 4) (bytes.drop 4) false).writeMem home 0 0 a (bytes.take 4) false

/-! ### Publication (01 R28) and the test of chained grids (03 R79) -/

/-- Blocks of a grid. -/
def State.blocksOf (s : State) (g : Nat) : List Nat := (fkeys s.blocks).filter fun b => (s.blk b).grid == g

/-- A chained grid that is admitted and not resident, and no longer fits, fails. -/
def State.retestChained (s : State) : State :=
  ((fkeys s.grids).filter fun g => (s.grid g).phase == .live && (s.grid g).chained &&
    !(s.blocksOf g).any (fun b => (s.blk b).onCore) &&
    !s.chainFits (s.grid g).khdr (s.grid g).total).foldl State.failGrid s

/-- Write the notice of a generation to its two places. -/
def State.notify (s : State) (gen : Word) (kind site detail shrink : Nat) : State :=
  let n := noticeBytes gen kind site detail shrink
  (s.ringNotice n).bufferNotice gen n

/-- The end of backed memory under a record: release ranges stay until their shrinks are acknowledged (01 R25, Table 1.2). -/
def State.backedTop (s : State) : Nat :=
  s.losses.foldl (fun m l => match l.shrink with
    | some r => if !l.acked && m < r.2 then r.2 else m
    | none => m) s.cap.hbm

/-- A capacity event takes effect: one new generation with its notice. Before the first record nothing is published (log 7). -/
def State.publish (s : State) (kind site detail shrink : Nat) : State :=
  if s.capLog then
    let gen := s.cap.gen + 1
    let s := { s with cap := s.capNow gen }
    ({ s with hbmTop := s.backedTop }.notify gen kind site detail shrink).retestChained
  else s

/-- The first record: generation 1, a notice of kind 9 (01 R40); from then on `CAP.HBM` bounds device memory, and the HDM range has that
extent (R34). -/
def State.publishFirst (s : State) : State :=
  let cap := s.capNow 1
  (({ s with cap := cap, capLog := true, hbmTop := cap.hbm, hdmTop := cap.hbm }).notify 1 9 22 0 0).retestChained

/-- `CLOCK` moves on; dies with resident blocks accumulate residency (01 R33, 21 R379). -/
def State.elapse (s : State) (n : Nat) : State :=
  { s with clock := s.clock + n
           sites := s.sites.map fun (x : Nat × Site) =>
             (x.1, { x.2 with resid := x.2.resid + n * (s.blocks.filter fun b => b.2.onCore && b.2.site == x.1).length }) }

/-- An event at a moment not before a deadline. -/
def State.reach (s : State) (t : Nat) : State := s.elapse (t - s.clock)

/-- Microseconds in reference cycles (01 R33). -/
def usec (n : Nat) : Nat := 1300 * n

end Sys2Proof.Machine
end

