-- ==== Sys2Proof/Machine/Priv.lean ====
section
/-! DEFINITION. Privileged instructions: `xrd`, `xwr`, `sret`, `hret`, `tlbinv` (19 R339 to R341, R348, R355, R356). -/

namespace Sys2Proof.Machine

open Sys2Proof

/-- The frame that `LVL` selects (05 R105). -/
def selLevel (lv : Level) : FrameSel → Level
  | .own => lv
  | .s => .s
  | .h => .h

/-- The level from which a register is read or written (05 Table 5.7). -/
def readFrom : PrivReg → Level
  | .xvmid | .xptb2 | .xresume | .xgwin | .xackto | .xhvec | .xgpart => .h
  | _ => .s

def writeFrom : PrivReg → Level
  | .xdeleg | .xshadow | .xkey => .h
  | r => readFrom r

/-- The value that `xrd` returns (19 Table 19.1). -/
def State.privVal (s : State) (l : Lane) (r : PrivReg) (lv : Level) : DWord :=
  let f := l.frame lv
  let asid := s.asidOf s.cur.blk
  let c := s.ctx asid
  let p := s.part c.part
  match r with
  | .xstatus => BitVec.ofNat 64 ((if f.nest then 1 else 0) + l.ncnt % 256 * 256)
  | .xepc => f.epc
  | .xcause => f.cause.zeroExtend 64
  | .xval => f.val
  | .xpi => f.pi.zeroExtend 64
  | .xprev => BitVec.ofNat 64 (f.plvl.toNat + f.ppri.toNat * 256)
  | .xvec => f.vecAddr
  | .xdeleg => c.xdeleg
  | .xtlanes => f.tlanes
  | .xage => c.xage.zeroExtend 64
  | .xshadow => if c.xshadow then 1 else 0
  | .xasid => c.xasid.zeroExtend 64
  | .xptb => BitVec.ofNat 64 (c.xptb.toNat * 2 ^ 14)
  | .xvmid => BitVec.ofNat 64 p.vmid
  | .xptb2 => BitVec.ofNat 64 (p.xptb2.toNat * 2 ^ 14)
  | .xkey => c.xkey.zeroExtend 64
  | .xresume => BitVec.ofNat 64 p.xresume
  | .xgwin => BitVec.ofNat 64 s.xgwin
  | .xackto => BitVec.ofNat 64 s.xackto
  | .xhvec => BitVec.ofNat 64 (p.xhvec.toNat * 2 ^ 12)
  | .xgpart => BitVec.ofNat 64 (s.xgsite + (s.site s.xgsite).gpart * 256)

/-- A write of a frame register; reserved and read-only fields are not written (00 R8, 19 R339). -/
def Frame.write (f : Frame) (r : PrivReg) (v : DWord) : Frame :=
  match r with
  | .xstatus => { f with nest := v.getLsbD 0 }
  | .xepc => { f with epc := v }
  | .xcause => { f with cause := v.extractLsb' 0 6 }
  | .xval => { f with val := v }
  | .xpi => { f with pi := v.extractLsb' 0 32 }
  | .xprev => { f with plvl := v.extractLsb' 0 2, ppri := v.extractLsb' 8 8 }
  | .xvec => { f with vec := v.extractLsb' 12 52 }
  | _ => f

/-- The level that an access to a register needs: that of the table and that of the frame named (05 R105). -/
def needLevel (base lv : Level) (sel : FrameSel) : Level := base.max (match sel with | .own => base | x => selLevel lv x)

/-- A value of one register or of a pair. -/
def privRegs (r : PrivReg) (d : Nat) (v : DWord) : List (Nat × RegVal) :=
  if r.regs = 2 then [(d, .clean (lo32 v)), (d + 1, .clean (hi32 v))] else [(d, .clean (lo32 v))]

def execXrd (g : Guard) (d : Nat) (r : PrivReg) (lvl : FrameSel) (s : State) : Res :=
  .next (s.privOp (needLevel (readFrom r) s.cur.level lvl) (grp d r.regs) g none fun s _ l =>
    (s, .regs (privRegs r d (s.privVal l r (selLevel l.level lvl)))))

/-- A lane's write of a context or partition register: those of one execution are one write, in which the highest lane's value wins
(00 R10, 19 R340). -/
def State.queueX (s : State) (i : Nat) (r : PrivReg) (v : DWord) : State :=
  let asid := s.asidOf s.cur.blk
  let new : XWrite := { blk := s.cur.blk, warp := s.cur.warp, lanes := [i], reg := r, val := v, asid := asid, part := (s.ctx asid).part, exec := s.steps }
  match s.xpend.getLast? with
  | some x =>
      if { x with lanes := new.lanes, val := new.val } = new then
        { s with xpend := s.xpend.dropLast ++ [{ x with lanes := x.lanes ++ [i], val := v }] }
      else { s with xpend := s.xpend ++ [new] }
  | none => { s with xpend := [new] }

/-- A frame register is written at once, for the lane's next instruction; a context or partition register at a moment of the
part's choice before the lane's next `fence.full.dev` completes (19 R340). -/
def execXwr (g : Guard) (a : Nat) (r : PrivReg) (lvl : FrameSel) (s : State) : Res :=
  .next (s.privOp (needLevel (writeFrom r) s.cur.level lvl) (grp a r.regs) g none fun s i l =>
    if l.sideAny a r.regs then (s, .trap 0x08 0)
    else
      let v : DWord := if r.regs = 2 then l.rd2 a else (l.rd a).zeroExtend 64
      if r.perLevel then
        let lv := selLevel l.level lvl
        (s.setCl i (l.setFrame lv ((l.frame lv).write r v)), .done)
      else (s.queueX i r v, .done))

/-- `sret` and `hret` at level lv: lanes return, each for itself, once no fence of theirs waits (15 R286); a return above the level raises
cause 0x01 (19 R348). -/
def State.retOp (s : State) (g : Guard) (lv : Level) : State :=
  let b := s.cur.blk
  let w := s.cur.warp
  let word := s.cur.word.zeroExtend 64
  let go (i : Nat) : Option Level := match levelOf ((s.cl i).frame lv).plvl.toNat with
    | some t => if lv.num < t.num then none else some t
    | none => none
  let act := s.cur.lanes.filter fun i => (s.cl i).guard g
  if act.any fun i => s.heldScratch b w i then s else
  let s1 := s.commitAns none ((s.cur.lanes.filter fun i => !(s.cl i).guard g).map fun i => (i, .done))
  let s2 := act.foldl (fun s i => match go i with
    | some t => s.trapReturn b w i lv t
    | none => s) s1
  (s2.raiseAll b w ((act.filter fun i => (go i).isNone).map fun i => s.raiseHere i 0x01 word)).settleWarp b w

/-- `sret`: cause 0x02 at U, 0x01 at H (05 R120, 19 R348). -/
def execSret (g : Guard) (s : State) : Res :=
  .next (if !s.laneOk [] [] then s.illegal else match s.cur.level with
    | .u => s.privileged
    | .s => s.retOp g .s
    | .h => s.illegal)

def execHret (g : Guard) (s : State) : Res :=
  .next (if !s.laneOk [] [] then s.illegal else if s.cur.level = .h then s.retOp g .h else s.privileged)

/-! ### tlbinv (19 R355, R356) -/

/-- The TLBs within a scope discard what a test covers; it is on record from then on (19 R354, R355). -/
def State.dropTlb (s : State) (site : Nat) (sc : TlbScope) (cov : Cover) (f1 : Tlb1 → Bool) (f2 : Tlb2 → Bool) : State :=
  let t := (if sc = .dev then upto 0 24 else [site]).foldl (fun s n =>
    let x := s.site n
    s.setSite n { x with tlb1 := x.tlb1.filter fun t => !f1 t, tlb2 := x.tlb2.filter fun t => !f2 t
                         invs := if cov = .all then [(cov, s.wcount)] else (cov, s.wcount) :: x.invs }) s
  if cov = .all && sc = .dev then { t with undo := [] } else t

/-- An accepted barrow command, or a copy that runs, holds a translation that satisfies a test (11 R232, 21 R410). -/
def State.cmdHolds (s : State) (f : PageMap → Bool) : Bool :=
  ((fkeys s.blocks).any fun b => (s.blk b).cmds.any fun c => c.pages.any f) ||
  s.ctxs.any fun c => c.2.tabs.any fun t => t.2.experts.any fun e => e.2.slots.any fun x => x.2.state == .copying && x.2.held.any f

/-- `tlbinv` of one lane: a release at device scope, the discard, and completion once no accepted command holds a covered
translation. -/
def State.tlbLane (s : State) (i : Nat) (sc : TlbScope) (cov : Cover) (f1 : Tlb1 → Bool) (f2 : Tlb2 → Bool) (fc : PageMap → Bool) :
    State × Ans :=
  let s := s.releaseLane s.cur.blk s.cur.warp i .dev
  let s := s.dropTlb (s.siteOf s.cur.blk) sc cov f1 f2
  if s.cmdHolds fc then (s, .stay) else (s, .done)

/-- A stage-1 translation of any page size holds a VA; a stage-2 one an IPA. -/
def Tlb1.holds (t : Tlb1) (va : Nat) : Bool := t.vpage * 65536 / t.size == va / t.size
def Tlb2.holds (t : Tlb2) (ipa : Nat) : Bool := t.ipage * 65536 / t.size == ipa / t.size

/-- The same of a translation that a command holds; at level H it holds none. -/
def PageMap.holds1 (p : PageMap) (va : Nat) : Bool := p.size1 != 0 && p.vpage * 65536 / p.size1 == va / p.size1
def PageMap.holds2 (p : PageMap) (ipa : Nat) : Bool :=
  match p.ipage with
  | some i => p.size2 != 0 && i * 65536 / p.size2 == ipa / p.size2
  | none => false

def execTlbinvVa (g : Guard) (a : Nat) (sc : TlbScope) (la : Nat) (s : State) : Res :=
  .next (s.privOp .s (grp a 2) g (some la) fun s i l =>
    if l.sideAny a 2 then (s, .trap 0x08 0)
    else
      let c := s.ctxOf s.cur.blk
      let va := (l.rd2 a).toNat % 2 ^ 56
      let vmid := s.vmidOf (s.asidOf s.cur.blk)
      let mine (x y : Nat) : Bool := x == c.xasid.toNat && y == vmid
      s.tlbLane i sc (.va c.xasid.toNat vmid va) (fun t => mine t.asid t.vmid && t.holds va) (fun _ => false)
        fun p => mine p.asid p.vmid && p.holds1 va)

def execTlbinvAsid (g : Guard) (a : Nat) (sc : TlbScope) (la : Nat) (s : State) : Res :=
  .next (s.privOp .s [a] g (some la) fun s i l =>
    let c := s.ctxOf s.cur.blk
    let asid := zv (l.rd a) % 65536
    if (l.rv a).side then (s, .trap 0x08 0)
    else if l.level = .s && asid != c.xasid.toNat then (s, .trap 0x02 (s.cur.word.zeroExtend 64))
    else s.tlbLane i sc (.asid asid) (fun t => t.asid == asid) (fun _ => false) fun p => p.size1 != 0 && p.asid == asid)

/-- Results of stage 1 go with the stage-2 translations: their tables may have been read through one of those. -/
def execTlbinvIpa (g : Guard) (a : Nat) (sc : TlbScope) (la : Nat) (s : State) : Res :=
  .next (s.privOp .h (grp a 2) g (some la) fun s i l =>
    if l.sideAny a 2 then (s, .trap 0x08 0)
    else
      let v := s.vmidOf (s.asidOf s.cur.blk)
      let ipa := (l.rd2 a).toNat
      s.tlbLane i sc (.ipa v ipa) (fun t => t.vmid == v) (fun t => t.vmid == v && t.holds ipa) fun p => p.vmid == v && p.holds2 ipa)

def execTlbinvVmid (g : Guard) (a : Nat) (sc : TlbScope) (la : Nat) (s : State) : Res :=
  .next (s.privOp .h [a] g (some la) fun s i l =>
    let v := zv (l.rd a) % 256
    if (l.rv a).side then (s, .trap 0x08 0)
    else s.tlbLane i sc (.vmid v) (fun t => t.vmid == v) (fun t => t.vmid == v) fun p => p.size1 != 0 && p.vmid == v)

def execTlbinvAll (g : Guard) (sc : TlbScope) (la : Nat) (s : State) : Res :=
  .next (s.privOp .h [] g (some la) fun s i _ => s.tlbLane i sc .all (fun _ => true) (fun _ => true) fun p => p.size1 != 0)

end Sys2Proof.Machine
end

