-- ==== Sys2Proof/Machine/Control.lean ====
section
/-! DEFINITION. Control flow of lanes and entries (13 R254 to R257), `sys` and `brk` (19 Table 19.3), `rep` (05 R113 to R117),
`mfs` (13 R269), tiller forks (13 R264, R265), and words that decode to nothing (05 R91). -/

namespace Sys2Proof.Machine

open Sys2Proof

/-- The target of a displacement, counted in words from the base word (13 R254). -/
def State.target {w : Nat} (s : State) (disp : BitVec w) : DWord := s.cur.pc + BitVec.ofInt 64 (4 * disp.toInt)

def execBra (g : Guard) (disp : BitVec 37) (s : State) : Res :=
  .next (s.laneOp [] [] g none fun _ => .jump Out1.none (s.target disp))

/-- The return address goes to `v126:v127` of the current bank (13 R254). -/
def execCall (g : Guard) (disp : BitVec 37) (s : State) : Res :=
  .next (s.laneOp [126, 127] [] g none fun _ =>
    .jump { Out1.none with regs := [(126, .clean (lo32 s.cur.next)), (127, .clean (hi32 s.cur.next))] } (s.target disp))

def execNop (g : Guard) (s : State) : Res := .next (s.laneOp [] [] g none fun _ => .done)

/-- A thread exits: frames, pending results and a held trap go, and its bit of `s56:s57` at S or H (13 Table 13.8). -/
def State.exitLane (s : State) (b w i : Nat) : State :=
  let wp := s.warp b w
  let lv := (wp.lane i).level
  let wp := if lv = .u then wp else wp.ws2 lv 56 (wp.rs2 lv 56 &&& ~~~((1 : DWord) <<< i))
  s.setWarp b w (wp.setLane i { Lane.empty with occ := .exited })

def execExit (g : Guard) (s : State) : Res :=
  .next (if s.laneOk [] [] then
    let act := s.cur.lanes.filter fun i => (s.cl i).guard g
    let s1 := s.commitAns none ((s.cur.lanes.filter fun i => !(s.cl i).guard g).map fun i => (i, .done))
    (act.foldl (fun s1 i => s1.exitLane s.cur.blk s.cur.warp i) s1).settleWarp s.cur.blk s.cur.warp
  else s.illegal)

/-- The lane issues no more for n reference cycles; it does not park (13 Table 13.8). -/
def execPause (g : Guard) (n : BitVec 16) (s : State) : Res :=
  .next (s.laneMem [] [] g none fun s i l => (s.setCl i { l with paused := s.clock + n.toNat }, .done))

/-- Control to the pair at `a` of each lane (13 R255). -/
def State.jumpPair (s : State) (g : Guard) (a : Nat) : State :=
  s.laneOp (grp a 2) [] g none fun l =>
    if l.sideAny a 2 then .trap 0x08 0
    else if (l.rd2 a).toNat % 4 != 0 then .trap 0x03 (l.rd2 a)
    else .jump Out1.none (l.rd2 a)

def execBrx (g : Guard) (a : Nat) (s : State) : Res := .next (s.jumpPair g a)
def execRet (g : Guard) (a : Nat) (s : State) : Res := .next (s.jumpPair g a)

def execBrk (g : Guard) (n : BitVec 16) (s : State) : Res :=
  .next (s.laneOp [] [] g none fun _ => .trap 0x0D (n.zeroExtend 64))

/-- `XEPC` of a system call is the next instruction (19 Table 19.3). -/
def execSys (g : Guard) (n : BitVec 12) (s : State) : Res :=
  .next (s.laneOp [] [] g none fun _ => .trapNext 0x0C (n.zeroExtend 64))

/-- The value of a status register (13 Table 13.12). -/
def State.statusVal (s : State) (i : Nat) (l : Lane) : StatusReg → DWord
  | .warpw => 64
  | .laneid => BitVec.ofNat 64 i
  | .clock => BitVec.ofNat 64 s.clock
  | .nsclk => BitVec.ofNat 64 s.nsclk
  | .capgen => s.cap.gen.zeroExtend 64
  | .priv => BitVec.ofNat 64 l.level.num
  | .gdepth => BitVec.ofNat 64 (s.gridOf s.cur.blk).depth
  | .gridh => (s.gridOf s.cur.blk).handle.zeroExtend 64
  | .rngs => l.rngs.zeroExtend 64
  | .flags => l.flags.zeroExtend 64

def execMfs (g : Guard) (d : Nat) (r : StatusReg) (s : State) : Res :=
  .next (s.laneOpI (grp d r.regs) [] g none fun i l =>
    let v := s.statusVal i l r
    if r.regs = 2 then .pair d v else .word d (lo32 v))

/-! ### rep (05 R113 to R117) -/

end Sys2Proof.Machine

namespace Sys2Proof

open Sys2Proof.Machine

/-- Bit 2 when the second source is a lane register. -/
def Src2.field : Src2 → Nat
  | .reg _ => 4
  | _ => 0

/-- The fields that hold lane register operands of an instruction that may be a body: bit 0 `D`, 1 `A`, 2 `B`, 3 `C`; none for one
that may not (05 R115). -/
def Instr.bodyFields : Instr → Option Nat
  | .add _ _ _ b _ | .sub _ _ _ b _ | .mul _ _ _ b _ | .and _ _ _ b | .or _ _ _ b | .xor _ _ _ b
  | .shl _ _ _ b | .shr _ _ _ b | .sar _ _ _ b | .min _ _ _ b | .max _ _ _ b | .sel _ _ _ b _ | .bfx _ _ _ b _
  | .lea _ _ _ b _ | .fadd _ _ _ b _ | .fsub _ _ _ b _ | .fmul _ _ _ b _ | .hadd2 _ _ _ b _ | .hsub2 _ _ _ b _
  | .hmul2 _ _ _ b _ => some (3 + b.field)
  | .mad _ _ _ b _ _ | .bfi _ _ _ b _ | .bsel _ _ _ b _ _ | .ffma _ _ _ b _ _ | .hfma2 _ _ _ b _ _ => some (11 + b.field)
  | .icmp _ _ _ b _ | .fcmp _ _ _ b _ => some (2 + b.field)
  | .movi _ _ _ => some 1
  | .addc _ _ _ _ _ _ | .subb _ _ _ _ _ _ | .mulh _ _ _ _ _ | .mulw _ _ _ _ _ | .minz _ _ _ _ | .maxz _ _ _ _ | .andn _ _ _ _
  | .add64 _ _ _ _ _ | .sub64 _ _ _ _ _ | .lea64 _ _ _ _ _ _ | .fmin _ _ _ _ | .fmax _ _ _ _ | .hmin2 _ _ _ _ _
  | .hmax2 _ _ _ _ _ | .hcmp2 _ _ _ _ _ _ => some 7
  | .rot _ _ _ (.reg _) => some 7
  | .rot _ _ _ (.imm _) => some 3
  | .neg _ _ _ _ | .abs _ _ _ _ | .not _ _ _ | .popc _ _ _ | .clz _ _ _ | .ctz _ _ _ | .brev _ _ _ | .mov _ _ _
  | .fclass _ _ _ | .fround _ _ _ _ | .frcp _ _ _ _ | .frsq _ _ _ _ | .fsqrt _ _ _ _ | .fexp2 _ _ _ _ | .flog2 _ _ _ _
  | .fsin _ _ _ _ | .fcos _ _ _ _ | .ftanh _ _ _ _ | .cvt _ _ _ _ _ _ _ _ => some 3
  | .idp4 _ _ _ _ _ _ _ _ | .idp8 _ _ _ _ _ _ _ _ | .hdp2 _ _ _ _ _ _ _ => some 15
  | .pack _ _ _ _ _ _ _ .none | .unpk _ _ _ _ .none => some 3
  | .pack _ _ _ _ _ _ _ (.sx _) | .unpk _ _ _ _ (.sx _) | .unpk _ _ _ _ (.se _) => some 7
  | .pack _ _ _ _ _ _ _ (.sa _ _) => some 15
  | .shfl _ _ _ _ _ (.reg _) _ _ _ _ _ => some 7
  | .shfl _ _ _ _ _ (.imm _) _ _ _ _ _ => some 3
  | .redux _ _ _ _ _ _ _ => some 2
  | .vscan _ _ _ _ _ _ _ _ _ | .vscanc _ _ _ _ _ _ _ _ _ _ | .matchLanes _ _ _ _ _ _ => some 3
  | .vote _ _ _ _ _ | .rpoll _ _ _ _ _ _ | .fence _ _ _ _ => some 0
  | .rsend _ _ _ _ _ => some 2
  | .rrecv _ _ _ _ _ => some 1
  | .ld _ _ _ _ _ _ _ _ _ | .lds _ _ _ _ _ _ | .ldg _ _ _ _ _ _ | .rndadv _ _ _ _ _ | .rndld _ _ _ _ _ => some 3
  | .st _ _ _ _ _ _ _ _ _ | .sts _ _ _ _ _ _ | .stg _ _ _ _ _ _ => some 6
  | .ldb _ _ _ _ (.rf _) _ _ => some 3
  | .ldb _ _ _ _ (.target _) _ _ => some 11
  | .atom _ _ _ _ _ op _ _ _ _ | .atoms _ _ _ _ _ op _ _ _ _ => some (if op = .cas then 15 else 7)
  | .red _ _ _ _ _ _ _ _ => some 6
  | .pf _ _ _ _ _ _ | .cinv _ _ _ _ _ | .cwb _ _ _ _ _ => some 2
  | .rndwait _ _ _ _ _ _ => some 11
  | .mfs _ _ _ => some 1
  | .route _ _ _ _ _ => some 3
  | .rdone _ _ _ => some 2
  | .reservedCell _ => some 0
  | _ => none

end Sys2Proof

namespace Sys2Proof.Machine

open Sys2Proof

/-- The fields of a body's words. -/
def bodyOf (ws : List Word) : Fields := fieldsOfWords ((ws[0]?.getD 0).toNat) ((ws[1]?.getD 0).toNat) ((ws[2]?.getD 0).toNat)

/-- The body of repetition j (05 R114); none when a field passes 127. -/
def stepBody (q : Fields) (j step : Nat) (fmask : BitVec 4) : Option Fields :=
  let up (k x : Nat) : Nat := if fmask.getLsbD k then x + j * step else x
  let q' := { q with d := up 0 q.d, a := up 1 q.a, b := up 2 q.b, c := up 3 q.c }
  if q'.d ≤ 127 && q'.a ≤ 127 && q'.b ≤ 127 && q'.c ≤ 127 then some q' else none

/-- The instruction of fields; fields that decode to nothing are a reserved cell with their base word. -/
def instrOf (q : Fields) : Instr :=
  match q.instr with
  | .ok i => i
  | .error _ => .reservedCell (BitVec.ofNat 32 (q.words.headD 0))

/-- 05 R115 forbids the sequence. -/
def repBad (n step : Nat) (fmask : BitVec 4) (q : Fields) : Bool :=
  q.uni || 0x3D ≤ q.op && q.op ≤ 0x3E || q.op == 0x38 || q.op == 0x3A || q.op == 0x36 || q.op == 0x37 || q.op == 0x39 ||
  (fmask.getLsbD 3 && !q.x) ||
  (match (instrOf q).bodyFields with
   | none => true
   | some m => (upto 0 4).any fun k => fmask.getLsbD k && m / 2 ^ k % 2 == 0) ||
  ((upto 0 n).any fun j => match stepBody q j step fmask with
    | none => true
    | some q' => match q'.instr with
      | .ok _ => false
      | .error _ => true)

/-- `rep` chooses the body of the repetition that the entry has reached; the step then runs it (05 R114 to R116). The sequence is checked
where no repetition has been performed: not when software has set `XPI` before one was (log 39). -/
def execRep (n step : Nat) (fmask : BitVec 4) (s : State) : Res :=
  .next (if !s.laneOk [] [] then s.illegal
    else
      let g := s.gridOf s.cur.blk
      let q := bodyOf s.cur.body
      if n ≤ s.cur.prog then
        s.cur.lanes.foldl (fun s i => s.setCl i (({ s.cl i with prog := 0 }).goto g s.cur.next)) s
      else if s.cur.prog = 0 && repBad n step fmask q then s.illegal
      else match stepBody q s.cur.prog step fmask with
        | none => s.illegal
        | some q' => { s with cur := { s.cur with rep := n, run := q'.words.map (BitVec.ofNat 32) } })

/-! ### Uniform control (13 R256) -/

/-- Go to a target in one step; a misaligned one raises cause 0x03 in every lane. -/
def State.ujump (s : State) (dst : DWord) (k : State → State) : State :=
  if dst.toNat % 4 != 0 then s.raiseEntry 0x03 dst else (k s).ugoto dst

def execUbra (g : Guard) (disp : BitVec 34) (s : State) : Res :=
  .next (s.uniOp [] g fun s => s.ujump (s.target disp) id)

def execUbrx (g : Guard) (a : Nat) (s : State) : Res :=
  .next (s.warpOp (grp a 2) g fun s => s.ujump (s.ur2 a) id)

/-- The return address goes to `s62:s63` of the current bank. -/
def execUcall (g : Guard) (disp : BitVec 34) (s : State) : Res :=
  .next (s.warpOp [62, 63] g fun s => s.ujump (s.target disp) fun s => s.uw2 62 s.cur.next)

def execUret (g : Guard) (a : Nat) (s : State) : Res :=
  .next (s.warpOp (grp a 2) g fun s => s.ujump (s.ur2 a) id)

/-! ### Tiller forks (13 R264, R265) -/

/-- The entry is not ready while the tiller runs. The fork is a block-scope release of the forking lanes; the run starts with the
warp's `s0` to `s15` (17 R303). -/
def execMxfork (g : Guard) (off : BitVec 18) (s : State) : Res :=
  let h := (s.gridOf s.cur.blk).khdr
  .next (s.warpOp [] g fun s =>
      if h.tentry = 0 then s.illegal
      else if (s.blk s.cur.blk).tiller.run then s
      else
        let s := s.cur.lanes.foldl (fun s i => s.releaseLane s.cur.blk s.cur.warp i .blk) s
        (s.modTiller s.cur.blk fun t =>
          { t with run := true, pc := h.tentry + BitVec.ofNat 64 (4 * off.toNat), wait := none, latch := none, scache := [], synced := s.wcount
                   s := (upto 0 16).foldl (fun m n => fset 0 m n (s.ur n)) t.s }).unext)

def execMxjoin (g : Guard) (s : State) : Res :=
  .next (s.warpOp [] g fun s => if (s.blk s.cur.blk).tiller.run then s else s.unext)

/-- A word that decodes to no instruction: cause 0x01 with the base word in every lane, whatever the guard (05 R91). -/
def execReservedCell (w : Word) (s : State) : Res := .next (s.raiseEntry 0x01 (w.zeroExtend 64))

end Sys2Proof.Machine
end

