-- ==== Sys2Proof/Machine/Work.lean ====
section
/-! DEFINITION. Work: `launch`, `gridgrow` and `capq` (13 R266 to R268, 03 R65, R66), launch ports (03 R67, R68), queue heads, their
validation and admission (03 R69 to R72). -/

namespace Sys2Proof.Machine

open Sys2Proof

/-! ### The part as an agent of a context at level S (03 R71, 21 R410) -/

/-- The site of the I/O die that serves as Dibber (01 R18). -/
def State.ioSite (s : State) : Nat := if s.io = .primary then 22 else 23

/-- Translate an access of the part; it needs no user permission. -/
def State.agentXlate (s : State) (asid : Nat) (kind : AccKind) (va : DWord) (n : Nat) :
    State × Option (List (Place × Nat × Nat)) :=
  match s.xlatePieces s.ioSite asid .s kind false va n with
  | (s, .error _) => (s, none)
  | (s, .ok ps) => (s, some ps)

/-- Split a read into pieces of at most 64 KiB pages: n bytes from an address of a context; none when a check fails or a sector is
poisoned. -/
def State.agentRead (s : State) (asid : Nat) (va : DWord) (n : Nat) : State × Option (List Byte) :=
  let first := va.toNat / 65536
  let pages := upto first ((va.toNat + n - 1) / 65536 + 1 - first)
  pages.foldl (fun (acc : State × Option (List Byte)) p =>
    match acc.2 with
    | none => acc
    | some bs =>
        let lo := max va.toNat (p * 65536)
        let hi := min (va.toNat + n) ((p + 1) * 65536)
        match acc.1.xlate acc.1.ioSite asid .s .load false (BitVec.ofNat 64 lo) with
        | (s, .error _) => (s, none)
        | (s, .ok pl) =>
            let s := s.touchRead s.ioSite asid pl.key pl.pa (hi - lo)
            if s.poisonAt pl.pa (hi - lo) then (s, none) else (s, some (bs ++ s.bytesAt pl.key pl.pa (hi - lo)))) (s, some [])

/-- Add 1 to a 64-bit counter of a context by a release at system scope; false when the add is impossible (03 R62, R71). -/
def State.counterAdd (s : State) (asid : Nat) (va : DWord) : State × Bool :=
  if va.toNat % 8 != 0 then (s, false)
  else match s.xlate s.ioSite asid .s .atomic false va with
    | (s, .error _) => (s, false)
    | (s, .ok pl) =>
        let s := s.touchRead home asid pl.key pl.pa 8
        if s.poisonAt pl.pa 8 then (s, false)
        else (s.writeMem home asid pl.key pl.pa (leBytes 8 ((leNat (s.bytesAt pl.key pl.pa 8) + 1) % 2 ^ 64)) false, true)

/-! ### Handles and records (03 R68 to R70, Table 3.4) -/

/-- Handles that grids and reserved launches of a context hold. -/
def State.handles (s : State) (asid : Nat) : List Word :=
  ((s.grids.filter fun g => g.2.asid == asid && g.2.phase == .live).map fun g => g.2.handle) ++
  (((s.ctx asid).devq.map fun q => q.2).flatten.map fun r => r.hres)

/-- A handle of the part's choice, nonzero and unique among the context's live grids (03 R70). -/
def State.newHandle (s : State) (asid : Nat) : State × Word :=
  let used := s.handles asid
  let c := Config.handle s.freeIx
  (s.tickFree,
   if c != 0 && !used.contains c then c
   else (((upto 1 (used.length + 1)).map (BitVec.ofNat 32)).find? fun x => !used.contains x).getD 1)

/-- A little-endian field of bytes. -/
def fieldOf (bs : List Byte) (off n : Nat) : Nat := leNat ((bs.drop off).take n)

/-- The record in 64 bytes. -/
def recordOf (bs : List Byte) : LaunchRec :=
  { hdr := BitVec.ofNat 64 (fieldOf bs 0 8)
    args := BitVec.ofNat 64 (fieldOf bs 8 8)
    gx := fieldOf bs 0x10 4
    gy := fieldOf bs 0x14 2
    gz := fieldOf bs 0x16 2
    gsize := fieldOf bs 0x18 1
    qpri := fieldOf bs 0x19 1
    lflags := BitVec.ofNat 8 (fieldOf bs 0x1A 1)
    rsv := BitVec.ofNat 8 (fieldOf bs 0x1B 1)
    ctx := fieldOf bs 0x1C 2
    msiv := fieldOf bs 0x1E 2
    waddr := BitVec.ofNat 64 (fieldOf bs 0x20 8)
    wval := BitVec.ofNat 64 (fieldOf bs 0x28 8)
    caddr := BitVec.ofNat 64 (fieldOf bs 0x30 8)
    handle := BitVec.ofNat 64 (fieldOf bs 0x38 8)
    parent := none
    hres := 0 }

/-! ### launch, gridgrow, capq -/

/-- A release at device scope by every lane of the entry (03 R64). -/
def State.releaseEntry (s : State) : State :=
  s.cur.lanes.foldl (fun s i => s.releaseLane s.cur.blk s.cur.warp i .dev) s

/-- Place a record in the context's queue of the child's effective priority: the code and the handle (03 R69). -/
def State.queueLaunch (s : State) (b : Nat) (bytes : List Byte) : State × Word × Word :=
  let g := s.gridOf b
  let r := recordOf bytes
  let q := min r.qpri g.pri
  let c := s.ctx g.asid
  if 4096 ≤ (fget [] c.devq q).length then (s, 1, 0)
  else
    let h := s.newHandle g.asid
    let r := { r with ctx := g.asid, parent := some (s.blk b).grid, hres := h.2 }
    (h.1.setCtx g.asid { c with devq := fput c.devq q (fget [] c.devq q ++ [r]) }, 0, h.2)

def execLaunch (g : Guard) (d a : Nat) (off : BitVec 16) (s : State) : Res :=
  .next (s.warpOp (grp d 2 ++ grp a 2) g fun s =>
    let va := s.uaddr a off
    if va.toNat % 64 != 0 then s.raiseEntry 0x03 va
    else s.globalEntry .load va 64 fun s ps =>
          if (s.gridOf s.cur.blk).depth = 9 then s.raiseEntry 0x0E 0
          else
            let r := s.releaseEntry.uloadPieces ps
            if r.2.2 then r.1.raiseEntry 0x08 0
            else
              let q := r.1.queueLaunch s.cur.blk r.2.1
              (((q.1.uw d q.2.1).uw (d + 1) q.2.2).lateU [d, d + 1]).unext)

/-- One growth (03 R65): the old `GX` and whether the grid grew. -/
def Grid.grow (g : Grid) (n : Nat) : Grid × Nat × Bool :=
  let ok := g.gy == 1 && g.gz == 1 && !g.chained && n % g.gsize == 0 && g.gx + n ≤ 0xFFFFFFFF
  (if ok then { g with gx := g.gx + n } else g, g.gx, ok)

def execGridgrow (g : Guard) (qp d a : Nat) (s : State) : Res :=
  .next (s.warpOp [d, a] g fun s =>
    let s := s.releaseEntry
    let r := (s.gridOf s.cur.blk).grow (zv (s.ur a))
    let s := s.setGrid (s.blk s.cur.blk).grid r.1
    ((s.uw d (BitVec.ofNat 32 r.2.1)).uwq qp r.2.2).unext)

/-- Stores of 16 bytes each that an entry makes in order (13 R268, 21 R384). -/
def State.storeChunks (s : State) (bytes : List Byte) (ps : List (Place × Nat × Nat)) (n : Nat) : State :=
  (upto 0 n).foldl (fun s k => s.ustorePieces bytes (ps.map fun p => ({ p.1 with pa := p.1.pa + 16 * k }, 16 * k, 16))) s

def execCapq (g : Guard) (a : Nat) (off : BitVec 16) (s : State) : Res :=
  .next (s.warpOp (grp a 2) g fun s =>
    let va := s.uaddr a off
    if va.toNat % 64 != 0 then s.raiseEntry 0x03 va
    else s.globalEntry .store va 64 fun s ps => (s.storeChunks s.cap.bytes ps 4).unext)

/-! ### Launch ports (03 R68) -/

/-- A refusal of a host record. -/
def State.refuseHost (s : State) (p code : Nat) : State :=
  s.setPort p { s.port p with refcnt := (s.port p).refcnt + 1, lastcode := code }

/-- A write to the record window of a port's page of a function; form 0 is the deferrable write of 64 bytes at offset 0. In Cold
Frame the write is discarded (01 R38); a port that another function owns has no effect (01 R36). -/
def execLaunchRecordWrite (vf port form : Nat) (bytes : List Byte) (s : State) : Res :=
  .next (
    let x := s.port port
    if s.phase = .coldFrame then s
    else if 64 ≤ port then s
    else if vf != 0 && fget 0 s.bar2.portvf port != vf then s.out .successful
    else if !s.rdy 52 || s.io == .changeover || 256 ≤ x.q.length then s.out .retry
    else if !x.enable then (s.refuseHost port 0x06).out .successful
    else if form != 0 || bytes.length != 64 then (s.refuseHost port 0x07).out .successful
    else (s.setPort port { x with q := x.q ++ [recordOf bytes] }).out .successful)

/-! ### Validation (03 R70, R71, Table 3.5, Table 3.6) -/

/-- The header in 128 bytes: the fields, `PMAP`, `RLIST`, `RCOUNT`, `PCOUNT`, `KFLAGS`, and whether every field lies in its range
(03 Table 3.6). -/
def headerOf (bs : List Byte) : KHdr × DWord × DWord × Nat × Nat × Nat × Bool :=
  let f := fieldOf bs
  let h : KHdr :=
    { entry := BitVec.ofNat 64 (f 0 8), tentry := BitVec.ofNat 64 (f 8 8), dprio := f 0x23 1, bx := f 0x24 2, by_ := f 0x26 2
      bz := f 0x28 2, lregs := f 0x2A 1, uregs := f 0x2B 1, scratch := f 0x2C 4, acc := f 0x30 1, bars := f 0x31 1
      gmax := f 0x32 1, preload := BitVec.ofNat 12 (f 0x34 2) }
  let kf := f 0x33 1
  let rc := f 0x20 2
  let pc := f 0x22 1
  let pmap : DWord := BitVec.ofNat 64 (f 0x10 8)
  let rlist : DWord := BitVec.ofNat 64 (f 0x18 8)
  let within (lo hi x : Nat) : Bool := lo ≤ x && x ≤ hi
  let ok := canonical h.entry && h.entry.toNat % 4 == 0 && (h.tentry == 0 || (canonical h.tentry && h.tentry.toNat % 4 == 0)) &&
    pmap.toNat % 16 == 0 && (pmap != 0 || pc == 0) && (rlist != 0 || rc == 0) && rc ≤ 4096 && pc ≤ 64 && h.dprio ≤ 254 &&
    within 1 1024 h.bx && within 1 1024 h.by_ && within 1 64 h.bz && h.threads ≤ 1024 &&
    within 8 128 h.lregs && h.lregs % 8 == 0 && within 8 64 h.uregs && h.uregs % 8 == 0 && h.scratch ≤ 655360 && h.acc ≤ 8 &&
    h.bars ≤ 32 && within 1 16 h.gmax && kf / 4 == 0 && f 0x34 2 / 4096 == 0 && f 0x36 2 == 1 &&
    (bs.drop 0x38).all (· == 0) && !(h.preload.getLsbD 11 && h.uregs ≤ 8)
  (h, pmap, rlist, rc, pc, kf, ok)

/-- A priority map entry in 16 bytes, when it is valid (03 Table 3.1). -/
def mapEntryOf (bs : List Byte) : Option MapEntry :=
  let base := fieldOf bs 0 8
  let len := fieldOf bs 8 4
  let pri := fieldOf bs 12 1
  if base % 4 == 0 && len % 4 == 0 && 4 ≤ len && pri ≤ 254 && fieldOf bs 13 3 == 0 then
    some { base := BitVec.ofNat 64 base, len := len, pri := pri }
  else none

/-- All of a list, or none. -/
def allSome {α : Type} : List (Option α) → Option (List α)
  | [] => some []
  | none :: _ => none
  | some x :: r => (allSome r).map (x :: ·)

/-- The priority map (03 R46). -/
def State.readMap (s : State) (asid : Nat) (pmap : DWord) (n : Nat) : State × Option (List MapEntry) :=
  if n = 0 then (s, some [])
  else match s.agentRead asid pmap (16 * n) with
    | (s, none) => (s, none)
    | (s, some bs) => (s, allSome ((upto 0 n).map fun k => mapEntryOf ((bs.drop (16 * k)).take 16)))

/-- Every id of the region list names a region of the context. -/
def State.regionsKnown (s : State) (asid : Nat) (rlist : DWord) (n : Nat) : State × Bool :=
  if n = 0 then (s, true)
  else match s.agentRead asid rlist (4 * n) with
    | (s, none) => (s, false)
    | (s, some bs) =>
        (s, (upto 0 n).all fun k =>
          let id : Word := BitVec.ofNat 32 (fieldOf bs (4 * k) 4)
          id != 0 && (s.ctx asid).regions.any fun r => r.2.id == id)

abbrev LaunchRec.chainedF (r : LaunchRec) : Bool := r.lflags.getLsbD 0
abbrev LaunchRec.replayF (r : LaunchRec) : Bool := r.lflags.getLsbD 1
abbrev LaunchRec.affineF (r : LaunchRec) : Bool := r.lflags.getLsbD 2
abbrev LaunchRec.waitF (r : LaunchRec) : Bool := r.lflags.getLsbD 3
abbrev LaunchRec.msixF (r : LaunchRec) : Bool := r.lflags.getLsbD 4

/-- Code 0x04; the header's `KFLAGS` when it was read. -/
def LaunchRec.badFlags (r : LaunchRec) (kf : Option Nat) : Bool :=
  r.lflags.toNat / 32 != 0 || (r.chainedF && (r.replayF || r.affineF || 1 < r.gsize)) || r.rsv != 0 || 3 < r.qpri ||
  (r.msixF && 2047 < r.msiv) || (r.handle != 0 && !r.affineF) ||
  (match kf with
   | none => false
   | some k => r.chainedF != (k % 2 == 1) || (r.replayF && k / 2 % 2 == 0))

/-- Code 0x03. -/
def LaunchRec.badDims (r : LaunchRec) (gmax : Nat) : Bool :=
  let n := r.gx * r.gy * r.gz
  n == 0 || r.gsize == 0 || 0xFFFFFFFF < n || n % r.gsize != 0 || gmax < r.gsize

/-- Code 0x0A: a completion counter that fails a check of 03 R71. -/
def State.badCounter (s : State) (asid : Nat) (va : DWord) : State × Bool :=
  if va = 0 then (s, false)
  else if va.toNat % 8 != 0 then (s, true)
  else match s.xlate s.ioSite asid .s .atomic false va with
    | (s, .error _) => (s, true)
    | (s, .ok _) => (s, false)

/-- Checks 0x04 to 0x0A in the order of Table 3.5: the header and map of a record that passes. -/
def State.validate (s : State) (r : LaunchRec) : State × Except Nat (KHdr × List MapEntry) :=
  let hb := if r.hdr.toNat % 128 != 0 then (s, none) else s.agentRead r.ctx r.hdr 128
  match hb with
  | (s, none) => (s, .error (if r.badFlags none then 0x04 else 0x02))
  | (s, some bs) =>
      match headerOf bs with
      | (h, pmap, rlist, rc, pc, kf, ok) =>
          if r.badFlags (some kf) then (s, .error 0x04)
          else if !ok then (s, .error 0x02)
          else match s.readMap r.ctx pmap pc with
            | (s, none) => (s, .error 0x02)
            | (s, some m) =>
                match s.regionsKnown r.ctx rlist rc with
                | (s, false) => (s, .error 0x02)
                | (s, true) =>
                    if r.badDims h.gmax then (s, .error 0x03)
                    else if !s.groupFits h r.gsize then (s, .error 0x08)
                    else if r.chainedF && !s.chainFits h (r.gx * r.gy * r.gz) then (s, .error 0x05)
                    else match s.badCounter r.ctx r.caddr with
                      | (s, true) => (s, .error 0x0A)
                      | (s, false) => (s, .ok (h, m))

/-! ### Replica references (21 R374, R375) -/

/-- The parts of a replica handle (21 Table 21.3): table, expert, slot, version. -/
def handleParts (lo hi : Word) : Nat × Nat × Nat × Word :=
  (lo.toNat / 2 ^ 16 % 4, lo.toNat / 16 % 4096, lo.toNat % 16, hi)

/-- A handle holds a slot (21 R374). -/
def Slot.holds (x : Slot) (v : Word) : Bool := v != 0 && reached v x.sver

/-- The slot on which a replica-affine grid takes a reference at admission. -/
def Ctx.affineSlot (c : Ctx) (handle : DWord) : Option (Nat × Nat × Nat) :=
  match handleParts (lo32 handle) (hi32 handle) with
  | (t, e, i, v) =>
      let x := ((c.tab t).expert e).slot i
      if (c.tab t).bound && e < (c.tab t).nexp && 1 ≤ i && x.holds v && (x.state == .live || x.state == .draining) then some (t, e, i)
      else none

def Ctx.modSlot (c : Ctx) (t e i : Nat) (f : Slot → Slot) : Ctx :=
  let tab := c.tab t
  let x := tab.expert e
  c.setTab t (tab.setExpert e (x.setSlot i (f (x.slot i))))

def State.takeAffine (s : State) (asid : Nat) (handle : DWord) : State × Option (Nat × Nat × Nat) :=
  match (s.ctx asid).affineSlot handle with
  | some (t, e, i) => (s.setCtx asid ((s.ctx asid).modSlot t e i fun x => { x with ref := x.ref + 1 }), some (t, e, i))
  | none => (s, none)

/-! ### Admission and refusal -/

/-- Admit a record: the grid with its handle, its blocks pending (03 R70). -/
def State.openGrid (s : State) (port : Option Nat) (r : LaunchRec) (h : KHdr) (m : List MapEntry) : State :=
  let hd := match port with
    | some _ => s.newHandle r.ctx
    | none => (s, r.hres)
  let s := hd.1
  let af := if r.affineF then s.takeAffine r.ctx r.handle else (s, none)
  let s := af.1
  let g : Grid :=
    { Grid.absent with
      asid := r.ctx, handle := hd.2, khdr := h, pmap := m, gx := r.gx, gy := r.gy, gz := r.gz, gsize := r.gsize
      pri := match port, r.parent with
        | some p, _ => min r.qpri (s.port p).pcap
        | none, some p => min r.qpri (s.grid p).pri
        | none, none => r.qpri
      chained := r.chainedF, replay := r.replayF, affine := af.2
      msix := if r.msixF then some r.msiv else none
      caddr := r.caddr, args := r.args
      depth := match r.parent with
        | some p => (s.grid p).depth + 1
        | none => 0
      parent := r.parent, phase := .live }
  { s.setGrid s.nextGrid g with nextGrid := s.nextGrid + 1 }

/-- A refused record: counted at its port, or a grid that fails with its tree (03 R63, R70). -/
def State.refuse (s : State) (port : Option Nat) (r : LaunchRec) (code : Nat) : State :=
  match port with
  | some p => s.refuseHost p code
  | none => match r.parent with
    | some p => s.failGrid p
    | none => s

/-! ### Queue heads (03 R70, R76) -/

/-- Queues by number: 0 to 63 the launch ports, 64 + 4 × ASID + priority the device queues of a context. -/
def queuePort (q : Nat) : Option Nat := if q < 64 then some q else none

def State.queue (s : State) (q : Nat) : List LaunchRec :=
  match queuePort q with
  | some p => (s.port p).q
  | none => fget [] (s.ctx ((q - 64) / 4)).devq ((q - 64) % 4)

def State.setQueue (s : State) (q : Nat) (rs : List LaunchRec) : State :=
  match queuePort q with
  | some p => s.setPort p { s.port p with q := rs }
  | none =>
      let a := (q - 64) / 4
      s.setCtx a { s.ctx a with devq := fset [] (s.ctx a).devq ((q - 64) % 4) rs }

/-- The wait condition of a head (03 R70, R71): met, unmet, or a counter that fails a check. -/
def State.waitMet (s : State) (r : LaunchRec) : State × Except Unit Bool :=
  if !r.waitF then (s, .ok true)
  else if r.waddr.toNat % 8 != 0 then (s, .error ())
  else match s.agentRead r.ctx r.waddr 8 with
    | (s, none) => (s, .error ())
    | (s, some bs) => (s, .ok (r.wval.toNat ≤ leNat bs))

/-- Code 0x06 at the head: the port's checks, and the context's descriptor. -/
def State.badPort (s : State) (port : Option Nat) (r : LaunchRec) : Bool :=
  (match port with
   | some p => !(s.port p).enable || r.ctx != (s.port p).asid
   | none => false) || !(s.ctx r.ctx).bound

/-- The Dibber examines the head of a queue. A record whose ASID has no context has no counter to wait on: it is refused at once
(log 15). -/
def State.takeHead (s : State) (q : Nat) : State :=
  match s.queue q with
  | [] => s
  | r :: rest =>
      let port := queuePort q
      if !(s.ctx r.ctx).bound then (s.setQueue q rest).refuse port r 0x06
      else match s.waitMet r with
        | (s, .error _) => (s.setQueue q rest).refuse port r 0x09
        | (s, .ok false) => s
        | (s, .ok true) =>
            let s := s.setQueue q rest
            if s.badPort port r then s.refuse port r 0x06
            else match s.validate r with
              | (s, .error code) => s.refuse port r code
              | (s, .ok (h, m)) => s.openGrid port r h m

/-! ### The pass over the queues (03 R76) -/

/-- Every queue that holds a record. -/
def State.queues (s : State) : List Nat :=
  ((fkeys s.ports).filter fun p => p < 64 && (s.port p).q != []) ++
  (s.ctxs.map fun c => (c.2.devq.filter fun q => q.1 < 4 && q.2 != []).map fun q => 64 + 4 * c.1 + q.1).flatten

/-- The level of a queue: its priority, or that of the record at the head of a launch port. -/
def State.queueLevel (s : State) (q : Nat) : Option Nat :=
  match s.queue q with
  | [] => none
  | r :: _ => some (match queuePort q with
    | some p => min r.qpri (s.port p).pcap
    | none => (q - 64) % 4)

/-- Queues of the present level that have not had their visit in the pass. -/
def State.dueQueues (s : State) : List Nat := s.queues.filter fun x => s.queueLevel x == some s.dlevel && !s.visited.contains x

/-- The Dibber comes to a queue: every other queue of its level has its one visit in the pass, in any order (log 61), before the next
level, from 3 down to 0. None while another queue is to be visited first, or when the pass does not come to it any more. -/
def State.passTo (q : Nat) : Nat → State → Option State
  | 0, _ => none
  | n + 1, s =>
      if s.dueQueues.contains q then some { s with visited := q :: s.visited }
      else if s.dueQueues != [] || s.dlevel = 0 then none
      else State.passTo q n { s with dlevel := s.dlevel - 1 }

/-- No queue is left to visit in the pass. -/
def State.passOver (s : State) : Bool :=
  (upto 0 (s.dlevel + 1)).all fun l => ({ s with dlevel := l } : State).dueQueues == []

/-- The Dibber works: its bit is set and no changeover is in progress (01 R18, R40). Its accesses wait while a home recovers a line
(23 R401, R402, log 28). -/
def State.dibberUp (s : State) : Bool := s.phase == .up && s.rdy 52 && s.io != .changeover && s.suspects == []

end Sys2Proof.Machine
end

