-- ==== Sys2Proof/Machine/Place.lean ====
section
/-! DEFINITION. Placement by the Dibber: which block a die takes next (03 R76 to R81, R83, R87), the start of a block (03 R73 to R75),
its retirement and the completion of grids (03 R61, R62). -/

namespace Sys2Proof.Machine

open Sys2Proof

/-! ### Where a block may go -/

/-- The die on which another member of a block's group is resident (03 R58, R83). -/
def State.groupDie (s : State) (g lin : Nat) : Option Nat :=
  let n := (s.grid g).gsize
  ((s.blocksOf g).find? fun b => (s.blk b).onCore && (s.blk b).lin != lin && (s.blk b).lin / n == lin / n).map fun b => (s.blk b).site

/-- The die of a group that has started: where a member is resident, else where one started or resumed last, until that die is fenced
(03 R77, 23 R397). -/
def State.groupHome (s : State) (g lin : Nat) : Option Nat :=
  match s.groupDie g lin with
  | some d => some d
  | none => match fget none (s.grid g).gsite (lin / (s.grid g).gsize) with
    | some d => if (s.site d).isActive then some d else none
    | none => none

/-- The die of the slot that a replica-affine grid holds, until the slot is removed (03 R80, 21 R375). -/
def State.affineDie (s : State) (g : Nat) : Option Nat :=
  match (s.grid g).affine with
  | none => none
  | some (t, e, i) =>
      let x := (((s.ctx (s.grid g).asid).tab t).expert e).slot i
      if x.state == .live || x.state == .draining || x.state == .copying then some x.site else none

/-- 03 R83: a preempted block may resume on a die. -/
def State.mayResume (s : State) (b site : Nat) : Bool :=
  let k := s.blk b
  s.eligible site && (s.ctxOf b).sched &&
  (match s.groupDie k.grid k.lin with
   | some d => d == site
   | none => true) &&
  (if s.holding b && k.hold != [] then k.site == site else true) &&
  (match s.affineDie k.grid with
   | some d => d == site
   | none => true)

/-- Cores of a die with nothing resident. -/
def State.freeCores (s : State) (site : Nat) : Nat := ((s.site site).openCores.filter fun c => s.onCore site c == []).length

/-- 03 R77: of the dies that satisfy a test, one with the most free cores. -/
def State.mostFree (s : State) (can : Nat → Bool) (site : Nat) : Bool :=
  can site && computeSites.all fun d => !can d || s.freeCores d ≤ s.freeCores site

/-- Cores of a die on which a relaunched block may start: not the core that failed it (03 R81). -/
def State.relaunchCores (s : State) (b site : Nat) : List Nat :=
  (s.site site).openCores.filter fun c => s.fitsBeside (s.onCore site c) (s.gridOf b).khdr && !(site == (s.blk b).site && c == (s.blk b).core)

/-- A die on which a relaunch may start: that of its slot (03 R80); of its group, or for a group that a fence has left without one, a
die by R77 (23 R397); else another than the failed one when one can hold it (R81). -/
def State.mayRelaunchOn (s : State) (b site : Nat) : Bool :=
  let k := s.blk b
  let g := s.gridOf b
  let can (d : Nat) : Bool := s.eligible d && s.relaunchCores b d != []
  can site &&
  (match s.affineDie k.grid with
   | some a => a == site
   | none =>
      if 1 < g.gsize then
        match s.groupHome k.grid k.lin with
        | some d => d == site
        | none => s.mostFree (fun d => can d && g.gsize ≤ s.dieHolds d g.khdr) site
      else site != k.site || !(computeSites.any fun d => d != k.site && s.eligible d && s.dieFits d g.khdr))

/-- The die of a group that has started and has members still to start (03 R77). -/
def State.openGroup (s : State) (g : Nat) : Option Nat :=
  let x := s.grid g
  if x.next % x.gsize = 0 || x.total ≤ x.next then none else s.groupHome g x.next

/-- A die on which a group may open: it could hold the whole group and its first member fits; that of the grid's slot, or by R77
(03 R77, R80). -/
def State.mayOpen (s : State) (g site : Nat) : Bool :=
  let x := s.grid g
  let can (d : Nat) : Bool := s.eligible d && x.gsize ≤ s.dieHolds d x.khdr && s.dieFits d x.khdr
  match s.affineDie g with
  | some a => a == site && can site
  | none => s.mostFree can site

/-! ### Seats of a chained grid (03 R78) -/

/-- Blocks of a kernel that a core takes beside those on it. -/
def State.roomOn (s : State) (h : KHdr) (c : Nat × Nat) : Nat :=
  let here := (s.onCore c.1 c.2).map fun b => (s.gridOf b).khdr
  let more (k : Nat) : Bool :=
    here.length + k < 16 && sumOf (here.map KHdr.warps) + (k + 1) * h.warps ≤ 32 && sumOf (here.map KHdr.scr) + (k + 1) * h.scr ≤ 640 &&
    !(h.tiller && (0 < k || here.any KHdr.tiller)) && sumOf (here.map fun x => x.acc) + (k + 1) * h.acc ≤ 8
  ((upto 0 16).takeWhile more).length

/-- Seats on a die for blocks of a kernel: round its ring from a core, each core once a lap, so that neighbours lie on adjacent cores
where they can. -/
def State.dieSeats (s : State) (h : KHdr) (d core : Nat) : List (Nat × Nat) :=
  let cs := (s.site d).openCores
  let ring := ((cs.filter (core ≤ ·)) ++ cs.filter (· < core)).map fun c => ((d, c), s.roomOn h (d, c))
  ((upto 0 16).map fun k => (ring.filter fun x => k < x.2).map (·.1)).flatten

/-- Seats for n blocks of a kernel on dies that satisfy a test, from a core of a die on; none when they do not all fit. -/
def State.seats (s : State) (ok : Nat → Bool) (h : KHdr) (n site core : Nat) : Option (List (Nat × Nat)) :=
  let ds := computeSites.filter fun d => s.eligible d && ok d
  let xs := (((ds.filter (site ≤ ·)) ++ ds.filter (· < site)).map fun d => s.dieSeats h d (if d = site then core else 0)).flatten
  if n ≤ xs.length then some (xs.take n) else none

/-- Blocks of a chained grid that wait to start or resume. -/
def State.chainWaits (s : State) (g : Nat) : Nat :=
  if (s.grid g).next = 0 then (s.grid g).total else ((s.blocksOf g).filter fun b => (s.blk b).phase == .preempted).length

/-- A chained grid may be placed whole from a die, on dies that satisfy a test. -/
def State.chainPlaces (s : State) (ok : Nat → Bool) (g d : Nat) : Bool :=
  (s.ctx (s.grid g).asid).sched && ok d && s.dieFits d (s.grid g).khdr && !((s.blocksOf g).any fun b => (s.blk b).onCore) &&
  (s.seats ok (s.grid g).khdr (s.chainWaits g) d 0).isSome

/-! ### next_block (03 R76) -/

/-- Time that a preempted block has waited (03 R85). -/
def State.waitedFor (s : State) (b : Nat) : Nat :=
  (s.blk b).waited + (if (s.ctxOf b).sched then s.clock - (s.blk b).since else 0)

/-- A preempted block has waited `RESUME_MAX`, as it stood when the count began (19 R341). -/
def State.overdue (s : State) (b : Nat) : Bool := (s.blk b).phase == .preempted && usec (s.blk b).limit ≤ s.waitedFor b

def State.preempted (s : State) : List Nat := (fkeys s.blocks).filter fun b => (s.blk b).phase == .preempted

/-- What a die takes next. -/
inductive Pick where
  | relaunch (b : Nat)
  | resume (b : Nat)
  | start (g : Nat)
  /-- A chained grid, whole. -/
  | chain (g : Nat)
  deriving DecidableEq, Repr

/-- Step 1. -/
def State.pick1 (s : State) (d : Nat) : List Pick :=
  ((fkeys s.blocks).filter fun b => (s.blk b).phase == .relaunch && s.mayRelaunchOn b d).map .relaunch

/-- A waiting preempted block may resume on a die now; one of a chained grid with the whole grid. -/
def State.waitFits (s : State) (b d : Nat) : Bool :=
  if (s.gridOf b).chained then s.chainPlaces (fun d => s.pick1 d == []) (s.blk b).grid d
  else s.mayResume b d && s.dieFits d (s.gridOf b).khdr

/-- Step 1a: the longest-waiting first. -/
def State.pick1a (s : State) (d : Nat) : List Pick :=
  let bs := s.preempted.filter fun b => s.overdue b && s.waitFits b d
  (bs.filter fun b => bs.all fun x => s.waitedFor x ≤ s.waitedFor b).map fun b =>
    if (s.gridOf b).chained then .chain (s.blk b).grid else .resume b

/-- Grids with an open group on a die. -/
def State.openOn (s : State) (d : Nat) : List Nat :=
  (fkeys s.grids).filter fun g => (s.grid g).phase == .live && !(s.grid g).chained && s.openGroup g == some d

/-- A die has nothing to take before step 3. -/
def State.clear3 (s : State) (d : Nat) : Bool := s.pick1 d == [] && s.pick1a d == [] && s.openOn d == []

/-- Pending grids by effective priority, then admission (grids are numbered as admitted). -/
def State.pendingGrids (s : State) : List Nat :=
  let gs := (fkeys s.grids).filter fun g => (s.grid g).phase == .live && (s.ctx (s.grid g).asid).sched &&
    ((s.grid g).next < (s.grid g).total || (s.blocksOf g).any fun b => (s.blk b).phase == .preempted)
  ([3, 2, 1, 0].map fun p => gs.filter fun g => (s.grid g).pri == p).flatten

/-- The next block of a grid that a die may take in step 3, one of several preempted ones (03 R80, R87, log 61). -/
def State.pickOf (s : State) (d g : Nat) : List Pick :=
  let x := s.grid g
  match (s.blocksOf g).filter fun b => (s.blk b).phase == .preempted && s.mayResume b d with
  | [] => if x.next < x.total && (s.openGroup g).isNone && s.mayOpen g d then [.start g] else []
  | bs => if s.dieFits d x.khdr then bs.map .resume else []

/-- Step 3: the first grid that the die can take; a chained grid that stands first and does not fit holds the die idle (03 R78). -/
def State.pick3 (s : State) (d : Nat) : Bool → List Nat → List Pick
  | _, [] => []
  | first, g :: r =>
      if (s.grid g).chained then
        if s.chainPlaces s.clear3 g d then [.chain g] else if first then [] else State.pick3 s d false r
      else match s.pickOf d g with
        | [] => State.pick3 s d false r
        | ps => ps

/-- The blocks of which a die takes one now; more than one where the part may choose. -/
def State.nextBlocks (s : State) (d : Nat) : List Pick :=
  if s.pick1 d != [] then s.pick1 d
  else if s.pick1a d != [] then s.pick1a d
  else if s.openOn d != [] then ((s.openOn d).filter fun g => s.dieFits d (s.grid g).khdr).map .start
  else s.pick3 d true s.pendingGrids

/-! ### The Dibber's cycle (03 R76) -/

/-- A die is done with in the loop over the dies: it takes nothing more. -/
def State.dieDone (s : State) (d : Nat) : Bool := !s.eligible d || s.nextBlocks d == []

/-- The Dibber comes to a queue: in the pass, or when the pass is over and every die has been served, in the next. -/
def State.comeTo (s : State) (q : Nat) : Option State :=
  let again (done : List Nat) : Option State :=
    if computeSites.all fun d => done.contains d || s.dieDone d then
      State.passTo q 4 { s with dlevel := 3, visited := [], served := none }
    else none
  match s.served with
  | some x => again x.2
  | none => match State.passTo q 4 s with
    | some t => some t
    | none => if s.passOver then again [] else none

/-- A visit to a queue. -/
def State.visit (s : State) (q : Nat) : State :=
  if s.dibberUp then (match s.comeTo q with
    | some s => s.takeHead q
    | none => s) else s

def execDibberTakeHead (q : Nat) (s : State) : Res := .next (s.visit q)

/-- The counter's line has been written: the head that waits reads it again when the pass comes to it. -/
def execWaitCounterRead (q : Nat) (s : State) : Res :=
  .next (match s.queue q with
    | r :: _ => if r.waitF then s.visit q else s
    | [] => s)

/-- The Dibber serves a die after the pass over the queues, each die once, until the die takes nothing more; the order of the dies is the
part's (log 61). None when it is not the die's turn. -/
def State.serve (s : State) (d : Nat) : Option State :=
  let at_ (done : List Nat) : Option State :=
    if done.contains d then none else some { s with served := some (some d, done) }
  match s.served with
  | none => if s.passOver then at_ [] else none
  | some (some c, done) => if c = d then at_ done else if s.dieDone c then at_ (c :: done) else none
  | some (none, done) => at_ done

/-! ### Starting a block (03 R73 to R75, 13 R258, 17 R302, 19 R339) -/

/-- `RNGS` at thread start (03 R75). -/
def rngsOf (g : Word) (lin t : Nat) : Word :=
  let x := (g.toNat * 0x9E3779B9 + lin * 0x85EBCA6B + t * 0xC2B2AE35) % 2 ^ 32
  if x = 0 then 0x6D2B79F5 else BitVec.ofNat 32 x

/-- Preloaded values under their enable bits. -/
def preloaded {α : Type} (mask : BitVec 12) (xs : List (Nat × Nat × α)) : FMap α :=
  xs.foldl (fun m x => if mask.getLsbD x.1 then fput m x.2.1 x.2.2 else m) []

/-- A thread at its start. -/
def Lane.start (g : Grid) (svec : DWord) (hvec : BitVec 40) (lin t : Nat) : Lane :=
  let h := g.khdr
  let v (n : Nat) : RegVal := { val := BitVec.ofNat 32 n, side := false }
  { Lane.empty with
    occ := .live, pc := h.entry, prio := g.prioAt h.entry
    v := (preloaded h.preload [(0, 0, v (t % h.bx)), (1, 1, v (t / h.bx % h.by_)), (2, 2, v (t / (h.bx * h.by_))),
            (3, 3, v (t % 64))]).filter fun e => e.2 != RegVal.zero
    rngs := rngsOf g.handle lin t
    frameS := { Frame.zero with vec := svec.extractLsb' 12 52 }
    frameH := { Frame.zero with vec := hvec.zeroExtend 52 } }

/-- A warp at its start: its lanes and the preloaded uniform registers. -/
def Warp.start (g : Grid) (svec : DWord) (hvec : BitVec 40) (lin w : Nat) : Warp :=
  let h := g.khdr
  let u (n : Nat) : Word := BitVec.ofNat 32 n
  { Warp.empty with
    lanes := (upto 0 (min 64 (h.threads - 64 * w))).map fun i => (i, Lane.start g svec hvec lin (64 * w + i))
    s := (preloaded h.preload [(4, 0, u (lin % g.gx)), (5, 1, u (lin / g.gx % g.gy)), (6, 2, u (lin / (g.gx * g.gy))),
            (7, 3, u (lin % g.gsize)), (8, 4, u (lin / g.gsize)), (9, 5, g.handle), (10, 6, lo32 g.args), (10, 7, hi32 g.args),
            (11, 8, u (if g.chained then lin else 0))]).filter fun e => e.2 != 0 }

/-- Note in a core's log that a block ran there; the log holds 4,096 (23 R399). -/
def Site.logBlock (x : Site) (core : Nat) (e : Word × Nat × Nat) : Site :=
  let n := (x.log.filter fun y => y.1 == core).length
  if x.log.contains (core, e) then x
  else if n < 4096 then { x with log := x.log ++ [(core, e)] }
  else if x.overflow.contains core then x else { x with overflow := x.overflow ++ [core] }

/-- The rings of a core in which its warps take turns: four quarters of at most 8 warps, and the uniform pipe (03 R53). -/
def ringKey (site core q : Nat) : Nat := site * 160 + core * 5 + q

/-- The warps of a ring that are there now. -/
def State.ring (s : State) (key : Nat) : List (Nat × Nat) :=
  (fget [] s.turns key).filter fun x => (s.blk x.1).phase == .resident && ringKey (s.blk x.1).site (s.blk x.1).core (key % 5) == key

/-- A warp takes a place in a quarter of its core, of the part's choice, and at the uniform pipe. -/
def State.joinRings (s : State) (b w : Nat) : State :=
  let k := s.blk b
  let open_ := (upto 0 4).filter fun q => (s.ring (ringKey k.site k.core q)).length < 8
  let q := open_[Config.choice s.freeIx % open_.length]?.getD 0
  let join (s : State) (key : Nat) : State := { s with turns := fput s.turns key (s.ring key ++ [(b, w)]) }
  join (join s.tickFree (ringKey k.site k.core q)) (ringKey k.site k.core 4)

/-- A block takes its place on a core, as resident. -/
def State.seat (s : State) (b site core : Nat) (k : Block) : State :=
  let g := s.grid k.grid
  let s := { s with turns := s.turns.map fun (x : Nat × List (Nat × Nat)) => (x.1, List.filter (fun y : Nat × Nat => y.1 != b) x.2) }
  let s := s.setBlk b { k with phase := .resident, site := site, core := core, order := s.orders + 1 }
  let s := { s with orders := s.orders + 1 }
  let s := s.setGrid k.grid { g with gsite := fput g.gsite (k.lin / g.gsize) (some site) }
  let s := s.modSite site fun x => x.logBlock core (g.handle, k.lin, g.asid)
  (upto 0 k.nwarps).foldl (fun s w => s.joinRings b w) s

/-- A block at its start. -/
def State.freshBlock (s : State) (g lin attempts : Nat) : Block :=
  let x := s.grid g
  let c := s.ctx x.asid
  let hvec := (s.part c.part).xhvec
  { Block.absent with
    grid := g, lin := lin, attempts := attempts, nwarps := x.khdr.warps
    warps := (upto 0 x.khdr.warps).map fun w => (w, Warp.start x c.svec hvec lin w) }

/-- Start the next unstarted block of a grid on a core (03 R59, R76). -/
def State.startNext (s : State) (g site core : Nat) : State :=
  let x := s.grid g
  let b := s.nextBlock
  let s := { s.setGrid g { x with next := x.next + 1 } with nextBlock := b + 1 }
  s.seat b site core (s.freshBlock g x.next 0)

/-- Start a relaunched block afresh (23 R393). -/
def State.startAgain (s : State) (b site core : Nat) : State :=
  s.seat b site core (s.freshBlock (s.blk b).grid (s.blk b).lin (s.blk b).attempts)

/-! ### BLOCK_START (03 R76, R78) -/

/-- Neighbours of a chain that do not lie on adjacent cores of one die's ring. -/
def chainBreaks : List (Nat × Nat) → Nat
  | x :: y :: r =>
      (if x.1 = y.1 && ((x.2 + 1) % 32 == y.2 || (y.2 + 1) % 32 == x.2) then 0 else 1) + chainBreaks (y :: r)
  | _ => 0

/-- The seats of a chained grid that a die takes now, whole, from a core on; none where another start leaves more neighbours on adjacent
cores (log 70). -/
def State.chainSeats (s : State) (g site core : Nat) : Option (List (Nat × Nat)) :=
  let h := (s.grid g).khdr
  let from_ (d c : Nat) : Option (List (Nat × Nat)) :=
    s.seats (fun d => s.pick1 d == [] && (s.pick1a site != [] || s.clear3 d)) h (s.chainWaits g) d c
  if (s.nextBlocks site).contains (.chain g) && s.fits site core h then
    (from_ site core).filter fun cs => computeSites.all fun d => !(s.nextBlocks d).contains (.chain g) ||
      (upto 0 32).all fun c => !s.fits d c h || (match from_ d c with
        | some x => chainBreaks cs ≤ chainBreaks x
        | none => true)
  else none

/-- What the Dibber does on a die when it is the die's turn. -/
def State.inTurn (s : State) (site : Nat) (k : State → State) : State :=
  match s.serve site with
  | some t => k t
  | none => s

/-- BLOCK_START: the die takes the grid's relaunch or next block when it is its turn; a chained grid starts whole from that core. -/
def State.blockStart (s : State) (g site core : Nat) : State :=
  if !s.dibberUp || !s.eligible site then s
  else s.inTurn site fun s =>
  if (s.grid g).chained then
    match (if (s.grid g).next = 0 then s.chainSeats g site core else none) with
    | some cs => cs.foldl (fun s c => s.startNext g c.1 c.2) s
    | none => s
  else
    match (s.nextBlocks site).find? fun p => match p with
      | .relaunch b => (s.blk b).grid == g && (s.relaunchCores b site).contains core
      | .start g' => g' == g && s.fits site core (s.grid g).khdr
      | .resume _ | .chain _ => false with
    | some (.relaunch b) => s.startAgain b site core
    | some (.start _) => s.startNext g site core
    | _ => s

/-- The hypervisor schedules a context: in the model, by asking for a start or a resumption of its blocks; the waits of its preempted
blocks count again (03 R85, log 16). -/
def State.schedule (s : State) (asid : Nat) : State :=
  if (s.ctx asid).sched then s
  else
    let s1 := s.setCtx asid { s.ctx asid with sched := true }
    { s1 with blocks := s1.blocks.map fun (x : Nat × Block) =>
        if x.2.phase == .preempted && (s.grid x.2.grid).asid == asid then (x.1, { x.2 with since := s.clock }) else x }

def execBlockStart (grid site core : Nat) (s : State) : Res := .next ((s.schedule (s.grid grid).asid).blockStart grid site core)

/-! ### Retirement and completion (03 R61, R62) -/

/-- Every child grid has completed: none is live, and no record of the grid waits in a queue. -/
def State.childless (s : State) (g : Nat) : Bool :=
  !(s.grids.any fun x => x.2.parent == some g && x.2.phase == .live) &&
  !((s.ctx (s.grid g).asid).devq.any fun q => q.2.any fun r => r.parent == some g)

/-- Complete a grid that is done, then its ancestors that are done with it; nest depth is at most 9. -/
def State.completeGrid : Nat → State → Nat → State
  | 0, s, _ => s
  | n + 1, s, g =>
      let x := s.grid g
      if !(x.phase == .live && x.next == x.total && x.retired == x.total && s.childless g) then s
      else
        let s :=
          if x.caddr = 0 then s
          else match s.counterAdd x.asid x.caddr with
            | (s, true) => s
            | (s, false) => s.logMc { McRec.zero with kind := 10, ctx := x.asid, gridh := x.handle, addr := x.caddr.toNat }
        let s := match x.msix with
          | some v => s.out (.msix v)
          | none => s
        let s := (s.setGrid g { s.grid g with phase := .complete }).dropAffine g
        match x.parent with
        | some p => State.completeGrid n s p
        | none => s

/-- The four conditions of 03 R61; the add at a grid's completion waits while a home recovers a line (23 R401, R402, log 28). -/
def State.mayRetire (s : State) (b : Nat) : Bool :=
  let k := s.blk b
  k.phase == .resident && k.allExited && !k.tiller.run && k.cmds == [] && k.cancelled == [] && k.hops == [] && s.suspects == []

/-- Deliveries that have begun into a block that retires are dropped (11 R235). -/
def State.dropDeliv (s : State) (b : Nat) : State :=
  let r := s.rank b
  let drop (c : Cmd) : Cmd :=
    if c.owes r && fget Deliv.waiting c.deliv r == Deliv.begun then { c with deliv := fput c.deliv r .done } else c
  (s.members b).foldl (fun s m => s.modBlk m fun k => { k with cmds := k.cmds.map drop }) s

/-- A block retires: it commits, its stores are performed, its resources are free. -/
def State.retire (s : State) (b : Nat) : State :=
  let s := ((s.commit b).drainBlock b).dropDeliv b
  let k := s.blk b
  let s := s.setBlk b { Block.absent with
    grid := k.grid, lin := k.lin, site := k.site, core := k.core, order := k.order, attempts := k.attempts, committed := true
    nwarps := k.nwarps }
  let s := s.setGrid k.grid { s.grid k.grid with retired := (s.grid k.grid).retired + 1 }
  State.completeGrid 11 s k.grid

/-- Lanes of a warp's neighbours that wait for room in a retired block's queue go on (13 R253). -/
def State.wakeNeighbours (s : State) (b : Nat) : State :=
  [Dir.prev, Dir.next].foldl (fun s d => match s.neighbour b d with
    | some t => if (s.blk t).phase == .resident then (fkeys (s.blk t).warps).foldl (fun s w => s.runnerLoop t w 128 []) s else s
    | none => s) s

def execBlockRetire (blk : Nat) (s : State) : Res :=
  .next (if s.mayRetire blk then (s.retire blk).wakeNeighbours blk else s)

end Sys2Proof.Machine
end

