-- ==== Sys2Proof/Machine/Preempt.lean ====
section
/-! DEFINITION. Preemption and resumption (03 R82 to R87, 19 R360 to R364, 15 R287, 23 R396). -/

namespace Sys2Proof.Machine

open Sys2Proof

/-! ### The save area (19 R360) -/

/-- Bytes of a block's image. -/
def KHdr.imageBytes (h : KHdr) : Nat := 65536 + 49152 * h.warps + (h.scratch + 65535) / 65536 * 65536 + 65536 * h.acc

/-- Images of a context's preempted blocks: base and bytes. -/
def State.images (s : State) (asid : Nat) : List (Nat × Nat) :=
  s.blocks.filterMap fun (x : Nat × Block) =>
    if (s.grid x.2.grid).asid = asid && x.2.phase == .preempted then x.2.image.map fun i => (i.1, i.2.1) else none

/-- Free room for an image in the save area of a context. -/
def State.findRoom (s : State) (asid n : Nat) : Option Nat :=
  let c := s.ctx asid
  let old := s.images asid
  (c.save :: old.map fun i => i.1 + i.2).find? fun a =>
    a + n ≤ c.save + c.savesz && old.all fun i => a + n ≤ i.1 || i.1 + i.2 ≤ a

/-- The first address of n bytes that is not backed; what is backed changes at multiples of 2^30 (01 Table 1.2, R20, R36). -/
def State.unbackedIn (s : State) (a n : Nat) : Option Nat :=
  (a :: (upto (a / 2 ^ 30 + 1) ((a + n - 1) / 2 ^ 30 - a / 2 ^ 30)).map (· * 2 ^ 30)).find? fun x => s.paKind x == .unbacked

/-- An image that was altered after the save, or that cannot be read; one not backed reads poisoned (01 R26). -/
def State.imageAltered (s : State) (base n sealed : Nat) : Bool :=
  (s.unbackedIn base n).isSome ||
  (s.ver.any fun e => base ≤ e.1 && e.1 < base + n && sealed < e.2) ||
  (s.saves.any fun x => x.1 < base + n && base < x.1 + x.2.1 && sealed < x.2.2) ||
  (s.poison.any fun e => base < e.1 * 32 + 32 && e.1 * 32 < base + n) ||
  (s.losses.any (·.abrupt) && (sectorsOf base n).any s.lostSector)

/-! ### Saving (19 R361, R362) -/

/-- A block that may be preempted: resident, with a live thread (03 R61). -/
def State.canPreempt (s : State) (b : Nat) : Bool := (s.blk b).phase == .resident && !(s.blk b).allExited

/-- The blocks that are saved with a block: its whole chained grid, or itself (03 R83). -/
def State.saveSet (s : State) (b : Nat) : List Nat :=
  if (s.gridOf b).chained then (s.blocksOf (s.blk b).grid).filter s.canPreempt else [b]

/-- The part writes an image: no other copy of its lines is left, the sectors that it fills are clean (07 R154), the replicas of its
lines wither (21 R365); what is not backed is discarded with a record (01 R26). -/
def State.writeImage (s : State) (site asid base n : Nat) : State :=
  match s.unbackedIn base n with
  | some a => s.logUnbacked site asid a
  | none =>
      let off (x : Nat) : Bool := x * 32 < base || base + n < x * 32 + 32
      let s := { s with
        wcount := s.wcount + 1
        saves := (base, n, s.wcount + 1) :: s.saves.filter fun x => x.1 != base || n < x.2.1
        poison := s.poison.filter fun e => off e.1
        losses := s.losses.map fun l => if l.abrupt then
          { l with good := ((sectorsOf base n).filter fun x => !off x).foldl (fun m x => fset false m x true) l.good } else l
        dir := s.dir.filter fun e => e.1 * 128 + 128 ≤ base || base + n ≤ e.1 * 128
        sites := s.sites.map fun x => (x.1, { x.2 with dirty := x.2.dirty.filter fun e => off e.1, bad := x.2.bad.filter fun e => off e.1 }) }
      if s.ctxs.any fun c => c.2.tabs != [] then (linesOf base n).foldl State.witherLine s else s

/-- Save one block; `none` when the save area has no room. -/
def State.saveBlock (s : State) (b : Nat) : Option State :=
  let g := s.gridOf b
  let n := g.khdr.imageBytes
  (s.findRoom g.asid n).map fun base =>
    let s := s.drainBlock b
    let s := (s.settleStream b).settleBarrow b
    let s := s.writeImage (s.siteOf b) g.asid base n
    s.modBlk b fun k => { k with
      phase := .preempted, image := some (base, n, s.wcount), waited := 0, since := s.clock
      limit := (s.part (s.ctx g.asid).part).xresume, tiller := { k.tiller with scache := [] } }

/-- Save blocks one after the other, all or none. -/
def State.saveAll (s : State) : List Nat → Option State
  | [] => some s
  | b :: r => (s.saveBlock b).bind fun s => s.saveAll r

/-- Entries in hop are placed before a save (13 R251). -/
def State.landHops (s : State) (b : Nat) : State :=
  ((s.blk b).hops.map fun h => (h.1, h.2.1)).foldl (fun s h => (s.landHop b h.1 h.2).wakeChain b h.1) s

/-- Preempt a block, a chained grid whole; none without room. A chained grid that no longer fits the part then fails (03 R79). -/
def State.preempt (s : State) (b : Nat) : Option State :=
  if !s.canPreempt b then none
  else
    let set := s.saveSet b
    let s0 := if (s.gridOf b).chained then set.foldl State.landHops s else s
    (s0.saveAll set).map fun s =>
      let g := (s.blk b).grid
      if (s.grid g).chained && !s.chainFits (s.grid g).khdr (s.grid g).total then s.failGrid g else s

/-- Room for the images of a block's preemption. -/
def State.hasRoom (s : State) (b : Nat) : Bool := (s.preempt b).isSome

/-! ### Whom to preempt (03 R82, R85) -/

/-- The youngest of a list of blocks. -/
def State.youngest (s : State) (bs : List Nat) : Option Nat :=
  bs.foldl (fun m b => match m with
    | none => some b
    | some x => if (s.blk x).order < (s.blk b).order then some b else some x) none

/-- A die on which the waiting block of a grid could start or resume, whatever is resident there. -/
def State.couldStart (s : State) (g d : Nat) : Bool :=
  let x := s.grid g
  s.eligible d && 0 < s.dieHolds d x.khdr &&
  (if x.chained then true
   else match (s.blocksOf g).find? fun b => (s.blk b).phase == .preempted with
     | some b => s.mayResume b d
     | none => match s.openGroup g with
       | some o => o == d
       | none => x.gsize ≤ s.dieHolds d x.khdr && (match s.affineDie g with
         | some a => a == d
         | none => true))

/-- The waiting block of a grid fits nowhere. -/
def State.fitsNowhere (s : State) (g : Nat) : Bool :=
  let x := s.grid g
  if x.chained then (s.seats (fun _ => true) x.khdr (s.chainWaits g) 0 0).isNone
  else computeSites.all fun d => !s.couldStart g d || !s.dieFits d x.khdr

/-- 03 R82: a block is the youngest of lower priority where a waiting block of higher priority could start. When its context has no room
for its image, no other is preempted in its place (log 70). -/
def State.yields (s : State) (b : Nat) : Bool :=
  s.pendingGrids.any fun g =>
    let p := (s.grid g).pri
    (s.gridOf b).pri < p && s.fitsNowhere g &&
    s.youngest ((fkeys s.blocks).filter fun x => s.canPreempt x && (s.gridOf x).pri < p && s.couldStart g (s.blk x).site) == some b

/-- Whom the Dibber may preempt on a die for a block that has waited `RESUME_MAX`: blocks of its context, when none is left others whose
priority does not exceed its own (03 R85). A chained grid takes room on every eligible die (log 70). -/
def State.victims (s : State) (b d : Nat) : List Nat :=
  let on (x : Nat) : Bool := if (s.gridOf b).chained then s.eligible (s.blk x).site else (s.blk x).site == d
  let here := ((fkeys s.blocks).filter fun x => (s.blk x).onCore && on x).filter fun x => s.canPreempt x && s.hasRoom x
  let own := here.filter fun x => (s.gridOf x).asid == (s.gridOf b).asid
  if own = [] then here.filter fun x => (s.gridOf x).pri ≤ (s.gridOf b).pri else own

/-- The waiting block fits: on the die where room is made, a chained grid from any. -/
def State.roomMade (s : State) (b d : Nat) : Bool :=
  if (s.gridOf b).chained then computeSites.any (s.waitFits b) else s.waitFits b d

/-- Make room, youngest first, until the block fits or no victim is left; no victim is spared where even all of them do not suffice (log
70). -/
def State.makeRoom (s : State) (b d : Nat) : Nat → State
  | 0 => s
  | n + 1 =>
      if s.roomMade b d then s
      else match s.youngest (s.victims b d) with
        | some v => match s.preempt v with
          | some s => State.makeRoom s b d n
          | none => s
        | none => s

/-- The dies on which the Dibber may make room for a block whose wait has reached `RESUME_MAX`; none when it fits somewhere. -/
def State.roomFor (s : State) (b : Nat) : List Nat :=
  if computeSites.any (s.waitFits b) then []
  else computeSites.filter fun d => s.mayResume b d && 0 < s.dieHolds d (s.gridOf b).khdr

/-- The Dibber makes room for a block whose wait has reached `RESUME_MAX`, on one of the dies where it may, of the part's choice (log
70). -/
def execResumeMaxExpiry (blk : Nat) (s : State) : Res :=
  .next (
    let k := s.blk blk
    if !(s.dibberUp && k.phase == .preempted && (s.ctxOf blk).sched) then s
    else
      let s := s.reach (k.since + (usec k.limit - k.waited))
      let ds := s.roomFor blk
      match ds[Config.choice s.freeIx % ds.length]? with
        | some d => s.tickFree.makeRoom blk d s.blocks.length
        | none => s)

/-- Time-slicing: every resident block of a context is saved, and its waits stop counting (19 R361, 03 R85). -/
def State.timeSlice (s : State) (asid : Nat) : State :=
  let s := ((fkeys s.blocks).filter fun b => (s.gridOf b).asid == asid).foldl (fun s b => (s.preempt b).getD s) s
  let s := { s with blocks := s.blocks.map fun (x : Nat × Block) =>
    if x.2.phase == BPhase.preempted && (s.grid x.2.grid).asid == asid then
      (x.1, { x.2 with waited := s.waitedFor x.1, since := s.clock }) else x }
  s.setCtx asid { s.ctx asid with sched := false }

def execPreemptBlock (blk : Nat) (why : PreemptWhy) (s : State) : Res :=
  .next (
    let k := s.blk blk
    let x := s.site k.site
    let go (ok : Bool) : State := if ok then (s.preempt blk).getD s else s
    match why with
    | .higherPriority => go (s.dibberUp && s.yields blk)
    | .resumeMax => go (s.dibberUp && s.preempted.any fun b => s.overdue b && (s.roomFor b).any fun d =>
        s.youngest (s.victims b d) == some blk)
    | .timeSlice => if s.canPreempt blk then s.timeSlice (s.gridOf blk).asid else s
    | .fence => go (x.stat == .fencing && x.deadline ≤ s.clock)
    | .fallow => go (x.incoming == some k.core && x.drainAt ≤ s.clock))

/-! ### Resumption (19 R363, 15 R295, 19 R358) -/

/-- Resumption sets every age to 0, and a lane saved in `mwait` wakes (03 R50, 19 R358). -/
def Warp.resume (w : Warp) : Warp :=
  { w with ages := []
           lanes := w.lanes.map fun (x : Nat × Lane) => match x.2.park with
             | .mwait _ _ _ _ => (x.1, { x.2 with park := .none })
             | _ => x }

/-- Restore a block on a core: an altered image makes it fail; its cancelled records are reissued in order, and lanes parked for a runner
queue that has changed meanwhile go on (13 R252, R253). -/
def State.restore (s : State) (b site core : Nat) : State :=
  let k := s.blk b
  match k.image with
  | none => s
  | some (base, n, sealed) =>
      let s := match s.unbackedIn base n with
        | some a => s.logUnbacked site (s.asidOf b) a
        | none => s
      if s.imageAltered base n sealed then s.failBlock b 0x15 0 0 0
      else
        let cmds := k.cancelled
        let s := { s with wcount := s.wcount + 1 }
        let s := s.seat b site core { k with
          image := none, cancelled := [], fresh := s.wcount
          tiller := { k.tiller with scache := [], synced := s.wcount }
          warps := k.warps.map fun (w : Nat × Warp) => (w.1, w.2.resume) }
        (upto 0 k.nwarps).foldl (fun s w => s.wakeChain b w) (s.reissue b cmds)

def State.resumeBlock (s : State) (blk site core : Nat) : State :=
  let g := (s.blk blk).grid
  if !s.dibberUp || !s.eligible site || (s.blk blk).phase != .preempted then s
  else s.inTurn site fun s =>
  if (s.grid g).chained then
    let bs := (s.blocksOf g).filter fun b => (s.blk b).phase == .preempted
    match s.chainSeats g site core with
    | some cs => (bs.zip cs).foldl (fun s p => if (s.blk p.1).phase == .preempted then s.restore p.1 p.2.1 p.2.2 else s) s
    | none => s
  else if (s.nextBlocks site).contains (.resume blk) && s.fits site core (s.grid g).khdr then s.restore blk site core
  else s

def execResumeBlock (blk site core : Nat) (s : State) : Res := .next ((s.schedule (s.gridOf blk).asid).resumeBlock blk site core)

/-! ### Held stores at a planned fence (23 R396) -/

/-- Before a die is fenced, its uncommitted blocks' held stores move to the buffer of another eligible die that has room for them, or
are committed. -/
def State.moveHeld (s : State) (site : Nat) : State :=
  let bs := (fkeys s.blocks).filter fun b => (s.blk b).site == site && (s.blk b).phase == .preempted && s.holding b
  bs.foldl (fun s b =>
    let ds := computeSites.filter fun d => d != site && s.eligible d && s.bufferHolds d b (s.blk b).hold
    match ds[Config.choice s.freeIx % ds.length]? with
    | some d => s.tickFree.modBlk b fun k => { k with site := d }
    | none => s.commit b) s

end Sys2Proof.Machine
end

