-- ==== Sys2Proof/Machine/Graft.lean ====
section
/-! DEFINITION. The Grafting Engine (21 R365 to R387, R410): tables and slots, `route` and `rdone`, copies, the policy, merging, the
GRAFT instructions, and what a fence leaves of it (21 R378, R383). -/

namespace Sys2Proof.Machine

open Sys2Proof

/-! ### Tables -/

def State.tab (s : State) (asid t : Nat) : GTab := (s.ctx asid).tab t
def State.setTab (s : State) (asid t : Nat) (x : GTab) : State := s.setCtx asid ((s.ctx asid).setTab t x)
def State.gslot (s : State) (asid t e i : Nat) : Slot := ((s.tab asid t).expert e).slot i

/-- A slot leaves the accepted refreshes that wait for it. -/
def GWork.settled (e i : Nat) : GWork → GWork
  | .merge l a c => .merge l a c
  | .refresh ws c => .refresh (ws.filter fun w => w != (e, i)) c

/-- Put a slot; one that has become live or free is awaited no more (21 R382). -/
def GTab.putSlot (t : GTab) (e i : Nat) (x : Slot) : GTab :=
  let t := t.setExpert e ((t.expert e).setSlot i x)
  if x.state = .live || x.state = .free then { t with work := t.work.map (GWork.settled e i) } else t

def State.putSlot (s : State) (asid t e i : Nat) (x : Slot) : State := s.setTab asid t ((s.tab asid t).putSlot e i x)

/-- One publication (21 R373); none while I/O die 0 is fenced. -/
def State.publishTab (s : State) (asid t : Nat) : State :=
  if s.graftUp then s.setTab asid t { s.tab asid t with ver := (s.tab asid t).ver + 1 } else s

/-- A fresh slot state that keeps its counters of the window. -/
def Slot.freed (x : Slot) : Slot := { Slot.freeSlot with stamp := x.stamp, sver := x.sver, hits := x.hits }

/-- The region of a table (21 Table 21.1). -/
def State.tabRegion (s : State) (asid t : Nat) : Region :=
  match (s.ctx asid).regions.find? fun r => r.2.id != 0 && r.2.id == (s.tab asid t).rgnid with
  | some r => r.2
  | none => Region.absent

/-- Slots 1 to 15 of an expert that satisfy a test. -/
def Expert.slotsWith (x : Expert) (f : Slot → Bool) : List Nat := (upto 1 15).filter fun i => f (x.slot i)

/-! ### The event log (21 R383, R410) -/

/-- A controller carries out the engine's work: I/O die 0's, or the standby's from its changeover on (01 R18, 21 R378). -/
def State.engineUp (s : State) : Bool := s.graftUp || (s.io != .primary && (s.site 23).isActive)

/-- One entry, translated once: every other field, then `SEQ`. An entry that cannot be written uses its `SEQ` and leaves a kind-11
record. -/
def State.graftEvent (s : State) (asid t e i kind : Nat) (ver : Word) : State :=
  let x := s.tab asid t
  let seq := x.seq + 1
  let s := s.setTab asid t { x with seq := seq }
  let va := x.elog + BitVec.ofNat 64 (32 * ((seq - 1).toNat % x.elcnt))
  let body := leBytes 2 kind ++ leBytes 1 i ++ leBytes 1 t ++ leBytes 4 e ++ leBytes 4 ver.toNat ++ leBytes 8 s.nsclk ++ leBytes 8 0
  match s.xlate s.ioSite asid .s .store false va with
  | (s, .ok pl) => (s.writeMem home asid pl.key (pl.pa + 4) body false).writeMem home asid pl.key pl.pa (leBytes 4 seq.toNat) false
  | (s, .error _) => s.logMc { McRec.zero with kind := 11, ctx := asid, detail := 2 + t * 256 + e * 1024, addr := va.toNat }

/-! ### Copies (21 R376, R377) -/

/-- The address of an expert's rootstock. -/
def GTab.root (x : GTab) (e : Nat) : DWord := x.rbase + BitVec.ofNat 64 (e * x.rstride.toNat)

/-- Translate each page of a range as an agent: places and lengths with the translations, or the first address that fails. -/
def State.agentPages (s : State) (asid : Nat) (kind : AccKind) (va : DWord) (n : Nat) :
    State × Except DWord (List (Place × Nat × PageMap)) :=
  let first := va.toNat / 65536
  let pages := upto first ((va.toNat + n - 1) / 65536 + 1 - first)
  pages.foldl (fun (acc : State × Except DWord (List (Place × Nat × PageMap))) p =>
    match acc.2 with
    | .error _ => acc
    | .ok ps =>
        let lo := max va.toNat (p * 65536)
        let hi := min (va.toNat + n) ((p + 1) * 65536)
        let a : DWord := BitVec.ofNat 64 lo
        match acc.1.walkVa acc.1.ioSite asid .s kind a with
        | (s, .error _) => (s, .error a)
        | (s, .ok w) => match permChecks (s.ctx asid).xkey.toNat .s kind false [(a, w)] with
          | some _ => (s, .error a)
          | none =>
              let pl := w.place
              (s, .ok (ps ++ [(pl, hi - lo,
                { vpage := p, ppage := pl.pa / 65536, size1 := w.size1, size2 := w.size2, ipage := some (w.ipa / 65536), key := pl.key
                  dom := pl.dom, ord := pl.ord, asid := (s.ctx asid).xasid.toNat, vmid := s.vmidOf asid })]))) (s, .ok [])

/-- The die reads the lines of a slot's replica under the keys of its pages: the home records it as a sharer of each (21 R365). -/
def State.fillFoot (s : State) (asid : Nat) (x : Slot) : State :=
  (x.held.zip x.foot).foldl (fun s p => s.touchRead x.site asid p.1.key p.2.1 p.2.2) s

/-- A copy begins: the round is read and every page translated; a failure ends it with kind 8. -/
def State.beginCopy (s : State) (asid t e i : Nat) : State :=
  let x := s.tab asid t
  let c := (s.tabRegion asid t).count
  match s.agentPages asid .load (x.root e) x.wbytes with
  | (s, .error _) => s.putSlot asid t e i { s.gslot asid t e i with fail := 8 }
  | (s, .ok ps) =>
      let x := { s.gslot asid t e i with round := c, foot := ps.map fun p => (p.1.pa, p.2.1), held := ps.map fun p => p.2.2 }
      (s.fillFoot asid x).putSlot asid t e i x

/-- Start a copy into a slot on a die. -/
def State.startCopy (s : State) (asid t e i d : Nat) : State :=
  (s.putSlot asid t e i { (s.gslot asid t e i).freed with state := .copying, site := d }).beginCopy asid t e i

/-- A slot that drains and holds no reference becomes free, or is copied afresh on its die (21 Table 21.2, R378). -/
def State.settleSlot (s : State) (asid t e i : Nat) : State :=
  let x := s.gslot asid t e i
  if i != 0 && x.state == .draining && x.ref == 0 then
    if x.rfr && s.graftUp then s.startCopy asid t e i x.site else s.putSlot asid t e i x.freed
  else s

/-- Every slot that drains and holds no reference settles. -/
def State.settleGraft (s : State) : State :=
  let todo : List (Nat × Nat × Nat × Nat) := (s.ctxs.map fun c => (c.2.tabs.map fun t => (t.2.experts.map fun e =>
    (e.2.slots.filter fun sl => sl.1 != 0 && sl.2.state == .draining && sl.2.ref == 0).map fun sl => (c.1, t.1, e.1, sl.1)).flatten).flatten).flatten
  todo.foldl (fun s k => s.settleSlot k.1 k.2.1 k.2.2.1 k.2.2.2) s

/-- A copy fails: the slot is free again, one event is logged (21 R377). -/
def State.failCopy (s : State) (asid t e i kind : Nat) : State :=
  let s := s.putSlot asid t e i (s.gslot asid t e i).freed
  s.graftEvent asid t e i kind (s.tab asid t).ver

/-- The prune event on a slot (21 Table 21.2). -/
def State.pruneSlot (s : State) (asid t e i : Nat) : State :=
  let x := s.gslot asid t e i
  if i = 0 then s
  else match x.state with
  | .free => s
  | .copying => s.failCopy asid t e i 7
  | .live => ((s.putSlot asid t e i { x with state := .draining, rfr := false }).publishTab asid t).settleSlot asid t e i
  | .draining => (s.putSlot asid t e i { x with rfr := false }).settleSlot asid t e i

/-- A copy in progress that has filled lines, while the engine works. -/
def State.copyRuns (s : State) (asid tab slot : Nat) (x : Slot) : Bool :=
  s.graftUp && (s.tab asid tab).bound && slot != 0 && x.state == .copying && s.suspects == []

/-- Rootstock of a copy with a poisoned sector. -/
def State.footPoison (s : State) (x : Slot) : Bool := x.foot.any fun f => s.poisonFor x.site f.1 f.2

/-- A copy is verified: no failure but perhaps a write to a line before it was copied, and no poison in the rootstock. Each line is a
shared copy of the die, one written before it was copied too. -/
def execGraftCopyVerified (asid tab exp slot : Nat) (s : State) : Res :=
  .next (
    let x := s.gslot asid tab exp slot
    if s.copyRuns asid tab slot x && x.foot != [] && (x.fail == 0 || x.fail == 4) && !s.footPoison x then
      let s := s.fillFoot asid x
      (s.putSlot asid tab exp slot { x with
        state := .live, rfr := false, stamp := x.round, sver := (s.tab asid tab).ver + 1, hits := 0, whole := false
        fail := 0, held := [] }).publishTab asid tab
    else s)

/-- A copy ends at its first failure (21 Table 21.4): a poisoned or uncorrectable sector read (1); hashes that differ, with no sector
poisoned (3); a write to a line, if it was copied before (4); a page that failed (8). A sector poisoned by a write before it is read ends
the copy with 1. -/
def execGraftCopyFail (asid tab exp slot kind : Nat) (s : State) : Res :=
  .next (
    let x := s.gslot asid tab exp slot
    let may := match kind with
      | 1 => (x.fail == 0 || x.fail == 4) && s.footPoison x
      | 3 => (x.fail == 0 || x.fail == 4) && x.foot != [] && !s.footPoison x
      | 4 => x.fail == 4
      | 8 => x.fail == 8
      | _ => false
    if s.copyRuns asid tab slot x && may then s.failCopy asid tab exp slot kind else s)

/-! ### Choosing a die (21 R367, R379) -/

/-- Slots that occupy a die's partition, over every table: their bytes. -/
def State.partitionUsed (s : State) (d : Nat) : Nat :=
  sumOf (s.ctxs.map fun c => sumOf (c.2.tabs.map fun t => sumOf (t.2.experts.map fun e =>
    t.2.wbytes * (e.2.slots.filter fun sl => sl.1 != 0 && sl.2.state != .free && sl.2.site == d).length)))

/-- The eligible die with the least residency, space and no slot of the expert; the lowest site on a tie. -/
def State.chooseDie (s : State) (asid t e : Nat) : Option Nat :=
  let x := s.tab asid t
  let can (d : Nat) : Bool := s.eligible d && s.partitionUsed d + x.wbytes ≤ (s.site d).gpart * 2 ^ 20 &&
    ((x.expert e).slotsWith fun sl => sl.state != .free && sl.site == d) == []
  (computeSites.filter can).foldl (fun m d => match m with
    | none => some d
    | some o => if (s.site d).resid < (s.site o).resid then some d else some o) none

/-! ### route and rdone (21 R372, R374) -/

/-- `XVAL` of cause 0x14 (21 Table 21.5). -/
def graftVal (code t e slot : Nat) : DWord := BitVec.ofNat 64 (code + t * 256 + e * 1024 + slot * 2 ^ 22)

/-- The gradient buffer of an expert and slot (21 R369). -/
def GTab.buf (x : GTab) (e i : Nat) : DWord := x.gbase + BitVec.ofNat 64 ((16 * e + i) * x.gstride.toNat)

/-- The quad of a `route`. -/
def routeRegs (d : Nat) (lo ver : Word) (a : DWord) : List (Nat × RegVal) :=
  [(d, .clean lo), (d + 1, .clean ver), (d + 2, .clean (lo32 a)), (d + 3, .clean (hi32 a))]

/-- The slot that `route` chooses: the least `REF` among live slots recent enough, the lowest on a tie; else the rootstock. -/
def State.routeSlot (s : State) (asid t e view : Nat) : Nat :=
  let x := s.tab asid t
  let need : Word := BitVec.ofNat 32 view - BitVec.ofNat 32 x.sbound
  let cand := (x.expert e).slotsWith fun sl => sl.state == .live && !sl.rfr && reached (BitVec.ofNat 32 sl.stamp) need
  cand.foldl (fun m i => if m = 0 || ((x.expert e).slot i).ref < ((x.expert e).slot m).ref then i else m) 0

/-- `route` of one lane. -/
def State.routeLane (s : State) (l : Lane) (d a t : Nat) : State × Ans :=
  let asid := s.asidOf s.cur.blk
  let x := s.tab asid t
  let e := zv (l.rd a)
  if (l.rv a).side then (s, .trap 0x08 0)
  else if !x.bound then (s, .trap 0x14 (graftVal 1 t 0 0))
  else if x.nexp ≤ e then (s, .trap 0x14 (graftVal 2 t 0 0))
  else if (x.expert e).merging then (s, .trap 0x14 (graftVal 4 t e 0))
  else if !s.graftUp then (s, .regs (routeRegs d (BitVec.ofNat 32 (e * 16 + t * 2 ^ 16)) 0 (x.buf e 0)))
  else
    let die := s.siteOf s.cur.blk
    let i := s.routeSlot asid t e ((s.tabRegion asid t).view die)
    let ex := x.expert e
    let ex := { ex with load := fset 0 ex.load die (fget 0 ex.load die + 1), winLoad := ex.winLoad + 1 }
    let sl := ex.slot i
    let ex := ex.setSlot i { sl with ref := sl.ref + 1, hits := sl.hits + 1 }
    (s.setTab asid t (x.setExpert e ex),
     .regs (routeRegs d (BitVec.ofNat 32 (i + e * 16 + t * 2 ^ 16)) x.ver (x.buf e i)))

def execRoute (g : Guard) (d a t la : Nat) (s : State) : Res :=
  .next (s.laneMem (grp d 4 ++ [a]) [] g (some la) fun s _ l => s.routeLane l d a t)

/-- `rdone` of one lane. -/
def State.rdoneLane (s : State) (i : Nat) (l : Lane) (a : Nat) : State × Ans :=
  let asid := s.asidOf s.cur.blk
  if l.sideAny a 2 then (s, .trap 0x08 0)
  else match handleParts (l.rd a) (l.rd (a + 1)) with
    | (t, e, n, v) =>
        let x := s.tab asid t
        if !x.bound then (s, .trap 0x14 (graftVal 1 t 0 0))
        else if x.nexp ≤ e then (s, .trap 0x14 (graftVal 2 t 0 0))
        else
          let sl := s.gslot asid t e n
          if !sl.holds v then (s, .done)
          else if sl.ref = 0 then (s, .trap 0x14 (graftVal 3 t e n))
          else
            let s := s.releaseLane s.cur.blk s.cur.warp i .dev
            let sl := s.gslot asid t e n
            ((s.putSlot asid t e n { sl with ref := sl.ref - 1 }).settleSlot asid t e n, .done)

def execRdone (g : Guard) (a la : Nat) (s : State) : Res :=
  .next (s.laneMem (grp a 2) [] g (some la) fun s i l => s.rdoneLane i l a)

/-! ### The GRAFT members (21 R381, R382, R384) -/

/-- The descriptor of Table 21.1, when every field lies in its range. -/
def tabOf (bs : List Byte) : Option GTab :=
  let f := fieldOf bs
  let wbytes := f 0x10 4
  let gelem := f 0x24 4
  let elcnt := f 0x40 4
  let rbase : DWord := BitVec.ofNat 64 (f 0 8)
  let ok := canonical rbase && f 0 8 % 128 == 0 && f 8 8 % 128 == 0 && wbytes ≤ f 8 8 && wbytes % 128 == 0 && 128 ≤ wbytes &&
    wbytes ≤ 0x6000000 && 1 ≤ f 0x14 2 && f 0x14 2 ≤ 4096 && f 0x16 1 ≤ 15 && f 0x17 1 ≤ 1 && gelem % 32 == 0 && 32 ≤ gelem &&
    gelem ≤ 2 ^ 24 && f 0x28 8 % 128 == 0 && f 0x30 8 % 128 == 0 && 4 * gelem ≤ f 0x30 8 && f 0x38 8 % 64 == 0 &&
    16 ≤ elcnt && elcnt ≤ 65536 && elcnt &&& (elcnt - 1) == 0 && f 0x44 4 == 0 && f 0x48 8 % 65536 == 0 &&
    (bs.drop 0x50).all (· == 0)
  if ok then
    some { GTab.unbound with
      bound := true, rbase := rbase, rstride := BitVec.ofNat 64 (f 8 8), wbytes := wbytes, nexp := f 0x14 2, sbound := f 0x16 1
      auto := f 0x17 1 == 1, rgnid := BitVec.ofNat 32 (f 0x18 4), hot := f 0x1C 4, cold := f 0x20 4, gelem := gelem
      gbase := BitVec.ofNat 64 (f 0x28 8), gstride := BitVec.ofNat 64 (f 0x30 8), elog := BitVec.ofNat 64 (f 0x38 8), elcnt := elcnt
      store := BitVec.ofNat 64 (f 0x48 8), ver := 1 }
  else none

/-- Every rootstock range lies in the table's region. -/
def Ctx.rootsInside (c : Ctx) (x : GTab) : Bool :=
  c.regions.any fun r => r.2.id != 0 && r.2.id == x.rgnid && r.2.base.toNat ≤ x.rbase.toNat &&
    x.rbase.toNat + (x.nexp - 1) * x.rstride.toNat + x.wbytes ≤ r.2.base.toNat + r.2.len

/-- Cause 0x14 in every lane of the entry. -/
def State.graftTrap (s : State) (code t e : Nat) : State := s.raiseEntry 0x14 (graftVal code t e 0)

/-- A member of cell 0x0E of a warp: names, level, guard (21 R381). -/
def State.graftOp (s : State) (ss : List Nat) (priv : Bool) (g : Guard) (f : State → State) : State :=
  if s.cur.agent == .tiller || !s.namesOk [] ss then s.illegal
  else if priv && s.cur.level == .u then s.privileged
  else s.uniOp ss g f

/-- The checks of a bound table, then of the engine. -/
def State.needTab (s : State) (t : Nat) (f : State → State) : State :=
  if !s.graftUp then s.graftTrap 9 t 0
  else if !(s.tab (s.asidOf s.cur.blk) t).bound then s.graftTrap 1 t 0
  else f s

def execGraftBind (g : Guard) (t a : Nat) (s : State) : Res :=
  .next (s.graftOp (grp a 2) true g fun s =>
    let va := s.ur2 a
    let asid := s.asidOf s.cur.blk
    if va.toNat % 128 != 0 then s.raiseEntry 0x03 va
    else s.globalEntry .load va 128 fun s ps =>
          let r := s.uloadPieces ps
          let s := r.1
          if r.2.2 then s.raiseEntry 0x08 0
          else if !s.graftUp then s.graftTrap 9 t 0
          else if (s.tab asid t).bound then s.graftTrap 6 t 0
          else match tabOf r.2.1 with
            | none => s.graftTrap 5 t 0
            | some x => if (s.ctx asid).rootsInside x then (s.setTab asid t x).unext else s.graftTrap 5 t 0)

/-- A slot or expert keeps a table busy (21 R382). -/
def GTab.busy (x : GTab) : Bool :=
  x.experts.any fun e => e.2.merging || e.2.slots.any fun sl => sl.2.ref != 0 || (sl.1 != 0 && sl.2.state == .copying)

/-- The counter of a `gmerge` (detail 1) or `grefresh` (2) is incremented; a failed add leaves a kind-10 record (21 R382). -/
def State.graftCount (s : State) (asid : Nat) (va : DWord) (detail : Nat) : State :=
  match s.counterAdd asid va with
  | (s, true) => s
  | (s, false) => s.logMc { McRec.zero with kind := 10, ctx := asid, detail := detail, addr := va.toNat }

/-- Refreshes whose slots have settled add to their counters. -/
def State.finishRefresh (s : State) (asid t : Nat) : State :=
  let done := (s.tab asid t).work.filterMap fun w => match w with
    | .refresh [] c => some c
    | _ => none
  let s := s.setTab asid t { s.tab asid t with work := (s.tab asid t).work.filter fun w => match w with
    | .refresh [] _ => false
    | _ => true }
  done.foldl (fun s c => s.graftCount asid c 2) s

def execGraftUnbind (g : Guard) (t : Nat) (s : State) : Res :=
  .next (s.graftOp [] true g fun s => s.needTab t fun s =>
    let asid := s.asidOf s.cur.blk
    if (s.tab asid t).busy then s.graftTrap 7 t 0 else ((s.finishRefresh asid t).setTab asid t GTab.unbound).unext)

/-- `graft.rep`: status code and slot (21 R386). -/
def State.repStatus (s : State) (asid t e : Nat) : State × Nat :=
  match (s.tab asid t).expert e |>.slotsWith (fun sl => sl.state == .free) with
  | [] => (s, 1)
  | i :: _ => match s.chooseDie asid t e with
    | none => (s, 2)
    | some d => (s.startCopy asid t e i d, i * 256)

def execGraftRep (g : Guard) (t d a : Nat) (s : State) : Res :=
  .next (s.graftOp [d, a] true g fun s =>
    let asid := s.asidOf s.cur.blk
    let e := zv (s.ur a)
    if !(s.tab asid t).bound then s.graftTrap 1 t 0
    else if (s.tab asid t).nexp ≤ e then s.graftTrap 2 t 0
    else
      let r := if s.graftUp then s.repStatus asid t e else (s, 3)
      (r.1.uw d (BitVec.ofNat 32 r.2)).unext)

def execPrune (g : Guard) (t a b : Nat) (s : State) : Res :=
  .next (s.graftOp [a, b] true g fun s => s.needTab t fun s =>
    let asid := s.asidOf s.cur.blk
    let e := zv (s.ur a)
    let n := zv (s.ur b)
    if (s.tab asid t).nexp ≤ e then s.graftTrap 2 t 0
    else if 15 < n then s.graftTrap 8 t e
    else ((if n = 0 then upto 1 15 else [n]).foldl (fun s i => s.pruneSlot asid t e i) s).unext)

/-- The checks of a counter at acceptance (21 R382, R410): those of an atomic of the issuing level, and at level H, whose addresses are
physical, those of level S, at which the engine reaches the counter (log 73). -/
def State.needCounter (s : State) (a : Nat) (f : State → DWord → State) : State :=
  let va := s.ur2 a
  if va.toNat % 8 != 0 then s.raiseEntry 0x03 va
  else match s.xlateLane s.cur.blk (if s.cur.level = .h then .s else s.cur.level) .atomic va 8 with
    | (s, .error e) => s.raiseEntry e.1 e.2
    | (s, .ok _) => f s va

/-- Accept a merge of experts in ascending order. -/
def State.acceptMerge (s : State) (asid t : Nat) (es : List Nat) (va : DWord) : State :=
  let x := s.tab asid t
  let x := es.foldl (fun x e => x.setExpert e { x.expert e with merging := true }) x
  s.setTab asid t { x with work := x.work ++ [.merge es es va] }

/-- `gmerge` of a list of experts. -/
def State.gmergeOf (s : State) (t a : Nat) (es : List Nat) : State :=
  let asid := s.asidOf s.cur.blk
  s.needCounter a fun s va =>
    match es.find? fun e => ((s.tab asid t).expert e).merging with
    | some e => s.graftTrap 4 t e
    | none => (s.releaseEntry.acceptMerge asid t es va).unext

def execGmerge (g : Guard) (t a b : Nat) (s : State) : Res :=
  .next (s.graftOp (b :: grp a 2) false g fun s => s.needTab t fun s =>
    let e := zv (s.ur b)
    if (s.tab (s.asidOf s.cur.blk) t).nexp ≤ e then s.graftTrap 2 t 0 else s.gmergeOf t a [e])

def execGmergeAll (g : Guard) (t a : Nat) (s : State) : Res :=
  .next (s.graftOp (grp a 2) false g fun s => s.needTab t fun s =>
    s.gmergeOf t a (upto 0 (s.tab (s.asidOf s.cur.blk) t).nexp))

/-- Replica slots of a table that satisfy a test: expert and slot. -/
def GTab.replicas (x : GTab) (f : Slot → Bool) : List (Nat × Nat) :=
  (x.experts.map fun e => (e.2.slots.filter fun sl => sl.1 != 0 && f sl.2).map fun sl => (e.1, sl.1)).flatten

def execGrefresh (g : Guard) (t a : Nat) (s : State) : Res :=
  .next (s.graftOp (grp a 2) false g fun s => s.needTab t fun s => s.needCounter a fun s va =>
    let asid := s.asidOf s.cur.blk
    let c := (s.tabRegion asid t).count
    let x := s.tab asid t
    let live := x.replicas fun sl => sl.state == .live
    let wait := x.replicas fun sl => sl.state == .draining && sl.rfr
    let x := live.foldl (fun x k => x.setExpert k.1 ((x.expert k.1).setSlot k.2 { (x.expert k.1).slot k.2 with stamp := c })) x
    let s := s.setTab asid t { x with work := x.work ++ [.refresh wait va] }
    (if live = [] then s else s.publishTab asid t).unext)

/-- `STATE` in a record (21 Table 21.7). -/
def SlotState.num : SlotState → Nat
  | .free => 0 | .copying => 1 | .live => 2 | .draining => 3

/-- The 320 bytes of a `gtabq` record. -/
def State.gtabRecord (s : State) (asid t e : Nat) : List Byte :=
  let x := s.tab asid t
  let ex := x.expert e
  leBytes 4 x.ver.toNat ++ leBytes 4 e ++ leBytes 4 x.nexp ++ leBytes 4 ex.lastLoad ++ leBytes 4 (s.tabRegion asid t).count ++
  leBytes 1 x.sbound ++ leBytes 1 ((if ex.merging then 1 else 0) + (if s.graftUp then 0 else 2) + (if x.auto then 4 else 0)) ++
  leBytes 10 0 ++ leBytes 32 0 ++
  ((upto 0 16).map fun i =>
    let sl := ex.slot i
    leBytes 1 sl.state.num ++ leBytes 1 (if sl.rfr then 1 else 0) ++ leBytes 2 (min sl.hits 65535) ++ leBytes 4 sl.stamp ++
    leBytes 4 sl.ref ++ leBytes 4 sl.sver.toNat).flatten

/-- Translate n blocks of 64 bytes, each within its page. -/
def State.xlateSpan (s : State) (va : DWord) (kind : AccKind) : Nat → State × Except Stop (List Place)
  | 0 => (s, .ok [])
  | n + 1 => match s.xlateLane s.cur.blk s.cur.level kind va 64 with
    | (s, .error e) => (s, .error e)
    | (s, .ok ps) => match State.xlateSpan s (va + 64) kind n with
      | (s, .error e) => (s, .error e)
      | (s, .ok qs) => (s, .ok (ps.map (·.1) ++ qs))

def execGtabq (g : Guard) (t a b : Nat) (off : BitVec 16) (s : State) : Res :=
  .next (s.graftOp (b :: grp a 2) false g fun s =>
    let asid := s.asidOf s.cur.blk
    let e := zv (s.ur b)
    let va := s.uaddr a off
    if !(s.tab asid t).bound then s.graftTrap 1 t 0
    else if (s.tab asid t).nexp ≤ e then s.graftTrap 2 t 0
    else if va.toNat % 64 != 0 then s.raiseEntry 0x03 va
    else match s.xlateSpan va .store 5 with
      | (s, .error x) => s.raiseEntry x.1 x.2
      | (s, .ok ps) =>
          let held := s.heldUp (ps.map fun p => (p, 0, 64))
          if held != [] then s.holdIssue held
          else
            let bytes := s.gtabRecord asid t e
            (((upto 0 5).zip ps).foldl (fun s p => s.storeChunks (bytes.drop (64 * p.1)) [(p.2, 0, 64)] 4) s).unext)

/-! ### Merging (21 R380) -/

/-- The place of an address under translated pages. -/
def placeIn (ps : List (Nat × Place)) (va : Nat) : Place :=
  match ps.find? fun p => p.1 / 65536 == va / 65536 with
  | some p => { p.2 with pa := p.2.pa / 65536 * 65536 + va % 65536 }
  | none => { pa := 0, dom := 5, ord := 0, key := 0 }

/-- An element of a buffer; none when it is poison. -/
def State.gradElem (s : State) (pl : Place) : Option Nat :=
  let v := leNat (s.bytesAt pl.key pl.pa 4)
  if s.poisonAt pl.pa 4 || v == poison32.toNat then none else some v

/-- The sum of an element over the slots in ascending order, one rounding per addition; none is poison. -/
def gradSum : List (Option Nat) → Option Nat
  | [] => some 0
  | x :: r => r.foldl (fun acc y => match acc, y with
      | some a, some b => some (fdot fp32 [(fp32.decode a, fone), (fp32.decode b, fone)] none .rn false).1
      | _, _ => none) x

/-- Sum an expert's replica gradients into its rootstock buffer and clear them; buffers whose pages were translated first. -/
def State.mergeBufs (s : State) (asid t e : Nat) (ps : List (Nat × Place)) : State :=
  let x := s.tab asid t
  let at' (i j : Nat) : Place := placeIn ps ((x.buf e i).toNat + 4 * j)
  let s := (upto 0 16).foldl (fun s i => (upto 0 (x.gelem / 8)).foldl (fun s q => s.touchRead home asid (at' i (8 * q)).key (at' i (8 * q)).pa 32) s) s
  let s0 := s
  let s := (upto 0 (x.gelem / 8)).foldl (fun s q =>
    let vs := (upto (8 * q) 8).map fun j => gradSum ((upto 0 16).map fun i => s0.gradElem (at' i j))
    let pl := at' 0 (8 * q)
    s.writeMem home asid pl.key pl.pa ((vs.map fun v => leBytes 4 (v.getD poison32.toNat)).flatten) (vs.any (·.isNone))) s
  (upto 1 15).foldl (fun s i => (upto 0 (x.gelem / 8)).foldl (fun s q =>
    let pl := at' i (8 * q)
    s.writeMem home asid pl.key pl.pa (leBytes 32 0) false) s) s

/-- Translate every page of an expert's 16 buffers. -/
def State.mergePages (s : State) (asid t e : Nat) : List Nat → State × Except DWord (List (Nat × Place))
  | [] => (s, .ok [])
  | i :: r =>
      let x := s.tab asid t
      match s.agentPages asid .atomic (x.buf e i) (4 * x.gelem) with
      | (s, .error va) => (s, .error va)
      | (s, .ok ps) => match State.mergePages s asid t e r with
        | (s, .error va) => (s, .error va)
        | (s, .ok qs) =>
            let first := (x.buf e i).toNat / 65536
            (s, .ok (((upto first ps.length).zip ps).map (fun p => (p.1 * 65536, p.2.1)) ++ qs))

/-- The merge of one expert; one whose buffers cannot be reached is passed over (21 R410). -/
def State.mergeExpert (s : State) (asid t e : Nat) : State × Bool :=
  match s.mergePages asid t e (upto 0 16) with
  | (s, .ok ps) => (s.mergeBufs asid t e ps, true)
  | (s, .error va) =>
      (s.logMc { McRec.zero with kind := 11, ctx := asid, detail := 1 + t * 256 + e * 1024, addr := va.toNat }, false)

/-- No reference to an expert is held. -/
def Expert.unheld (x : Expert) : Bool := (upto 0 16).all fun i => (x.slot i).ref == 0

def GTab.stopMerging (x : GTab) (es : List Nat) : GTab := es.foldl (fun x e => x.setExpert e { x.expert e with merging := false }) x

/-- The first accepted merge whose next expert is unheld goes one expert further; after the last, its counter is incremented and its
experts stop merging. -/
def State.stepMerge (s : State) (asid t : Nat) : State :=
  let x := s.tab asid t
  let ready (w : GWork) : Bool := match w with
    | .merge (e :: _) _ _ => (x.expert e).unheld
    | _ => false
  match x.work.find? ready with
  | some (.merge (e :: left) all c) =>
      let r := s.mergeExpert asid t e
      let x := r.1.tab asid t
      let all' := if r.2 then all else all.filter (· != e)
      let x := if r.2 then x else x.stopMerging [e]
      if left = [] then
        let x := x.stopMerging all'
        (r.1.setTab asid t { x with work := x.work.erase (.merge (e :: left) all c) }).graftCount asid c 1
      else
        r.1.setTab asid t { x with work := x.work.map fun w => if w = .merge (e :: left) all c then .merge left all' c else w }
  | _ => s

/-- The engine takes the next step of its work, while a controller carries it out and no line of the memory is being recovered. -/
def State.engineStep (s : State) (f : State → State) : State := if s.engineUp && s.suspects == [] then f s else s

def execExpertMerge (asid tab : Nat) (s : State) : Res := .next (s.engineStep fun s => s.stepMerge asid tab)

/-- A refresh whose slots have settled adds to its counter. -/
def execGrefreshCounterAdd (asid tab : Nat) (s : State) : Res := .next (s.engineStep fun s => s.finishRefresh asid tab)

/-! ### Policy (21 R379) -/

/-- One expert at the end of a window. -/
def State.policyExpert (s : State) (asid t e : Nat) : State :=
  let x := s.tab asid t
  let ex := x.expert e
  let n := sumOf (ex.load.map fun p => p.2)
  let s := match ex.slotsWith fun sl => sl.state == .free with
    | i :: _ => if x.hot < n then (match s.chooseDie asid t e with
        | some d => s.startCopy asid t e i d
        | none => s) else s
    | [] => s
  let s := (ex.slotsWith fun sl => sl.state == .live && sl.whole && sl.hits < x.cold).foldl (fun s i => s.pruneSlot asid t e i) s
  let ex := (s.tab asid t).expert e
  s.setTab asid t ((s.tab asid t).setExpert e { ex with load := [], slots := ex.slots.map fun (sl : Nat × Slot) =>
    (sl.1, { sl.2 with hits := 0 }) })

/-- A new window begins for a table. -/
def GTab.window (x : GTab) : GTab :=
  { x with experts := x.experts.map fun (e : Nat × Expert) => (e.1, { e.2 with
      lastLoad := e.2.winLoad, winLoad := 0
      slots := e.2.slots.map fun (sl : Nat × Slot) => (sl.1, { sl.2 with whole := sl.2.state == .live }) }) }

/-- The tables of a context that are bound, and its experts with an entry. -/
def State.boundTabs (s : State) : List (Nat × Nat) :=
  (s.ctxs.map fun c => (c.2.tabs.filter fun t => t.2.bound).map fun t => (c.1, t.1)).flatten

/-- A window ends. -/
def execGraftWindowEnd (s : State) : Res :=
  .next (
    let s := s.reach s.windowAt
    let s := if !s.graftUp then s else (s.boundTabs.filter fun k => (s.tab k.1 k.2).auto).foldl (fun s k =>
      (fkeys (s.tab k.1 k.2).experts).foldl (fun s e => s.policyExpert k.1 k.2 e) s) s
    let s := s.boundTabs.foldl (fun s k => s.setTab k.1 k.2 (s.tab k.1 k.2).window) s
    { s with windowAt := s.windowAt + usec s.xgwin
             sites := s.sites.map fun (x : Nat × Site) => (x.1, { x.2 with resid := 0 }) })

/-! ### Fences (21 R378, R383) -/

/-- A fence of a die removes its slots from a table. A copy whose I/O die 0 was fenced before has failed by that (5, R377, R378). Of
another copying slot the log says that its copy failed (2) or that it was removed (6): 21 Table 21.4 and R383 differ, either is taken
(log 63). -/
def State.fenceTab (s : State) (site asid t : Nat) : State :=
  let x := s.tab asid t
  let gone := x.replicas fun sl => sl.state != .free && sl.site == site
  let pub := s.graftUp && gone.any fun k => (s.gslot asid t k.1 k.2).state != .copying
  let ver := if pub then x.ver + 1 else x.ver
  let s := gone.foldl (fun s k =>
    let cp := (s.gslot asid t k.1 k.2).state == .copying && (!s.graftUp || Config.choice s.freeIx % 2 == 0)
    let kind := if !cp then 6 else if s.graftUp then 2 else 5
    let s := s.tickFree.putSlot asid t k.1 k.2 (s.gslot asid t k.1 k.2).freed
    s.graftEvent asid t k.1 k.2 kind (if cp then x.ver else ver)) s
  let s := if pub then s.publishTab asid t else s
  { s with grids := s.grids.map fun (g : Nat × Grid) => match g.2.affine with
      | some (t', e, i) => if g.2.asid == asid && t' == t && gone.contains (e, i) then (g.1, { g.2 with affine := none }) else g
      | none => g }

/-- Every table, in ascending order. -/
def State.fenceGraft (s : State) (site : Nat) : State := s.boundTabs.foldl (fun s k => s.fenceTab site k.1 k.2) s

/-- No slot can be copied any more: accepted refreshes wait for none. -/
def GTab.copiesEnd (x : GTab) : GTab :=
  { x with work := x.work.map fun w => match w with
      | .refresh _ c => .refresh [] c
      | w => w }

/-- The standby settles the engine's work: copies fail with kind 5; drained slots are freed, and count as free for accepted refreshes
(21 R378). -/
def State.settleEngine (s : State) : State :=
  let s := s.boundTabs.foldl (fun s k =>
    let s := ((s.tab k.1 k.2).replicas fun sl => sl.state == .copying).foldl (fun s c => s.failCopy k.1 k.2 c.1 c.2 5) s
    s.setTab k.1 k.2 (s.tab k.1 k.2).copiesEnd) s
  s.settleGraft

end Sys2Proof.Machine
end

