-- ==== Sys2Proof/Machine/Events.lean ====
section
/-! DEFINITION. Events of lanes, warps and contexts: landing results, ends of pauses and waits, regrouping, runner entries, round
notices, stores performed, the binding of a context (03 R48, 05 R107, 13 R251, R255, 15 R274, R292, 19 R358, R359). -/

namespace Sys2Proof.Machine

open Sys2Proof

/-- A block whose lanes run. -/
def State.runs (s : State) (b : Nat) : Bool := (s.blk b).phase == .resident

/-- The results of a lane that are due land (05 R107), and those of the warp's uniform registers (05 R106). -/
def execResultLanding (blk warp lane : Nat) (s : State) : Res :=
  .next (if s.runs blk && (s.lane blk warp lane).occ == .live then
    let wp := s.warp blk warp
    s.setWarp blk warp { wp.setLane lane ((wp.lane lane).land 0) with due := [] } else s)

/-- The n cycles of a `pause` have passed (13 R255). -/
def execPauseExpiry (blk warp lane : Nat) (s : State) : Res :=
  .next (if s.runs blk && (s.lane blk warp lane).occ == .live then
    let t := (s.lane blk warp lane).paused
    (s.reach t).setLane blk warp lane { s.lane blk warp lane with paused := 0 } else s)

/-- Slices regroup into bundles: issue is by frontier entry, so nothing changes (03 R48). -/
def execSliceRegroup (s : State) : Res := .next s

/-- A lane in `mwait` wakes: the line holds a newer write (19 R358). -/
def State.mwaitWake (s : State) (b w i : Nat) : State :=
  match (s.lane b w i).park with
  | .mwait line _ _ _ => if s.lineNew (s.lane b w i) line then s.setLane b w i { s.lane b w i with park := .none } else s
  | _ => s

def execMwaitWake (blk warp lane : Nat) (s : State) : Res :=
  .next (if s.runs blk && (s.lane blk warp lane).occ == .live then s.mwaitWake blk warp lane else s)

/-- A lane of an execution of `mwait` whose deadline has passed without a write: its trap. -/
def State.timedOutOf (s : State) (b w ex i : Nat) : Option Raise :=
  match (s.lane b w i).park with
  | .mwait line vline deadline x =>
      if x == ex && deadline ≤ s.clock && !s.lineNew (s.lane b w i) line then
        some { lane := i, cause := 0x0B, val := vline, epc := (s.lane b w i).pc, pi := 0, exec := ex }
      else none
  | _ => none

/-- The timeout of an `mwait` passes without a write: cause 0x0B at the instruction after it, in one cohort with the lanes of the same
execution whose timeout has passed (19 R342, R358, Table 19.3). -/
def State.mwaitTimeout (s : State) (b w i : Nat) : State :=
  match (s.lane b w i).park with
  | .mwait line _ deadline ex =>
      let s := s.reach deadline
      if s.lineNew (s.lane b w i) line then s.mwaitWake b w i
      else (s.raiseAll b w ((s.warp b w).live.filterMap (s.timedOutOf b w ex))).settleWarp b w
  | _ => s

def execMwaitTimeout (blk warp lane : Nat) (s : State) : Res :=
  .next (if s.runs blk && (s.lane blk warp lane).occ == .live then s.mwaitTimeout blk warp lane else s)

/-- The oldest entry of a warp in hop on a side arrives (13 R251). -/
def execRunnerEntryArrive (blk warp : Nat) (dir : Dir) (s : State) : Res :=
  .next ((s.landHop blk warp dir).wakeChain blk warp)

/-- A die receives the oldest notice of a region that it has not received (15 R292). -/
def execRoundNotice (asid rgn site : Nat) (s : State) : Res := .next (s.receiveNotice asid rgn site)

/-- The n-th pending store of a block is performed, after those that come before it (15 R273, R274), unless a home holds its request (23
R402). -/
def execAccessPerformed (blk n : Nat) (s : State) : Res :=
  .next (match (s.blk blk).pend[n]? with
    | some p => if (linesOf p.addr p.bytes.length).any (s.lineHeld false) then s else s.drainIf blk fun x => x == p
    | none => s)

/-! ### Context descriptors (19 R359) -/

/-- The context that 128 bytes of a descriptor give, when every field lies in its range (19 Table 19.6). -/
def ctxOf (part : Nat) (bs : List Byte) : Option (Nat × Ctx) :=
  let f := fieldOf bs
  let age := f 0x26 2
  let d (off : Nat) : DWord := BitVec.ofNat 64 (f off 8)
  if f 0x20 2 ≤ 4096 && f 0x24 2 ≤ 1023 && f 0x18 8 % 16 == 0 && f 0x28 8 % 65536 == 0 then
    some (f 0x22 2, { Ctx.unbound with
      bound := true
      part := part
      xptb := (d 0).extractLsb' 14 38
      xdeleg := (d 0x10 &&& delegMask) ||| delegOnes
      xasid := BitVec.ofNat 16 (f 0x22 2)
      xkey := BitVec.ofNat 10 (f 0x24 2)
      xage := BitVec.ofNat 16 (if age = 0 then 256 else if age < 64 then 64 else age)
      xshadow := (d 0x38).getLsbD 0
      svec := d 0x08
      rtab := d 0x18
      rcnt := f 0x20 2
      save := f 0x28 8
      savesz := f 0x30 8 })
  else none

/-- A context of which no grid lives and no record waits in a device queue may be bound. -/
def State.idleCtx (s : State) (asid : Nat) : Bool :=
  !(s.grids.any fun g => g.2.asid == asid && g.2.phase == .live) && (s.ctx asid).devq.all fun q => q.2 == []

/-- H-level firmware binds a descriptor in physical memory to a partition: one read under key id 0. -/
def execBindContextDescriptor (part addr : Nat) (s : State) : Res :=
  .next (
    if s.phase != .up || 256 ≤ part then s
    else
      let s1 := s.touchRead home 0 0 addr 128
      if s1.poisonAt addr 128 then s1
      else match ctxOf part (s1.bytesAt 0 addr 128) with
        | none => s1
        | some (asid, c) => if s1.idleCtx asid then s1.setCtx asid c else s1)

end Sys2Proof.Machine
end

