-- ==== Sys2Proof/Machine/Package.lean ====
section
/-! DEFINITION. The life of the package: reset and boot (01 R38 to R40, R43), fences and spares (R15 to R18, 23 R408), channel losses,
shrinks and re-hash (R19 to R26), clocks (R31, R32), banks and rows (23 R389). -/

namespace Sys2Proof.Machine

open Sys2Proof

/-! ### Reset, boot, readiness (01 R38, R40, R43) -/

/-- Package reset; the host's memory, the straps, and what stands outside the machine stay. -/
def State.packageReset (s : State) : State :=
  { State.reset with hostMem := s.hostMem, straps := s.straps, agenda := s.agenda, freeIx := s.freeIx, steps := s.steps, outs := s.outs }

def execPackageReset (s : State) : Res := .next s.packageReset

/-- A bit of the straps: bits 0 to 23 sites, 24 to 35 stacks. -/
def State.declared (s : State) (n : Nat) : Bool := (s.straps[n / 8]?.getD 0).getLsbD (n % 8)

/-- An entry of the boot log; its status code is free. -/
def State.logBoot (s : State) (step unit : Nat) : State :=
  { s.tickFree with dvsec := { s.dvsec with log := s.dvsec.log ++ [{ step := step, unit := unit, status := Config.choice s.freeIx, time := s.nsclk }] } }

/-- Cold Frame with the failing step, kind and unit (01 R38, Table 1.8). -/
def State.coldFrame (s : State) (step kind unit : Nat) : State :=
  { s.logBoot step unit with
    phase := .coldFrame
    dvsec := { (s.logBoot step unit).dvsec with dstep := step, dkind := kind, dunit := unit } }

/-- One of several units that failed. -/
def State.anyUnit (s : State) (us : List Nat) : Nat := us[Config.choice s.freeIx % us.length]?.getD 0

/-- What of the declared topology failed to train, and what trained undeclared, as `DUNIT` numbers. -/
def State.topology (s : State) (sites : BitVec 24) (hbm : BitVec 12) (trained : Bool) : List Nat × List Nat :=
  ((upto 0 24).filter fun n => sites.getLsbD n == trained && s.declared n != trained,
   ((upto 0 12).filter fun k => hbm.getLsbD k == trained && s.declared (24 + k) != trained).map fun k => 0x100 + k)

/-- `DKIND` of a unit that failed to train: a site or a stack (01 Table 1.8). -/
def unitKind (u : Nat) : Nat := if u < 0x100 then 2 else 3

/-- The end of boot: the signatures, then the declared sites and stacks, of which one that failed is named by free choice, then those
that trained undeclared: R38 names no effect of these, `DKIND` 4 of Table 1.8 has the package in Cold Frame (log 7). -/
def execBootTopologyCheck (signatureOk : Bool) (sites : BitVec 24) (hbm : BitVec 12) (s : State) : Res :=
  .next (
    if s.phase != .booting then s
    else if !signatureOk then s.tickFree.coldFrame 2 1 (Config.choice s.freeIx % 65536)
    else
      let missing := s.topology sites hbm false
      let extra := s.topology sites hbm true
      if missing.1 ++ missing.2 != [] then
        s.tickFree.coldFrame 3 (unitKind (s.anyUnit (missing.1 ++ missing.2))) (s.anyUnit (missing.1 ++ missing.2))
      else if extra.1 ++ extra.2 != [] then s.tickFree.coldFrame 4 4 (s.anyUnit (extra.1 ++ extra.2))
      else { s.logBoot 4 0 with phase := .up })

/-- A die that joins sees every region at its present round. -/
def State.joinViews (s : State) (site : Nat) : State :=
  { s with ctxs := s.ctxs.map fun (c : Nat × Ctx) => (c.1, { c.2 with
      regions := c.2.regions.map fun (r : Nat × Region) => (r.1, { r.2 with views := fset 0 r.2.views site r.2.count }) }) }

/-- A node becomes active and its bit is set. -/
def State.activate (s : State) (site : Nat) : State :=
  ((s.modSite site fun x => { x with stat := .active }).setRdy site).joinViews site

/-- A site, by its number. A cache die or an I/O die publishes nothing; the next generation of any kind shows its L3 (log 18). -/
def State.siteReady (s : State) (n : Nat) : State :=
  if s.declared n && n != 16 && n != 17 && (s.site n).stat == .off then
    let s := s.activate n
    if n < 18 then s.publish 2 n 0 0 else s
  else s

/-- The channels that carry traffic (01 R19, R20). -/
def State.liveChannels (s : State) : List Nat :=
  (upto 0 384).filter fun c => s.rdy (24 + c / 32) && !s.losses.any fun l => l.ch == c

/-- Lines are laid over the channels that carry traffic now, by the hash of the present generation (01 R19). -/
def State.layNow (s : State) : Lay := { gen := s.cap.gen.toNat, chans := s.liveChannels }

/-- Placement after a stack has joined: all lines anew, those that a re-hash still moves too (01 R19). -/
def State.placeStack (s : State) : State :=
  { s with placing := { lay := s.layNow, re := s.placing.re.map fun r => { r with next := s.layNow } } }

/-- A stack, by its number; one whose channels are all lost does not come back. -/
def State.stackReady (s : State) (k : Nat) : State :=
  if s.declared (24 + k) && (s.losses.filter fun l => l.ch / 32 == k).length < 32 then
    ((s.setRdy (24 + k)).publish 5 (18 + k / 3) (32 * k) 0).placeStack
  else s

/-- A peer port that has trained, on an I/O die that is not fenced. -/
def State.peerReady (s : State) (p : Nat) : State :=
  if (s.peer p).disabled || !s.forwards (portSite p) then s
  else ((s.setPeer p { s.peer p with trained := true }).setRdy (36 + p)).publish 2 22 0 0

/-- An item of Table 1.6 becomes usable; its number is that of its bit. -/
def execNodeReady (item : Nat) (s : State) : Res :=
  .next (
    if s.phase != .up || s.rdy item then s
    else if item < 24 then s.siteReady item
    else if item < 36 then s.stackReady (item - 24)
    else if item < 52 then s.peerReady (item - 36)
    else if item = 52 then (if s.rdy s.ioSite && s.io != .changeover then s.setRdy 52 else s)
    else if item = 53 then (if s.rdy 22 && s.io == .primary then s.setRdy 53 else s)
    else if item = 54 then s.publishFirst.setRdy 54
    else if item = 55 then s.setRdy 55
    else s)

/-! ### Fences (01 R15, R16, 23 R408) -/

/-- A planned fence of a compute die begins: no block is placed on it, and 1 ms runs. -/
def State.startFence (s : State) (site : Nat) : State :=
  if site < 18 && (s.site site).stat == .active then
    s.modSite site fun x => { x with stat := .fencing, deadline := s.clock + usec 1000 }
  else s

def execPlannedFence (site : Nat) (s : State) : Res := .next (s.startFence site)

/-- A die's L2 writes back every dirty line to its home (R16). -/
def State.cleanDie (s : State) (site : Nat) : State :=
  ((fkeys (s.site site).dirty).map (· / 4)).eraseDups.foldl (fun s l => s.writeBack l (· == site)) s

/-- Blocks still resident at 1 ms are preempted; those for whose images there is no room are contained as error-fenced; held stores
move; the die writes back (R16, 19 R360, 23 R396). -/
def State.drainDie (s : State) (site : Nat) : State :=
  let bs := (s.onDie site).filter s.canPreempt
  let s := bs.foldl (fun s b => if (s.blk b).phase == .resident then (s.preempt b).getD s else s) s
  let s := s.containAll ((s.onDie site).filter s.canPreempt) 0x15
  (s.moveHeld site).cleanDie site

def execPlannedFenceDrainExpiry (site : Nat) (s : State) : Res :=
  .next (if (s.site site).stat == .fencing then (s.reach (s.site site).deadline).drainDie site else s)

/-- Acknowledgements that a node owes count as received (23 R408). -/
def State.dropAcks (s : State) (site : Nat) : State :=
  { s with suspects := s.suspects.filterMap fun (x : Nat × Option Suspect) => match x.2 with
      | some q => if q.owed.filter (· != site) = [] then none else some (x.1, some { q with owed := q.owed.filter (· != site) })
      | none => none }

/-- Places of the directory that go with a node: its own, and with I/O die 0 the host's halves, which CXL recalls (01 R15, 11 R218). -/
def goneWith (site n : Nat) : Bool := n == site || (site == 22 && (n == 24 || n == 25))

/-- What a node held goes with it: its caches, TLBs, stamped copies, its place as a sharer, the notices on their way to it; with I/O die
0 what the bridge holds. -/
def State.forgetNode (s : State) (site : Nat) : State :=
  { (s.modSite site fun x => { x with tlb1 := [], tlb2 := [], invs := [], stamped := [], dirty := [], bad := [], incoming := none }) with
    dir := s.dir.map fun (x : Nat × List Nat) => (x.1, x.2.filter fun n => !goneWith site n)
    bridge := if site = 22 then [] else s.bridge
    ctxs := s.ctxs.map fun (c : Nat × Ctx) => (c.1, { c.2 with
      regions := c.2.regions.map fun (r : Nat × Region) => (r.1, { r.2 with notices := r.2.notices.filter fun n => n.1 != site }) }) }

/-- A channel is lost: one generation; the stack's bit clears with its last channel; a fall of `CAP.HBM` waits for its
acknowledgement (R20 to R25). -/
def State.loseChannel (s : State) (ch : Nat) (abrupt : Bool) : State :=
  if 384 ≤ ch || !s.rdy (24 + ch / 32) || s.losses.any (fun l => l.ch == ch) then s
  else
    let old := (s.capNow 0).hbm
    let put (sh : Option (Nat × Nat)) : State :=
      { s with losses := s.losses ++ [{ ch := ch, gen := s.cap.gen + 1, abrupt := abrupt, shrink := sh, acked := false, done := false
                                        placing := s.placing, good := [] }] }
    let new := ((put none).capNow 0).hbm
    let s := put (if s.capLog && new < old then some (new, old) else none)
    let s := if (s.losses.filter fun l => l.ch / 32 == ch / 32).length = 32 then s.clearRdy (24 + ch / 32) else s
    s.publish (if abrupt then 4 else 3) (18 + ch / 96) ch (old - new)

/-- The peer ports of an I/O die are lost with it (log 67). -/
def State.stopPorts (s : State) (site : Nat) : State :=
  ((upto 0 16).filter fun p => portSite p == site).foldl (fun s p => s.clearRdy (36 + p)) s

/-- What stops with a node: with I/O die 0 its Dibber, until the standby has taken over, and the engine; with the standby the Dibber for
good; with either its peer ports; with a cache die the channels that it controls (01 R14, R18, R40). -/
def State.stopNode (s : State) (site : Nat) : State :=
  if site = 22 then ((if s.io == .primary then s.clearRdy 52 else s).clearRdy 53).stopPorts 22
  else if site = 23 then (if s.io == .primary then s else s.clearRdy 52).stopPorts 23
  else if 18 ≤ site && site < 22 then (upto (96 * (site - 18)) 96).foldl (fun s c => s.loseChannel c true) s
  else s

/-- The four steps of R15, with what a fence entails: one generation of kind 1, the owed acknowledgements, the replica slots; traffic to
the node ends. -/
def State.fenceNode (s : State) (site : Nat) : State :=
  let s := ((s.modSite site fun x => { x with stat := .fenced }).clearRdy site).forgetNode site
  let s := s.dropAcks site
  ((s.fenceGraft site).publish 1 site 0 0).stopNode site

/-- A planned fence completes when no block is resident, and the die has written back what it held. -/
def execNodeFence (site : Nat) (s : State) : Res :=
  .next (if (s.site site).stat == .fencing && s.onDie site == [] then ((s.moveHeld site).cleanDie site).fenceNode site else s)

/-- Sectors of a list are poisoned at their homes; a half of a host line that holds one goes back to the host with it. -/
def State.poisonSectors (s : State) (secs : List Nat) : State :=
  secs.foldl (fun s x => if s.paKind (x * 32) == .host then s.bridgeDirty (x * 32) else s)
    { s with poison := secs.foldl (fun m x => fset false m x true) s.poison }

/-- Blocks that a die takes with it: those resident, and the preempted ones whose held stores it keeps (23 R396). -/
def State.lostBlocks (s : State) (site : Nat) : List Nat :=
  s.onDie site ++ (fkeys s.blocks).filter fun b => (s.blk b).phase == .preempted && (s.blk b).site == site && s.holding b && (s.blk b).hold != []

/-- Nothing that a lost block has not performed leaves the die; one that cannot be relaunched holds no store to commit. -/
def State.severBlock (s : State) (b : Nat) : State :=
  let keep := s.mayRelaunch b
  s.modBlk b fun k => { k with pend := [], cmds := [], cancelled := [], hold := if keep then k.hold else [] }

/-- The blocks of an error-fenced die are contained (R16, 23 R393). -/
def State.loseBlocks (s : State) (site : Nat) : State :=
  let bs := s.lostBlocks site
  (bs.foldl State.severBlock s).containAll bs 0x15

/-- An error fence: the sectors that the node held modified are poisoned, its blocks are contained, the node is fenced. -/
def State.errorFence (s : State) (site : Nat) (latched : List Nat) : State :=
  if !(s.site site).isActive then s
  else
    let secs := latched.filter fun x => if site < 18 then fget false (s.site site).dirty x else s.paKind (x * 32) == .hbm
    ((s.poisonSectors secs).loseBlocks site).fenceNode site

def execErrorFence (site : Nat) (latched : List Nat) (s : State) : Res := .next (s.errorFence site latched)

/-- The sectors that a die in fact held modified, of those that it may hold so: the part's choice. -/
def State.latchedOf (s : State) (site : Nat) : List Nat :=
  (fkeys (s.site site).dirty).filter fun x => Config.choice ((s.freeIx + 1) * 2 ^ 52 + x) % 2 == 0

/-- An error fence that the part itself decides on. -/
def State.silentFence (s : State) (site : Nat) : State := s.tickFree.errorFence site (s.latchedOf site)

/-! ### Spares and the standby I/O die (01 R17, R18) -/

/-- Fenced compute dies, and spares that have joined. -/
def State.fencedDies (s : State) : Nat := (computeSites.filter fun n => (s.site n).stat == .fenced).length
def State.joined (s : State) : Nat := ([16, 17].filter fun n => (s.site n).stat != .off).length

/-- The spare that is tried next: ascending, after a fence that no spare has made good. One that has failed is not tried again
(log 18). -/
def State.mayJoin (s : State) (site : Nat) : Bool :=
  s.phase == .up && (site == 16 || site == 17) && (s.site site).stat == .off && !(s.site site).tried &&
  (site == 16 || (s.site 16).stat != .off || (s.site 16).tried) && s.joined < s.fencedDies && s.dies.length < 16

def execSpareJoin (site : Nat) (selfTestOk : Bool) (s : State) : Res :=
  .next (
    if !s.mayJoin site then s
    else
      let s := s.modSite site fun x => { x with tried := true }
      if selfTestOk then (s.activate site).publish 2 site 0 0 else s)

/-- I/O die 1 starts to take over; it settles the engine's work (R18, 21 R378). -/
def execIoDieChangeover (s : State) : Res :=
  .next (if (s.site 22).stat == .fenced && s.io == .primary && (s.site 23).isActive then { s with io := .changeover }.settleEngine else s)

def execIoDieChangeoverComplete (s : State) : Res :=
  .next (if s.io = .changeover && (s.site 23).isActive then { s with io := .standby }.setRdy 52 else s)

/-! ### Channel losses, shrinks, re-hash (01 R20 to R25) -/

def execChannelLossPlanned (ch : Nat) (s : State) : Res := .next (s.loseChannel ch false)
def execChannelLossAbrupt (ch : Nat) (s : State) : Res := .next (s.loseChannel ch true)

/-- A write of G: ignored while unpublished; else every shrink up to G is acknowledged and its range leaves the map (R24, R25). -/
def State.ackShrinks (s : State) (g : Word) : State :=
  let ahead := (g - s.cap.gen).toNat
  if 1 ≤ ahead && ahead < 2 ^ 31 then s
  else
    let hit (l : Loss) : Bool := reached g l.gen
    let lows := s.losses.filterMap fun l => if hit l && !l.acked then l.shrink.map (·.1) else none
    let s := { s with bar2 := { s.bar2 with shrkack := g }
                      losses := s.losses.map fun l => if hit l then { l with acked := true } else l
                      hdmTop := lows.foldl (fun m x => if x < m then x else m) s.hdmTop }
    if s.capLog then { s with hbmTop := s.backedTop } else s

/-- A loss whose re-hash may start (R22). -/
def Loss.ready (l : Loss) : Bool := !l.done && (l.shrink == none || l.acked)

/-- The re-hash of the earliest loss that is ready starts: the new placement is over the channels that carry traffic. -/
def execRehashStart (s : State) : Res :=
  .next (match s.placing.re, s.losses.find? Loss.ready with
    | none, some l => { s with placing := { s.placing with re := some { ch := l.ch, next := s.layNow, marks := [] } } }
    | _, _ => s)

/-- One line further: the watermark of the first channel, in ascending order, that has not passed the end of memory; no value, poison or
order changes (R21). -/
def execRehashLineMove (s : State) : Res :=
  .next (match s.placing.re with
    | some r =>
        let chans := (upto 0 384).filter fun c => s.placing.lay.chans.contains c
        match chans.find? fun c => fget 0 r.marks c * 128 < s.hbmTop with
        | some c => { s with placing := { s.placing with re := some { r with marks := fput r.marks c (fget 0 r.marks c + 1) } } }
        | none => s
    | none => s)

/-- Every line that is left has moved. -/
def execRehashComplete (s : State) : Res :=
  .next (match s.placing.re with
    | some r =>
        let ended (l : Loss) : Loss := if l.ch = r.ch then { l with done := true } else l
        ({ s with placing := { lay := r.next, re := none }, losses := s.losses.map ended }).publish 5 (18 + r.ch / 96) r.ch 0
    | none => s)

/-! ### Clocks (01 R31, R32) -/

def execClockReplan (site mhz : Nat) (s : State) : Res :=
  .next (
    if !(s.site site).isActive || 24 ≤ site then s
    else if site < 18 && mhz < 1000 then s.startFence site
    else (s.modSite site fun x => { x with mhz := mhz }).publish 6 site 0 0)

/-- Power is removed from the module, and the package resets. -/
def execClockHoldFailure (site : Nat) (s : State) : Res := .next (if site < 18 && (s.site site).isActive then s.packageReset else s)

/-! ### Banks and spare rows (23 R389) -/

/-- A bank that has not been removed: of the L2 of a compute die, or of the L3 of a cache die. -/
def State.bankLeft (s : State) (site bank : Nat) (l3 : Bool) : Bool :=
  let x := s.site site
  if l3 then 18 ≤ site && site < 22 && bank < 128 && !x.banksL3.contains bank else site < 18 && bank < 64 && !x.banksL2.contains bank

/-- A failing row, at boot or in service, takes one of the bank's 32 spare rows, with its contents. -/
def execRowRemap (site bank : Nat) (l3 : Bool) (s : State) : Res :=
  .next (
    let used := fget 0 (s.site site).rows bank
    if s.bankLeft site bank l3 && (s.site site).stat != .fenced && used < 32 then
      s.modSite site fun x => { x with rows := fput x.rows bank (used + 1) }
    else s)

/-- A die's L2 bank gives up its lines: the dirty ones are written back, every copy is dropped. Which lines a bank holds is free. -/
def State.emptyBank (s : State) (site bank : Nat) : State :=
  let here (l : Nat) : Bool := Config.bankOf l % 64 == bank
  let s := (((fkeys (s.site site).dirty).map (· / 4)).eraseDups.filter here).foldl (fun s l => s.writeBack l (· == site)) s
  { s.modSite site fun x => { x with bad := x.bad.filter fun e => !here (e.1 / 4), stamped := x.stamped.filter fun c => !here c.line } with
    dir := s.dir.map fun (x : Nat × List Nat) => if here x.1 then (x.1, x.2.filter (· != site)) else x }

/-- A bank that needs a spare row and has none is removed; a die whose L2 beside the graft partition would fall below 16 MiB is fenced
instead. -/
def execBankRemoval (site bank : Nat) (l3 : Bool) (s : State) : Res :=
  .next (
    let x := s.site site
    if !(x.isActive && s.bankLeft site bank l3) || fget 0 x.rows bank < 32 then s
    else if l3 then (s.setSite site { x with banksL3 := x.banksL3 ++ [bank] }).publish 7 site bank 0
    else if x.l2 < 0x200000 + x.gpart * 2 ^ 20 + 0x1000000 then s.startFence site
    else ((s.emptyBank site bank).modSite site fun x => { x with banksL2 := x.banksL2 ++ [bank] }).publish 7 site bank 0)

end Sys2Proof.Machine
end

