-- ==== Sys2Proof/Machine/HostIf.lean ====
section
/-! DEFINITION. The host's side of the part: management registers (01 R36, R37, 03 R67), the diagnostic mailbox and attestation (01
R39, R41), accesses to device memory by the host and by peers (11 R218, 01 R37), snoops and evictions of host lines (11 R216, R217). -/

namespace Sys2Proof.Machine

open Sys2Proof

/-! ### Management registers (01 R36) -/

/-- A write of all or half of an 8-byte register, as a write of the whole. -/
def mergePart (old v : DWord) : Sys2Proof.Part → DWord
  | .whole => v
  | .lo => hi32 old ++ lo32 v
  | .hi => lo32 v ++ lo32 old

/-- A write to BAR2; in Cold Frame the memory BARs do not respond (01 R38). -/
def State.barWrite (s : State) (f : Bar2 → Bar2) : State := if s.phase = .coldFrame then s else { s with bar2 := f s.bar2 }

/-- `NRBASE`: while the ring is in use only `NREN` changes; setting it starts both counts afresh. -/
def Bar2.putNrbase (x : Bar2) (v : DWord) : Bar2 :=
  let en := v &&& 1
  if x.nren then { x with nrbase := x.nrbase &&& ~~~1 ||| en }
  else if en = 1 then { x with nrbase := v &&& ~~~0x3E, nrtail := 0, nrhead := 0 }
  else { x with nrbase := v &&& ~~~0x3E }

def execNrbase (part : Sys2Proof.Part) (v : DWord) (s : State) : Res := .next (s.barWrite fun x => x.putNrbase (mergePart x.nrbase v part))

/-- `NRSTAT`: a write of 1 clears the bit. -/
def Bar2.putNrstat (x : Bar2) (v : Word) : Bar2 := { x with nrstat := x.nrstat && !v.getLsbD 0 }

def execNrstat (v : Word) (s : State) : Res := .next (s.barWrite fun x => x.putNrstat v)

/-- `B4BASE`: accesses may go on using the old value until a read has returned the new one. -/
def Bar2.putB4base (x : Bar2) (v : DWord) : Bar2 :=
  let v := v &&& 0x000FFFFFC0000000
  if v = x.b4base then x else { x with b4base := v, b4olds := x.b4olds ++ [x.b4base] }

def execB4base (part : Sys2Proof.Part) (v : DWord) (s : State) : Res := .next (s.barWrite fun x => x.putB4base (mergePart x.b4base v part))

/-- `PWEN`: the windows onto the peers, and a peer's own accesses to this part (log 60). -/
def Bar2.putPwen (x : Bar2) (v : DWord) : Bar2 := { x with pwen := v.extractLsb' 0 16 }

def execPwen (v : DWord) (s : State) : Res := .next (s.barWrite fun x => x.putPwen v)

/-- `PORTVF` of a port; the upper half is reserved. -/
def Bar2.putPortvf (x : Bar2) (port : Nat) (part : Sys2Proof.Part) (v : DWord) : Bar2 :=
  { x with portvf := fset 0 x.portvf port ((mergePart (BitVec.ofNat 64 (fget 0 x.portvf port)) v part).toNat % 32) }

def execPortvf (port : Nat) (part : Sys2Proof.Part) (v : DWord) (s : State) : Res :=
  .next (if port < 64 then s.barWrite fun x => x.putPortvf port part v else s)

/-- A write to `SHRKACK`. -/
def execShrkack (v : Word) (s : State) : Res := .next (if s.phase = .up then s.ackShrinks v else s)

/-- The 4-byte registers. -/
def Bar2.put4 (x : Bar2) (off : Nat) (v : Word) : Bar2 :=
  match off with
  | 0x18 => if x.nren then x else { x with nrsize := clampTo 4 16 (v.toNat % 32) }
  | 0x1C => { x with nrvec := v.extractLsb' 0 12 }
  | 0x24 => { x with nrhead := v }
  | 0x28 => x.putNrstat v
  | _ => x

/-- The 8-byte registers without an effect beyond the block: `off` names the register. -/
def Bar2.put8 (x : Bar2) (off : Nat) (part : Sys2Proof.Part) (v : DWord) : Bar2 :=
  if off = 0x10 then x.putNrbase (mergePart x.nrbase v part)
  else if off = 0x30 then { x with dnbase := mergePart x.dnbase v part &&& 0x000FFFFFFFFFF001 }
  else if off = 0x40 then x.putB4base (mergePart x.b4base v part)
  else if off = 0x100 then x.putPwen (mergePart (x.pwen.zeroExtend 64) v part)
  else if 0x110 ≤ off && off < 0x190 then
    let p := (off - 0x110) / 8
    { x with pwsize := fset 0 x.pwsize p ((mergePart (BitVec.ofNat 64 (fget 0 x.pwsize p * 2 ^ 30)) v part).toNat / 2 ^ 30 % 2 ^ 17) }
  else if 0x200 ≤ off && off < 0x400 then x.putPortvf ((off - 0x200) / 8) part v
  else if off = 0x1008 then { x with mccfg := (mergePart (x.mccfg.zeroExtend 64) v part).extractLsb' 0 12 }
  else x

/-- Offsets of 8 bytes that hold two registers of 4. -/
def pairAt (off : Nat) : Bool := off == 0x18 || off == 0x20 || off == 0x28

/-- A naturally aligned write of 4 or 8 bytes at a BAR2 offset. -/
def State.bar2Write (s : State) (off size : Nat) (v : DWord) : State :=
  let reg := off / 8 * 8
  if reg = 0x08 then
    (if size = 8 || off = 0x08 then (if s.phase = .up then s.ackShrinks (lo32 v) else s) else s)
  else s.barWrite fun x =>
    if pairAt reg then (if size = 8 then (x.put4 reg (lo32 v)).put4 (reg + 4) (hi32 v) else x.put4 off (lo32 v))
    else x.put8 reg (if size = 8 then .whole else if off = reg then .lo else .hi) v

/-- `PCFG` of a port (03 Table 3.3). -/
def Port.putCfg (x : Port) (part : Sys2Proof.Part) (v : DWord) : Port :=
  let old : DWord := BitVec.ofNat 64 (x.pcap + (if x.enable then 4 else 0) + x.asid * 2 ^ 16)
  let v := mergePart old v part
  { x with pcap := v.toNat % 4, enable := v.getLsbD 2, asid := v.toNat / 2 ^ 16 % 2 ^ 16 }

/-- A write of 4 or 8 bytes at a BAR0 offset of the physical function, outside the record windows. -/
def State.bar0Write (s : State) (off size : Nat) (v : DWord) : State :=
  let p := off / 4096
  let o := off % 4096
  if s.phase = .coldFrame || 64 ≤ p || o / 8 * 8 != 0x80 then s
  else s.setPort p ((s.port p).putCfg (if size = 8 then .whole else if o = 0x80 then .lo else .hi) v)

/-- Replace bytes of a list from an index. -/
def overwrite (xs : List Byte) (i : Nat) (ys : List Byte) : List Byte := xs.take i ++ ys ++ xs.drop (i + ys.length)

/-- `MBDATA` as 32 bytes. -/
def Dvsec.data (x : Dvsec) : List Byte := (x.mbdata ++ List.replicate 32 0).take 32

/-! ### The mailbox and attestation (01 R39, R41) -/

/-- The management controller works: on I/O die 0's rail, or on die 1's once it has taken over (01 R18, R41). Boot counts no site as
ready, so a die that has not been fenced has the rail. -/
def State.controllerUp (s : State) : Bool :=
  match s.io with
  | .primary => (s.site 22).stat != .fenced
  | .changeover => false
  | .standby => (s.site 23).stat != .fenced

/-- A write of `MBCMD` sets `MBSTAT` to 1, whatever the value; it is discarded while a command runs (01 Table 1.8). -/
def State.mailbox (s : State) (cmd : Word) : State :=
  if s.dvsec.mbstat = 1 then s else { s with dvsec := { s.dvsec with mbcmd := cmd, mbstat := 1 } }

def execMbcmdReadLog (s : State) : Res := .next (s.mailbox 1)
def execMbcmdReadMeasurement (s : State) : Res := .next (s.mailbox 2)
def execMbcmdRestartLog (s : State) : Res := .next (s.mailbox 3)

/-- A write of any other value. -/
def execMbcmdRejected (v : Word) (s : State) : Res := .next (s.mailbox v)

/-- Exactly 32 bytes. -/
def to32 (bs : List Byte) : List Byte := (bs ++ List.replicate 32 0).take 32

/-- The controller's answer to the command in progress: its result, then `MBSTAT`; 0 is no command, another value is rejected. -/
def Dvsec.complete (x : Dvsec) : Dvsec :=
  let done : Dvsec := { x with mbstat := 3 }
  if x.mbcmd = 0 then done
  else if x.mbcmd = 1 then
    match x.log[x.cursor]? with
    | some e => { done with mbdata := to32 (Config.bootEntry e.step e.unit e.status e.time), cursor := x.cursor + 1 }
    | none => { done with mbdata := [] }
  else if x.mbcmd = 2 then { done with mbdata := to32 (Config.measurement (leNat (x.data.take 2))) }
  else if x.mbcmd = 3 then { done with cursor := 0 }
  else { x with mbstat := 2 }

def execMailboxDone (s : State) : Res :=
  .next (if s.dvsec.mbstat = 1 && s.controllerUp then { s with dvsec := s.dvsec.complete } else s)

/-- Attestation is answered once it is available, while the controller works. -/
def execAttestationRequest (nonce : List Byte) (s : State) : Res :=
  .next (if s.rdy 55 && s.controllerUp then s.out (.signed (Config.attestation nonce)) else s)

/-- A write of 1, 2, 4 or 8 bytes at an offset of the DVSEC: to `MBDATA`, or, of 4 bytes, to `MBCMD` (01 Table 1.8). -/
def State.dvsecWrite (s : State) (off size : Nat) (v : DWord) : State :=
  if 0x28 ≤ off && off + size ≤ 0x48 then
    { s with dvsec := { s.dvsec with mbdata := overwrite s.dvsec.data (off - 0x28) (leBytes size v.toNat) } }
  else if off = 0x20 && size = 4 then s.mailbox (lo32 v)
  else s

/-- A write of the host to a register: BAR2 offsets below 0x100000, BAR0 offsets from there, DVSEC offsets from 0x200000. R36 gives the
sizes of the memory BARs; in configuration space a write of 1 or 2 bytes acts on its bytes too (log 59). -/
def execRegisterWrite (off size : Nat) (v : DWord) (s : State) : Res :=
  .next (
    if !([1, 2, 4, 8].contains size) || off % size != 0 then s
    else if 0x200000 ≤ off then s.dvsecWrite (off - 0x200000) size v
    else if size < 4 then s
    else if off < 0x100000 then s.bar2Write off size v
    else s.bar0Write (off - 0x100000) size v)

/-! ### Device memory from outside (11 R218, 01 R37) -/

/-- The parts of n bytes in 64-byte halves: place and length. -/
def halvesOf (a n : Nat) : List (Nat × Nat) :=
  (upto (a / 64) ((a + n + 63) / 64 - a / 64)).map fun h => (max a (h * 64), min (a + n) (h * 64 + 64) - max a (h * 64))

/-- Write bytes at the home, key id 0; `node` is who writes a half. -/
def State.devWrite (s : State) (node : Nat → Nat) (a : Nat) (bytes : List Byte) : State :=
  (halvesOf a bytes.length).foldl (fun s h => s.writeMem (node h.1) 0 0 h.1 ((bytes.drop (h.1 - a)).take h.2) false) s

/-- Read bytes at the home, key id 0, and answer. -/
def State.devRead (s : State) (node : Nat → Nat) (a n : Nat) : State :=
  let s := (halvesOf a n).foldl (fun s h => s.touchRead (node h.1) 0 0 h.1 h.2) s
  s.out (.data (s.bytesAt 0 a n) (s.poisonAt a n))

/-- One access in device memory, at system scope; an atomic is one step and answers the old bytes. -/
def State.devOp (s : State) (node : Nat → Nat) (a : Nat) (op : DevOp) : State :=
  let old (n : Nat) : Nat := leNat (s.bytesAt 0 a n)
  match op with
  | .read n => s.devRead node a n
  | .write bytes => s.devWrite node a bytes
  | .fetchAdd n v => (s.devRead node a n).devWrite node a (leBytes n ((old n + v.toNat) % 2 ^ (8 * n)))
  | .swap n v => (s.devRead node a n).devWrite node a (leBytes n v.toNat)
  | .cas n cmp new =>
      let t := s.devRead node a n
      if old n = cmp.toNat % 2 ^ (8 * n) then t.devWrite node a (leBytes n new.toNat) else t

/-- An access outside device memory: R26. -/
def State.devUnbacked (s : State) (a : Nat) (op : DevOp) : State :=
  let s := s.logMc { McRec.zero with kind := 8, site := 22, addr := a }
  match op with
  | .write _ => s
  | .read n | .fetchAdd n _ | .swap n _ | .cas n _ _ => s.out (.data (s.bytesAt 0 a n) true)

/-- Bytes that an access touches. -/
def devLen : DevOp → Nat
  | .read n | .fetchAdd n _ | .swap n _ | .cas n _ _ => n
  | .write bytes => bytes.length

/-- A request of the host, or of a peer, at the home of its lines. -/
def State.hostOp (s : State) (a : Nat) (op : DevOp) : State := if a < s.hbmTop then s.devOp hostHalf a op else s.devUnbacked a op
def State.peerOp (s : State) (a : Nat) (op : DevOp) : State := if a < s.hbmTop then s.devOp (fun _ => home) a op else s.devUnbacked a op

/-- A request from outside is performed, or held while a home holds a line of it (23 R401, R402). -/
def State.outsideOp (s : State) (peer : Bool) (a : Nat) (op : DevOp) : State :=
  let ls := (linesOf a (devLen op)).filter (s.lineHeld false)
  if ls != [] then s.ask ls (.outside peer a op) else if peer then s.peerOp a op else s.hostOp a op

/-- A host access: through CXL.mem, or through BAR4 at an offset. Device memory that joined after the HDM range was fixed is not in that
range and takes no access through CXL.mem (01 R34, log 64). The host port goes with I/O die 0 (01 R15, log 67). -/
def execHostDeviceAccess (bar4 : Bool) (addr : Nat) (op : DevOp) (s : State) : Res :=
  .next (
    match s.phase with
    | .coldFrame => if bar4 then (match op with
        | .write _ => s
        | _ => s.out .unsupported) else s
    | .booting => s
    | .up =>
        let bases := s.bar2.b4base :: s.bar2.b4olds
        let base := (bases[Config.choice s.freeIx % bases.length]?.getD 0).toNat
        let a := if bar4 then base + addr else addr
        if (bar4 && 2 ^ 36 ≤ addr) || (!bar4 && s.hdmTop ≤ addr && addr < s.hbmTop) || !s.forwards 22 then s
        else (if bar4 then s.tickFree else s).outsideOp false a op)

/-- A flit under a selector is accepted: the present one, or the other until the old key is retired (23 R404). -/
def Link.accepts (x : Link) (sel : Bool) : Bool := sel == x.sel || x.old.isSome

/-- A peer's access through an enabled port (log 60), in flits under a key selector; a flit that arrives whole ends the replay of the
port. -/
def execPeerDeviceAccess (flit : PeerFlit) (addr : Nat) (op : DevOp) (s : State) : Res :=
  .next (
    let port := flit.port
    let l := s.peer port
    if s.phase = .up && port < 16 && s.bar2.pwen.getLsbD port && l.trained && !l.disabled && l.accepts flit.sel && s.forwards (portSite port) then
      (s.setPeer port { l with tagFail := false }).outsideOp true addr op
    else s)

/-! ### Host lines (11 R216, R217, R238) -/

/-- The package line of a line of host memory. -/
def hostLine (line : Nat) : Nat := 0x100000000000 + line

/-- The place of a half. -/
def halfAddr (line : Nat) : Half → Nat
  | .h0 => hostLine line * 128
  | .h1 => hostLine line * 128 + 64

def HLine.half (x : HLine) : Half → HSt
  | .h0 => x.h0
  | .h1 => x.h1

def HLine.put (x : HLine) (h : Half) (st : HSt) : HLine :=
  match h with
  | .h0 => { x with h0 := st }
  | .h1 => { x with h1 := st }

/-- Put the state of a half; a line of which nothing is held is not listed. -/
def State.setHalf (s : State) (line : Nat) (h : Half) (st : HSt) : State :=
  { s with bridge := fset HLine.absent s.bridge (hostLine line) ((s.hline (hostLine line)).put h st) }

/-- The bridge serves a host snoop, while its die is not fenced (01 R15). -/
def State.snooped (s : State) (f : State → State) : State := if s.forwards 22 then f s else s

/-- Data to the host when the half is modified. -/
def State.supplyHalf (s : State) (line : Nat) (h : Half) : State :=
  if (s.hline (hostLine line)).half h = .m then
    (s.sendHalf (halfAddr line h)).out (.data (s.bytesAt 0 (halfAddr line h) 64) (s.poisonAt (halfAddr line h) 64))
  else s

/-- The bytes that the host then gives the half: a write that other agents may wait for (19 R358), which clears the poison of the
sectors that it covers (07 R154) and withers the line's replicas (21 R365). -/
def State.hostStore (s : State) (line : Nat) (h : Half) (bytes : List Byte) : State :=
  let a := halfAddr line h
  let bs := bytes.take 64
  if bs = [] then s
  else
    let clean := (sectorsOf a bs.length).filter fun x => a ≤ x * 32 && x * 32 + 32 ≤ a + bs.length
    let s := { s with hostMem := (bs.foldl (fun (p : Nat × List Host.Cell) b => (p.1 + 1, fset memDefault p.2 p.1 b)) (a, s.hostMem)).2
                      poison := clean.foldl (fun m x => fset false m x false) s.poison }
    (s.putBytes 0 a bs).witherLine (hostLine line)

/-- The dirty data of a line are collected from the package: a half with such bytes becomes M (11 R217). -/
def State.collect (s : State) (line : Nat) : State := s.writeBack (hostLine line) fun _ => true

def execHostSnoopSnpinv (line : Nat) (half : Half) (hostBytes : List Byte) (s : State) : Res :=
  .next (s.snooped fun s =>
    let s := (s.collect line).dropBad (hostLine line) fun _ => true
    ((s.supplyHalf line half).setHalf line half .i).hostStore line half hostBytes)

def execHostSnoopSnpdata (line : Nat) (half : Half) (s : State) : Res :=
  .next (s.snooped fun s => if (s.hline (hostLine line)).half half = .i then s
    else (let s := s.collect line; (s.supplyHalf line half).setHalf line half .s))

def execHostSnoopSnpcur (line : Nat) (half : Half) (s : State) : Res :=
  .next (s.snooped fun s => if (s.hline (hostLine line)).half half = .i then s
    else s.out (.data (s.bytesAt 0 (halfAddr line half) 64) (s.poisonAt (halfAddr line half) 64)))

/-- Package copies are recalled first; halves in M are written back; both halves go to I. -/
def execBridgeEviction (line : Nat) (s : State) : Res := .next (s.giveBack (hostLine line))

end Sys2Proof.Machine
end

