-- ==== Sys2Proof/Machine/Words.lean ====
section
/-! DEFINITION. Fetching the words of an instruction (05 R89 to R91, 17 R304, R305, 23 R392), and the instruction that an entry of the
frontier executes next. -/

namespace Sys2Proof.Machine

open Sys2Proof

/-- Why words were not fetched: a cause with its value, a poisoned sector, or lines at whose homes the request is held. -/
inductive NoFetch where
  | cause (e : Stop)
  | poisoned (sector : Nat)
  | held (lines : List Nat)
  deriving DecidableEq, Repr

/-- Fetch one word at an address. -/
def State.fetchWord (s : State) (site asid : Nat) (lv : Level) (pc : DWord) : State × Except NoFetch Word :=
  match s.xlate site asid lv .fetch true pc with
  | (s, .error e) => (s, .error (.cause e))
  | (s, .ok pl) =>
    if s.heldUp [(pl, 0, 4)] != [] then (s, .error (.held (s.heldUp [(pl, 0, 4)])))
    else
      let s := s.touchRead site asid pl.key pl.pa 4
      if s.poisonFor site pl.pa 4 then (s, .error (.poisoned (pl.pa / 32 * 32)))
      else (s, .ok (BitVec.ofNat 32 (leNat (s.bytesAt pl.key pl.pa 4))))

/-- Fetch the words of an instruction as a unit, the lowest first. -/
def State.fetch (s : State) (site asid : Nat) (lv : Level) (pc : DWord) : State × Except NoFetch (List Word) :=
  match s.fetchWord site asid lv pc with
  | (s, .error e) => (s, .error e)
  | (s, .ok w0) =>
      if !hasExt w0.toNat then (s, .ok [w0])
      else match s.fetchWord site asid lv (pc + 4) with
        | (s, .error e) => (s, .error e)
        | (s, .ok w1) =>
            if wordCount w0.toNat w1.toNat != 3 then (s, .ok [w0, w1])
            else match s.fetchWord site asid lv (pc + 8) with
              | (s, .error e) => (s, .error e)
              | (s, .ok w2) => (s, .ok [w0, w1, w2])

/-- The instruction of fetched words; words that decode to nothing are a reserved cell. -/
def instrOfWords (ws : List Word) : Instr :=
  match decode ws with
  | .ok i => i
  | .error _ => .reservedCell (ws.headD 0)

/-- The PC after an instruction of n words at an address. -/
def pcAfter (pc : DWord) (n : Nat) : DWord := pc + BitVec.ofNat 64 (4 * n)

/-- A `rep` prefix (05 R113). -/
def Instr.isRep : Instr → Bool
  | .rep _ _ _ => true
  | _ => false

/-! ### The next instruction of an entry -/

/-- The entry of a lane. A lane that has returned with a nonzero `XPI` to an instruction that is no `rep` keeps that progress in its entry
(log 71). -/
def Lane.key (l : Lane) : EntryKey := { pc := l.pc, prio := l.prio, level := l.level, prog := l.prog }

/-- The base word at an entry. -/
def State.entryWord (s : State) (b : Nat) (k : EntryKey) : Option Word :=
  match s.fetchWord (s.siteOf b) (s.asidOf b) k.level k.pc with
  | (_, .ok w) => some w
  | (_, .error _) => none

/-- The instruction that an entry executes next: behind a `rep`, the body of the repetition it has reached. -/
def State.nextInstr (s : State) (b : Nat) (k : EntryKey) : Option Instr :=
  match s.fetch (s.siteOf b) (s.asidOf b) k.level k.pc with
  | (_, .error _) => none
  | (s, .ok ws) => match instrOfWords ws with
    | .rep n step fmask =>
        if n ≤ k.prog then none
        else match s.fetch (s.siteOf b) (s.asidOf b) k.level (pcAfter k.pc ws.length) with
          | (_, .error _) => none
          | (_, .ok body) => (stepBody (bodyOf body) k.prog step fmask).map instrOf
    | i => some i

/-- The instruction that a lane executes next. -/
def State.laneInstr (s : State) (b w i : Nat) : Option Instr := s.nextInstr b (s.lane b w i).key

end Sys2Proof.Machine
end

