-- ==== Sys2Proof/Machine/Reliability.lean ====
section
/-! DEFINITION. Errors and links: uncorrectable errors and the patrol (23 R388, R392, R400), fallow cores (R398, R399, 24 R409),
recalls and lost flits (R401, R402), spare lanes, keys and tags (R403 to R406). -/

namespace Sys2Proof.Machine

open Sys2Proof

/-! ### Uncorrectable errors (23 R388, R392) -/

/-- The cache die that is home to a line: that of the channel on which it stands (01 R19, R21). -/
def State.homeSite (s : State) (line : Nat) : Nat := 18 + (s.placing.chan line).getD 0 / 96

/-- A sector of storage is poisoned, with a record of kind 1 of the node concerned. -/
def State.poisonStore (s : State) (site addr : Nat) : State :=
  (s.poisonSectors [addr / 32]).logMc { McRec.zero with kind := 1, site := site, addr := addr / 32 * 32 }

/-- A sector at its home; only device memory has one. -/
def State.poisonHome (s : State) (addr : Nat) : State :=
  if s.paKind addr = .hbm then s.poisonStore (s.homeSite (addr / 128)) addr else s

/-- A node's caches hold a clean copy of a sector: a compute die that shares the line, or a cache die that is its home. -/
def State.hasClean (s : State) (site addr : Nat) : Bool :=
  match s.paKind addr with
  | .hbm => if site < 18 then (fget [] s.dir (addr / 128)).contains site && !fget false (s.site site).dirty (addr / 32)
      else site == s.homeSite (addr / 128)
  | .host => site < 18 && s.hline (addr / 128) != HLine.absent && !fget false (s.site site).dirty (addr / 32)
  | _ => false

/-- The stamped copies of a line that a die's L2 holds are poisoned in one sector (15 R294). -/
def Site.poisonStamped (x : Site) (sec : Nat) : Site :=
  { x with stamped := x.stamped.map fun c => if c.line = sec / 4 then { c with poison := c.poison.set (sec % 4) true } else c }

/-- The record of an uncorrectable error in a node's copy of a sector. -/
def State.noteCopy (s : State) (site addr : Nat) : State :=
  s.logMc { McRec.zero with kind := 1, site := site, addr := addr / 32 * 32 }

/-- An error in a die's clean copy poisons that copy; in the L3 it poisons the sector at its home. Of a die that holds stamped copies of
the line, the error is in those, or in the coherent copy where it has one: either is taken. -/
def State.strikeClean (s : State) (site addr : Nat) : State :=
  let stamped := site < 18 && (s.site site).stamped.any fun c => c.line == addr / 128
  let clean := s.hasClean site addr
  let t := if stamped then s.tickFree else s
  if stamped && (!clean || Config.choice s.freeIx % 2 == 0) then (t.modSite site fun x => x.poisonStamped (addr / 32)).noteCopy site addr
  else if !clean then s
  else if 18 ≤ site then s.poisonStore site addr
  else (t.modSite site fun x => { x with bad := fset false x.bad (addr / 32) true }).noteCopy site addr

/-- An error in a modified sector, of which a die has the only copy. -/
def State.strikeDirty (s : State) (site addr : Nat) : State :=
  if fget false (s.site site).dirty (addr / 32) then s.poisonStore site addr else s

/-- Poison an element of an accumulator tile: element i in row-major order. -/
def Block.poisonAcc (k : Block) (tile i : Nat) : Block := k.setAcc (accKey tile (i / 128 % 128) (i % 128)) RegVal.poison

end Sys2Proof.Machine

namespace Sys2Proof

/-- The part checks the instruction in shadow mode: lane-class cells 0x01 to 0x28 (23 R400). -/
def Instr.shadowed (i : Instr) : Bool := match i.fields with
  | some q => !q.uni && 1 ≤ q.op && q.op ≤ 0x28
  | none => false

/-- The guard of an instruction. -/
def Instr.guard? (i : Instr) : Guard := match i.fields with
  | some q => q.guard
  | none => { p := 7, neg := false }

/-- The instruction has no destination but a predicate (09 Table 9.3, Table 9.6). -/
def Instr.compares : Instr → Bool
  | .icmp _ _ _ _ _ | .fcmp _ _ _ _ _ => true
  | _ => false

/-- The instruction may write a predicate, or set a bit of `FLAGS`, beside its destination registers. -/
def Instr.marks : Instr → Bool
  | .addc _ _ _ _ _ _ | .subb _ _ _ _ _ _ | .fadd _ _ _ _ _ | .fsub _ _ _ _ _ | .fmul _ _ _ _ _ | .ffma _ _ _ _ _ _
  | .fround _ _ _ _ | .hadd2 _ _ _ _ _ | .hsub2 _ _ _ _ _ | .hmul2 _ _ _ _ _ | .hfma2 _ _ _ _ _ _ | .hdp2 _ _ _ _ _ _ _
  | .cvt _ _ _ _ _ _ _ _ | .pack _ _ _ _ _ _ _ _ | .unpk _ _ _ _ _ | .frcp _ _ _ _ | .frsq _ _ _ _ | .fsqrt _ _ _ _
  | .fexp2 _ _ _ _ | .flog2 _ _ _ _ | .fsin _ _ _ _ | .fcos _ _ _ _ | .ftanh _ _ _ _ => true
  | _ => false

end Sys2Proof

namespace Sys2Proof.Machine

open Sys2Proof

/-- `XVAL` of a mismatch: two results of a register, equal where its side bit alone differs; 0 when only a flag or a predicate does (23
R400). -/
def shadowVal (ix : Nat) (i : Instr) : DWord :=
  if i.compares || (i.marks && Config.choice ix % 2 == 0) then 0 else Config.freeWord (2 * ix + 1) ++ Config.freeWord (2 * ix)

/-- A lane's shadow execution of its next instruction differs: it executes it, its guard holding (23 R400). -/
def State.strikeShadow (s : State) (b w i : Nat) : State :=
  let l := s.lane b w i
  match s.laneInstr b w i with
  | some n =>
      if s.runs b && (s.ctxOf b).xshadow && (s.warp b w).live.contains i && l.park == .none && l.held == none && n.shadowed &&
          l.guard n.guard? then
        s.tickFree.contain b 0x16 l.pc (shadowVal s.freeIx n) 0
      else s
  | none => s

/-- An uncorrectable error where it strikes (23 Table 23.1, Table 23.3). -/
def State.strike (s : State) : ErrPlace → State
  | .dram addr => s.poisonHome addr
  | .cacheClean site addr => s.strikeClean site addr
  | .cacheDirty site addr => s.strikeDirty site addr
  | .scratch b off =>
      if s.runs b then (s.modBlk b fun k => { k with spoison := fset false k.spoison (off / 32) true }).logMc
        { McRec.zero with kind := 1, site := (s.blk b).site } else s
  | .accTile b tile i => if s.runs b then s.modBlk b fun k => k.poisonAcc tile i else s
  | .laneReg b w i _ | .shared b w i _ => if s.runs b then s.contain b 0x15 (s.lane b w i).pc 0 0 else s
  | .core b => if s.runs b then s.contain b 0x15 (s.blk b).tiller.pc 0 0 else s
  | .held b n => match (s.blk b).hold[n]? with
    | some p => s.contain b 0x15 0 (BitVec.ofNat 64 (p.addr / 32 * 32)) 0
    | none => s
  | .shadow b w i => s.strikeShadow b w i

def execUncorrectableError (place : ErrPlace) (s : State) : Res := .next (s.strike place)

/-- The patrol engine reads a sector of device memory. -/
def execPatrolScrub (addr : Nat) (uncorrectable : Bool) (s : State) : Res := .next (if uncorrectable then s.poisonHome addr else s)

/-! ### Fallow cores (23 R398, R399, 24 R409) -/

/-- The next core in service after the fallow one, in ascending order and wrapping. -/
def Site.nextCore (x : Site) : Option Nat :=
  match x.inService.find? fun c => x.fallow < c with
  | some c => some c
  | none => x.inService.head?

/-- The role is to pass to a core, with a drain of 1 ms. -/
def State.passRole (s : State) (site : Nat) : State :=
  s.modSite site fun x => { x with incoming := x.nextCore, drainAt := s.clock + usec 1000 }

def execFallowRotation (site : Nat) (s : State) : Res :=
  .next (if site < 18 && (s.site site).isActive && (s.site site).incoming == none then s.passRole site else s)

/-- The drain of the incoming core ends: blocks still there are preempted. It becomes the fallow core when no block stands on it: one for
whose image there is no room holds it up (03 R56, log 29). -/
def execFallowDrainExpiry (site : Nat) (s : State) : Res :=
  .next (match (s.site site).isActive, (s.site site).incoming with
    | true, some c =>
        let s := s.reach (s.site site).drainAt
        let s := ((s.onCore site c).filter s.canPreempt).foldl (fun s b => if (s.blk b).phase == .resident then (s.preempt b).getD s else s) s
        if s.onCore site c = [] then s.modSite site fun x => { x with fallow := c, incoming := none } else s
    | _, _ => s)

/-- A core in service is fallow now, and is scanned. -/
def Site.scanning (x : Site) : Bool := x.isActive && x.inService.contains x.fallow

/-- A core's log is cleared. -/
def Site.clearLog (x : Site) (core : Nat) : Site :=
  { x with log := x.log.filter fun e => e.1 != core, overflow := x.overflow.filter (· != core) }

def execFallowScanPass (site : Nat) (s : State) : Res :=
  .next (if (s.site site).scanning then s.modSite site fun x => x.clearLog x.fallow else s)

/-- The records of a failed scan: one for each logged block, and one for an overflow. -/
def State.provisional (s : State) (site core : Nat) : State :=
  let x := s.site site
  let rec0 : McRec := { McRec.zero with kind := 5, site := site, detail := core }
  let s := (x.log.filter fun e => e.1 == core).foldl (fun s e =>
    s.logMc { rec0 with ctx := e.2.2.2, gridh := e.2.1, block := e.2.2.1 }) s
  if x.overflow.contains core then s.logMc { rec0 with block := 0xFFFFFFFF } else s

/-- The core is retired at once, a generation is published, the role passes on; a die with fewer than 28 cores is fenced. -/
def execFallowScanFail (site : Nat) (s : State) : Res :=
  .next (
    let x := s.site site
    if !x.scanning then s
    else
      let s := s.setSite site { x with retiredCores := x.retiredCores ++ [x.fallow] }
      let s := if x.incoming = none then s.passRole site else s
      let s := (s.publish 8 site x.fallow 0).provisional site x.fallow
      let s := s.modSite site fun y => y.clearLog x.fallow
      if (s.site site).inService.length < 28 then s.startFence site else s)

/-! ### Directory and links (23 R401 to R403) -/

/-- A die holds a replica that contains a line: it reports it as a shared copy (21 R365, 23 R401). -/
def State.replicaOn (s : State) (site line : Nat) : Bool :=
  s.ctxs.any fun c => c.2.tabs.any fun t => t.2.experts.any fun e => e.2.slots.any fun x =>
    x.2.site == site && (x.2.state == .live || x.2.state == .draining) &&
    x.2.foot.any fun f => f.1 / 128 ≤ line && line * 128 < f.1 + f.2

/-- The home recalls a line: every active compute die and the bridge are to answer within `ACK_TIMEOUT`; of device memory the host's
halves are snooped. The entry itself is lost. -/
def execDirectoryRecall (addr : Nat) (s : State) : Res :=
  .next (
    let l := addr / 128
    let owed := s.dies ++ [s.ioSite].filter fun n => (s.site n).isActive
    match s.paKind addr with
    | .unbacked | .peer _ => s
    | k =>
      { s with
        dir := fset [] s.dir l []
        outs := s.outs ++ (if k = .hbm then [.backInvalidate l 0, .backInvalidate l 1] else [])
        suspects := if owed = [] then s.suspects
          else fput s.suspects l (some { owed := owed, deadline := s.clock + usec s.xackto, recalled := true
                                         holders := (fget [] s.dir l).filter fun n => n < 24 }) })

/-- The flit is replayed from the replay buffer, unchanged with its selector (R404): delivered once and in order. -/
def execFlitCrcFail (_port : Nat) (s : State) : Res := .next s

/-- A lost flit makes its line suspect: invalidations go again to every recorded sharer. -/
def execFlitLost (addr : Nat) (s : State) : Res :=
  .next (
    let l := addr / 128
    let owed := (fget [] s.dir l).filter fun n => n < 24 && (s.site n).isActive
    if owed = [] then s
    else { s with suspects := fput s.suspects l (some { owed := owed, deadline := s.clock + usec s.xackto, recalled := false, holders := [] }) })

/-- An acknowledgement, or the answer to a recall, reaches the home of a line; a node that answers a recall has written its modified
copy back, and is entered as a sharer when it holds the line or a replica of it. -/
def State.ackLine (s : State) (line site : Nat) : State :=
  match fget none s.suspects line with
  | none => s
  | some q =>
      if !q.owed.contains site then s
      else
        let s1 := if q.recalled then s.writeBack line (· == site) else s
        let s1 := if q.recalled && s.paKind (line * 128) == .hbm && (q.holders.contains site || s.replicaOn site line) then
          { s1 with dir := fput s1.dir line (fget [] s1.dir line ++ [site]) } else s1
        let left := q.owed.filter (· != site)
        { s1 with suspects := if left = [] then fdel s.suspects line else fput s.suspects line (some { q with owed := left }) }

def execAckArrival (addr site : Nat) (s : State) : Res := .next (s.ackLine (addr / 128) site)

/-- Nodes silent past `ACK_TIMEOUT` are error-fenced, each with a record of kind 6; a writeback is resent, once in effect. -/
def execAckTimeoutExpiry (addr : Nat) (s : State) : Res :=
  .next (match fget none s.suspects (addr / 128) with
    | none => s
    | some q => q.owed.foldl (fun s n =>
        (s.silentFence n).logMc { McRec.zero with kind := 6, site := n }) (s.reach q.deadline))

def State.swihus1 (s : State) (n : Nat) : Link := fget Link.swi s.swihus n

/-- A weakening lane takes a spare; without one: a planned fence, a record, or a retrain to 4 lanes (23 R403). -/
def execLaneSpareSwap (swihus : Bool) (link _lane : Nat) (s : State) : Res :=
  .next (
    let x := if swihus then s.swihus1 link else s.peer link
    let put (y : Link) : State := if swihus then { s with swihus := fput s.swihus link y } else s.setPeer link y
    if (if swihus then 24 else 16) ≤ link then s
    else if 0 < x.spares then put { x with spares := x.spares - 1 }
    else if !swihus then put { x with lanes := 4 }
    else if link < 18 then s.startFence link
    else s.logMc { McRec.zero with kind := 9, site := link, detail := 0xFFFE })

/-- A lane of a compute die's attachment fails outright: an error fence. -/
def execLaneFail (link _lane : Nat) (s : State) : Res := .next (if link < 18 then s.silentFence link else s)

/-! ### Link keys and tags (23 R404, R405), memory keys (R406) -/

/-- A new key: of a peer port, or of the host port (16). None while the last rollover keeps its old key. -/
def execKeyRollover (link : Nat) (key : BitVec 256) (s : State) : Res :=
  .next (
    let x := s.peer link
    if link ≤ 16 && x.old == none then s.setPeer link { x with key := key, old := some x.key, sel := !x.sel } else s)

/-- The last flit under the old key is acknowledged: none with the other selector is left in the replay buffer, and the old key goes. -/
def execOldKeyRetire (link : Nat) (s : State) : Res :=
  .next (
    let x := s.peer link
    if link ≤ 16 then s.setPeer link { x with old := none, flits := x.flits.filter (· == x.sel) } else s)

/-- Loads of a lane that are in flight to a port return every sector poisoned: those that bits of a mask name, for which of the results
still to land had come back before is the part's own. -/
def Lane.failFlight (l : Lane) (port mask : Nat) : Lane :=
  { l with pending := ((upto 0 l.pending.length).zip l.pending).map fun x =>
      if x.2.src == some port && mask.testBit x.1 then { x.2 with regs := x.2.regs.map fun r => (r.1, RegVal.poison) } else x.2 }

/-- Loads in flight to a port: of every lane that has such a one. -/
def State.failFlight (s : State) (port : Nat) : State :=
  (fkeys s.blocks).foldl (fun s b => (fkeys (s.blk b).warps).foldl (fun s w => (s.warp b w).live.foldl (fun s i =>
    if (s.lane b w i).pending.any fun p => p.src == some port then
      s.tickFree.setLane b w i ((s.lane b w i).failFlight port (Config.choice s.freeIx))
    else s) s) s) s

/-- A store into the window of a peer port (01 Table 1.2). -/
def PStore.toPort (p : PStore) (port : Nat) : Bool :=
  0xC000000000000 + port * 0x400000000000 ≤ p.addr && p.addr < 0xC000000000000 + (port + 1) * 0x400000000000

/-- Stores in flight to a port are discarded. -/
def State.dropFlight (s : State) (port : Nat) : State :=
  (fkeys s.blocks).foldl (fun s b =>
    if (s.blk b).pend.any fun p => p.toPort port then s.modBlk b fun k => { k with pend := k.pend.filter fun p => !p.toPort port } else s) s

/-- A tag fails: a first time the flit is replayed, a second time the port is disabled, with what is in flight to it. -/
def execPeerTagFail (port : Nat) (s : State) : Res :=
  .next (
    let x := s.peer port
    if 16 ≤ port || !x.trained || x.disabled then s
    else if !x.tagFail then s.setPeer port { x with tagFail := true }
    else ((((s.failFlight port).dropFlight port).setPeer port { x with disabled := true }).clearRdy (36 + port)).logMc
      { McRec.zero with kind := 9, site := 22, detail := port })

/-- The host stream goes to the Insecure state; loads of host memory in flight return poison. -/
def execIdeIntegrityFail (s : State) : Res :=
  .next ({ s.failFlight hostPort with hostInsecure := true }.logMc { McRec.zero with kind := 9, site := 22, detail := 0xFFFF })

/-- Lines that stand in the caches with a sector written under a key id. -/
def State.keyLines (s : State) (key : Nat) : List Nat :=
  let tagged (l : Nat) : Bool := (upto (l * 4) 4).any fun x => fget 0 s.ktag x == s.tagOf key
  ((fkeys s.dir ++ (s.sites.map fun (x : Nat × Site) => (fkeys x.2.dirty).map (· / 4)).flatten).eraseDups.filter fun l => l * 128 < 0x8000000000000 && tagged l)

/-- The part writes back every line of a key id that its caches hold, and invalidates it; stamped copies of that key go (23 R406). -/
def State.flushKey (s : State) (key : Nat) : State :=
  let s := (s.keyLines key).foldl (fun s l => { (s.writeBack l fun _ => true).dropBad l fun _ => true with
      dir := fset [] s.dir l ((fget [] s.dir l).filter fun n => 24 ≤ n) }) s
  { s with sites := s.sites.map fun (x : Nat × Site) => (x.1, { x.2 with stamped := x.2.stamped.filter fun c => c.key != key }) }

/-- A key id receives a new key: what the old one encrypted reads as unrelated bytes (11 R205). -/
def execMemoryKeyInstall (key : Nat) (s : State) : Res :=
  .next (
    let s1 := s.flushKey key
    if key < 1024 then { s1 with keygen := fset 0 s.keygen key (fget 0 s.keygen key + 1) } else s)

end Sys2Proof.Machine
end

