-- ==== Sys2Proof/Machine/Uniform.lean ====
section
/-! DEFINITION. Uniform scalar arithmetic, cells 0x01 to 0x03 (09 R196 to R198), for a warp or the tiller. -/

namespace Sys2Proof.Machine

open Sys2Proof

/-- A two-source uniform cell on 32-bit patterns. -/
def State.uint2 (s : State) (g : Guard) (d a : Nat) (b : Src2) (k : Word → Word → Word) : State :=
  s.uniAlu ([d, a] ++ b.sregs 1) g fun s => s.uw d (k (s.ur a) (b.uval s))

def execUadd (g : Guard) (d a : Nat) (b : Src2) (s : State) : Res := .next (s.uint2 g d a b (· + ·))
def execUsub (g : Guard) (d a : Nat) (b : Src2) (s : State) : Res := .next (s.uint2 g d a b (· - ·))
def execUmul (g : Guard) (d a : Nat) (b : Src2) (s : State) : Res := .next (s.uint2 g d a b (· * ·))

def execUmad (g : Guard) (d a : Nat) (b : Src2) (c : Nat) (s : State) : Res :=
  .next (s.uniAlu ([d, a, c] ++ b.sregs 1) g fun s => s.uw d (s.ur a * b.uval s + s.ur c))

def execUmin (g : Guard) (d a : Nat) (b : Src2) (uns : Bool) (s : State) : Res :=
  .next (s.uint2 g d a b fun x y => if uns then (if zv y < zv x then y else x) else if sv y < sv x then y else x)

def execUmax (g : Guard) (d a : Nat) (b : Src2) (uns : Bool) (s : State) : Res :=
  .next (s.uint2 g d a b fun x y => if uns then (if zv x < zv y then y else x) else if sv x < sv y then y else x)

def execUcmp (g : Guard) (qd a : Nat) (b : Src2) (cond : ICond) (s : State) : Res :=
  .next (s.uniAlu (a :: b.sregs 1) g fun s => s.uwq qd (ICond.holds cond (s.ur a) (b.uval s)))

def execUmov (g : Guard) (d : Nat) (b : Src2) (s : State) : Res :=
  .next (s.uniAlu (d :: b.sregs 1) g fun s => s.uw d (b.uval s))

def execUand (g : Guard) (d a : Nat) (b : Src2) (s : State) : Res := .next (s.uint2 g d a b (· &&& ·))
def execUor (g : Guard) (d a : Nat) (b : Src2) (s : State) : Res := .next (s.uint2 g d a b (· ||| ·))
def execUxor (g : Guard) (d a : Nat) (b : Src2) (s : State) : Res := .next (s.uint2 g d a b (· ^^^ ·))
def execUshl (g : Guard) (d a : Nat) (b : Src2) (s : State) : Res := .next (s.uint2 g d a b shlW)
def execUshr (g : Guard) (d a : Nat) (b : Src2) (s : State) : Res := .next (s.uint2 g d a b shrW)
def execUsar (g : Guard) (d a : Nat) (b : Src2) (s : State) : Res := .next (s.uint2 g d a b sarW)
def execUbfx (g : Guard) (d a : Nat) (b : Src2) (sgn : Bool) (s : State) : Res := .next (s.uint2 g d a b (bfxW sgn))

def execUpopc (g : Guard) (d a : Nat) (s : State) : Res :=
  .next (s.uniAlu [d, a] g fun s => s.uw d (BitVec.ofNat 32 (popcNat (s.ur a))))

def execUmovi (g : Guard) (d : Nat) (b : Src2) (s : State) : Res :=
  .next (s.uniAlu (grp d 2) g fun s => s.uw2 d (b.uval64 s))

def execUadd64 (g : Guard) (d a : Nat) (b : Src2) (s : State) : Res :=
  .next (s.uniAlu (grp d 2 ++ grp a 2 ++ b.sregs 2) g fun s => s.uw2 d (s.ur2 a + b.uval64 s))

def execUlea64 (g : Guard) (d a : Nat) (b : Src2) (n : Nat) (sgn : Bool) (s : State) : Res :=
  .next (s.uniAlu (grp d 2 ++ grp a 2 ++ b.sregs 1) g fun s =>
    let x := b.uval s
    let x : DWord := if sgn then x.signExtend 64 else x.zeroExtend 64
    s.uw2 d (s.ur2 a + x <<< n))

end Sys2Proof.Machine
end

