-- ==== Sys2Proof/Machine/Dispatch.lean ====
section
/-! DEFINITION. The meaning of every instruction and event: one arm for each constructor of `Instr`. -/

namespace Sys2Proof.Machine

open Sys2Proof

def exec (i : Instr) (s : State) : Host.Outcome State Fault Refusal :=
  match i with
  | .bootTopologyCheck signatureOk sites hbm => Sys2Proof.Machine.execBootTopologyCheck signatureOk sites hbm s
  | .nodeReady item => Sys2Proof.Machine.execNodeReady item s
  | .plannedFence site => Sys2Proof.Machine.execPlannedFence site s
  | .plannedFenceDrainExpiry site => Sys2Proof.Machine.execPlannedFenceDrainExpiry site s
  | .nodeFence site => Sys2Proof.Machine.execNodeFence site s
  | .errorFence site latched => Sys2Proof.Machine.execErrorFence site latched s
  | .spareJoin site selfTestOk => Sys2Proof.Machine.execSpareJoin site selfTestOk s
  | .channelLossPlanned ch => Sys2Proof.Machine.execChannelLossPlanned ch s
  | .channelLossAbrupt ch => Sys2Proof.Machine.execChannelLossAbrupt ch s
  | .shrkack v => Sys2Proof.Machine.execShrkack v s
  | .clockReplan site mhz => Sys2Proof.Machine.execClockReplan site mhz s
  | .clockHoldFailure site => Sys2Proof.Machine.execClockHoldFailure site s
  | .rowRemap site bank l3 => Sys2Proof.Machine.execRowRemap site bank l3 s
  | .bankRemoval site bank l3 => Sys2Proof.Machine.execBankRemoval site bank l3 s
  | .nrbase part v => Sys2Proof.Machine.execNrbase part v s
  | .nrstat v => Sys2Proof.Machine.execNrstat v s
  | .b4base part v => Sys2Proof.Machine.execB4base part v s
  | .pwen v => Sys2Proof.Machine.execPwen v s
  | .portvf port part v => Sys2Proof.Machine.execPortvf port part v s
  | .registerWrite off size v => Sys2Proof.Machine.execRegisterWrite off size v s
  | .mbcmdRejected v => Sys2Proof.Machine.execMbcmdRejected v s
  | .attestationRequest nonce => Sys2Proof.Machine.execAttestationRequest nonce s
  | .hostDeviceAccess bar4 addr op => Sys2Proof.Machine.execHostDeviceAccess bar4 addr op s
  | .hostSnoopSnpinv line half hostBytes => Sys2Proof.Machine.execHostSnoopSnpinv line half hostBytes s
  | .hostSnoopSnpdata line half => Sys2Proof.Machine.execHostSnoopSnpdata line half s
  | .hostSnoopSnpcur line half => Sys2Proof.Machine.execHostSnoopSnpcur line half s
  | .bridgeEviction line => Sys2Proof.Machine.execBridgeEviction line s
  | .launchRecordWrite vf port form bytes => Sys2Proof.Machine.execLaunchRecordWrite vf port form bytes s
  | .dibberTakeHead q => Sys2Proof.Machine.execDibberTakeHead q s
  | .waitCounterRead q => Sys2Proof.Machine.execWaitCounterRead q s
  | .blockStart grid site core => Sys2Proof.Machine.execBlockStart grid site core s
  | .blockRetire blk => Sys2Proof.Machine.execBlockRetire blk s
  | .preemptBlock blk why => Sys2Proof.Machine.execPreemptBlock blk why s
  | .resumeBlock blk site core => Sys2Proof.Machine.execResumeBlock blk site core s
  | .resumeMaxExpiry blk => Sys2Proof.Machine.execResumeMaxExpiry blk s
  | .resultLanding blk warp lane => Sys2Proof.Machine.execResultLanding blk warp lane s
  | .pauseExpiry blk warp lane => Sys2Proof.Machine.execPauseExpiry blk warp lane s
  | .barrowLineWritten blk cmd line => Sys2Proof.Machine.execBarrowLineWritten blk cmd line s
  | .barrowCommandComplete blk cmd => Sys2Proof.Machine.execBarrowCommandComplete blk cmd s
  | .cpGrpDeliveryBegin blk cmd rank => Sys2Proof.Machine.execCpGrpDeliveryBegin blk cmd rank s
  | .cpGrpDeliveryLand blk cmd rank => Sys2Proof.Machine.execCpGrpDeliveryLand blk cmd rank s
  | .mwaitWake blk warp lane => Sys2Proof.Machine.execMwaitWake blk warp lane s
  | .mwaitTimeout blk warp lane => Sys2Proof.Machine.execMwaitTimeout blk warp lane s
  | .runnerEntryArrive blk warp dir => Sys2Proof.Machine.execRunnerEntryArrive blk warp dir s
  | .roundNotice asid rgn site => Sys2Proof.Machine.execRoundNotice asid rgn site s
  | .mmaComplete blk => Sys2Proof.Machine.execMmaComplete blk s
  | .graftCopyVerified asid tab exp slot => Sys2Proof.Machine.execGraftCopyVerified asid tab exp slot s
  | .graftCopyFail asid tab exp slot kind => Sys2Proof.Machine.execGraftCopyFail asid tab exp slot kind s
  | .expertMerge asid tab => Sys2Proof.Machine.execExpertMerge asid tab s
  | .grefreshCounterAdd asid tab => Sys2Proof.Machine.execGrefreshCounterAdd asid tab s
  | .uncorrectableError place => Sys2Proof.Machine.execUncorrectableError place s
  | .patrolScrub addr uncorrectable => Sys2Proof.Machine.execPatrolScrub addr uncorrectable s
  | .fallowRotation site => Sys2Proof.Machine.execFallowRotation site s
  | .fallowDrainExpiry site => Sys2Proof.Machine.execFallowDrainExpiry site s
  | .fallowScanPass site => Sys2Proof.Machine.execFallowScanPass site s
  | .fallowScanFail site => Sys2Proof.Machine.execFallowScanFail site s
  | .directoryRecall addr => Sys2Proof.Machine.execDirectoryRecall addr s
  | .flitCrcFail port => Sys2Proof.Machine.execFlitCrcFail port s
  | .flitLost addr => Sys2Proof.Machine.execFlitLost addr s
  | .ackArrival addr site => Sys2Proof.Machine.execAckArrival addr site s
  | .ackTimeoutExpiry addr => Sys2Proof.Machine.execAckTimeoutExpiry addr s
  | .laneSpareSwap swihus link lane => Sys2Proof.Machine.execLaneSpareSwap swihus link lane s
  | .laneFail link lane => Sys2Proof.Machine.execLaneFail link lane s
  | .keyRollover link key => Sys2Proof.Machine.execKeyRollover link key s
  | .oldKeyRetire link => Sys2Proof.Machine.execOldKeyRetire link s
  | .peerTagFail port => Sys2Proof.Machine.execPeerTagFail port s
  | .memoryKeyInstall key => Sys2Proof.Machine.execMemoryKeyInstall key s
  | .add g d a b sat => Sys2Proof.Machine.execAdd g d a b sat s
  | .sub g d a b sat => Sys2Proof.Machine.execSub g d a b sat s
  | .mul g d a b sat => Sys2Proof.Machine.execMul g d a b sat s
  | .mad g d a b c sat => Sys2Proof.Machine.execMad g d a b c sat s
  | .and g d a b => Sys2Proof.Machine.execAnd g d a b s
  | .or g d a b => Sys2Proof.Machine.execOr g d a b s
  | .xor g d a b => Sys2Proof.Machine.execXor g d a b s
  | .shl g d a b => Sys2Proof.Machine.execShl g d a b s
  | .shr g d a b => Sys2Proof.Machine.execShr g d a b s
  | .sar g d a b => Sys2Proof.Machine.execSar g d a b s
  | .min g d a b => Sys2Proof.Machine.execMin g d a b s
  | .max g d a b => Sys2Proof.Machine.execMax g d a b s
  | .sel g d a b pc => Sys2Proof.Machine.execSel g d a b pc s
  | .icmp g pd a b cond => Sys2Proof.Machine.execIcmp g pd a b cond s
  | .movi g d b => Sys2Proof.Machine.execMovi g d b s
  | .bfx g d a b sgn => Sys2Proof.Machine.execBfx g d a b sgn s
  | .bfi g d a b c => Sys2Proof.Machine.execBfi g d a b c s
  | .lea g d a b n => Sys2Proof.Machine.execLea g d a b n s
  | .bsel g d a b c sx => Sys2Proof.Machine.execBsel g d a b c sx s
  | .addc g d a b po ci => Sys2Proof.Machine.execAddc g d a b po ci s
  | .subb g d a b po ci => Sys2Proof.Machine.execSubb g d a b po ci s
  | .mulh g d a b uns => Sys2Proof.Machine.execMulh g d a b uns s
  | .mulw g d a b uns => Sys2Proof.Machine.execMulw g d a b uns s
  | .minz g d a b => Sys2Proof.Machine.execMinz g d a b s
  | .maxz g d a b => Sys2Proof.Machine.execMaxz g d a b s
  | .andn g d a b => Sys2Proof.Machine.execAndn g d a b s
  | .rot g d a amt => Sys2Proof.Machine.execRot g d a amt s
  | .neg g d a sat => Sys2Proof.Machine.execNeg g d a sat s
  | .abs g d a sat => Sys2Proof.Machine.execAbs g d a sat s
  | .not g d a => Sys2Proof.Machine.execNot g d a s
  | .popc g d a => Sys2Proof.Machine.execPopc g d a s
  | .clz g d a => Sys2Proof.Machine.execClz g d a s
  | .ctz g d a => Sys2Proof.Machine.execCtz g d a s
  | .brev g d a => Sys2Proof.Machine.execBrev g d a s
  | .mov g d a => Sys2Proof.Machine.execMov g d a s
  | .add64 g d a b sat => Sys2Proof.Machine.execAdd64 g d a b sat s
  | .sub64 g d a b sat => Sys2Proof.Machine.execSub64 g d a b sat s
  | .lea64 g d a b n sgn => Sys2Proof.Machine.execLea64 g d a b n sgn s
  | .fadd g d a b rnd => Sys2Proof.Machine.execFadd g d a b rnd s
  | .fsub g d a b rnd => Sys2Proof.Machine.execFsub g d a b rnd s
  | .fmul g d a b rnd => Sys2Proof.Machine.execFmul g d a b rnd s
  | .ffma g d a b c rnd => Sys2Proof.Machine.execFfma g d a b c rnd s
  | .fcmp g pd a b cond => Sys2Proof.Machine.execFcmp g pd a b cond s
  | .fmin g d a b => Sys2Proof.Machine.execFmin g d a b s
  | .fmax g d a b => Sys2Proof.Machine.execFmax g d a b s
  | .fclass g d a => Sys2Proof.Machine.execFclass g d a s
  | .fround g d a rnd => Sys2Proof.Machine.execFround g d a rnd s
  | .hadd2 g d a b bf => Sys2Proof.Machine.execHadd2 g d a b bf s
  | .hsub2 g d a b bf => Sys2Proof.Machine.execHsub2 g d a b bf s
  | .hmul2 g d a b bf => Sys2Proof.Machine.execHmul2 g d a b bf s
  | .hfma2 g d a b c bf => Sys2Proof.Machine.execHfma2 g d a b c bf s
  | .hmin2 g d a b bf => Sys2Proof.Machine.execHmin2 g d a b bf s
  | .hmax2 g d a b bf => Sys2Proof.Machine.execHmax2 g d a b bf s
  | .hcmp2 g d a b bf cond => Sys2Proof.Machine.execHcmp2 g d a b bf cond s
  | .idp4 g d a b c sa sb sat => Sys2Proof.Machine.execIdp4 g d a b c sa sb sat s
  | .idp8 g d a b c sa sb sat => Sys2Proof.Machine.execIdp8 g d a b c sa sb sat s
  | .hdp2 g d a b c rnd bf => Sys2Proof.Machine.execHdp2 g d a b c rnd bf s
  | .cvt g d a dt st rnd sat ftz => Sys2Proof.Machine.execCvt g d a dt st rnd sat ftz s
  | .pack g d a ty rnd sat ftz sc => Sys2Proof.Machine.execPack g d a ty rnd sat ftz sc s
  | .unpk g d a ty sc => Sys2Proof.Machine.execUnpk g d a ty sc s
  | .frcp g d a la => Sys2Proof.Machine.execFrcp g d a la s
  | .frsq g d a la => Sys2Proof.Machine.execFrsq g d a la s
  | .fsqrt g d a la => Sys2Proof.Machine.execFsqrt g d a la s
  | .fexp2 g d a la => Sys2Proof.Machine.execFexp2 g d a la s
  | .flog2 g d a la => Sys2Proof.Machine.execFlog2 g d a la s
  | .fsin g d a la => Sys2Proof.Machine.execFsin g d a la s
  | .fcos g d a la => Sys2Proof.Machine.execFcos g d a la s
  | .ftanh g d a la => Sys2Proof.Machine.execFtanh g d a la s
  | .shfl g d a mode w64 src seg wr pv m la => Sys2Proof.Machine.execShfl g d a mode w64 src seg wr pv m la s
  | .redux g sd a op ty m la => Sys2Proof.Machine.execRedux g sd a op ty m la s
  | .vscan g d a seg op exc ty m la => Sys2Proof.Machine.execVscan g d a seg op exc ty m la s
  | .vscanc g d a seg op exc ty sc m la => Sys2Proof.Machine.execVscanc g d a seg op exc ty sc m la s
  | .vote g v pa m la => Sys2Proof.Machine.execVote g v pa m la s
  | .matchLanes g d a w64 m la => Sys2Proof.Machine.execMatch g d a w64 m la s
  | .rsend g a dir m la => Sys2Proof.Machine.execRsend g a dir m la s
  | .rrecv g d dir m la => Sys2Proof.Machine.execRrecv g d dir m la s
  | .rpoll g pd dir snd m la => Sys2Proof.Machine.execRpoll g pd dir snd m la s
  | .ld g d a ty acq ch sc off la => Sys2Proof.Machine.execLd g d a ty acq ch sc off la s
  | .st g b a ty rel ch sc off la => Sys2Proof.Machine.execSt g b a ty rel ch sc off la s
  | .ldb g d a ty bound off la => Sys2Proof.Machine.execLdb g d a ty bound off la s
  | .lds g d a ty off la => Sys2Proof.Machine.execLds g d a ty off la s
  | .sts g b a ty off la => Sys2Proof.Machine.execSts g b a ty off la s
  | .ldg g d a ty off la => Sys2Proof.Machine.execLdg g d a ty off la s
  | .stg g b a ty off la => Sys2Proof.Machine.execStg g b a ty off la s
  | .atom g d a b c op ty sc sem la => Sys2Proof.Machine.execAtom g d a b c op ty sc sem la s
  | .red g a b op ty sc rel la => Sys2Proof.Machine.execRed g a b op ty sc rel la s
  | .atoms g d a b c op ty sem win la => Sys2Proof.Machine.execAtoms g d a b c op ty sem win la s
  | .pf g a lvl excl off la => Sys2Proof.Machine.execPf g a lvl excl off la s
  | .cinv g a sc off la => Sys2Proof.Machine.execCinv g a sc off la s
  | .cwb g a sc off la => Sys2Proof.Machine.execCwb g a sc off la s
  | .fence g kind sc la => Sys2Proof.Machine.execFence g kind sc la s
  | .rndadv g d a off la => Sys2Proof.Machine.execRndadv g d a off la s
  | .rndld g d a off la => Sys2Proof.Machine.execRndld g d a off la s
  | .rndwait g d a c off la => Sys2Proof.Machine.execRndwait g d a c off la s
  | .bra g disp => Sys2Proof.Machine.execBra g disp s
  | .call g disp => Sys2Proof.Machine.execCall g disp s
  | .nop g => Sys2Proof.Machine.execNop g s
  | .exit g => Sys2Proof.Machine.execExit g s
  | .pause g n => Sys2Proof.Machine.execPause g n s
  | .brx g a => Sys2Proof.Machine.execBrx g a s
  | .ret g a => Sys2Proof.Machine.execRet g a s
  | .brk g n => Sys2Proof.Machine.execBrk g n s
  | .sys g n => Sys2Proof.Machine.execSys g n s
  | .mwait g a b off la => Sys2Proof.Machine.execMwait g a b off la s
  | .rep n step fmask => Sys2Proof.Machine.execRep n step fmask s
  | .mfs g d r => Sys2Proof.Machine.execMfs g d r s
  | .route g d a t la => Sys2Proof.Machine.execRoute g d a t la s
  | .rdone g a la => Sys2Proof.Machine.execRdone g a la s
  | .xrd g d r lvl => Sys2Proof.Machine.execXrd g d r lvl s
  | .xwr g a r lvl => Sys2Proof.Machine.execXwr g a r lvl s
  | .sret g => Sys2Proof.Machine.execSret g s
  | .hret g => Sys2Proof.Machine.execHret g s
  | .tlbinvVa g a sc la => Sys2Proof.Machine.execTlbinvVa g a sc la s
  | .tlbinvAsid g a sc la => Sys2Proof.Machine.execTlbinvAsid g a sc la s
  | .tlbinvIpa g a sc la => Sys2Proof.Machine.execTlbinvIpa g a sc la s
  | .tlbinvVmid g a sc la => Sys2Proof.Machine.execTlbinvVmid g a sc la s
  | .tlbinvAll g sc la => Sys2Proof.Machine.execTlbinvAll g sc la s
  | .tlbinvRgn g d a la => Sys2Proof.Machine.execTlbinvRgn g d a la s
  | .uadd g d a b => Sys2Proof.Machine.execUadd g d a b s
  | .usub g d a b => Sys2Proof.Machine.execUsub g d a b s
  | .umul g d a b => Sys2Proof.Machine.execUmul g d a b s
  | .umad g d a b c => Sys2Proof.Machine.execUmad g d a b c s
  | .umin g d a b uns => Sys2Proof.Machine.execUmin g d a b uns s
  | .umax g d a b uns => Sys2Proof.Machine.execUmax g d a b uns s
  | .ucmp g qd a b cond => Sys2Proof.Machine.execUcmp g qd a b cond s
  | .umov g d b => Sys2Proof.Machine.execUmov g d b s
  | .uand g d a b => Sys2Proof.Machine.execUand g d a b s
  | .uor g d a b => Sys2Proof.Machine.execUor g d a b s
  | .uxor g d a b => Sys2Proof.Machine.execUxor g d a b s
  | .ushl g d a b => Sys2Proof.Machine.execUshl g d a b s
  | .ushr g d a b => Sys2Proof.Machine.execUshr g d a b s
  | .usar g d a b => Sys2Proof.Machine.execUsar g d a b s
  | .ubfx g d a b sgn => Sys2Proof.Machine.execUbfx g d a b sgn s
  | .upopc g d a => Sys2Proof.Machine.execUpopc g d a s
  | .umovi g d b => Sys2Proof.Machine.execUmovi g d b s
  | .uadd64 g d a b => Sys2Proof.Machine.execUadd64 g d a b s
  | .ulea64 g d a b n sgn => Sys2Proof.Machine.execUlea64 g d a b n sgn s
  | .uld g d a ty acq sc off => Sys2Proof.Machine.execUld g d a ty acq sc off s
  | .uldb g d a ty bound off => Sys2Proof.Machine.execUldb g d a ty bound off s
  | .ust g b a ty rel sc off => Sys2Proof.Machine.execUst g b a ty rel sc off s
  | .ubra g disp => Sys2Proof.Machine.execUbra g disp s
  | .ubrx g a => Sys2Proof.Machine.execUbrx g a s
  | .ucall g disp => Sys2Proof.Machine.execUcall g disp s
  | .uret g a => Sys2Proof.Machine.execUret g a s
  | .barInit g b grp n => Sys2Proof.Machine.execBarInit g b grp n s
  | .barArr g b grp tok => Sys2Proof.Machine.execBarArr g b grp tok s
  | .barWait g b grp tok => Sys2Proof.Machine.execBarWait g b grp tok s
  | .barSync g b grp => Sys2Proof.Machine.execBarSync g b grp s
  | .cpIn g h a p b ord w => Sys2Proof.Machine.execCpIn g h a p b ord w s
  | .cpGat g h a p b ord w => Sys2Proof.Machine.execCpGat g h a p b ord w s
  | .cpOut g h a p b ord w => Sys2Proof.Machine.execCpOut g h a p b ord w s
  | .cpRed g h a p b ord bf => Sys2Proof.Machine.execCpRed g h a p b ord bf s
  | .cpGrp g h a p b ord w => Sys2Proof.Machine.execCpGrp g h a p b ord w s
  | .mxfork g off => Sys2Proof.Machine.execMxfork g off s
  | .mxjoin g => Sys2Proof.Machine.execMxjoin g s
  | .mma g d a b ra sat => Sys2Proof.Machine.execMma g d a b ra sat s
  | .hset g d a => Sys2Proof.Machine.execHset g d a s
  | .hld g d a off => Sys2Proof.Machine.execHld g d a off s
  | .mscl g n a b ssh => Sys2Proof.Machine.execMscl g n a b ssh s
  | .accz g d => Sys2Proof.Machine.execAccz g d s
  | .accrd g h a b cv sat => Sys2Proof.Machine.execAccrd g h a b cv sat s
  | .accwr g d h cv => Sys2Proof.Machine.execAccwr g d h cv s
  | .mexit g => Sys2Proof.Machine.execMexit g s
  | .launch g d a off => Sys2Proof.Machine.execLaunch g d a off s
  | .gridgrow g qp d a => Sys2Proof.Machine.execGridgrow g qp d a s
  | .capq g a off => Sys2Proof.Machine.execCapq g a off s
  | .graftRep g t d a => Sys2Proof.Machine.execGraftRep g t d a s
  | .graftBind g t a => Sys2Proof.Machine.execGraftBind g t a s
  | .graftUnbind g t => Sys2Proof.Machine.execGraftUnbind g t s
  | .prune g t a b => Sys2Proof.Machine.execPrune g t a b s
  | .gmerge g t a b => Sys2Proof.Machine.execGmerge g t a b s
  | .gmergeAll g t a => Sys2Proof.Machine.execGmergeAll g t a s
  | .grefresh g t a => Sys2Proof.Machine.execGrefresh g t a s
  | .gtabq g t a b off => Sys2Proof.Machine.execGtabq g t a b off s
  | .reservedCell w => Sys2Proof.Machine.execReservedCell w s
  | .bindContextDescriptor vmid addr => Sys2Proof.Machine.execBindContextDescriptor vmid addr s
  | .peerDeviceAccess port addr op => Sys2Proof.Machine.execPeerDeviceAccess port addr op s
  | .accessPerformed blk n => Sys2Proof.Machine.execAccessPerformed blk n s
  | .packageReset => Sys2Proof.Machine.execPackageReset s
  | .ioDieChangeover => Sys2Proof.Machine.execIoDieChangeover s
  | .ioDieChangeoverComplete => Sys2Proof.Machine.execIoDieChangeoverComplete s
  | .rehashStart => Sys2Proof.Machine.execRehashStart s
  | .rehashLineMove => Sys2Proof.Machine.execRehashLineMove s
  | .rehashComplete => Sys2Proof.Machine.execRehashComplete s
  | .mbcmdReadLog => Sys2Proof.Machine.execMbcmdReadLog s
  | .mbcmdReadMeasurement => Sys2Proof.Machine.execMbcmdReadMeasurement s
  | .mbcmdRestartLog => Sys2Proof.Machine.execMbcmdRestartLog s
  | .mailboxDone => Sys2Proof.Machine.execMailboxDone s
  | .graftWindowEnd => Sys2Proof.Machine.execGraftWindowEnd s
  | .ideIntegrityFail => Sys2Proof.Machine.execIdeIntegrityFail s
  | .sliceRegroup => Sys2Proof.Machine.execSliceRegroup s

end Sys2Proof.Machine
end

