-- ==== Sys2Proof/Machine/HostRead.lean ====
section
/-! DEFINITION. Reads by the host of the registers: the management block and the machine-check log in BAR2 (01 Table 1.7, 23 Table 23.2),
the launch-port pages in the BAR0 of the physical and of a virtual function (03 Table 3.3), the diagnostic DVSEC (01 Table 1.8).
A read is no row of the opcode table: it is an action of its own (log 56). -/

namespace Sys2Proof.Machine

open Sys2Proof

/-- The 64 bytes of a machine-check record (23 Table 23.2). -/
def McRec.bytes (r : McRec) : List Byte :=
  leBytes 4 r.seq.toNat ++ leBytes 2 r.kind ++ leBytes 2 r.site ++ leBytes 1 r.cause ++ leBytes 1 r.attempt ++ leBytes 2 r.ctx ++
  leBytes 4 r.gridh.toNat ++ leBytes 4 r.block ++ leBytes 4 r.detail ++ leBytes 8 r.addr ++ leBytes 8 r.epc.toNat ++
  leBytes 8 r.val.toNat ++ leBytes 8 r.time ++ leBytes 8 0

/-- What the 8 bytes at an aligned BAR2 offset read as; reserved fields read 0. -/
def State.bar2Word (s : State) (off : Nat) : Nat :=
  let x := s.bar2
  if off = 0x00 then s.rdymap.toNat % 2 ^ 63
  else if off = 0x08 then x.shrkack.toNat
  else if off = 0x10 then x.nrbase.toNat
  else if off = 0x18 then x.nrsize % 2 ^ 32 + 2 ^ 32 * x.nrvec.toNat
  else if off = 0x20 then x.nrtail.toNat + 2 ^ 32 * x.nrhead.toNat
  else if off = 0x28 then (if x.nrstat then 1 else 0)
  else if off = 0x30 then x.dnbase.toNat
  else if off = 0x40 then x.b4base.toNat
  else if off = 0x100 then x.pwen.toNat
  else if 0x110 ≤ off && off < 0x190 then 2 ^ 30 * fget 0 x.pwsize ((off - 0x110) / 8)
  else if 0x200 ≤ off && off < 0x400 then fget 0 x.portvf ((off - 0x200) / 8)
  else if off = 0x1000 then x.mcseq.toNat
  else if off = 0x1008 then x.mccfg.toNat
  else if 0x1040 ≤ off && off < 0x2000 then
    leNat ((((fget none s.mclog ((off - 0x1040) / 64)).elim [] McRec.bytes).drop ((off - 0x1040) % 64)).take 8)
  else 0

/-- What the 8 bytes at an aligned offset of a launch port's page read as. -/
def Port.pageWord (x : Port) (off : Nat) : Nat :=
  if off = 0x40 then x.refcnt.toNat + 2 ^ 32 * x.lastcode
  else if off = 0x48 then x.q.length
  else if off = 0x80 then x.pcap + (if x.enable then 4 else 0) + 2 ^ 16 * x.asid
  else 0

/-- What the 8 bytes at an aligned offset of BAR0 read as: of the physical function (vf 0), or of a virtual one, in which only the
pages of its own ports answer (01 R36). -/
def State.bar0Word (s : State) (vf off : Nat) : Nat :=
  let p := off / 4096
  if 64 ≤ p || (vf != 0 && fget 0 s.bar2.portvf p != vf) then 0 else (s.port p).pageWord (off % 4096)

/-- The 72 bytes of the DVSEC; the readiness mirror in Cold Frame shows `COLDF` alone. -/
def State.dvsecBytes (s : State) : List Byte :=
  let x := s.dvsec
  leBytes 4 (0x23 + 2 ^ 16 + 2 ^ 20 * Config.nextCapability.toNat) ++ leBytes 4 (Config.vendorId.toNat + 2 ^ 16 + 2 ^ 20 * 0x48) ++
  leBytes 2 1 ++ leBytes 6 0 ++
  leBytes 8 (if s.phase = .coldFrame then 2 ^ 63 else s.rdymap.toNat % 2 ^ 63) ++
  leBytes 1 x.dstep ++ leBytes 1 x.dkind ++ leBytes 2 x.dunit ++ leBytes 4 0 ++
  leBytes 4 x.mbcmd.toNat ++ leBytes 4 x.mbstat ++ x.data

/-- A naturally aligned access of 4 or 8 bytes. -/
def regAccess (off size : Nat) : Bool := (size == 4 || size == 8) && off % size == 0

/-- Bytes of an image of 8-byte words. -/
def wordBytes (word : Nat → Nat) (off size : Nat) : List Byte :=
  (upto off size).map fun a => BitVec.ofNat 8 (word (a / 8 * 8) / 2 ^ (8 * (a % 8)))

/-- What a read by the host returns; none where no register answers (01 R38). -/
def State.regRead (s : State) (space : RegSpace) (off size : Nat) : Option (List Byte) :=
  match space with
  | .dvsec => some (((s.dvsecBytes ++ List.replicate size 0).drop off).take size)
  | .bar2 => if s.phase = .coldFrame then none
      else some (if regAccess off size then wordBytes s.bar2Word off size else List.replicate size 0)
  | .bar0 vf => if s.phase = .coldFrame then none
      else some (if regAccess off size then wordBytes (s.bar0Word vf) off size else List.replicate size 0)

/-- The host reads registers: the answer leaves the part. A read of the whole of `B4BASE` returns its new value: later accesses through
BAR4 use no older one (01 R36). -/
def State.hostRead (s : State) (space : RegSpace) (off size : Nat) : State :=
  match s.regRead space off size with
  | none => s.out .unsupported
  | some bytes =>
      let s := if space = .bar2 && off == 0x40 && size == 8 then { s with bar2 := { s.bar2 with b4olds := [] } } else s
      s.out (.data bytes false)

end Sys2Proof.Machine
end

