-- ==== Sys2Proof/Machine/Names.lean ====
section
/-! DEFINITION. The lane registers, lane predicates and uniform registers that an instruction names as operands: an instruction that
names one for which a result is still due is not ready (03 R51, 05 R106, R107). -/

namespace Sys2Proof

open Sys2Proof.Machine

/-- Lane registers that an instruction names, sources and destinations; none of a uniform-class instruction, which names none. -/
def Instr.vnames : Instr → List Nat
  | .add _ d a b _ | .sub _ d a b _ | .mul _ d a b _ | .and _ d a b | .or _ d a b | .xor _ d a b | .shl _ d a b | .shr _ d a b
  | .sar _ d a b | .min _ d a b | .max _ d a b | .sel _ d a b _ | .bfx _ d a b _ | .lea _ d a b _ | .fadd _ d a b _ | .fsub _ d a b _
  | .fmul _ d a b _ | .hadd2 _ d a b _ | .hsub2 _ d a b _ | .hmul2 _ d a b _ => [d, a] ++ b.vregs
  | .mad _ d a b c _ | .bfi _ d a b c | .bsel _ d a b c _ | .ffma _ d a b c _ | .hfma2 _ d a b c _ => [d, a, c] ++ b.vregs
  | .icmp _ _ a b _ | .fcmp _ _ a b _ => a :: b.vregs
  | .movi _ d b => d :: b.vregs
  | .addc _ d a b _ _ | .subb _ d a b _ _ | .mulh _ d a b _ | .minz _ d a b | .maxz _ d a b | .andn _ d a b | .fmin _ d a b
  | .fmax _ d a b | .hmin2 _ d a b _ | .hmax2 _ d a b _ | .hcmp2 _ d a b _ _ => [d, a, b]
  | .mulw _ d a b _ => grp d 2 ++ [a, b]
  | .rot _ d a amt => [d, a] ++ amt.vregs
  | .add64 _ d a b _ | .sub64 _ d a b _ => grp d 2 ++ grp a 2 ++ grp b 2
  | .lea64 _ d a b _ _ => grp d 2 ++ grp a 2 ++ [b]
  | .neg _ d a _ | .abs _ d a _ | .not _ d a | .popc _ d a | .clz _ d a | .ctz _ d a | .brev _ d a | .mov _ d a | .fclass _ d a
  | .fround _ d a _ | .frcp _ d a _ | .frsq _ d a _ | .fsqrt _ d a _ | .fexp2 _ d a _ | .flog2 _ d a _ | .fsin _ d a _
  | .fcos _ d a _ | .ftanh _ d a _ => [d, a]
  | .cvt _ d a dt sty _ _ _ => grp d dt.regs ++ grp a sty.regs
  | .idp4 _ d a b c _ _ _ | .idp8 _ d a b c _ _ _ | .hdp2 _ d a b c _ _ => [d, a, b, c]
  | .pack _ d a ty _ _ _ sc => [d] ++ grp a ty.perReg ++ sc.vregs
  | .unpk _ d a ty sc => grp d ty.perReg ++ [a] ++ sc.vregs
  | .shfl _ d a _ w64 src _ _ _ _ _ => grp d (if w64 then 2 else 1) ++ grp a (if w64 then 2 else 1) ++ shflRegs src
  | .redux _ _ a op _ _ _ => grp a op.regs
  | .vscan _ d a _ op _ _ _ _ | .vscanc _ d a _ op _ _ _ _ _ => grp d op.regs ++ grp a op.regs
  | .matchLanes _ d a w64 _ _ => grp d 2 ++ grp a (if w64 then 2 else 1)
  | .rsend _ a _ _ _ => [a]
  | .rrecv _ d _ _ _ => [d]
  | .ld _ d a ty _ _ _ _ _ => grp d ty.regs ++ grp a 2
  | .st _ b a ty _ _ _ _ _ => grp b ty.regs ++ grp a 2
  | .ldb _ d a ty (.rf _) _ _ => grp d ty.regs ++ grp a 2
  | .ldb _ d a ty (.target c) _ _ => grp d ty.regs ++ grp a 2 ++ [c]
  | .lds _ x a ty _ _ | .sts _ x a ty _ _ | .ldg _ x a ty _ _ | .stg _ x a ty _ _ => a :: grp x ty.regs
  | .atom _ d a b c op ty _ _ _ => grp d ty.regs ++ grp a 2 ++ grp b ty.regs ++ (if op = .cas then grp c ty.regs else [])
  | .red _ a b _ ty _ _ _ => grp a 2 ++ grp b ty.regs
  | .atoms _ d a b c op ty _ _ _ => [a] ++ grp d ty.regs ++ grp b ty.regs ++ (if op = .cas then grp c ty.regs else [])
  | .pf _ a _ _ _ _ | .cinv _ a _ _ _ | .cwb _ a _ _ _ | .brx _ a | .ret _ a | .rdone _ a _ | .tlbinvVa _ a _ _ | .tlbinvIpa _ a _ _ =>
      grp a 2
  | .rndadv _ d a _ _ | .rndld _ d a _ _ => d :: grp a 2
  | .rndwait _ d a c _ _ => [d, c] ++ grp a 2
  | .mwait _ a b _ _ => b :: grp a 2
  | .call _ _ => grp 126 2
  | .mfs _ d r => grp d r.regs
  | .route _ d a _ _ => grp d 4 ++ [a]
  | .xrd _ x r _ | .xwr _ x r _ => grp x r.regs
  | .tlbinvAsid _ a _ _ | .tlbinvVmid _ a _ _ => [a]
  | .tlbinvRgn _ d a _ => [d, a]
  | _ => []

/-- The guard of a lane-class instruction and the other lane predicates that it names. -/
def Instr.pnames (i : Instr) : List Nat :=
  let own : List Nat := match i with
    | .sel _ _ _ _ p | .icmp _ p _ _ _ | .fcmp _ p _ _ _ | .shfl _ _ _ _ _ _ _ _ p _ _ | .rpoll _ p _ _ _ _ => [p]
    | .addc _ _ _ _ po ci | .subb _ _ _ _ po ci => po :: ci.toList
    | .vote _ (.pred _ pd) pa _ _ => [pd, pa]
    | .vote _ (.bits _) pa _ _ => [pa]
    | _ => []
  match i.fields with
  | some q => if q.uni then own else q.g :: own
  | none => own

/-- Uniform registers that an instruction names, sources and destinations. -/
def Instr.unames : Instr → List Nat
  | .uadd _ d a b | .usub _ d a b | .umul _ d a b | .umin _ d a b _ | .umax _ d a b _ | .uand _ d a b | .uor _ d a b | .uxor _ d a b
  | .ushl _ d a b | .ushr _ d a b | .usar _ d a b | .ubfx _ d a b _ => [d, a] ++ b.sregs 1
  | .umad _ d a b c => [d, a, c] ++ b.sregs 1
  | .ucmp _ _ a b _ => a :: b.sregs 1
  | .umov _ d b => d :: b.sregs 1
  | .upopc _ d a | .gridgrow _ _ d a | .graftRep _ _ d a => [d, a]
  | .umovi _ d b => grp d 2 ++ b.sregs 1
  | .uadd64 _ d a b => grp d 2 ++ grp a 2 ++ b.sregs 2
  | .ulea64 _ d a b _ _ => grp d 2 ++ grp a 2 ++ b.sregs 1
  | .uld _ d a ty _ _ _ | .ust _ d a ty _ _ _ => grp d ty.regs ++ grp a 2
  | .uldb _ d a ty bound _ => grp d ty.regs ++ grp a 2 ++ bound.regs
  | .ubrx _ a | .uret _ a | .capq _ a _ | .graftBind _ _ a | .gmergeAll _ _ a | .grefresh _ _ a => grp a 2
  | .ucall _ _ => [62, 63]
  | .barArr _ _ _ tok | .barWait _ _ _ tok => tok.toList
  | .cpIn _ _ a p _ _ _ | .cpOut _ _ a p _ _ _ | .cpRed _ _ a p _ _ _ => p :: grp a 2
  | .cpGat _ _ a p _ _ _ | .cpGrp _ _ a p _ _ _ => grp p 2 ++ grp a 2
  | .mxfork _ _ => grp 0 16
  | .launch _ d a _ => grp d 2 ++ grp a 2
  | .prune _ _ a b => [a, b]
  | .gmerge _ _ a b | .gtabq _ _ a b _ => b :: grp a 2
  | .shfl _ _ _ _ _ _ _ _ _ m _ | .vscan _ _ _ _ _ _ _ m _ | .matchLanes _ _ _ _ m _ | .rsend _ _ _ m _ | .rrecv _ _ _ m _
  | .rpoll _ _ _ _ m _ => grp m 2
  | .redux _ sd _ op _ m _ | .vscanc _ _ _ _ op _ _ sd m _ => grp sd op.regs ++ grp m 2
  | .vote _ v _ m _ => voteRegs v ++ grp m 2
  | _ => []

end Sys2Proof

namespace Sys2Proof.Machine

open Sys2Proof

/-- The copies of lane registers, of lane predicates and of uniform registers that an instruction names at a level. -/
def vKeys (lv : Level) (i : Instr) : List Nat := i.vnames.map (vKey lv)
def pKeys (lv : Level) (i : Instr) : List Nat := i.pnames.map (pKey lv)
def sKeys (lv : Level) (i : Instr) : List Nat := i.unames.map (sKey lv)

/-- A result that must land before the lane's next instruction goes to an operand of it (05 R107). -/
def Lane.dueFor (l : Lane) (i : Instr) : Bool := l.pending.any fun p => p.meets (vKeys l.level i) (pKeys l.level i)

end Sys2Proof.Machine
end

