-- ==== Sys2Proof/Machine/Fetch.lean ====
section
/-! DEFINITION. Issuing: which lanes can issue, the frontier and its selection (03 R50 to R55), one issue of an entry or of the
tiller, and what a step does around it. -/

namespace Sys2Proof.Machine

open Sys2Proof

/-! ### The frontier (03 R50, R55, 05 R116) -/

/-- The wake event of a parked lane has occurred. -/
def State.awake (s : State) (b : Nat) (l : Lane) : Bool :=
  match l.park with
  | .none => true
  | .line m line => !(s.blk m).absentLine line
  | .window r => match s.blockAt (s.blk b).grid (s.groupNo b * (s.gridOf b).gsize + r) with
      | none => false
      | some m => (s.blk m).phase != .preempted && (s.blk m).phase != .relaunch
  | .round slot t _ _ | .uround slot t _ _ => ((s.ctxOf b).region slot).id == 0 || reached (BitVec.ofNat 32 (s.viewOf b slot)) t
  | .bar grp n t => phasePassed (s.bar b grp n).ph t
  | .mwait line _ _ _ => s.lineNew l line
  | .meet _ _ _ _ | .gather _ _ _ | .runner _ _ _ _ => false

/-- Lanes of a warp in its frontier: live, and not parked or woken. -/
def State.frontLanes (s : State) (b w : Nat) : List Nat :=
  if s.runs b then (s.warp b w).live.filter fun i => s.awake b (s.lane b w i) else []

/-- Lanes of an entry. -/
def State.lanesAt (s : State) (b w : Nat) (k : EntryKey) : List Nat := (s.frontLanes b w).filter fun i => (s.lane b w i).key == k

/-- Frontier order. -/
def EntryKey.before (x y : EntryKey) : Bool :=
  if x.prio != y.prio then y.prio < x.prio
  else if x.pc != y.pc then x.pc.toNat < y.pc.toNat
  else if x.level != y.level then y.level.num < x.level.num
  else x.prog < y.prog

/-- Insert in frontier order. -/
def EntryKey.insert (k : EntryKey) : List EntryKey → List EntryKey
  | [] => [k]
  | x :: r => if k = x then x :: r else if EntryKey.before k x then k :: x :: r else x :: EntryKey.insert k r

/-- The frontier of a warp, in frontier order. -/
def State.frontier (s : State) (b w : Nat) : List EntryKey :=
  (s.frontLanes b w).foldl (fun ks i => EntryKey.insert (s.lane b w i).key ks) []

/-! ### Which entries are ready (03 R51) -/

/-- The lane's instruction waits for a home that holds its request. -/
def State.asking (s : State) (b w i : Nat) : Bool := s.homeq.any fun q => match q.who with
  | .issue c => c.agent == .warp && c.blk == b && c.warp == w && c.lanes.contains i
  | _ => false

/-- A lane that keeps its entry from being ready: it pauses (13 R255), holds a trap (19 R344), awaits the notices of its round (15
R292), or has a request held at a home (log 68). -/
def State.idles (s : State) (b w i : Nat) : Bool :=
  let l := s.lane b w i
  s.clock < l.paused || l.held != none || (l.awaits != [] && s.awaiting b l) || s.asking b w i

/-- The class of an entry's next instruction; one that cannot be fetched counts as lane-class. -/
def State.isUniform (s : State) (b : Nat) (k : EntryKey) : Bool := ((s.entryWord b k).getD 0).getLsbD 31

/-- Results of the lanes given or of uniform registers are due. -/
def State.anyDue (s : State) (b w : Nat) (ls : List Nat) : Bool :=
  (ls.any fun i => (s.lane b w i).pending.any fun p => p.dist == 0) || (s.warp b w).due != []

/-- The next instruction of an entry names a register for which a result is due (05 R106, R107). -/
def State.hasDue (s : State) (b w : Nat) (k : EntryKey) : Bool :=
  let ls := s.lanesAt b w k
  s.anyDue b w ls && match s.nextInstr b k with
    | some i => (ls.any fun j => (s.lane b w j).dueFor i) || (s.warp b w).due.any (sKeys k.level i).contains
    | none => false

/-- Cells of which a member may have to wait: uniform BARROW and FORK, lane-class SYNC, FLOW and XRET (05 Table 5.8, Table 5.10). -/
def mayBlock (w : Word) : Bool :=
  let op := w.toNat / 2 ^ 24 % 64
  if w.getLsbD 31 then op == 0x07 || op == 0x08 else op == 0x35 || op == 0x3E

/-- A barrow command waits for room on the core (03 Table 3.2) and for the block's cancelled commands (19 R363), a `cp.gat` for its index list too (11 R232). -/
def State.cpBlocked (s : State) (b : Nat) (i : Instr) (bar : Nat) (list : Option Nat) : Bool :=
  (s.bar b false bar).init &&
  (64 ≤ s.coreCmds b || (s.blk b).cancelled != [] || match i, list with
    | .cpGat _ h _ _ _ _ _, some off =>
        let rows := Hdr.rows ((s.blk b).hdr h)
        off % 4 == 0 && decide (off + 4 * rows ≤ (s.gridOf b).khdr.scratch) && (s.readIdx b off rows).isNone
    | _, _ => false)

/-- The next instruction of an entry has to wait: a fork or join for the tiller (13 R264, R265), a barrow command for room, a fence or a
return for the held scratchpad stores of its lanes (15 R286, R288). -/
def State.blocked (s : State) (b w : Nat) (k : EntryKey) : Bool :=
  let wp := s.warp b w
  let on (g : Guard) : Bool := wp.rq g.p != g.neg
  match s.entryWord b k with
  | none => false
  | some w0 => mayBlock w0 && match s.nextInstr b k with
    | some (.mxfork g _) | some (.mxjoin g) => on g && (s.blk b).tiller.run
    | some (.cpIn g h a p r o x) => on g && s.cpBlocked b (.cpIn g h a p r o x) r none
    | some (.cpOut g h a p r o x) => on g && s.cpBlocked b (.cpOut g h a p r o x) r none
    | some (.cpGrp g h a p r o x) => on g && s.cpBlocked b (.cpGrp g h a p r o x) r none
    | some (.cpRed g h a p r o x) => on g && s.cpBlocked b (.cpRed g h a p r o x) r none
    | some (.cpGat g h a p r o x) => on g && s.cpBlocked b (.cpGat g h a p r o x) r (some (wp.rs k.level (p + 1)).toNat)
    | some (.fence g _ _ _) | some (.sret g) | some (.hret g) =>
        (s.lanesAt b w k).any fun i => (s.lane b w i).guard g && s.heldScratch b w i
    | _ => false

/-- An entry whose instruction can issue; results that are due have landed, or not (`late`), as the part has it. -/
def State.entryReady (s : State) (b w : Nat) (late : Bool) (k : EntryKey) : Bool :=
  !(s.lanesAt b w k).any (s.idles b w) && !s.blocked b w k && !(late && s.hasDue b w k)

/-- The ready entries of a class, in frontier order. -/
def State.readyOf (s : State) (b w : Nat) (uni late : Bool) : List EntryKey :=
  (s.frontier b w).filter fun k => s.isUniform b k == uni && s.entryReady b w late k

/-- The age of an entry. -/
def Warp.age (w : Warp) (k : EntryKey) : Nat :=
  match w.ages.find? fun a => a.1 == k with
  | some a => a.2
  | none => 0

/-- `select_entry` on ready entries in frontier order. -/
def Warp.select (w : Warp) (limit : Nat) (rdy : List EntryKey) : Option EntryKey :=
  match rdy.find? fun k => limit ≤ w.age k with
  | some k => some k
  | none => rdy.head?

/-- Ages after a selection; entries that are no more carry none. -/
def Warp.aged (w : Warp) (all rdy : List EntryKey) (sel : EntryKey) : List (EntryKey × Nat) :=
  all.filterMap fun k =>
    if k = sel then none
    else
      let a := if rdy.contains k then min (w.age k + 1) 65535 else w.age k
      if a = 0 then none else some (k, a)

/-! ### Rotation among warps (03 R53) -/

/-- The ring in which a warp takes turns for a class: its quarter, or the uniform pipe; none outside the rings. -/
def State.ringOf (s : State) (b w : Nat) (uni : Bool) : Option Nat :=
  let k := s.blk b
  (if uni then [4] else upto 0 4).map (ringKey k.site k.core) |>.find? fun key => (s.ring key).contains (b, w)

/-- Another warp is ahead in the ring and has a ready entry of the class. -/
def State.outOfTurn (s : State) (b w : Nat) (uni late : Bool) : Bool :=
  match s.ringOf b w uni with
  | some key => ((s.ring key).takeWhile (· != (b, w))).any fun x => s.readyOf x.1 x.2 uni late != []
  | none => false

/-- A warp that has issued goes to the end of its ring; one passed over as not ready keeps its place (log 69). -/
def State.turn (s : State) (b w : Nat) (uni : Bool) : State :=
  match s.ringOf b w uni with
  | some key => { s with turns := fput s.turns key ((s.ring key).filter (· != (b, w)) ++ [(b, w)]) }
  | none => s

/-- Select an entry for issue: none when it is not its warp's turn, or R51 selects another. An entry that is to issue has its
results. -/
def State.selectEntry (s : State) (b w : Nat) (late : Bool) (k : EntryKey) : Option State :=
  let all := s.frontier b w
  let uni := s.isUniform b k
  let rdy := all.filter fun x => if x = k then s.entryReady b w false x else s.isUniform b x == uni && s.entryReady b w late x
  let wp := s.warp b w
  if !all.contains k || s.outOfTurn b w uni late then none
  else match wp.select (s.ctxOf b).xage.toNat rdy with
    | some x => if x = k then some ((s.setWarp b w { wp with ages := wp.aged all rdy k }).turn b w uni) else none
    | none => none

/-! ### Issue -/

/-- The lanes of an entry that issue together: those that a `uldb.at` parked in one execution go on alone, with what it read (15
R296). -/
def State.issueSet (s : State) (b w : Nat) (ls : List Nat) : List Nat × Option (Word × DWord) :=
  match ls.findSome? fun i => match (s.lane b w i).park with
    | .uround slot t va ex => some (Park.uround slot t va ex, t, va)
    | _ => none with
  | some x => (ls.filter fun i => (s.lane b w i).park == x.1, some x.2)
  | none => (ls, none)

/-- The results that the next instruction of an entry names land (05 R106, R107). -/
def State.landNamed (s : State) (b w : Nat) (k : EntryKey) (ls : List Nat) : State :=
  if s.anyDue b w ls then match s.nextInstr b k with
    | some i =>
        let s := ls.foldl (fun s j => s.setLane b w j ((s.lane b w j).landFor (vKeys k.level i) (pKeys k.level i))) s
        s.setWarp b w ((s.warp b w).landU (sKeys k.level i))
    | none => s
  else s

/-- The lanes of an entry leave their parks (03 R55). -/
def State.wakeLanes (s : State) (b w : Nat) (ls : List Nat) : State :=
  ls.foldl (fun s i => s.setLane b w i (s.lane b w i).unpark) s

/-- Traps that wait for a fence or for their level enter when they can (15 R286, 19 R344). -/
def State.settleTraps (s : State) : State :=
  (fkeys s.blocks).foldl (fun s b =>
    if s.runs b then (fkeys (s.blk b).warps).foldl (fun s w =>
      if (s.warp b w).live.any fun i => (s.lane b w i).held != none then s.settleWarp b w else s) s
    else s) s

/-- The issue ends. -/
def State.endIssue (s : State) : State := { s with cur := Issue.idle }

/-- A fetch that failed: the cause in every lane of the entry or the tiller's fault; a poisoned sector is consumed; at a line that its
home recovers the issue waits. -/
def State.noFetch (s : State) : NoFetch → State
  | .cause e => s.raiseEntry e.1 e.2
  | .poisoned sec => s.contain s.cur.blk 0x15 s.cur.pc (BitVec.ofNat 64 sec) 0
  | .held ls => s.holdIssue ls

/-- The outcome of a machine. -/
abbrev Result := Host.Outcome State Fault Refusal

/-- Go on after a next state. -/
def andThen (r : Result) (k : State → Result) : Result :=
  match r with
  | .next s => k s
  | .fault f => .fault f
  | .refused x => .refused x

/-- Change a next state. -/
def afterwards (r : Result) (k : State → State) : Result := andThen r fun s => .next (k s)

/-- Execute an instruction of the issue in progress: a `rep` chooses its body, which then runs (05 R114). `XVAL` of a cause 0x01 or 0x02 of
the body holds the body's base word, its register fields unstepped (log 39). -/
def State.runInstr (s : State) (i : Instr) : Result :=
  andThen (exec i { s with cur := { s.cur with instr := some i } }) fun s =>
    if s.cur.run = [] then .next s
    else
      let i := instrOfWords s.cur.run
      exec i { s with cur := { s.cur with word := s.cur.body.headD 0, run := [], instr := some i } }

/-- The body of a `rep` was not fetched: `XEPC` names the `rep` for cause 0x07, else the base word that the fetch reached (19 Table 19.3,
log 39). `c` is the issue before its words were known. -/
def State.noBody (s : State) (c : Issue) (next : DWord) : NoFetch → State
  | .held ls => State.noFetch { s with cur := c } (.held ls)
  | .cause e => State.noFetch { s with cur := { s.cur with pc := if e.1 = 0x07 then s.cur.pc else next } } (.cause e)
  | e => State.noFetch { s with cur := { s.cur with pc := next } } e

/-- Execute fetched words: a `rep` fetches its body first. -/
def State.runWords (s : State) (ws : List Word) : Result :=
  let c := s.cur
  let i := instrOfWords ws
  let next := pcAfter c.pc ws.length
  let s := { s with cur := { c with next := next, word := ws.headD 0, prog := if Instr.isRep i then c.prog else 0 } }
  if Instr.isRep i && c.agent == .warp then
    match s.fetch (s.siteOf c.blk) (s.asidOf c.blk) c.level next with
    | (s, .error e) => .next (s.noBody c next e)
    | (s, .ok body) => { s with cur := { s.cur with next := pcAfter next body.length, body := body } }.runInstr i
  else s.runInstr i

/-- Fetch at the issue's PC and execute. -/
def State.runIssue (s : State) : Result :=
  match s.fetch (s.siteOf s.cur.blk) (s.asidOf s.cur.blk) s.cur.level s.cur.pc with
  | (s, .error e) => .next (s.noFetch e)
  | (s, .ok ws) => s.runWords ws

/-! ### Requests that homes hold (23 R401, R402, 24 R408) -/

/-- Who has asked is still there: the block of an issue runs, its lanes live or its tiller runs; a barrow command is outstanding; the
host has its port. -/
def State.asksStill (s : State) : Asker → Bool
  | .issue c => s.runs c.blk && (match c.agent with
      | .warp => c.lanes.all fun i => (s.lane c.blk c.warp i).occ == .live
      | .tiller => (s.blk c.blk).tiller.run
      | .none => false)
  | .barrow b id _ => s.barrowRuns b && ((s.blk b).cmd id).isSome
  | .outside peer _ _ => peer || s.forwards 22

/-- The first request whose lines no home recovers and no earlier request waits for; the requests before it. -/
def State.firstFree (s : State) (before : List HomeReq) : List HomeReq → Option (HomeReq × List HomeReq)
  | [] => none
  | q :: r =>
      if q.lines.all fun l => (fget none s.suspects l).isNone && !before.any fun x => x.lines.contains l then some (q, before ++ r)
      else State.firstFree s (before ++ [q]) r

/-- An issue goes on as its request is released: with the instruction and the registers that it read, or with its fetch. -/
def State.serveIssue (s : State) (c : Issue) : State :=
  let s := { s with cur := c }
  let r := match c.instr with
    | some i => exec i s
    | none => s.runIssue
  match r with
  | .next t => if c.agent = .warp then t.endIssue.settleWarp c.blk c.warp else t.endIssue
  | _ => s.endIssue

/-- A home performs a request that it has held. -/
def State.serveHome (s : State) : Asker → State
  | .issue c => s.serveIssue c
  | .barrow b id line => s.serveBarrow b id line
  | .outside peer a op => if peer then s.peerOp a op else s.hostOp a op

/-- Homes release the requests that they need hold no longer, in the order in which they received them. -/
def State.settleHomes : Nat → State → State
  | 0, s => s
  | n + 1, s =>
      let s := { s with homeq := s.homeq.filter fun q => s.asksStill q.who }
      match s.firstFree [] s.homeq with
      | none => s
      | some (q, rest) => State.settleHomes n (State.serveHome { s with homeq := rest } q.who)

/-- What follows of itself in the package. -/
def State.settleOnce (s : State) : State := s.settleTraps.settleTillers.settleReissue.settleGraft

/-- What follows of itself after an issue or an event. -/
def State.settle (s : State) : State :=
  let s := s.settleOnce
  if s.homeq = [] then s else (State.settleHomes s.homeq.length s).settleOnce

/-! ### Issue of an entry or a tiller -/

/-- Issue the lanes of an entry. -/
def State.issueLanes (s : State) (b w : Nat) (k : EntryKey) (ls : List Nat) : Result :=
  let x := s.issueSet b w ls
  let s := (s.landNamed b w k x.1).wakeLanes b w x.1
  let s := { s with cur := { Issue.idle with agent := .warp, blk := b, warp := w, lanes := x.1, pc := k.pc, level := k.level, prog := k.prog
                                             given := x.2 } }
  afterwards s.runIssue fun s => (s.endIssue.settleWarp b w).settle

/-- Issue an entry of the frontier when it is selected. -/
def State.issueEntry (s : State) (b w : Nat) (late : Bool) (k : EntryKey) : Result :=
  let ls := s.lanesAt b w k
  match s.selectEntry b w late k with
  | none => .next s
  | some s => s.issueLanes b w k ls

/-- The tiller of a block can issue: it runs, and waits for no phase (17 R304, R307) and no home. -/
def State.tillerReady (s : State) (b : Nat) : Bool :=
  let t := (s.blk b).tiller
  s.runs b && t.run && !(s.homeq.any fun q => match q.who with
    | .issue c => c.agent == .tiller && c.blk == b
    | _ => false) && (match t.wait with
    | none => true
    | some (grp, n, tok, _) => phasePassed (s.bar b grp n).ph tok)

/-- Issue the tiller's next instruction; one that waited has acquired (17 R333). Where it faults, what stands earlier in the stream has
taken effect before (17 R306, R309). -/
def State.issueTiller (s : State) (b : Nat) : Result :=
  if !s.tillerReady b then .next s
  else
    let s := s.modTiller b fun t => { t with wait := none, synced := if t.wait = none then t.synced else s.wcount }
    let s := { s with cur := { Issue.idle with agent := .tiller, blk := b, pc := (s.blk b).tiller.pc, level := .u } }
    afterwards (andThen s.runIssue fun t =>
      if (s.blk b).tiller.run && ((t.blk b).phase == .failed || (t.blk b).phase == .failing) then (s.settleStream b).runIssue else .next t)
      fun s => s.endIssue.settle

/-! ### Events and defaults -/

/-- A row of the opcode table without an encoding. -/
def Instr.isEvent (i : Instr) : Bool := match i with
  | .reservedCell _ => false
  | i => i.fields.isNone

/-- An event happens. -/
def State.happen (s : State) (i : Instr) : Result :=
  if Instr.isEvent i then afterwards (exec i s) State.settle else .next s

/-- What may issue when nothing is prescribed: the selection of each class of each warp whose turn it is, and each tiller; every result
that is due has landed. -/
def State.choices (s : State) : List Action :=
  let warps := ((fkeys s.blocks).filter s.runs).map fun b => (fkeys (s.blk b).warps).map fun w => (b, w)
  let ofClass (b w : Nat) (u : Bool) : Option Action :=
    if s.outOfTurn b w u false then none
    else ((s.warp b w).select (s.ctxOf b).xage.toNat (s.readyOf b w u false)).map fun k => .issue b w k
  (warps.flatten.map fun x => [ofClass x.1 x.2 false, ofClass x.1 x.2 true].filterMap id).flatten ++
  ((fkeys s.blocks).filter s.tillerReady).map .tiller

/-- One of the choices; none when nothing can issue. -/
def State.defaultAction (s : State) : Option Action :=
  match s.choices with
  | [] => none
  | [a] => some a
  | a :: r => some (((a :: r)[Config.choice s.freeIx % (a :: r).length]?).getD a)

/-- What happens in a step with an empty agenda. -/
def State.runDefault (s : State) : Result :=
  match s.defaultAction with
  | none => .next s.settle
  | some (.issue b w k) => s.tickFree.issueEntry b w false k
  | some (.tiller b) => s.tickFree.issueTiller b
  | some (.event i) => s.happen i
  | some (.hostRead x off size) => .next (s.hostRead x off size)

/-! ### Around a step -/

/-- Lanes in `mwait` whose deadline has passed without a write. -/
def State.timedOut (s : State) : List (Nat × Nat × Nat) :=
  (((fkeys s.blocks).filter s.runs).map fun b => ((fkeys (s.blk b).warps).map fun w =>
    ((s.warp b w).live.filter fun i => match (s.lane b w i).park with
      | .mwait line _ t _ => t ≤ s.clock && !s.lineNew (s.lane b w i) line
      | _ => false).map fun i => (b, w, i)).flatten).flatten

/-- Register writes that the part has not let take effect may do so now, oldest first (19 R340). -/
def State.someXs (s : State) : State :=
  if s.xpend = [] then s
  else
    let n := Config.choice s.freeIx % (s.xpend.length + 1)
    (s.xpend.take n).foldl State.applyX { s.tickFree with xpend := s.xpend.drop n }

/-- Before a step: timeouts are due, register writes may take effect. -/
def State.before (s : State) : State := (s.timedOut.foldl (fun s x => s.mwaitTimeout x.1 x.2.1 x.2.2) s).someXs

/-- After a step: time passes. -/
def State.after (s : State) : State := ({ s with steps := s.steps + 1 }).elapse (Config.ticks s.steps)

/-- What the step does: the first action of the agenda, or the default. -/
def State.act (s : State) : Result :=
  match s.agenda with
  | [] => s.runDefault
  | .issue b w k :: r => { s with agenda := r }.issueEntry b w true k
  | .tiller b :: r => { s with agenda := r }.issueTiller b
  | .event i :: r => { s with agenda := r }.happen i
  | .hostRead x off size :: r => .next ({ s with agenda := r }.hostRead x off size)

/-- One step of the package. -/
def State.stepOnce (s : State) : Result := afterwards s.before.act State.after

end Sys2Proof.Machine
end

