-- ==== Sys2Proof/Machine/Loader.lean ====
section
/-! DEFINITION. The loaded program that stands for what system software and the Dibber do before a first instruction runs (log 17): a
bound context with page tables, a grid of one block of one thread, code at `codeVa`, and an agenda that issues it next. -/

namespace Sys2Proof.Machine

open Sys2Proof

/-- Virtual and physical address of the code page; the stage-1 tables of levels 3, 2, 1, 0. -/
def codeVa : Nat := 0x10000
def codePa : Nat := 0x200000
def tabPa : List Nat := [0x100000, 0x104000, 0x108000, 0x109000]

/-- A leaf for level U: readable, writable, executable, of system domain, ordinary. -/
def codeLeaf : Nat := codePa + 0x2BF

/-- Longest instruction in bytes (05 R89). -/
def maxBytes : Nat := 12

/-- What the load writes: table entries and code, as addresses and bytes. -/
def imageOf (nbits w : Nat) : List (Nat × Byte) :=
  let entry (a v : Nat) : List (Nat × Byte) := (upto a 8).zip (leBytes 8 v)
  entry 0x100000 (0x104000 + 1) ++ entry 0x104000 (0x108000 + 1) ++ entry 0x108000 (0x109000 + 1) ++ entry 0x109008 codeLeaf ++
  (upto codePa maxBytes).zip (leBytes maxBytes (w % 2 ^ nbits))

/-- Bytes enter memory under key id 0, clean. -/
def State.loadBytes (s : State) (xs : List (Nat × Byte)) : State :=
  { s with
    mem := xs.foldl (fun m x => fset memDefault m x.1 x.2) s.mem
    ktag := xs.foldl (fun m x => fset 0 m (x.1 / 32) (s.tagOf 0)) s.ktag
    poison := xs.foldl (fun m x => fset false m (x.1 / 32) false) s.poison }

/-- The loaded context, kernel, grid and block. -/
def loadCtx : Ctx := { Ctx.unbound with bound := true, xptb := 0x40, xasid := 1, svec := 0x18000 }

def loadKhdr : KHdr :=
  { entry := BitVec.ofNat 64 codeVa, tentry := BitVec.ofNat 64 codeVa, dprio := 128, bx := 1, by_ := 1, bz := 1, lregs := 128, uregs := 64
    scratch := 655360, acc := 8, bars := 32, gmax := 1, preload := 0 }

def loadGrid : Grid :=
  { Grid.absent with asid := 1, handle := 1, khdr := loadKhdr, gx := 1, gy := 1, gz := 1, phase := .live, next := 1 }

def loadBlock (tiller : Bool) : Block :=
  { Block.absent with
    grid := 1, lin := 0, phase := .resident, order := 1, nwarps := 1
    warps := [(0, Warp.start loadGrid loadCtx.svec 0 0 0)]
    tiller := if tiller then { Tiller.idle with run := true, pc := BitVec.ofNat 64 codeVa } else Tiller.idle }

/-- Cells 0x09 to 0x0C of the uniform class are the tiller's (05 R122). -/
def tillerWord (w : Nat) : Bool := w / 2 ^ 31 % 2 == 1 && 9 ≤ w / 2 ^ 24 % 64 && w / 2 ^ 24 % 64 ≤ 12

/-- The loaded thread's entry. -/
def loadKey : EntryKey := { pc := BitVec.ofNat 64 codeVa, prio := 128, level := .u, prog := 0 }

/-- Load an instruction and have it issue next. -/
def State.load (s : State) (nbits w : Nat) : State :=
  let t := tillerWord (w % 2 ^ nbits)
  let s := s.loadBytes (imageOf nbits w)
  { s with
    phase := .up
    rdymap := s.rdymap ||| 1
    sites := fput s.sites 0 { s.site 0 with stat := .active, tlb1 := [], tlb2 := [], invs := [], bad := [] }
    ctxs := fput s.ctxs 1 loadCtx
    parts := fput s.parts 0 (Part.reset 0)
    xpend := []
    suspects := []
    homeq := []
    undo := []
    grids := fput s.grids 1 loadGrid
    nextGrid := s.nextGrid + 1
    blocks := fput s.blocks 1 (loadBlock t)
    nextBlock := s.nextBlock + 1
    orders := s.orders + 1
    turns := []
    agenda := [if t then .tiller 1 else .issue 1 0 loadKey]
    cur := Issue.idle }

end Sys2Proof.Machine
end

