-- ==== Sys2Proof/Machine/Step.lean ====
section
/-! DEFINITION. One step of the package, and the placing of an instruction where the next step fetches. -/

namespace Sys2Proof.Machine

/-- One step: the next action of the agenda, or what the machine selects of itself (log 1, log 2); one issue or one event, whole and
indivisible, then time passes. -/
def step (s : State) : Host.Outcome State Fault Refusal := s.stepOnce

/-- The state in which the very next step fetches and runs the instruction whose bits are `w`: a thread of a loaded block stands at it,
or its tiller for the tiller's members (log 17). -/
def State.withFetchWord (s : State) (nbits w : Nat) : State := s.load nbits w

end Sys2Proof.Machine
end

