-- ==== Sys2Proof/Safety.lean ====
section
/-! DEFINITION. What a safe run is: no step stops, and memory stays in its canonical form. The terms in which claims say what an
instruction of an entry changes and what it leaves. -/

namespace Sys2Proof.Machine

/-- Memory in canonical form: addresses strictly rising, no entry equal to what an unlisted address reads as. -/
def Memory.wf (m : List Host.Cell) : Bool := fwf memDefault m

/-- Both memories of the state are in canonical form. -/
abbrev State.memWf (s : State) : Prop := Memory.wf s.mem = true ∧ Memory.wf s.hostMem = true

/-- A run of n steps stops nowhere. -/
def State.safeFor : Nat → State → Prop
  | 0, _ => True
  | n + 1, s => ∃ t, step s = .next t ∧ State.safeFor n t

/-! ### Frames of lane-class instructions -/

/-- t is s but for lanes, of the issuing warp, among ls: every other field of the machine, every other block and warp, and the
rest of this block and warp are the same. -/
structure SameBut (s t : State) (ls : List Nat) : Prop where
  rest : { t with blocks := s.blocks } = s
  blk : ∀ b, b ≠ s.cur.blk → t.blk b = s.blk b
  block : { t.blk s.cur.blk with warps := (s.blk s.cur.blk).warps } = s.blk s.cur.blk
  warp : ∀ w, w ≠ s.cur.warp → t.warp s.cur.blk w = s.warp s.cur.blk w
  cw : { t.warp s.cur.blk s.cur.warp with lanes := s.cw.lanes } = s.cw
  lane : ∀ i, i ∉ ls → t.lane s.cur.blk s.cur.warp i = s.cl i

/-- What a completing instruction gives a lane: registers and predicates by the numbers it names, flags, its draw state, and of a load
the port to which it is in flight. -/
structure Gives where
  regs : List (Nat × RegVal)
  preds : List (Nat × Bool)
  flags : Nat
  rngs : Word
  src : Option Nat := none

/-- Nothing but the position counts. -/
def Gives.nothing (l : Lane) : Gives := { regs := [], preds := [], flags := 0, rngs := l.rngs }

/-- What a lane's registers hold for the instruction after its next one: the results due now have landed, then those due one position
on (05 R107). -/
def Lane.ahead (l : Lane) : Lane := (l.land 0).land 1

/-- The results that are due when one more position has been counted, those that were due before first; and the others (05 R107, R108). -/
def Lane.dueNext (l : Lane) : List Pending :=
  (l.pending.filter fun p => p.dist == 0) ++ (l.pending.filter fun p => p.dist == 1).map fun p => { p with dist := 0 }
def Lane.later (l : Lane) : List Pending := (l.pending.filter fun p => 1 < p.dist).map fun p => { p with dist := p.dist - 1 }

/-- What an instruction gives, as a pending result of a lane d positions away; none when it names no register and no predicate but p7. -/
def Gives.pending (o : Gives) (l : Lane) (d : Nat) : List Pending :=
  if o.regs = [] ∧ o.preds.filter (fun e => e.1 != 7) = [] then []
  else [{ dist := d, regs := o.regs.map fun e => (vKey l.level e.1, e.2)
          preds := (o.preds.filter fun e => e.1 != 7).map fun e => (pKey l.level e.1, e.2), src := o.src }]

/-- m is the lane l after it completed an instruction of the issue in progress that gives o at once (short latency). When the results due
by then have landed, each register it names holds its value, each predicate but p7 too; other registers and predicates are as those
results leave them; flags are accumulated; the PC goes on, or under `rep` the progress; later results come one position nearer; the
rest of the lane is unchanged. -/
structure Took (s : State) (l m : Lane) (o : Gives) : Prop where
  regs : ∀ e ∈ o.regs, (m.land 0).rv e.1 = e.2
  regsKept : ∀ k, (∀ e ∈ o.regs, vKey l.level e.1 ≠ k) → fget RegVal.zero (m.land 0).v k = fget RegVal.zero l.ahead.v k
  preds : ∀ e ∈ o.preds, e.1 ≠ 7 → (m.land 0).rp e.1 = e.2
  predsKept : ∀ k, (∀ e ∈ o.preds, e.1 ≠ 7 → pKey l.level e.1 ≠ k) → fget false (m.land 0).p k = fget false l.ahead.p k
  /-- Where nothing is due, no result stands between. -/
  plain : l.dueNext = [] → (m.land 0).v = m.v ∧ (m.land 0).p = m.p
  flags : m.flags = l.flags ||| BitVec.ofNat 32 o.flags
  rngs : m.rngs = o.rngs
  pc : m.pc = if s.cur.rep ≤ l.prog + 1 then s.cur.next else l.pc
  prog : m.prog = if s.cur.rep ≤ l.prog + 1 then 0 else l.prog + 1
  prio : m.prio = if s.cur.rep ≤ l.prog + 1 ∧ l.level = .u then (s.gridOf s.cur.blk).prioAt s.cur.next else l.prio
  pending : (m.land 0).pending = l.later
  rest : { m with v := l.v, p := l.p, flags := l.flags, rngs := l.rngs, pc := l.pc, prog := l.prog, prio := l.prio,
                  pending := l.pending } = l

/-- m is the lane l after it completed a long-latency instruction that gives o with lookahead la (05 R106, R107): no register and no
predicate changes at once, and what o names waits as the youngest result due then, or as the youngest of all, la positions away; the
rest is as for a short result. -/
structure TookLater (s : State) (l m : Lane) (la : Nat) (o : Gives) : Prop where
  regsKept : m.v = l.v
  predsKept : m.p = l.p
  flags : m.flags = l.flags ||| BitVec.ofNat 32 o.flags
  rngs : m.rngs = o.rngs
  pc : m.pc = if s.cur.rep ≤ l.prog + 1 then s.cur.next else l.pc
  prog : m.prog = if s.cur.rep ≤ l.prog + 1 then 0 else l.prog + 1
  prio : m.prio = if s.cur.rep ≤ l.prog + 1 ∧ l.level = .u then (s.gridOf s.cur.blk).prioAt s.cur.next else l.prio
  pending : m.pending = if la = 0 then l.dueNext ++ o.pending l 0 ++ l.later else l.dueNext ++ l.later ++ o.pending l la
  rest : { m with v := l.v, p := l.p, flags := l.flags, rngs := l.rngs, pc := l.pc, prog := l.prog, prio := l.prio,
                  pending := l.pending } = l

/-- The instruction i of the issue in progress completes at s in every lane of its entry: a lane whose guard passes takes what
`give` says of its number and of it as it stood, any other only goes on; and nothing else in the machine changes, no byte of
memory among it. -/
def LanesRunI (s : State) (i : Instr) (g : Guard) (give : Nat → Lane → Gives) : Prop :=
  ∃ t, exec i s = .next t ∧ SameBut s t s.cur.lanes ∧ (∀ key a, t.byteAt key a = s.byteAt key a) ∧
    ∀ n ∈ s.cur.lanes, Took s (s.cl n) (t.cl n) (if (s.cl n).guard g then give n (s.cl n) else .nothing (s.cl n))

/-- `LanesRunI` where what a lane takes does not depend on its number. -/
def LanesRun (s : State) (i : Instr) (g : Guard) (give : Lane → Gives) : Prop := LanesRunI s i g fun _ l => give l

/-- `LanesRunI` of a long-latency instruction with lookahead la. -/
def LanesRunLaterI (s : State) (i : Instr) (g : Guard) (la : Nat) (give : Nat → Lane → Gives) : Prop :=
  ∃ t, exec i s = .next t ∧ SameBut s t s.cur.lanes ∧ (∀ key a, t.byteAt key a = s.byteAt key a) ∧
    ∀ n ∈ s.cur.lanes, TookLater s (s.cl n) (t.cl n) la (if (s.cl n).guard g then give n (s.cl n) else .nothing (s.cl n))

/-- `LanesRun` of a long-latency instruction with lookahead la. -/
def LanesRunLater (s : State) (i : Instr) (g : Guard) (la : Nat) (give : Lane → Gives) : Prop :=
  LanesRunLaterI s i g la fun _ l => give l

/-- The issue in progress with another continuation, outside `rep`. -/
def State.toward (s : State) (pc : DWord) : State := { s with cur := { s.cur with next := pc, rep := 0 } }

/-- `LanesRun` of a control transfer: a lane whose guard passes goes on at its target. -/
def LanesJump (s : State) (i : Instr) (g : Guard) (dst : Lane → DWord) (give : Lane → Gives) : Prop :=
  ∃ t, exec i s = .next t ∧ SameBut s t s.cur.lanes ∧ (∀ key a, t.byteAt key a = s.byteAt key a) ∧
    ∀ n ∈ s.cur.lanes,
      ((s.cl n).guard g = true → Took (s.toward (dst (s.cl n))) (s.cl n) (t.cl n) (give (s.cl n))) ∧
      ((s.cl n).guard g = false → Took s (s.cl n) (t.cl n) (.nothing (s.cl n)))

/-! ### Frames of uniform instructions -/

/-- What a uniform instruction gives its warp or the tiller: registers and predicates by the numbers it names. -/
structure UGives where
  regs : List (Nat × Word)
  preds : List (Nat × Bool)

/-- The value of a uniform register copy after the registers of a level in a list are written. -/
def uAfter (lv : Level) (rs : List (Nat × Word)) (k : Nat) (old : Word) : Word :=
  match rs.find? fun e => sKey lv e.1 == k with
  | some e => e.2
  | none => old

/-- The value of a uniform predicate after those in a list, but `q7`, are written. -/
def qAfter (ps : List (Nat × Bool)) (k : Nat) (old : Bool) : Bool :=
  match ps.find? fun e => e.1 == k && k != 7 with
  | some e => e.2
  | none => old

/-- t is s after a uniform instruction of the issuing entry that gives o and continues at next: the uniform registers and
predicates it names hold their values, each lane of the entry goes on, and nothing else changes. -/
structure WarpTook (s t : State) (next : DWord) (o : UGives) : Prop where
  rest : { t with blocks := s.blocks } = s
  blk : ∀ b, b ≠ s.cur.blk → t.blk b = s.blk b
  block : { t.blk s.cur.blk with warps := (s.blk s.cur.blk).warps } = s.blk s.cur.blk
  warp : ∀ w, w ≠ s.cur.warp → t.warp s.cur.blk w = s.warp s.cur.blk w
  cw : { t.warp s.cur.blk s.cur.warp with lanes := s.cw.lanes, s := s.cw.s, q := s.cw.q } = s.cw
  lane : ∀ i, i ∉ s.cur.lanes → t.lane s.cur.blk s.cur.warp i = s.cl i
  took : ∀ n ∈ s.cur.lanes, Took (s.toward next) (s.cl n) (t.lane s.cur.blk s.cur.warp n) (.nothing (s.cl n))
  regs : ∀ k, fget 0 (t.warp s.cur.blk s.cur.warp).s k = uAfter s.cur.level o.regs k (fget 0 s.cw.s k)
  preds : ∀ k, fget false (t.warp s.cur.blk s.cur.warp).q k = qAfter o.preds k (fget false s.cw.q k)

/-- t is s after a uniform instruction of the tiller of the issuing block that gives o and continues at next. -/
structure TillerTook (s t : State) (next : DWord) (o : UGives) : Prop where
  rest : { t with blocks := s.blocks } = s
  blk : ∀ b, b ≠ s.cur.blk → t.blk b = s.blk b
  block : { t.blk s.cur.blk with tiller := (s.blk s.cur.blk).tiller } = s.blk s.cur.blk
  tiller : { (t.blk s.cur.blk).tiller with s := (s.blk s.cur.blk).tiller.s, q := (s.blk s.cur.blk).tiller.q, pc := next } =
    { (s.blk s.cur.blk).tiller with pc := next }
  pc : (t.blk s.cur.blk).tiller.pc = next
  regs : ∀ k, fget 0 (t.blk s.cur.blk).tiller.s k = uAfter .u o.regs k (fget 0 (s.blk s.cur.blk).tiller.s k)
  preds : ∀ k, fget false (t.blk s.cur.blk).tiller.q k = qAfter o.preds k (fget false (s.blk s.cur.blk).tiller.q k)

/-- The uniform instruction i of the issue in progress completes once, for its entry or for the tiller: if its guard passes it
gives o and control goes to dst, else it only goes on; nothing else changes, no byte of memory among it. -/
def UniRun (s : State) (i : Instr) (g : Guard) (o : UGives) (dst : DWord) : Prop :=
  let give : UGives := if s.uguard g then o else { regs := [], preds := [] }
  let pc := if s.uguard g then dst else s.cur.next
  ∃ t, exec i s = .next t ∧ (∀ key a, t.byteAt key a = s.byteAt key a) ∧
    (s.cur.agent = .tiller → TillerTook s t pc give) ∧ (s.cur.agent ≠ .tiller → s.cur.lanes.Nodup → WarpTook s t pc give)

/-- The uniform instruction i of the issue in progress completes with an effect on the machine, which the state u shows: from u, it
gives o and control goes to dst, and nothing else changes. -/
def UniDone (s u : State) (i : Instr) (o : UGives) (dst : DWord) : Prop :=
  ∃ t, exec i s = .next t ∧ (∀ key a, t.byteAt key a = u.byteAt key a) ∧
    (s.cur.agent = .tiller → TillerTook u t dst o) ∧ (s.cur.agent ≠ .tiller → s.cur.lanes.Nodup → WarpTook u t dst o)

/-- Every live lane of the issuing warp is in the entry, at the issuing point; none waits or holds a trap (13 R261). The issue is not one
that a home released. -/
structure Gathered (s : State) : Prop where
  fresh : s.cur.redo = none
  agent : s.cur.agent ≠ .tiller
  some : s.cur.lanes ≠ []
  sorted : s.cur.lanes.Pairwise (· < ·)
  lanes : ∀ n ∈ s.cur.lanes, n < 64 ∧ (s.cl n).occ = .live ∧ (s.cl n).pc = s.cur.pc ∧ (s.cl n).level = s.cur.level ∧
    (s.cl n).park = .none ∧ (s.cl n).held = none
  others : ∀ n, n ∉ s.cur.lanes → (s.cl n).occ ≠ .live

/-- The lanes of the entry can complete a meet with the mask in the uniform pair m at once (13 R240): the entry names live lanes
in ascending order, all at the issuing point and none waiting; the mask names each of them and no other live lane; no other lane
of the warp stands at a meet, and none holds a trap. -/
structure Together (s : State) (m : Nat) : Prop where
  agent : s.cur.agent ≠ .tiller
  some : s.cur.lanes ≠ []
  sorted : s.cur.lanes.Pairwise (· < ·)
  lanes : ∀ n ∈ s.cur.lanes, n < 64 ∧ (s.cl n).occ = .live ∧ (s.cl n).pc = s.cur.pc ∧ (s.cl n).level = s.cur.level ∧
    (s.cl n).park = .none ∧ (s.ur2 m).getLsbD n = true
  others : ∀ n, n ∉ s.cur.lanes → (s.ur2 m).getLsbD n = true → (s.cl n).occ ≠ .live
  quiet : ∀ n, (s.cl n).held = none ∧ (s.cl n).meetPt = none

/-- i completes as a meet of the lanes of its entry: each whose guard passes takes, with lookahead la, what `give` says, the others
wake with nothing; the uniform registers that u names are written, and nothing else changes. -/
def MeetRun (s : State) (i : Instr) (g : Guard) (la : Nat) (give : Nat → Lane → Gives) (u : UGives) : Prop :=
  ∃ t, exec i s = .next t ∧ (∀ key a, t.byteAt key a = s.byteAt key a) ∧
    { t with blocks := s.blocks } = s ∧ (∀ b, b ≠ s.cur.blk → t.blk b = s.blk b) ∧
    { t.blk s.cur.blk with warps := (s.blk s.cur.blk).warps } = s.blk s.cur.blk ∧
    (∀ w, w ≠ s.cur.warp → t.warp s.cur.blk w = s.warp s.cur.blk w) ∧
    { t.warp s.cur.blk s.cur.warp with lanes := s.cw.lanes, s := s.cw.s } = s.cw ∧
    (∀ k, fget 0 (t.warp s.cur.blk s.cur.warp).s k = uAfter s.cur.level u.regs k (fget 0 s.cw.s k)) ∧
    (∀ i, i ∉ s.cur.lanes → t.lane s.cur.blk s.cur.warp i = s.cl i) ∧
    ∀ n ∈ s.cur.lanes, TookLater s (s.cl n) (t.lane s.cur.blk s.cur.warp n) la
      (if (s.cl n).guard g then give n (s.cl n) else .nothing (s.cl n))

/-- Nothing in a warp waits for its other lanes or for a runner queue: no lane holds a trap, none is parked at a meet or a
gather, and the grid is not chained. -/
structure State.Quiet (s : State) (b w : Nat) : Prop where
  held : ∀ i, (s.lane b w i).held = none
  meets : ∀ i, (s.lane b w i).meetPt = none
  unchained : (s.gridOf b).chained = false

/-! ### Exceptions -/

/-- The level at which a cause raised at level l is taken: H where `XDELEG` delegates it, else S, and never below l (19 R343). -/
def targetLevel (deleg : DWord) (cause : Nat) (l : Level) : Level :=
  match l, deleg.getLsbD cause with
  | .h, _ => .h
  | _, true => .h
  | _, false => .s

/-- The lanes es of a warp, which stand at one point of the frontier, can all enter level T for a cause: they are live, the frame
of T is not live, the nest counter not full, and there is a vector; T is not occupied unless they stand there; no lane of
the warp holds a trap (19 R344, R345). -/
structure Enterable (s : State) (b w : Nat) (es : List Nat) (cause : Nat) (T : Level) : Prop where
  some : es ≠ []
  nodup : es.Nodup
  point : ∃ (lv : Level) (pc : DWord) (prio : Nat), T = targetLevel (s.ctxOf b).xdeleg cause lv ∧
    (∀ n ∈ es, (s.lane b w n).level = lv ∧ (s.lane b w n).pc = pc ∧ (s.lane b w n).prio = prio) ∧
    (lv ≠ T → ∀ i, (s.lane b w i).occ = .live → (s.lane b w i).level ≠ T)
  live : ∀ n ∈ es, (s.lane b w n).occ = .live
  free : ∀ n ∈ es, ((s.lane b w n).frame T).nest = false ∧ (s.lane b w n).ncnt ≠ 255 ∧ ((s.lane b w n).frame T).vec ≠ 0
  held : ∀ i, (s.lane b w i).held = none
  scratch : ∀ n ∈ es, s.heldScratch b w n = false

/-- m is the lane l after it entered level T in the cohort with this mask (19 R345): the frame of T holds the return PC, cause,
value, progress, level and priority before, and the mask; results have landed; the lane stands at the handler. -/
structure Entered (l m : Lane) (T : Level) (mask : DWord) (cause : Nat) (val epc : DWord) (pi : Nat) : Prop where
  level : m.level = T
  prio : m.prio = 255
  ncnt : m.ncnt = l.ncnt + 1
  pc : m.pc = ((l.frame T).vec ++ (0 : BitVec 12)) + BitVec.ofNat 64 (64 * cause)
  frame : m.frame T = { l.frame T with
    nest := true, epc := epc, cause := BitVec.ofNat 6 cause, val := val, pi := BitVec.ofNat 32 pi
    plvl := BitVec.ofNat 2 l.level.num, ppri := BitVec.ofNat 8 l.prio, tlanes := mask }
  frameS : T = .h → m.frameS = l.frameS
  frameH : T = .s → m.frameH = l.frameH
  landed : m.v = l.landAll.v ∧ m.p = l.landAll.p ∧ m.pending = []
  kept : m.occ = l.occ ∧ m.flags = l.flags ∧ m.rngs = l.rngs ∧ m.prog = 0 ∧ m.held = none ∧ m.park = .none

/-- t is s but for lanes, of a warp, among ls and for `s56:s57` of its bank at level T. -/
structure TrapFrame (s t : State) (b w : Nat) (T : Level) (ls : List Nat) : Prop where
  rest : { t with blocks := s.blocks } = s
  blk : ∀ c, c ≠ b → t.blk c = s.blk c
  block : { t.blk b with warps := (s.blk b).warps } = s.blk b
  warp : ∀ v, v ≠ w → t.warp b v = s.warp b v
  same : { t.warp b w with lanes := (s.warp b w).lanes, s := (s.warp b w).s } = s.warp b w
  regs : ∀ k, k ≠ sKey T 56 → k ≠ sKey T 57 → fget 0 (t.warp b w).s k = fget 0 (s.warp b w).s k
  lane : ∀ i, i ∉ ls → t.lane b w i = s.lane b w i

/-- The instruction i of the issue in progress, in the lanes of its entry whose guard passes and for which `bad` holds, raises a
cause; where they can enter level T they do, as one cohort, and every other lane of the entry completes (00 R11, 19 R342); while no store
of the block waits to be performed, nothing else changes, no byte of memory among it. -/
def LanesTrap (s : State) (i : Instr) (g : Guard) (bad : Lane → Bool) (cause : Nat) (val : Lane → DWord) (epc : DWord)
    (give : Lane → Gives) : Prop :=
  let es := s.cur.lanes.filter fun n => (s.cl n).guard g && bad (s.cl n)
  ∀ T, Enterable s s.cur.blk s.cur.warp es cause T →
    ∃ t, exec i s = .next t ∧ t.cw.rs2 T 56 = maskOf es ∧
      (∀ n ∈ es, Entered (s.cl n) (t.cl n) T (maskOf es) cause (val (s.cl n)) epc s.cur.prog) ∧
      (∀ n ∈ s.cur.lanes, n ∉ es →
        Took s (s.cl n) { t.cl n with seen := (s.cl n).seen } (if (s.cl n).guard g then give (s.cl n) else .nothing (s.cl n))) ∧
      ((s.blk s.cur.blk).pend = [] →
        TrapFrame s t s.cur.blk s.cur.warp T s.cur.lanes ∧ ∀ key a, t.byteAt key a = s.byteAt key a)

/-- The instruction i of the issue in progress raises a cause in every lane of its entry, whatever the guard; where they can
enter level T they do, as one cohort. -/
def EntryTrap (s : State) (i : Instr) (cause : Nat) (val : DWord) : Prop :=
  ∀ T, Enterable s s.cur.blk s.cur.warp s.cur.lanes cause T →
    ∃ t, exec i s = .next t ∧ t.cw.rs2 T 56 = maskOf s.cur.lanes ∧
      (∀ n ∈ s.cur.lanes, Entered (s.cl n) (t.cl n) T (maskOf s.cur.lanes) cause val s.cur.pc s.cur.prog) ∧
      ((s.blk s.cur.blk).pend = [] →
        TrapFrame s t s.cur.blk s.cur.warp T s.cur.lanes ∧ ∀ key a, t.byteAt key a = s.byteAt key a)

end Sys2Proof.Machine
end

