-- ==== Sys2Proof/Certificates/Slice0/Obligations.lean ====
section
/-! DEFINITION. The statements about the model, each with the rules of the spec it rests on. A statement about an
instruction says when it completes (`LanesRun` and its kin: exec answers a next state), what it then gives, and that nothing
else changes. -/

open Sys2Proof Sys2Proof.Machine

namespace Sys2Proof.Claims

/-! ### What results look like -/

/-- One clean register and flags. -/
def gWord (l : Lane) (d : Nat) (x : Word) (flags : Nat) : Gives :=
  { regs := [(d, { val := x, side := false })], preds := [], flags := flags, rngs := l.rngs }

/-- A register pair, low word first (00 R7). -/
def gPair (l : Lane) (d : Nat) (x : DWord) (flags : Nat) : Gives :=
  { regs := [(d, { val := x.extractLsb' 0 32, side := false }), (d + 1, { val := x.extractLsb' 32 32, side := false })]
    preds := [], flags := flags, rngs := l.rngs }

/-- A poison register with the data of 07 Table 7.10 for an integer or FP32 result. -/
def gPoison (l : Lane) (d : Nat) : Gives :=
  { regs := [(d, { val := 0x7FE05EED, side := true })], preds := [], flags := 0, rngs := l.rngs }

def gPoison2 (l : Lane) (d : Nat) : Gives :=
  { regs := [(d, { val := 0x7FE05EED, side := true }), (d + 1, { val := 0x7FE05EED, side := true })]
    preds := [], flags := 0, rngs := l.rngs }

/-- A register as it stands. -/
def gReg (l : Lane) (d : Nat) (x : RegVal) : Gives := { regs := [(d, x)], preds := [], flags := 0, rngs := l.rngs }

/-- A predicate. -/
def gPred (l : Lane) (p : Nat) (x : Bool) : Gives := { regs := [], preds := [(p, x)], flags := 0, rngs := l.rngs }

/-- Poison in, poison out (07 R152); otherwise the word. -/
def gInt (l : Lane) (d : Nat) (ins : List RegVal) (x : Word) (flags : Nat) : Gives :=
  if ins.any (·.side) then gPoison l d else gWord l d x flags

/-- A source read as the treatment of the result says (09 R165). -/
def readAs {w : Nat} (m : Sat) (x : BitVec w) : Int :=
  match m with
  | .signed => x.toInt
  | .wrap => x.toNat
  | .unsigned => x.toNat

/-- An exact result brought into w bits: modulo 2^w, or clamped with `OF` (flag 2) where it does not fit (09 R165). -/
def fit (w : Nat) (m : Sat) (t : Int) : BitVec w × Nat :=
  match m with
  | .wrap => (BitVec.ofInt w t, 0)
  | .signed =>
      if t < -(2 ^ (w - 1) : Nat) then (BitVec.ofInt w (-(2 ^ (w - 1) : Nat)), 2)
      else if (2 ^ (w - 1) : Nat) ≤ t then (BitVec.ofInt w ((2 ^ (w - 1) : Nat) - 1), 2)
      else (BitVec.ofInt w t, 0)
  | .unsigned =>
      if t < 0 then (0, 2)
      else if (2 ^ w : Nat) ≤ t then (BitVec.ofInt w ((2 ^ w : Nat) - 1), 2)
      else (BitVec.ofInt w t, 0)

/-- The operands of a lane-class instruction are named legally here, and the entry names each lane once. -/
def Legal (s : State) (vs : List Nat) : Prop := s.laneOk vs [] = true ∧ s.cur.lanes.Nodup

/-- In every executing lane of the entry. -/
def Executing (s : State) (g : Guard) (P : Lane → Prop) : Prop := ∀ n ∈ s.cur.lanes, (s.cl n).guard g = true → P (s.cl n)

end Sys2Proof.Claims

open Sys2Proof.Claims

/-! ### Integer lane operations (09 R165 to R178) -/

/-- R165, R172: the two-source operations complete; the exact result is reduced as `MOD` says, a clamp sets `OF`, any poison
source gives a poison result, and nothing else changes. -/
def Sys2Proof.Claims.IntegerTwoSourceResults : Prop :=
  ∀ (s : State) (g : Guard) (d a : Nat) (b : Src2), Legal s ([d, a] ++ b.vregs) →
    (∀ m : Sat,
      LanesRun s (.add g d a b m) g (fun l =>
        let r := fit 32 m (readAs m (l.rd a) + readAs m (b.val l).val); gInt l d [l.rv a, b.val l] r.1 r.2) ∧
      LanesRun s (.sub g d a b m) g (fun l =>
        let r := fit 32 m (readAs m (l.rd a) - readAs m (b.val l).val); gInt l d [l.rv a, b.val l] r.1 r.2) ∧
      LanesRun s (.mul g d a b m) g (fun l =>
        let r := fit 32 m (readAs m (l.rd a) * readAs m (b.val l).val); gInt l d [l.rv a, b.val l] r.1 r.2)) ∧
    LanesRun s (.and g d a b) g (fun l => gInt l d [l.rv a, b.val l] (l.rd a &&& (b.val l).val) 0) ∧
    LanesRun s (.or g d a b) g (fun l => gInt l d [l.rv a, b.val l] (l.rd a ||| (b.val l).val) 0) ∧
    LanesRun s (.xor g d a b) g (fun l => gInt l d [l.rv a, b.val l] (l.rd a ^^^ (b.val l).val) 0) ∧
    LanesRun s (.min g d a b) g (fun l =>
      gInt l d [l.rv a, b.val l] (BitVec.ofInt 32 (min (l.rd a).toInt (b.val l).val.toInt)) 0) ∧
    LanesRun s (.max g d a b) g (fun l =>
      gInt l d [l.rv a, b.val l] (BitVec.ofInt 32 (max (l.rd a).toInt (b.val l).val.toInt)) 0) ∧
    (∀ n, LanesRun s (.lea g d a b n) g (fun l =>
      gInt l d [l.rv a, b.val l] (BitVec.ofNat 32 ((l.rd a).toNat + (b.val l).val.toNat * 2 ^ n)) 0))

/-- R166: one reduction of the exact a × src2 + c. -/
def Sys2Proof.Claims.MultiplyAddResults : Prop :=
  ∀ (s : State) (g : Guard) (d a : Nat) (b : Src2) (c : Nat) (m : Sat), Legal s ([d, a, c] ++ b.vregs) →
    LanesRun s (.mad g d a b c m) g fun l =>
      let r := fit 32 m (readAs m (l.rd a) * readAs m (b.val l).val + readAs m (l.rd c))
      gInt l d [l.rv a, b.val l, l.rv c] r.1 r.2

/-- R165, R166, R172: the two-source integer operations, `mad` and `lea`. -/
def Obligations.IntegerTwoSourceResults : Prop :=
  Sys2Proof.Claims.IntegerTwoSourceResults ∧ Sys2Proof.Claims.MultiplyAddResults

/-- R165, R170, R171, R173, R175: shifts, bit fields, byte selection and rotation, where no executing lane's amount or
control is poison. -/
def Obligations.ShiftAndFieldResults : Prop :=
  (∀ (s : State) (g : Guard) (d a : Nat) (b : Src2), Legal s ([d, a] ++ b.vregs) →
    Executing s g (fun l => (b.val l).side = false) →
    LanesRun s (.shl g d a b) g (fun l =>
      gInt l d [l.rv a] (BitVec.ofNat 32 ((l.rd a).toNat * 2 ^ (b.val l).val.toNat)) 0) ∧
    LanesRun s (.shr g d a b) g (fun l =>
      gInt l d [l.rv a] (BitVec.ofNat 32 ((l.rd a).toNat / 2 ^ (b.val l).val.toNat)) 0) ∧
    LanesRun s (.sar g d a b) g (fun l =>
      gInt l d [l.rv a] (BitVec.ofInt 32 ((l.rd a).toInt / (2 ^ min (b.val l).val.toNat 31 : Nat))) 0) ∧
    (∀ sgn, LanesRun s (.bfx g d a b sgn) g (fun l => gInt l d [l.rv a] (bfxW sgn (l.rd a) (b.val l).val) 0)) ∧
    (∀ c, Legal s ([d, a, c] ++ b.vregs) →
      LanesRun s (.bfi g d a b c) g (fun l =>
        gInt l d [l.rv a, l.rv c] (bfiW (l.rd a) (b.val l).val (l.rd c)) 0) ∧
      (∀ sx, LanesRun s (.bsel g d a b c sx) g (fun l =>
        gInt l d [l.rv a, l.rv c] (bselW sx (l.rd a) (b.val l).val (l.rd c)) 0)))) ∧
  (∀ (s : State) (g : Guard) (d a : Nat) (amt : RotAmt), Legal s ([d, a] ++ amt.vregs) →
    Executing s g (fun l => (amt.val l).side = false) →
    LanesRun s (.rot g d a amt) g (fun l =>
      gInt l d [l.rv a] ((l.rd a).rotateLeft ((amt.val l).val.toNat % 32)) 0))

/-- R170, R171: the bits of an extracted and of an inserted field. Bit j of `bfx.z32` is bit pos + j of the source below
min(len, 32), else 0; bit j of `bfi` is bit j − pos of `vA` inside the field, else bit j of `vC`. -/
def Sys2Proof.Claims.BitFieldBits : Prop :=
  ∀ (a ctl c : Word) (j : Nat), j < 32 →
    let pos := ctl.toNat % 256
    let len := min (ctl.toNat / 256 % 256) 32
    (bfxW false a ctl).getLsbD j = (decide (j < len) && a.getLsbD (pos + j)) ∧
    (bfxW true a ctl).getLsbD j =
      (decide (0 < len) && if j < len then a.getLsbD (min (pos + j) 31) else a.getLsbD (min (pos + len - 1) 31)) ∧
    (bfiW a ctl c).getLsbD j = if pos ≤ j ∧ j < pos + len then a.getLsbD (j - pos) else c.getLsbD j

/-- R173: byte k of `bsel` is the source byte that field k of the control selects, or, with `FILL`, zero, or under `.sx` the sign
of the byte below. -/
def Sys2Proof.Claims.ByteSelectBytes : Prop :=
  ∀ (sx : Bool) (a ctl c : Word) (k : Nat), k < 4 →
    let f := ctl.toNat / 16 ^ k % 16
    (bselW sx a ctl c).extractLsb' (8 * k) 8 =
      if f < 4 then a.extractLsb' (8 * f) 8
      else if f < 8 then c.extractLsb' (8 * (f - 4)) 8
      else if sx ∧ k ≠ 0 ∧ (bselW sx a ctl c).getLsbD (8 * k - 1) = true then 0xFF
      else 0

/-- R167, R168, R169, R174, R175 (mov), R183: selection and moves keep the side bit of what they copy, an immediate is clean, a
comparison of clean sources writes its predicate; carries of clean sources. -/
def Sys2Proof.Claims.SelectCompareMoveResults : Prop :=
  (∀ (s : State) (g : Guard) (d a : Nat) (b : Src2) (pc : Nat), Legal s ([d, a] ++ b.vregs) →
    LanesRun s (.sel g d a b pc) g (fun l => gReg l d (if l.rp pc then l.rv a else b.val l))) ∧
  (∀ (s : State) (g : Guard) (d : Nat) (b : Src2), Legal s (d :: b.vregs) →
    LanesRun s (.movi g d b) g (fun l => gWord l d (b.val l).val 0)) ∧
  (∀ (s : State) (g : Guard) (d a : Nat), Legal s [d, a] → LanesRun s (.mov g d a) g (fun l => gReg l d (l.rv a))) ∧
  (∀ (s : State) (g : Guard) (pd a : Nat) (b : Src2), Legal s (a :: b.vregs) →
    Executing s g (fun l => (l.rv a).side = false ∧ (b.val l).side = false) →
    LanesRun s (.icmp g pd a b .eq) g (fun l => gPred l pd (decide (l.rd a = (b.val l).val))) ∧
    LanesRun s (.icmp g pd a b .ne) g (fun l => gPred l pd (decide (l.rd a ≠ (b.val l).val))) ∧
    LanesRun s (.icmp g pd a b .ltS) g (fun l => gPred l pd (decide ((l.rd a).toInt < (b.val l).val.toInt))) ∧
    LanesRun s (.icmp g pd a b .leS) g (fun l => gPred l pd (decide ((l.rd a).toInt ≤ (b.val l).val.toInt))) ∧
    LanesRun s (.icmp g pd a b .gtS) g (fun l => gPred l pd (decide ((l.rd a).toInt > (b.val l).val.toInt))) ∧
    LanesRun s (.icmp g pd a b .geS) g (fun l => gPred l pd (decide ((l.rd a).toInt ≥ (b.val l).val.toInt))) ∧
    LanesRun s (.icmp g pd a b .ltZ) g (fun l => gPred l pd (decide ((l.rd a).toNat < (b.val l).val.toNat))) ∧
    LanesRun s (.icmp g pd a b .leZ) g (fun l => gPred l pd (decide ((l.rd a).toNat ≤ (b.val l).val.toNat))) ∧
    LanesRun s (.icmp g pd a b .gtZ) g (fun l => gPred l pd (decide ((l.rd a).toNat > (b.val l).val.toNat))) ∧
    LanesRun s (.icmp g pd a b .geZ) g (fun l => gPred l pd (decide ((l.rd a).toNat ≥ (b.val l).val.toNat))))

/-- R174: `addc` and `subb` with clean sources: the sum or difference with the carry-in modulo 2^32, and the carry-out where one is
named; without a carry-out poison gives poison. -/
def Sys2Proof.Claims.CarryChainResults : Prop :=
  ∀ (s : State) (g : Guard) (d a b po : Nat) (ci : Option Nat), Legal s [d, a, b] →
    (po = 7 ∨ Executing s g (fun l => (l.rv a).side = false ∧ (l.rv b).side = false)) →
    let cin := fun l : Lane => match ci with | some c => if l.rp c then 1 else 0 | none => 0
    LanesRun s (.addc g d a b po ci) g (fun l =>
      if (l.rv a).side || (l.rv b).side then gPoison l d
      else
        let t := (l.rd a).toNat + (l.rd b).toNat + cin l
        { regs := [(d, { val := BitVec.ofNat 32 t, side := false })], preds := [(po, decide (2 ^ 32 ≤ t))], flags := 0
          rngs := l.rngs }) ∧
    LanesRun s (.subb g d a b po ci) g (fun l =>
      if (l.rv a).side || (l.rv b).side then gPoison l d
      else
        { regs := [(d, { val := l.rd a - l.rd b - BitVec.ofNat 32 (cin l), side := false })]
          preds := [(po, decide ((l.rd a).toNat < (l.rd b).toNat + cin l))], flags := 0, rngs := l.rngs })

/-- R167 to R169, R174: selection, moves, comparisons and carries. -/
def Obligations.SelectCompareCarryResults : Prop :=
  Sys2Proof.Claims.SelectCompareMoveResults ∧ Sys2Proof.Claims.CarryChainResults

/-- R175: the other IEXT members. -/
def Sys2Proof.Claims.ExtendedIntegerResults : Prop :=
  ∀ (s : State) (g : Guard) (d a b : Nat), Legal s [d, a, b] →
    LanesRun s (.minz g d a b) g (fun l =>
      gInt l d [l.rv a, l.rv b] (BitVec.ofNat 32 (min (l.rd a).toNat (l.rd b).toNat)) 0) ∧
    LanesRun s (.maxz g d a b) g (fun l =>
      gInt l d [l.rv a, l.rv b] (BitVec.ofNat 32 (max (l.rd a).toNat (l.rd b).toNat)) 0) ∧
    LanesRun s (.andn g d a b) g (fun l => gInt l d [l.rv a, l.rv b] (l.rd a &&& ~~~(l.rd b)) 0) ∧
    LanesRun s (.mulh g d a b true) g (fun l =>
      gInt l d [l.rv a, l.rv b] (BitVec.ofNat 32 ((l.rd a).toNat * (l.rd b).toNat / 2 ^ 32)) 0) ∧
    LanesRun s (.mulh g d a b false) g (fun l =>
      gInt l d [l.rv a, l.rv b] (BitVec.ofInt 32 ((l.rd a).toInt * (l.rd b).toInt / (2 ^ 32 : Nat))) 0) ∧
    (Legal s [d, d + 1, a, b] →
      LanesRun s (.mulw g d a b true) g (fun l =>
        if (l.rv a).side || (l.rv b).side then gPoison2 l d
        else gPair l d (BitVec.ofNat 64 ((l.rd a).toNat * (l.rd b).toNat)) 0) ∧
      LanesRun s (.mulw g d a b false) g (fun l =>
        if (l.rv a).side || (l.rv b).side then gPoison2 l d
        else gPair l d (BitVec.ofInt 64 ((l.rd a).toInt * (l.rd b).toInt)) 0))

/-- R176: the UNARY members; a poison source gives a poison result. -/
def Sys2Proof.Claims.UnaryResults : Prop :=
  ∀ (s : State) (g : Guard) (d a : Nat), Legal s [d, a] →
    (∀ sat : Bool, let m : Sat := if sat then .signed else .wrap
      LanesRun s (.neg g d a sat) g (fun l => let r := fit 32 m (-(l.rd a).toInt); gInt l d [l.rv a] r.1 r.2) ∧
      LanesRun s (.abs g d a sat) g (fun l =>
        let x := (l.rd a).toInt; let r := fit 32 m (if x < 0 then -x else x); gInt l d [l.rv a] r.1 r.2)) ∧
    LanesRun s (.not g d a) g (fun l => gInt l d [l.rv a] (~~~(l.rd a)) 0) ∧
    LanesRun s (.popc g d a) g (fun l => gInt l d [l.rv a] (BitVec.ofNat 32 (popcNat (l.rd a))) 0) ∧
    LanesRun s (.clz g d a) g (fun l => gInt l d [l.rv a] (BitVec.ofNat 32 (clzNat (l.rd a))) 0) ∧
    LanesRun s (.ctz g d a) g (fun l => gInt l d [l.rv a] (BitVec.ofNat 32 (ctzNat (l.rd a))) 0) ∧
    LanesRun s (.brev g d a) g (fun l => gInt l d [l.rv a] (brevW (l.rd a)) 0)

/-- R175, R176: the IEXT and UNARY members. -/
def Obligations.ExtendedAndUnaryResults : Prop :=
  Sys2Proof.Claims.ExtendedIntegerResults ∧ Sys2Proof.Claims.UnaryResults

/-- R176: what the bit counts count. Every bit above the leading one, or below the trailing one, is 0; reversal swaps bit j with
bit 31 − j and keeps the number of 1 bits; a word and its complement have 32 ones together. -/
def Sys2Proof.Claims.BitCountMeaning : Prop :=
  ∀ x : Word,
    (∀ j, j < 32 → (brevW x).getLsbD j = x.getLsbD (31 - j)) ∧
    popcNat (brevW x) = popcNat x ∧ popcNat x + popcNat (~~~x) = 32 ∧
    clzNat x ≤ 32 ∧ (∀ j, j < clzNat x → x.getLsbD (31 - j) = false) ∧ (clzNat x < 32 → x.getLsbD (31 - clzNat x) = true) ∧
    ctzNat x ≤ 32 ∧ (∀ j, j < ctzNat x → x.getLsbD j = false) ∧ (ctzNat x < 32 → x.getLsbD (ctzNat x) = true)

/-- R170, R171, R173, R176: what bit fields, byte selection and bit counts are, bit by bit. -/
def Obligations.BitFieldAndByteMeaning : Prop :=
  Sys2Proof.Claims.BitFieldBits ∧ Sys2Proof.Claims.ByteSelectBytes ∧ Sys2Proof.Claims.BitCountMeaning

/-- R177, R178: 64-bit sums, differences and scaled addresses in register pairs. -/
def Obligations.WideArithmeticResults : Prop :=
  (∀ (s : State) (g : Guard) (d a b : Nat) (m : Sat), Legal s [d, d + 1, a, a + 1, b, b + 1] →
    let poison := fun l : Lane => (l.rv a).side || (l.rv (a + 1)).side || (l.rv b).side || (l.rv (b + 1)).side
    LanesRun s (.add64 g d a b m) g (fun l =>
      let r := fit 64 m (readAs m (l.rd2 a) + readAs m (l.rd2 b)); if poison l then gPoison2 l d else gPair l d r.1 r.2) ∧
    LanesRun s (.sub64 g d a b m) g (fun l =>
      let r := fit 64 m (readAs m (l.rd2 a) - readAs m (l.rd2 b)); if poison l then gPoison2 l d else gPair l d r.1 r.2)) ∧
  (∀ (s : State) (g : Guard) (d a b n : Nat), Legal s [d, d + 1, a, a + 1, b] →
    let poison := fun l : Lane => (l.rv a).side || (l.rv (a + 1)).side || (l.rv b).side
    LanesRun s (.lea64 g d a b n false) g (fun l =>
      if poison l then gPoison2 l d else gPair l d (BitVec.ofNat 64 ((l.rd2 a).toNat + (l.rd b).toNat * 2 ^ n)) 0) ∧
    LanesRun s (.lea64 g d a b n true) g (fun l =>
      if poison l then gPoison2 l d
      else gPair l d (BitVec.ofInt 64 ((l.rd2 a).toNat + (l.rd b).toInt * (2 ^ n : Nat))) 0))

/-! ### FP32, packed, dot products (09 R179 to R188, 07 R143) -/

namespace Sys2Proof.Claims

/-- A rounded FP32 result with its flags. -/
def gF32 (l : Lane) (d : Nat) (poison : Bool) (r : Rounded) : Gives :=
  if poison then gPoison l d else gWord l d (BitVec.ofNat 32 r.1) r.2

/-- A register read as FP32 is poison by its side bit or by the payload (07 R151). -/
def poisonF (x : RegVal) : Bool := x.side || x.val == 0x7FE05EED

/-- A second source read as FP32: a literal is never poison (09 Table 9.1). -/
def poisonF2 (l : Lane) (b : Src2) : Bool :=
  match b with
  | .reg n => poisonF (l.rv n)
  | _ => false

/-- A packed register is poison by its side bit or by a payload in either element (07 R151). -/
def poisonP (bf : Bool) (x : RegVal) : Bool :=
  let pay : BitVec 16 := if bf then 0x7FE5 else 0x7F5E
  x.side || x.val.extractLsb' 0 16 == pay || x.val.extractLsb' 16 16 == pay

def poisonP2 (l : Lane) (bf : Bool) (b : Src2) : Bool :=
  match b with
  | .reg n => poisonP bf (l.rv n)
  | _ => false

/-- A packed result from its two elements, or the packed poison (09 R186). -/
def gPacked (l : Lane) (d : Nat) (bf poison : Bool) (k : Nat → Rounded) : Gives :=
  if poison then { regs := [(d, { val := if bf then 0x7FE57FE5 else 0x7F5E7F5E, side := true })], preds := [], flags := 0, rngs := l.rngs }
  else gWord l d (BitVec.ofNat 32 ((k 0).1 + (k 1).1 * 65536)) ((k 0).2 ||| (k 1).2)

/-- The value of element h of a packed register, flushed (09 R185). -/
def elem (bf : Bool) (x : Word) (h : Nat) : FVal :=
  ((fmt16 bf).decode (x.extractLsb' (16 * h) 16).toNat).flush (fmt16 bf)

/-- The FP32 value of a word. -/
def val32 (x : Word) : FVal := fp32.decode x.toNat

/-- 1 and −1. -/
def one : FVal := .num false 1 0
def minusOne : FVal := .num true 1 0

end Sys2Proof.Claims

/-- R179, R180, R181, R182, R183, R184: FP32 arithmetic is one `fdot` with one rounding; comparison, minimum, maximum,
classification and rounding to an integral value. -/
def Obligations.FloatArithmeticResults : Prop :=
  (∀ (s : State) (g : Guard) (d a : Nat) (b : Src2) (rnd : Rnd), Legal s ([d, a] ++ b.vregs) →
    let p := fun l : Lane => poisonF (l.rv a) || poisonF2 l b
    let x := fun l : Lane => val32 (l.rd a)
    let y := fun l : Lane => val32 (b.val l).val
    LanesRun s (.fadd g d a b rnd) g (fun l => gF32 l d (p l) (fdot fp32 [(x l, one), (y l, one)] none rnd false)) ∧
    LanesRun s (.fsub g d a b rnd) g (fun l => gF32 l d (p l) (fdot fp32 [(x l, one), (y l, minusOne)] none rnd false)) ∧
    LanesRun s (.fmul g d a b rnd) g (fun l => gF32 l d (p l) (fdot fp32 [(x l, y l)] none rnd false)) ∧
    (∀ c, Legal s ([d, a, c] ++ b.vregs) →
      LanesRun s (.ffma g d a b c rnd) g (fun l =>
        gF32 l d (p l || poisonF (l.rv c)) (fdot fp32 [(x l, y l)] (some (val32 (l.rd c))) rnd false)))) ∧
  (∀ (s : State) (g : Guard) (pd a : Nat) (b : Src2) (cond : FCond), Legal s (a :: b.vregs) →
    Executing s g (fun l => poisonF (l.rv a) = false ∧ poisonF2 l b = false) →
    LanesRun s (.fcmp g pd a b cond) g (fun l =>
      let x := val32 (l.rd a)
      let y := val32 (b.val l).val
      let nan := decide (x = .nan ∨ y = .nan)
      gPred l pd (match cond with
        | .eq => !nan && !x.lt y && !y.lt x
        | .ne => nan || x.lt y || y.lt x
        | .lt => !nan && x.lt y
        | .le => !nan && !y.lt x
        | .gt => !nan && y.lt x
        | .ge => !nan && !x.lt y
        | .num => !nan
        | .nan => nan))) ∧
  (∀ (s : State) (g : Guard) (d a b : Nat), Legal s [d, a, b] →
    let p := fun l : Lane => poisonF (l.rv a) || poisonF (l.rv b)
    let least := fun l : Lane =>
      let x := val32 (l.rd a)
      let y := val32 (l.rd b)
      x.lt y || (!y.lt x && (l.rd a).getLsbD 31 && !(l.rd b).getLsbD 31)
    LanesRun s (.fmin g d a b) g (fun l =>
      if p l then gPoison l d
      else if val32 (l.rd a) = .nan ∨ val32 (l.rd b) = .nan then gWord l d 0x7FC00000 0
      else gWord l d (if least l then l.rd a else l.rd b) 0) ∧
    LanesRun s (.fmax g d a b) g (fun l =>
      if p l then gPoison l d
      else if val32 (l.rd a) = .nan ∨ val32 (l.rd b) = .nan then gWord l d 0x7FC00000 0
      else gWord l d (if least l then l.rd b else l.rd a) 0)) ∧
  (∀ (s : State) (g : Guard) (d a : Nat), Legal s [d, a] →
    LanesRun s (.fclass g d a) g (fun l =>
      let mag := (l.rd a).toNat % 2 ^ 31
      let neg := (l.rd a).getLsbD 31
      let bit : Nat :=
        if poisonF (l.rv a) then 9
        else if 0x7F800000 < mag then 8
        else if mag = 0x7F800000 then (if neg then 0 else 7)
        else if mag = 0 then (if neg then 3 else 4)
        else if mag < 0x00800000 then (if neg then 2 else 5)
        else if neg then 1 else 6
      gWord l d (BitVec.ofNat 32 (2 ^ bit)) 0) ∧
    (∀ rnd, LanesRun s (.fround g d a rnd) g (fun l => gF32 l d (poisonF (l.rv a)) (froundVal (val32 (l.rd a)) (l.rd a) rnd))))

/-- R179, R180: the special cases of `fdot` and their flags, in the order the rule gives: a NaN factor; ∞ × 0 (`NV`); a NaN
addend; infinities of both signs (`NV`); an infinity. -/
def Sys2Proof.Claims.FusedSumSpecialCases : Prop :=
  ∀ (f : Fmt) (x y z : FVal) (r : Rnd) (fl : Bool),
    (x = .nan ∨ y = .nan → fdot f [(x, y)] (some z) r fl = (f.nanCode, 0)) ∧
    (∀ n k e, x = .inf n → y = .num k 0 e → fdot f [(x, y)] (some z) r fl = (f.nanCode, 1)) ∧
    (∀ n k e, x = .num k 0 e → y = .inf n → fdot f [(x, y)] (some z) r fl = (f.nanCode, 1)) ∧
    (∀ k m e k' m' e', x = .num k m e → y = .num k' m' e' → z = .nan → fdot f [(x, y)] (some z) r fl = (f.nanCode, 0)) ∧
    (∀ n k m e n', x = .inf n → y = .num k m e → m ≠ 0 → z = .inf n' →
      fdot f [(x, y)] (some z) r fl = if (n != k) = n' then (f.infCode n', 0) else (f.nanCode, 1)) ∧
    (∀ k m e k' m' e' n, x = .num k m e → y = .num k' m' e' → z = .inf n →
      fdot f [(x, y)] (some z) r fl = (f.infCode n, 0))

/-- R143: a finite value of a format rounds to its own code under every mode, whatever the draw, and sets no flag. -/
def Sys2Proof.Claims.RoundingKeepsRepresentableValues : Prop :=
  ∀ f ∈ [fp32, fp16, fbf16, fe5m2, fe4m3, fe3m2, fe2m3, fe2m1], ∀ (code : Nat) (neg : Bool) (m : Nat) (e : Int),
    code < 2 ^ f.width → f.decode code = .num neg m e →
    ∀ (r : Rnd) (draw : Word) (sat : Bool), f.roundTo neg m e r draw sat false = (code, 0)

/-- R179, R180, R143: special cases of a fused sum, and rounding of representable values. -/
def Obligations.FusedSumCases : Prop :=
  Sys2Proof.Claims.FusedSumSpecialCases ∧ Sys2Proof.Claims.RoundingKeepsRepresentableValues

/-- R185, R186: packed arithmetic acts on the flushed elements apart, rounds to nearest with flushed outputs, combines the flags,
and a poison source poisons both elements. -/
def Obligations.PackedArithmeticResults : Prop :=
  (∀ (s : State) (g : Guard) (d a : Nat) (b : Src2) (bf : Bool), Legal s ([d, a] ++ b.vregs) →
    let p := fun l : Lane => poisonP bf (l.rv a) || poisonP2 l bf b
    let x := fun l : Lane => elem bf (l.rd a)
    let y := fun l : Lane => elem bf (b.val l).val
    LanesRun s (.hadd2 g d a b bf) g (fun l =>
      gPacked l d bf (p l) fun h => fdot (fmt16 bf) [(x l h, one), (y l h, one)] none .rn true) ∧
    LanesRun s (.hsub2 g d a b bf) g (fun l =>
      gPacked l d bf (p l) fun h => fdot (fmt16 bf) [(x l h, one), (y l h, minusOne)] none .rn true) ∧
    LanesRun s (.hmul2 g d a b bf) g (fun l =>
      gPacked l d bf (p l) fun h => fdot (fmt16 bf) [(x l h, y l h)] none .rn true) ∧
    (∀ c, Legal s ([d, a, c] ++ b.vregs) →
      LanesRun s (.hfma2 g d a b c bf) g (fun l =>
        gPacked l d bf (p l || poisonP bf (l.rv c)) fun h =>
          fdot (fmt16 bf) [(x l h, y l h)] (some (elem bf (l.rd c) h)) .rn true))) ∧
  (∀ (s : State) (g : Guard) (d a b : Nat) (bf : Bool), Legal s [d, a, b] →
    let p := fun l : Lane => poisonP bf (l.rv a) || poisonP bf (l.rv b)
    let x := fun l : Lane => elem bf (l.rd a)
    let y := fun l : Lane => elem bf (l.rd b)
    let code := fun (w : Word) (h : Nat) =>
      let c := (w.extractLsb' (16 * h) 16).toNat
      if c % 2 ^ 15 < 2 ^ (if bf then 7 else 10) then c / 2 ^ 15 * 2 ^ 15 else c
    let below := fun (l : Lane) (h : Nat) =>
      (x l h).lt (y l h) || (!(y l h).lt (x l h) && (x l h).neg && !(y l h).neg)
    let nan := fun (l : Lane) (h : Nat) => x l h = .nan ∨ y l h = .nan
    let quiet : Nat := if bf then 0x7FC0 else 0x7E00
    LanesRun s (.hmin2 g d a b bf) g (fun l => gPacked l d bf (p l) fun h =>
      (if nan l h then quiet else if below l h then code (l.rd a) h else code (l.rd b) h, 0)) ∧
    LanesRun s (.hmax2 g d a b bf) g (fun l => gPacked l d bf (p l) fun h =>
      (if nan l h then quiet else if below l h then code (l.rd b) h else code (l.rd a) h, 0)) ∧
    (∀ cond : FCond, LanesRun s (.hcmp2 g d a b bf cond) g (fun l => gPacked l d bf (p l) fun h =>
      (if cond.holds (x l h) (y l h) then 0xFFFF else 0, 0))))

/-- R187, R188: integer dot products accumulate exactly and reduce once, FP dot products round once. -/
def Obligations.DotProductResults : Prop :=
  ∀ (s : State) (g : Guard) (d a b c : Nat), Legal s [d, a, b, c] →
    let byte := fun (sg : Bool) (x : Word) (j : Nat) =>
      if sg then (x.extractLsb' (8 * j) 8).toInt else ((x.extractLsb' (8 * j) 8).toNat : Int)
    let nib := fun (sg : Bool) (x : Word) (j : Nat) =>
      if sg then (x.extractLsb' (4 * j) 4).toInt else ((x.extractLsb' (4 * j) 4).toNat : Int)
    (∀ sa sb sat : Bool, let m : Sat := if sat then .signed else .wrap
      LanesRun s (.idp4 g d a b c sa sb sat) g (fun l =>
        let p := fun j => byte sa (l.rd a) j * byte sb (l.rd b) j
        let r := fit 32 m ((l.rd c).toInt + (p 0 + p 1 + p 2 + p 3))
        gInt l d [l.rv a, l.rv b, l.rv c] r.1 r.2) ∧
      LanesRun s (.idp8 g d a b c sa sb sat) g (fun l =>
        let p := fun j => nib sa (l.rd a) j * nib sb (l.rd b) j
        let r := fit 32 m ((l.rd c).toInt + (p 0 + p 1 + p 2 + p 3 + p 4 + p 5 + p 6 + p 7))
        gInt l d [l.rv a, l.rv b, l.rv c] r.1 r.2)) ∧
    (∀ (rnd : Rnd) (bf : Bool), LanesRun s (.hdp2 g d a b c rnd bf) g (fun l =>
      gF32 l d (poisonP bf (l.rv a) || poisonP bf (l.rv b) || poisonF (l.rv c))
        (fdot fp32 [(elem bf (l.rd a) 0, elem bf (l.rd b) 0), (elem bf (l.rd a) 1, elem bf (l.rd b) 1)]
          (some (val32 (l.rd c))) rnd false)))

/-! ### Conversions and special functions (09 R189 to R195, 07 R145) -/

/-- R190: `cvt` between integers: the value of the source type, reduced to the destination type or clamped under `SAT` with
`OF`, sign- or zero-extended into its register or pair; poison in, poison out. -/
def Sys2Proof.Claims.IntegerConversionResults : Prop :=
  ∀ (s : State) (g : Guard) (d a : Nat) (sat : Bool),
    ∀ dt ∈ [Ty.s8, .s16, .s32, .s64, .z8, .z16, .z32, .z64], ∀ st ∈ [Ty.s8, .s16, .s32, .s64, .z8, .z16, .z32, .z64],
      Legal s (grp d dt.regs ++ grp a st.regs) →
      LanesRun s (.cvt g d a dt st .rn sat false) g (fun l =>
        if (l.rv a).side || (st.bytes == 8 && (l.rv (a + 1)).side) then (if dt.bytes = 8 then gPoison2 l d else gPoison l d)
        else
          let w := 8 * st.bytes
          let v := 8 * dt.bytes
          let bits : DWord := if st.bytes = 8 then l.rd2 a else (l.rd a).zeroExtend 64
          let x : Int := if st.signed then (bits.setWidth w).toInt else (bits.setWidth w).toNat
          let lo : Int := if dt.signed then -(2 ^ (v - 1) : Nat) else 0
          let hi : Int := if dt.signed then (2 ^ (v - 1) : Nat) - 1 else (2 ^ v : Nat) - 1
          let y := if sat then max lo (min hi x) else x
          let flags := if y = x then 0 else 2
          if dt.bytes = 8 then gPair l d (BitVec.ofInt 64 y) flags
          else gWord l d (if dt.signed then (BitVec.ofInt v y).signExtend 32 else (BitVec.ofInt v y).zeroExtend 32) flags)

/-- R189, R190, R145: every `cvt` completes: the value and flags of the conversion of its source bits, or poison of its
destination; under `rs` one draw, also for poison. -/
def Sys2Proof.Claims.ConversionResults : Prop :=
  ∀ (s : State) (g : Guard) (d a : Nat) (dt st : Ty) (rnd : Rnd) (sat ftz : Bool), Legal s (grp d dt.regs ++ grp a st.regs) →
    LanesRun s (.cvt g d a dt st rnd sat ftz) g (fun l =>
      let draw := rngsNext l.rngs
      let rngs := if rnd = Rnd.rs then draw else l.rngs
      if cvtPoison l st a then { regs := cvtPoisonRegs d dt, preds := [], flags := 0, rngs := rngs }
      else
        let r := cvtVal dt st rnd draw sat ftz (cvtBits l st a)
        { regs := cvtRegs d dt r.1, preds := [], flags := r.2, rngs := rngs })

/-- R149, R150: floating point to integer: NaN gives 0 with `NV`, an infinity or a rounded value outside the range clamps with
`NV`, an inexact value sets `NX`. -/
def Sys2Proof.Claims.FloatToIntegerCorners : Prop :=
  ∀ (sg : Bool) (w : Nat) (r : Rnd) (draw : Word), w ∈ [8, 16, 32, 64] →
    let lo : Int := if sg then -(2 ^ (w - 1) : Nat) else 0
    let hi : Int := if sg then (2 ^ (w - 1) : Nat) - 1 else (2 ^ w : Nat) - 1
    floatToInt sg w .nan r draw = (0, 1) ∧
    floatToInt sg w (.inf false) r draw = (hi, 1) ∧
    floatToInt sg w (.inf true) r draw = (lo, 1) ∧
    (∀ (n : Bool) (m : Nat), let x : Int := if n then -(m : Int) else m
      floatToInt sg w (.num n m 0) r draw = (max lo (min hi x), if lo ≤ x ∧ x ≤ hi then 0 else 1)) ∧
    (∀ (n : Bool) (m k : Nat), m % 2 ^ k ≠ 0 → (floatToInt sg w (.num n m (-(k : Int))) .rz draw).2 ∈ [4, 5])

/-- R189, R190, R145, R149, R150: conversions.
Readings of the model, not of the spec, that it rests on: log 10. -/
def Obligations.ConversionResults : Prop :=
  Sys2Proof.Claims.IntegerConversionResults ∧ Sys2Proof.Claims.ConversionResults ∧ Sys2Proof.Claims.FloatToIntegerCorners

/-- R191 to R194: `pack` writes its elements, and under `.sa` the scale byte e + 127 after them; `unpk` writes one register for
each element; poison poisons every destination; under `rs` one draw for each element. -/
def Sys2Proof.Claims.PackUnpackResults : Prop :=
  (∀ (s : State) (g : Guard) (d a : Nat) (ty : Ty) (rnd : Rnd) (sat ftz : Bool) (sc : PackScale),
    Legal s ([d] ++ grp a ty.perReg ++ sc.vregs) →
    let elems := fun l : Lane => packElems ty rnd sat ftz (packExp ty l sc) 0 ((grp a ty.perReg).map l.rd) l.rngs
    let poison := fun l : Lane => (grp a ty.perReg).any (fun n => poisonF (l.rv n)) || packScalePoison l sc
    let rngs := fun l : Lane => if rnd = Rnd.rs then (elems l).2.2 else l.rngs
    let data := fun l : Lane =>
      if poison l then poisonElems ty else { val := BitVec.ofNat 32 (elems l).1, side := false }
    let byte := fun l : Lane =>
      if poison l then { val := 0x7FE05EED, side := true }
      else { val := BitVec.ofInt 32 (packExp ty l sc + 127), side := false }
    let flags := fun l : Lane => if poison l then 0 else (elems l).2.1
    (∀ b c, sc = .sa b c → c ≠ d →
      LanesRun s (.pack g d a ty rnd sat ftz sc) g (fun l =>
        { regs := [(d, data l), (c, byte l)], preds := [], flags := flags l, rngs := rngs l })) ∧
    (∀ b, sc = .sa b d →
      LanesRun s (.pack g d a ty rnd sat ftz sc) g (fun l =>
        { regs := [(d, byte l)], preds := [], flags := flags l, rngs := rngs l })) ∧
    ((∀ b c, sc ≠ .sa b c) →
      LanesRun s (.pack g d a ty rnd sat ftz sc) g (fun l =>
        { regs := [(d, data l)], preds := [], flags := flags l, rngs := rngs l }))) ∧
  (∀ (s : State) (g : Guard) (d a : Nat) (ty : Ty) (sc : UnpkScale), Legal s (grp d ty.perReg ++ [a] ++ sc.vregs) →
    LanesRun s (.unpk g d a ty sc) g (fun l =>
      if unpkPoison ty (l.rv a) || sc.vregs.any (fun n => (l.rv n).side) then
        { regs := (grp d ty.perReg).map fun n => (n, { val := 0x7FE05EED, side := true }), preds := [], flags := 0, rngs := l.rngs }
      else
        let r := fun j => unpkElem ty (unpkExp l sc) (l.rd a) j
        { regs := (List.range ty.perReg).map fun j => (d + j, { val := BitVec.ofNat 32 (r j).1, side := false }), preds := []
          flags := ((List.range ty.perReg).map fun j => (r j).2).foldl (· ||| ·) 0, rngs := l.rngs }))

/-- R192: under `.sa`, for a finite bound m ≠ 0 whose scale needs no clamp, e is the least exponent that brings the bound within
the format's `MAX`. -/
def Sys2Proof.Claims.PackScaleIsLeast : Prop :=
  ∀ f ∈ [fp16, fbf16, fe4m3, fe5m2, fe3m2, fe2m3, fe2m1], ∀ (m : Nat) (x : Int), m ≠ 0 →
    ∀ (k : Nat) (y : Int), f.decode f.maxCode = .num false k y →
    let within := fun e : Int => ∀ q : Int, q ≤ x → q ≤ y + e → m * 2 ^ (x - q).toNat ≤ k * 2 ^ (y + e - q).toNat
    within (leastScale f m x) ∧ ¬ within (leastScale f m x - 1)

/-- R191 to R194: `pack` and `unpk`, and the least scale of a block. -/
def Obligations.PackUnpackResults : Prop :=
  Sys2Proof.Claims.PackUnpackResults ∧ Sys2Proof.Claims.PackScaleIsLeast

/-- R195, R106, R107: a special function is long-latency: its lanes go on at once, and the result, with its flags set at once,
lands at the position that `LA` names; poison in, poison out. -/
def Sys2Proof.Claims.SpecialFunctionResults : Prop :=
  ∀ (s : State) (g : Guard) (d a la : Nat), Legal s [d, a] →
    let res := fun (k : Sfn) (l : Lane) =>
      if poisonF (l.rv a) then gPoison l d else gWord l d (k.eval (l.rd a)).1 (k.eval (l.rd a)).2
    LanesRunLater s (.frcp g d a la) g la (res .rcp) ∧ LanesRunLater s (.frsq g d a la) g la (res .rsq) ∧
    LanesRunLater s (.fsqrt g d a la) g la (res .sqrt) ∧ LanesRunLater s (.fexp2 g d a la) g la (res .exp2) ∧
    LanesRunLater s (.flog2 g d a la) g la (res .log2) ∧ LanesRunLater s (.fsin g d a la) g la (res .sin) ∧
    LanesRunLater s (.fcos g d a la) g la (res .cos) ∧ LanesRunLater s (.ftanh g d a la) g la (res .tanh)

/-- 2^k in FP32, subnormal below 2^−126. -/
def Sys2Proof.Claims.pow2Bits (k : Int) : Word := if k < -126 then BitVec.ofNat 32 (2 ^ (k + 149).toNat) else BitVec.ofNat 32 ((k + 127).toNat * 2 ^ 23)

/-- An integer of magnitude below 2^24 in FP32. -/
def Sys2Proof.Claims.intBits (k : Int) : Word :=
  let n := k.natAbs
  let e := Nat.log2 n
  if k = 0 then 0
  else BitVec.ofNat 32 ((if k < 0 then 2 ^ 31 else 0) + (e + 126) * 2 ^ 23 + n * 2 ^ (23 - e))

/-- R195, 07 Table 7.13: values that the table fixes: NaN, the infinities and zeros, negative operands, integral powers and logarithms
of 2, and sines and cosines out of range. The flags of a pole are a reading of the model (log 12) and not stated. -/
def Sys2Proof.Claims.SpecialFunctionFixedValues : Prop :=
  (∀ (k : Sfn) (x : Word), val32 x = .nan → k.eval x = (0x7FC00000, 0)) ∧
  Sfn.eval .rcp 0x7F800000 = (0, 0) ∧ Sfn.eval .rcp 0xFF800000 = (0x80000000, 0) ∧ (Sfn.eval .rcp 0).1 = 0x7F800000 ∧
  (Sfn.eval .rcp 0x80000000).1 = 0xFF800000 ∧ Sfn.eval .rcp 0x3F800000 = (0x3F800000, 0) ∧
  (∀ x : Word, x.getLsbD 31 = true → x ≠ 0x80000000 → val32 x ≠ .nan →
    Sfn.eval .rsq x = (0x7FC00000, 1) ∧ Sfn.eval .sqrt x = (0x7FC00000, 1) ∧ Sfn.eval .log2 x = (0x7FC00000, 1)) ∧
  Sfn.eval .sqrt 0 = (0, 0) ∧ Sfn.eval .sqrt 0x80000000 = (0x80000000, 0) ∧ Sfn.eval .sqrt 0x7F800000 = (0x7F800000, 0) ∧
  (Sfn.eval .rsq 0).1 = 0x7F800000 ∧ (Sfn.eval .rsq 0x80000000).1 = 0xFF800000 ∧ Sfn.eval .rsq 0x7F800000 = (0, 0) ∧
  Sfn.eval .exp2 0x7F800000 = (0x7F800000, 0) ∧ Sfn.eval .exp2 0xFF800000 = (0, 0) ∧
  Sfn.eval .exp2 0 = (0x3F800000, 0) ∧ Sfn.eval .exp2 0x80000000 = (0x3F800000, 0) ∧
  (Sfn.eval .log2 0).1 = 0xFF800000 ∧ (Sfn.eval .log2 0x80000000).1 = 0xFF800000 ∧ Sfn.eval .log2 0x7F800000 = (0x7F800000, 0) ∧
  (∀ k : Int, -149 ≤ k → k ≤ 127 → Sfn.eval .exp2 (intBits k) = (pow2Bits k, 0) ∧ Sfn.eval .log2 (pow2Bits k) = (intBits k, 0)) ∧
  Sfn.eval .sin 0 = (0, 0) ∧ Sfn.eval .sin 0x80000000 = (0x80000000, 0) ∧
  Sfn.eval .cos 0 = (0x3F800000, 0) ∧ Sfn.eval .cos 0x80000000 = (0x3F800000, 0) ∧
  (∀ k ∈ [Sfn.sin, .cos], ∀ x : Word, val32 x ≠ .nan → 0x4A490FDB ≤ x.toNat % 2 ^ 31 → k.eval x = (0x7FC00000, 1)) ∧
  Sfn.eval .tanh 0 = (0, 0) ∧ Sfn.eval .tanh 0x80000000 = (0x80000000, 0) ∧
  Sfn.eval .tanh 0x7F800000 = (0x3F800000, 0) ∧ Sfn.eval .tanh 0xFF800000 = (0xBF800000, 0)

/-- R195, R106, R107: special functions, and the values that Table 7.13 fixes.
Readings of the model, not of the spec, that it rests on: logs 4, 12. -/
def Obligations.SpecialFunctionResults : Prop :=
  Sys2Proof.Claims.SpecialFunctionResults ∧ Sys2Proof.Claims.SpecialFunctionFixedValues

/-! ### Exceptions (07 R153, 19 R339 to R348) -/

/-- R153, R342 to R345: a lane whose shift amount, bit-field, byte-selection or rotation control, or comparison or carry-chain
source is poison traps with cause 0x08 at the instruction, and the other lanes of the entry complete. -/
def Obligations.PoisonConsumptionTraps : Prop :=
  ∀ (s : State) (g : Guard) (d a : Nat) (b : Src2), Legal s ([d, a] ++ b.vregs) →
    let bad := fun l : Lane => (b.val l).side
    LanesTrap s (.shl g d a b) g bad 0x08 (fun _ => 0) s.cur.pc (fun l =>
      gInt l d [l.rv a] (BitVec.ofNat 32 ((l.rd a).toNat * 2 ^ (b.val l).val.toNat)) 0) ∧
    LanesTrap s (.shr g d a b) g bad 0x08 (fun _ => 0) s.cur.pc (fun l =>
      gInt l d [l.rv a] (BitVec.ofNat 32 ((l.rd a).toNat / 2 ^ (b.val l).val.toNat)) 0) ∧
    LanesTrap s (.sar g d a b) g bad 0x08 (fun _ => 0) s.cur.pc (fun l =>
      gInt l d [l.rv a] (BitVec.ofInt 32 ((l.rd a).toInt / (2 ^ min (b.val l).val.toNat 31 : Nat))) 0) ∧
    (∀ sgn, LanesTrap s (.bfx g d a b sgn) g bad 0x08 (fun _ => 0) s.cur.pc (fun l =>
      gInt l d [l.rv a] (bfxW sgn (l.rd a) (b.val l).val) 0)) ∧
    (∀ c, Legal s ([d, a, c] ++ b.vregs) →
      LanesTrap s (.bfi g d a b c) g bad 0x08 (fun _ => 0) s.cur.pc (fun l =>
        gInt l d [l.rv a, l.rv c] (bfiW (l.rd a) (b.val l).val (l.rd c)) 0) ∧
      ∀ sx, LanesTrap s (.bsel g d a b c sx) g bad 0x08 (fun _ => 0) s.cur.pc (fun l =>
        gInt l d [l.rv a, l.rv c] (bselW sx (l.rd a) (b.val l).val (l.rd c)) 0)) ∧
    (∀ pd cond, LanesTrap s (.icmp g pd a b cond) g (fun l => (l.rv a).side || (b.val l).side) 0x08 (fun _ => 0) s.cur.pc (fun l =>
      gPred l pd (cond.holds (l.rd a) (b.val l).val))) ∧
    (∀ n, Legal s [d, a, n] →
      LanesTrap s (.rot g d a (.reg n)) g (fun l => (l.rv n).side) 0x08 (fun _ => 0) s.cur.pc (fun l =>
        gInt l d [l.rv a] ((l.rd a).rotateLeft ((l.rd n).toNat % 32)) 0) ∧
      ∀ po ci, po ≠ 7 →
        let cin := fun l : Lane => match ci with | some c => if l.rp c then 1 else 0 | none => 0
        LanesTrap s (.addc g d a n po ci) g (fun l => (l.rv a).side || (l.rv n).side) 0x08 (fun _ => 0) s.cur.pc fun l =>
          let t := (l.rd a).toNat + (l.rd n).toNat + cin l
          { regs := [(d, { val := BitVec.ofNat 32 t, side := false })], preds := [(po, decide (2 ^ 32 ≤ t))], flags := 0
            rngs := l.rngs })

/-- R342, R343, R345 and Table 19.3: `brk` traps with cause 0x0D, its number in `XVAL`, at its own address; `sys` with cause 0x0C at
the next instruction; `brx` and `ret` to a misaligned target with cause 0x03 and the target in `XVAL`. The frame of the target level
receives return PC, cause, value, progress, level, priority and cohort, the nest count goes one up, and the lanes go on at the
vector table's entry of 64 bytes for the cause. -/
def Sys2Proof.Claims.SynchronousTraps : Prop :=
  ∀ (s : State) (g : Guard), Legal s [] →
    (∀ n : BitVec 16, LanesTrap s (.brk g n) g (fun _ => true) 0x0D (fun _ => n.zeroExtend 64) s.cur.pc .nothing) ∧
    (∀ n : BitVec 12, LanesTrap s (.sys g n) g (fun _ => true) 0x0C (fun _ => n.zeroExtend 64) s.cur.next .nothing) ∧
    (∀ a, Legal s [a, a + 1] →
      Executing s g (fun l => (l.rv a).side = false ∧ (l.rv (a + 1)).side = false ∧ (l.rd2 a).toNat % 4 ≠ 0) →
      LanesTrap s (.brx g a) g (fun _ => true) 0x03 (fun l => l.rd2 a) s.cur.pc .nothing ∧
      LanesTrap s (.ret g a) g (fun _ => true) 0x03 (fun l => l.rd2 a) s.cur.pc .nothing)

/-- R91, R57, R120, R122, R348: a word that decodes to nothing, a register that the kernel does not have, an instruction of the
tiller in a warp, and `sret` at H raise cause 0x01 with the base word; a privileged instruction below its level raises cause
0x02; in every lane of the entry, whatever the guard. -/
def Obligations.IllegalAndPrivilegedTraps : Prop :=
  ∀ (s : State) (g : Guard), s.cur.agent ≠ .tiller →
    let word : DWord := s.cur.word.zeroExtend 64
    (∀ w : Word, EntryTrap s (.reservedCell w) 0x01 (w.zeroExtend 64)) ∧
    (∀ d a b m, s.laneOk ([d, a] ++ b.vregs) [] = false → EntryTrap s (.add g d a b m) 0x01 word) ∧
    (∀ d a b, s.namesOk [] ([d, a] ++ b.sregs 1) = false → EntryTrap s (.uadd g d a b) 0x01 word) ∧
    (∀ d a b ra sat, EntryTrap s (.mma g d a b ra sat) 0x01 word) ∧ (∀ d, EntryTrap s (.accz g d) 0x01 word) ∧
    EntryTrap s (.mexit g) 0x01 word ∧
    (s.cur.level = .u → EntryTrap s (.sret g) 0x02 word ∧
      (∀ r d sel, s.laneOk (grp d r.regs) [] = true → EntryTrap s (.xrd g d r sel) 0x02 word ∧ EntryTrap s (.xwr g d r sel) 0x02 word) ∧
      (∀ sc la, EntryTrap s (.tlbinvAll g sc la) 0x02 word)) ∧
    (s.cur.level = .s → EntryTrap s (.hret g) 0x02 word ∧ (∀ sc la, EntryTrap s (.tlbinvAll g sc la) 0x02 word)) ∧
    (s.cur.level = .h → EntryTrap s (.sret g) 0x01 word)

/-- R345, R347: where the frame of S is live, a cause for S escalates: it enters H as cause 0x12 with the cause as its value; where
that cannot be, the block fails with a machine check (R391), whose report names the lane. The cause and the value that it names are
those first raised, 0x0D and the immediate, where the spec's loop holds 0x12 and 0x0D by then: the model's choice (log 53). -/
def Sys2Proof.Claims.DoubleTrapEscalates : Prop :=
  ∀ (s : State) (g : Guard) (n : Nat) (k : BitVec 16), Legal s [] → s.cur.lanes = [n] → (s.cl n).guard g = true →
    (s.cl n).occ = .live → (s.cl n).level = .u → (s.ctxOf s.cur.blk).xdeleg.getLsbD 0x0D = false → (s.cl n).frameS.nest = true →
    (∀ i, (s.cl i).held = none) → (∀ i, i ≠ n → (s.cl i).occ ≠ .live) → s.heldScratch s.cur.blk s.cur.warp n = false →
    ((s.cl n).frameH.nest = false → (s.cl n).ncnt ≠ 255 → (s.cl n).frameH.vec ≠ 0 →
      ∃ t, exec (.brk g k) s = .next t ∧ Entered (s.cl n) (t.cl n) .h (maskOf [n]) 0x12 0x0D s.cur.pc s.cur.prog) ∧
    ((s.cl n).frameH.nest = true → exec (.brk g k) s =
      .next ((s.setCl n (s.cl n)).failCheck s.cur.blk s.cur.warp n 0x0D s.cur.pc (k.zeroExtend 64)))

namespace Sys2Proof.Claims

/-- The lanes of the entry whose guard passes. -/
def acting (s : State) (g : Guard) : List Nat := s.cur.lanes.filter fun n => (s.cl n).guard g

/-- No byte of memory reads otherwise. -/
def memSame (s t : State) : Prop := ∀ key a, t.byteAt key a = s.byteAt key a

/-- A lane's pair address register is clean. -/
def cleanPair (l : Lane) (a : Nat) : Prop := (l.rv a).side = false ∧ (l.rv (a + 1)).side = false

/-- Every executing lane raises a cause with a value, and none takes part in the access. -/
def AllTrap (s : State) (g : Guard) (i : Instr) (cause : Nat) (val : Lane → DWord) : Prop :=
  LanesTrap s i g (fun _ => true) cause val s.cur.pc .nothing

/-- The sum that names a place of scratchpad or of the window (11 R210, R211). -/
def scratchSum (l : Lane) (a : Nat) (off : BitVec 16) : Int := ((l.rd a).toNat : Int) + off.toInt

/-- A sum lies outside the scratchpad of the block, or names no byte of the group's window (11 R210, R211). -/
def outside (s : State) (win : Bool) (va : Int) (n : Nat) : Prop :=
  let g := s.gridOf s.cur.blk
  let x := (va % 2 ^ 32).toNat
  if win then 2 ^ 24 ≤ x ∨ g.gsize ≤ x / 2 ^ 20 % 16 ∨ g.khdr.scratch < x % 2 ^ 20 + n
  else va < 0 ∨ (g.khdr.scratch : Int) < va + n

end Sys2Proof.Claims

/-- R153, R210, R211, R219: each active lane checks its access in order: a poison address or offset raises cause 0x08; a misaligned
address where alignment is required raises 0x03 with the address; an offset outside the scratchpad, or of no byte of the window, 0x09
with the offset. -/
def Sys2Proof.Claims.AddressTraps : Prop :=
  ∀ (s : State) (g : Guard) (a la : Nat) (off : BitVec 16),
    (Executing s g (fun l => (l.rv a).side = true ∨ (l.rv (a + 1)).side = true) →
      let bad := fun i => AllTrap s g i 0x08 fun _ => 0
      (∀ d ty acq ch sc, Legal s (grp d ty.regs ++ [a, a + 1]) →
        bad (.ld g d a ty acq ch sc off la) ∧ bad (.st g d a ty acq ch sc off la) ∧ ∀ k, bad (.ldb g d a ty (.rf k) off la)) ∧
      (∀ d b c op ty sc sem, Legal s (grp d ty.regs ++ [a, a + 1] ++ grp b ty.regs ++ casRegs op ty c) →
        bad (.atom g d a b c op ty sc sem la)) ∧
      (∀ b op ty sc rel, Legal s ([a, a + 1] ++ grp b ty.regs) → bad (.red g a b op ty sc rel la)) ∧
      (Legal s [a, a + 1] → (∀ lvl ex, bad (.pf g a lvl ex off la)) ∧ ∀ sc, bad (.cinv g a sc off la) ∧ bad (.cwb g a sc off la)) ∧
      (∀ b, Legal s [b, a, a + 1] → bad (.mwait g a b off la))) ∧
    (Executing s g (fun l => (l.rv a).side = true) →
      let bad := fun i => AllTrap s g i 0x08 fun _ => 0
      (∀ d ty, Legal s (a :: grp d ty.regs) → bad (.lds g d a ty off la) ∧ bad (.sts g d a ty off la) ∧ bad (.ldg g d a ty off la) ∧
        bad (.stg g d a ty off la)) ∧
      ∀ d b c op ty sem win, Legal s ([a] ++ grp d ty.regs ++ grp b ty.regs ++ casRegs op ty c) →
        bad (.atoms g d a b c op ty sem win la)) ∧
    (∀ ty : Ty, Executing s g (fun l => cleanPair l a ∧ (l.rd2 a).toNat % ty.bytes ≠ 0) →
      let bad := fun i => AllTrap s g i 0x03 fun l => l.rd2 a
      (∀ d b c op sc sem, Legal s (grp d ty.regs ++ [a, a + 1] ++ grp b ty.regs ++ casRegs op ty c) →
        bad (.atom g d a b c op ty sc sem la)) ∧
      (∀ b op sc rel, Legal s ([a, a + 1] ++ grp b ty.regs) → bad (.red g a b op ty sc rel la)) ∧
      ∀ d k, Legal s (grp d ty.regs ++ [a, a + 1]) → bad (.ldb g d a ty (.rf k) 0 la)) ∧
    (∀ (ty : Ty) (win : Bool) (cause : Nat),
      ((cause = 0x03 ∧ Executing s g fun l => (l.rv a).side = false ∧ scratchSum l a off % ty.bytes ≠ 0) ∨
        (cause = 0x09 ∧ Executing s g fun l => (l.rv a).side = false ∧ scratchSum l a off % ty.bytes = 0 ∧
          outside s win (scratchSum l a off) ty.bytes)) →
      let bad := fun i => AllTrap s g i cause fun l => BitVec.ofInt 64 (scratchSum l a off)
      (∀ d, Legal s (a :: grp d ty.regs) →
        bad (if win then .ldg g d a ty off la else .lds g d a ty off la) ∧ bad (if win then .stg g d a ty off la else .sts g d a ty off la)) ∧
      ∀ d b c op sem, off = 0 → Legal s ([a] ++ grp d ty.regs ++ grp b ty.regs ++ casRegs op ty c) →
        bad (.atoms g d a b c op ty sem win la))

/-- R219 steps 5 and 6, R221, R353: an access whose translation or permission fails raises the cause that the failure names, with its
address, in the lane that makes it, and performs nothing; of a uniform access in every lane of the entry. -/
def Sys2Proof.Claims.TranslationTraps : Prop :=
  ∀ (s s1 : State) (g : Guard) (a cause : Nat) (val : DWord) (off : BitVec 16) (T : Level),
    let fails := fun kind n va => s.xlateLane s.cur.blk s.cur.level kind va n = (s1, .error (cause, val))
    (∀ n la, acting s g = [n] → cleanPair (s.cl n) a → Enterable s s.cur.blk s.cur.warp [n] cause T →
      let traps := fun i => ∃ t, exec i s = .next t ∧ t.cw.rs2 T 56 = maskOf [n] ∧
        Entered (s.cl n) (t.cl n) T (maskOf [n]) cause val s.cur.pc s.cur.prog ∧ ((s.blk s.cur.blk).pend = [] → memSame s t)
      let va := (s.cl n).rd2 a + off.signExtend 64
      (∀ d ty acq ch sc, Legal s (grp d ty.regs ++ [a, a + 1]) →
        (fails .load ty.bytes va → traps (.ld g d a ty acq ch sc off la)) ∧
        (fails .store ty.bytes va → traps (.st g d a ty acq ch sc off la))) ∧
      (∀ d b c op ty sc sem, Legal s (grp d ty.regs ++ [a, a + 1] ++ grp b ty.regs ++ casRegs op ty c) → off = 0 →
        va.toNat % ty.bytes = 0 → fails .atomic ty.bytes va → traps (.atom g d a b c op ty sc sem la)) ∧
      (∀ b op ty sc rel, Legal s ([a, a + 1] ++ grp b ty.regs) → off = 0 → va.toNat % ty.bytes = 0 →
        fails .atomic ty.bytes va → traps (.red g a b op ty sc rel la)) ∧
      (Legal s [a, a + 1] → fails .load 1 va → ∀ sc, traps (.cinv g a sc off la) ∧ traps (.cwb g a sc off la))) ∧
    (s.cur.agent ≠ .tiller → s.uguard g = true → Enterable s s.cur.blk s.cur.warp s.cur.lanes cause T →
      let traps := fun i => ∃ t, exec i s = .next t ∧ t.cw.rs2 T 56 = maskOf s.cur.lanes ∧
        (∀ n ∈ s.cur.lanes, Entered (s.cl n) (t.cl n) T (maskOf s.cur.lanes) cause val s.cur.pc s.cur.prog) ∧
        ((s.blk s.cur.blk).pend = [] → memSame s t)
      let va := s.ur2 a + off.signExtend 64
      ∀ d ty sc rel, s.namesOk [] (grp d ty.regs ++ [a, a + 1]) = true →
        (fails .load ty.bytes va → traps (.uld g d a ty rel sc off)) ∧ (fails .store ty.bytes va → traps (.ust g d a ty rel sc off)))

/-- R240, R241: lanes of an entry that their meet mask does not name raise cause 0x0A, with the mask. -/
def Sys2Proof.Claims.MeetMaskTraps : Prop :=
  ∀ (s : State) (g : Guard) (m la : Nat), s.cur.agent ≠ .tiller → s.Quiet s.cur.blk s.cur.warp →
    s.cur.lanes ≠ [] → (∀ n ∈ s.cur.lanes, n < 64 ∧ (s.ur2 m).getLsbD n = false) →
    let traps := fun i => EntryTrap s i 0x0A (s.ur2 m)
    (∀ pd op pa, s.laneOk [] [m, m + 1] = true → traps (.vote g (.pred op pd) pa m la)) ∧
    (∀ sd pa, s.laneOk [] [m, m + 1, sd, sd + 1] = true → traps (.vote g (.bits sd) pa m la)) ∧
    (∀ d a w64, s.laneOk (grp d 2 ++ grp a (if w64 then 2 else 1)) [m, m + 1] = true → traps (.matchLanes g d a w64 m la)) ∧
    (∀ d a op exc ty seg, s.laneOk (grp d op.regs ++ grp a op.regs) [m, m + 1] = true → traps (.vscan g d a seg op exc ty m la)) ∧
    (∀ sd a op ty, s.laneOk (grp a op.regs) ([m, m + 1] ++ grp sd op.regs) = true → traps (.redux g sd a op ty m la)) ∧
    (∀ a dir, s.laneOk [a] [m, m + 1] = true → traps (.rsend g a dir m la) ∧ traps (.rrecv g a dir m la)) ∧
    (∀ pd dir snd, s.laneOk [] [m, m + 1] = true → traps (.rpoll g pd dir snd m la))

/-- R372, R374, R381, R382 and Table 21.5: cause 0x14 holds its code, the table, the expert and the slot: `route` and `rdone` of an unbound
table (1), of an expert out of range (2) or merging (4), of a slot that nothing refers to (3); the members on an unbound table (1), an
expert out of range (2), a table in use (7), a slot out of range (8), or while the engine is gone (9). -/
def Sys2Proof.Claims.GraftTraps : Prop :=
  ∀ (s : State) (g : Guard) (t : Nat),
    let x := s.tab (s.asidOf s.cur.blk) t
    let code := fun (c e sl : Nat) => BitVec.ofNat 64 (c + 2 ^ 8 * t + 2 ^ 10 * e + 2 ^ 22 * sl)
    (∀ d a la, Legal s (grp d 4 ++ [a]) →
      let bad := fun val => AllTrap s g (.route g d a t la) 0x14 val
      let e := fun l : Lane => (l.rd a).toNat
      let asks := fun (P : Lane → Prop) => Executing s g fun l => (l.rv a).side = false ∧ P l
      (x.bound = false → asks (fun _ => True) → bad fun _ => code 1 0 0) ∧
      (x.bound = true → asks (fun l => x.nexp ≤ e l) → bad fun _ => code 2 0 0) ∧
      (x.bound = true → asks (fun l => e l < x.nexp ∧ (x.expert (e l)).merging = true) → bad fun l => code 4 (e l) 0)) ∧
    (∀ a la, Legal s [a, a + 1] →
      let bad := fun val => AllTrap s g (.rdone g a la) 0x14 val
      let h := fun l : Lane => handleParts (l.rd a) (l.rd (a + 1))
      let asks := fun (P : Lane → Prop) => Executing s g fun l => cleanPair l a ∧ (h l).1 = t ∧ P l
      (x.bound = false → asks (fun _ => True) → bad fun _ => code 1 0 0) ∧
      (x.bound = true → asks (fun l => x.nexp ≤ (h l).2.1) → bad fun _ => code 2 0 0) ∧
      (x.bound = true → asks (fun l => (h l).2.1 < x.nexp ∧
          let sl := (x.expert (h l).2.1).slot (h l).2.2.1
          sl.holds (h l).2.2.2 = true ∧ sl.ref = 0) →
        bad fun l => code 3 (h l).2.1 (h l).2.2.1)) ∧
    (∀ a b off, s.cur.agent ≠ .tiller → s.uguard g = true → s.namesOk [] [a, a + 1, b] = true →
      let traps := fun i c => EntryTrap s i 0x14 c
      let e := (s.ur b).toNat
      (x.bound = false →
        (s.graftUp = true → traps (.gmerge g t a b) (code 1 0 0) ∧ traps (.gmergeAll g t a) (code 1 0 0) ∧ traps (.grefresh g t a) (code 1 0 0) ∧
          (s.cur.level ≠ .u → traps (.graftUnbind g t) (code 1 0 0) ∧ traps (.prune g t b a) (code 1 0 0))) ∧
        traps (.gtabq g t a b off) (code 1 0 0) ∧ (s.cur.level ≠ .u → traps (.graftRep g t a b) (code 1 0 0))) ∧
      (s.graftUp = false → traps (.gmerge g t a b) (code 9 0 0) ∧ traps (.gmergeAll g t a) (code 9 0 0) ∧ traps (.grefresh g t a) (code 9 0 0) ∧
        (s.cur.level ≠ .u → traps (.graftUnbind g t) (code 9 0 0) ∧ traps (.prune g t b a) (code 9 0 0))) ∧
      (x.bound = true → x.nexp ≤ e → (s.graftUp = true → traps (.gmerge g t a b) (code 2 0 0)) ∧ traps (.gtabq g t a b off) (code 2 0 0) ∧
        (s.cur.level ≠ .u → traps (.graftRep g t a b) (code 2 0 0) ∧ (s.graftUp = true → traps (.prune g t b a) (code 2 0 0)))) ∧
      (x.bound = true → s.graftUp = true → s.cur.level ≠ .u → (x.busy = true → traps (.graftUnbind g t) (code 7 0 0)) ∧
        (e < x.nexp → 16 ≤ (s.ur a).toNat → traps (.prune g t b a) (code 8 e 0))))

/-- R342 to R345, R347: synchronous traps, of accesses, meets and grafts too, and the escalation of a double one.
Readings of the model, not of the spec, that it rests on: logs 52, 53. -/
def Obligations.SynchronousTraps : Prop :=
  Sys2Proof.Claims.SynchronousTraps ∧ Sys2Proof.Claims.DoubleTrapEscalates ∧ Sys2Proof.Claims.AddressTraps ∧
    Sys2Proof.Claims.TranslationTraps ∧ Sys2Proof.Claims.MeetMaskTraps ∧ Sys2Proof.Claims.GraftTraps

namespace Sys2Proof.Claims

/-- m is the lane l after a return from the frame of level lv to level `to` (19 R348). -/
structure Returned (l m : Lane) (lv dst : Level) : Prop where
  level : m.level = dst
  pc : m.pc = (l.frame lv).epc
  prio : m.prio = (l.frame lv).ppri.toNat
  prog : m.prog = (l.frame lv).pi.toNat
  ncnt : l.ncnt ≠ 0 → m.ncnt = l.ncnt - 1
  frame : m.frame lv = { l.frame lv with nest := false }
  frameS : lv = .h → m.frameS = l.frameS
  frameH : lv = .s → m.frameH = l.frameH
  landed : m.v = l.landAll.v ∧ m.p = l.landAll.p ∧ m.pending = []
  kept : m.occ = l.occ ∧ m.flags = l.flags ∧ m.rngs = l.rngs ∧ m.held = l.held ∧ m.park = l.park

/-- i returns its executing lanes from the frame of level lv to level `to`, takes their bits from `s56:s57` of the bank of lv, and
changes nothing else. -/
def ReturnsFrom (s : State) (i : Instr) (g : Guard) (lv dst : Level) : Prop :=
  ∃ t, exec i s = .next t ∧ (∀ n ∈ acting s g, Returned (s.cl n) (t.cl n) lv dst) ∧
    (∀ n ∈ s.cur.lanes, n ∉ acting s g → Took s (s.cl n) (t.cl n) (.nothing (s.cl n))) ∧
    t.cw.rs2 lv 56 = s.cw.rs2 lv 56 &&& ~~~(maskOf (acting s g)) ∧
    TrapFrame s { t with freeIx := s.freeIx } s.cur.blk s.cur.warp lv s.cur.lanes ∧ ∀ key a, t.byteAt key a = s.byteAt key a

end Sys2Proof.Claims

/-- R348: `sret` and `hret` complete: level, priority, PC and progress come from the frame, which is no longer live; the nest count
goes one down and the lane's bit in `s56:s57` goes. No store of the lanes is held over a scratchpad line (15 R288). -/
def Obligations.TrapReturnRestores : Prop :=
  ∀ (s : State) (g : Guard), Legal s [] → s.Quiet s.cur.blk s.cur.warp → (s.blk s.cur.blk).pend = [] →
    (∀ n ∈ acting s g, s.heldScratch s.cur.blk s.cur.warp n = false) →
    (s.cur.level = .s →
      (Executing s g (fun l => l.frameS.plvl = 0) → ReturnsFrom s (.sret g) g .s .u) ∧
      (Executing s g (fun l => l.frameS.plvl = 1) → ReturnsFrom s (.sret g) g .s .s)) ∧
    (s.cur.level = .h →
      (Executing s g (fun l => l.frameH.plvl = 0) → ReturnsFrom s (.hret g) g .h .u) ∧
      (Executing s g (fun l => l.frameH.plvl = 1) → ReturnsFrom s (.hret g) g .h .s) ∧
      (Executing s g (fun l => l.frameH.plvl = 2) → ReturnsFrom s (.hret g) g .h .h))

namespace Sys2Proof.Claims

/-- The value of a privileged register, by its fields (19 Table 19.1): lv is the frame's level. -/
def privField (s : State) (l : Lane) (lv : Level) : PrivReg → DWord
  | .xstatus => (if (l.frame lv).nest then 1 else 0) ||| (BitVec.ofNat 8 l.ncnt).zeroExtend 64 <<< 8
  | .xepc => (l.frame lv).epc
  | .xcause => (l.frame lv).cause.zeroExtend 64
  | .xval => (l.frame lv).val
  | .xpi => (l.frame lv).pi.zeroExtend 64
  | .xprev => (l.frame lv).plvl.zeroExtend 64 ||| (l.frame lv).ppri.zeroExtend 64 <<< 8
  | .xvec => (l.frame lv).vec.zeroExtend 64 <<< 12
  | .xtlanes => (l.frame lv).tlanes
  | .xdeleg => (s.ctxOf s.cur.blk).xdeleg
  | .xage => (s.ctxOf s.cur.blk).xage.zeroExtend 64
  | .xshadow => if (s.ctxOf s.cur.blk).xshadow then 1 else 0
  | .xasid => (s.ctxOf s.cur.blk).xasid.zeroExtend 64
  | .xptb => (s.ctxOf s.cur.blk).xptb.zeroExtend 64 <<< 14
  | .xvmid => BitVec.ofNat 64 (s.part (s.ctxOf s.cur.blk).part).vmid
  | .xptb2 => (s.part (s.ctxOf s.cur.blk).part).xptb2.zeroExtend 64 <<< 14
  | .xkey => (s.ctxOf s.cur.blk).xkey.zeroExtend 64
  | .xresume => BitVec.ofNat 64 (s.part (s.ctxOf s.cur.blk).part).xresume
  | .xgwin => BitVec.ofNat 64 s.xgwin
  | .xackto => BitVec.ofNat 64 s.xackto
  | .xhvec => (s.part (s.ctxOf s.cur.blk).part).xhvec.zeroExtend 64 <<< 12
  | .xgpart => BitVec.ofNat 64 (s.xgsite + 256 * (s.site s.xgsite).gpart)

/-- The level that an access to a register through a frame selector needs (05 Table 5.7, R105). -/
def privNeed (write : Bool) (r : PrivReg) (sel : FrameSel) : Level :=
  if sel = .h then .h
  else match r with
    | .xvmid | .xptb2 | .xresume | .xgwin | .xackto | .xhvec | .xgpart => .h
    | .xdeleg | .xshadow | .xkey => if write then .h else .s
    | _ => .s

/-- The frame that a selector names from a level. -/
def frameOf (lv : Level) : FrameSel → Level
  | .own => lv
  | .s => .s
  | .h => .h

/-- A frame after a register of it is written. -/
def frameWith (f : Frame) (v : DWord) : PrivReg → Frame
  | .xstatus => { f with nest := v.getLsbD 0 }
  | .xepc => { f with epc := v }
  | .xcause => { f with cause := v.setWidth 6 }
  | .xval => { f with val := v }
  | .xpi => { f with pi := v.setWidth 32 }
  | .xprev => { f with plvl := v.setWidth 2, ppri := (v >>> 8).setWidth 8 }
  | .xvec => { f with vec := (v >>> 12).setWidth 52 }
  | _ => f

end Sys2Proof.Claims

/-- R339, R340, R105 and Table 19.1: `xrd` gives the fields of the register at the frame that `LVL` selects; `xwr` of a frame
register writes its writable fields at once; `xwr` of a context or partition register leaves one write pending, with the highest
executing lane's value (00 R10), until a time of the part's choice. -/
def Sys2Proof.Claims.PrivilegedRegisterAccess : Prop :=
  ∀ (s : State) (g : Guard) (r : PrivReg) (sel : FrameSel) (d : Nat), Legal s (grp d r.regs) →
    ((privNeed false r sel).num ≤ s.cur.level.num →
      LanesRun s (.xrd g d r sel) g (fun l =>
        let v := privField s l (frameOf l.level sel) r
        if r.regs = 2 then gPair l d v 0 else gWord l d (v.extractLsb' 0 32) 0)) ∧
    ((privNeed true r sel).num ≤ s.cur.level.num →
      Executing s g (fun l => (l.rv d).side = false ∧ (r.regs = 2 → (l.rv (d + 1)).side = false)) →
      let v := fun l : Lane => if r.regs = 2 then l.rd2 d else (l.rd d).zeroExtend 64
      ∃ t, exec (.xwr g d r sel) s = .next t ∧ SameBut s { t with xpend := s.xpend } s.cur.lanes ∧
        (∀ n ∈ s.cur.lanes, (s.cl n).guard g = false → Took s (s.cl n) (t.cl n) (.nothing (s.cl n))) ∧
        (r.perLevel = true → t.xpend = s.xpend ∧ ∀ n ∈ acting s g,
          let lv := frameOf (s.cl n).level sel
          (t.cl n).frame lv = frameWith ((s.cl n).frame lv) (v (s.cl n)) r ∧
          Took s (s.cl n) ((t.cl n).setFrame lv ((s.cl n).frame lv)) (.nothing (s.cl n))) ∧
        (r.perLevel = false →
          (∀ n ∈ acting s g, Took s (s.cl n) (t.cl n) (.nothing (s.cl n))) ∧
          (acting s g = [] → t.xpend = s.xpend) ∧
          ∀ n, (acting s g).getLast? = some n →
            let asid := (s.gridOf s.cur.blk).asid
            let new : XWrite := { blk := s.cur.blk, warp := s.cur.warp, lanes := acting s g, reg := r, val := v (s.cl n)
                                  asid := asid, part := (s.ctx asid).part, exec := s.steps }
            (∀ x ∈ s.xpend, x.exec ≠ s.steps) → t.xpend = s.xpend ++ [new]))

/-- R52, R339 to R341 and Table 19.1: a pending write that its lane's `fence.full.dev` completes has given its register the fields of the
value, every other register stays, and it is pending no more: `XDELEG` but for its fixed bits; `XAGE` below 64 as 64; a value outside a
field's range the nearest bound; `XGPART` the selection and, unless `MIB` is 127, the size of that site. -/
def Sys2Proof.Claims.RegisterWriteEffects : Prop :=
  ∀ (s : State) (g : Guard) (n la : Nat) (x : XWrite), Legal s [] → acting s g = [n] → s.xpend = [x] → x.blk = s.cur.blk →
    x.warp = s.cur.warp → n ∈ x.lanes → s.heldScratch s.cur.blk s.cur.warp n = false → s.holding s.cur.blk = false →
    (s.blk s.cur.blk).pend = [] →
    ∃ t, exec (.fence g .full .dev la) s = .next t ∧ t.xpend = [] ∧ memSame s t ∧
      let v := x.val
      let c := s.ctx x.asid
      let p := s.part x.part
      let ctxIs := fun c' => t.ctx x.asid = c' ∧ (∀ a, a ≠ x.asid → t.ctx a = s.ctx a)
      let partIs := fun p' => t.part x.part = p' ∧ (∀ a, a ≠ x.part → t.part a = s.part a)
      let ctxsStay := ∀ a, t.ctx a = s.ctx a
      let partsStay := ∀ a, t.part a = s.part a
      let packageStays := t.xgwin = s.xgwin ∧ t.xackto = s.xackto ∧ t.xgsite = s.xgsite ∧ ∀ d, t.site d = s.site d
      match x.reg with
      | .xdeleg => partsStay ∧ packageStays ∧ ∃ y : DWord, ctxIs { c with xdeleg := y } ∧ ∀ k, k < 64 →
          y.getLsbD k = if k ∈ [0x12, 0x13, 0x15, 0x16] then true else if k = 0 ∨ 0x17 ≤ k then false else v.getLsbD k
      | .xage => partsStay ∧ packageStays ∧ ctxIs { c with xage := if v.toNat % 2 ^ 16 < 64 then 64 else v.setWidth 16 }
      | .xshadow => partsStay ∧ packageStays ∧ ctxIs { c with xshadow := v.getLsbD 0 }
      | .xasid => partsStay ∧ packageStays ∧ ctxIs { c with xasid := v.setWidth 16 }
      | .xptb => partsStay ∧ packageStays ∧ ctxIs { c with xptb := (v >>> 14).setWidth 38 }
      | .xkey => partsStay ∧ packageStays ∧ ctxIs { c with xkey := v.setWidth 10 }
      | .xvmid => ctxsStay ∧ packageStays ∧ partIs { p with vmid := v.toNat % 256 }
      | .xptb2 => ctxsStay ∧ packageStays ∧ partIs { p with xptb2 := (v >>> 14).setWidth 38 }
      | .xresume => ctxsStay ∧ packageStays ∧ partIs { p with xresume := max 100 (min 100000 (v.toNat % 2 ^ 17)) }
      | .xhvec => ctxsStay ∧ packageStays ∧ partIs { p with xhvec := (v >>> 12).setWidth 40 }
      | .xgwin => ctxsStay ∧ partsStay ∧ t.xgwin = max 100 (min 100000 (v.toNat % 2 ^ 17)) ∧ t.xackto = s.xackto ∧ t.xgsite = s.xgsite ∧
          ∀ d, t.site d = s.site d
      | .xackto => ctxsStay ∧ partsStay ∧ t.xackto = max 5 (min 200 (v.toNat % 2 ^ 8)) ∧ t.xgwin = s.xgwin ∧ t.xgsite = s.xgsite ∧
          ∀ d, t.site d = s.site d
      | .xgpart =>
          let site := min 17 (v.toNat % 32)
          let mib := v.toNat / 2 ^ 8 % 128
          ctxsStay ∧ partsStay ∧ t.xgwin = s.xgwin ∧ t.xackto = s.xackto ∧ t.xgsite = site ∧
          t.site site = { s.site site with gpart := if mib = 127 then (s.site site).gpart else min 96 mib } ∧
          ∀ d, d ≠ site → t.site d = s.site d
      | _ => True

/-- R52, R339 to R341, R105: privileged registers: reading, writing, and what a write that has taken effect leaves.
Readings of the model, not of the spec, that it rests on: log 31. -/
def Obligations.PrivilegedRegisterAccess : Prop :=
  Sys2Proof.Claims.PrivilegedRegisterAccess ∧ Sys2Proof.Claims.RegisterWriteEffects

/-! ### Uniform and control instructions (09 R196 to R198, 13 R254 to R269, 05 R113 to R117) -/

namespace Sys2Proof.Claims

/-- One uniform register. -/
def uReg (d : Nat) (x : Word) : UGives := { regs := [(d, x)], preds := [] }

/-- A uniform pair, low word first. -/
def uPair (d : Nat) (x : DWord) : UGives := { regs := [(d, x.extractLsb' 0 32), (d + 1, x.extractLsb' 32 32)], preds := [] }

/-- A uniform predicate. -/
def uPred (q : Nat) (x : Bool) : UGives := { regs := [], preds := [(q, x)] }

/-- Only the position counts. -/
def uNone : UGives := { regs := [], preds := [] }

end Sys2Proof.Claims

/-- R164, R196 to R198: the uniform scalar cells complete once, for the entry or for the tiller, and change nothing but the
registers named. -/
def Obligations.UniformResults : Prop :=
  (∀ (s : State) (g : Guard) (d a : Nat) (b : Src2), s.namesOk [] ([d, a] ++ b.sregs 1) = true →
    let x := s.ur a
    let y := b.uval s
    let run := fun (i : Instr) (r : Word) => UniRun s i g (uReg d r) s.cur.next
    run (.uadd g d a b) (x + y) ∧ run (.usub g d a b) (x - y) ∧ run (.umul g d a b) (x * y) ∧
    run (.uand g d a b) (x &&& y) ∧ run (.uor g d a b) (x ||| y) ∧ run (.uxor g d a b) (x ^^^ y) ∧
    run (.umin g d a b false) (BitVec.ofInt 32 (min x.toInt y.toInt)) ∧ run (.umin g d a b true) (BitVec.ofNat 32 (min x.toNat y.toNat)) ∧
    run (.umax g d a b false) (BitVec.ofInt 32 (max x.toInt y.toInt)) ∧ run (.umax g d a b true) (BitVec.ofNat 32 (max x.toNat y.toNat)) ∧
    run (.ushl g d a b) (BitVec.ofNat 32 (x.toNat * 2 ^ y.toNat)) ∧ run (.ushr g d a b) (BitVec.ofNat 32 (x.toNat / 2 ^ y.toNat)) ∧
    run (.usar g d a b) (BitVec.ofInt 32 (x.toInt / (2 ^ min y.toNat 31 : Nat))) ∧
    (∀ sgn, run (.ubfx g d a b sgn) (bfxW sgn x y)) ∧
    run (.upopc g d a) (BitVec.ofNat 32 (popcNat x)) ∧ run (.umov g d b) y ∧
    (∀ c, s.namesOk [] ([d, a, c] ++ b.sregs 1) = true → run (.umad g d a b c) (x * y + s.ur c)) ∧
    (∀ qd (cond : ICond), UniRun s (.ucmp g qd a b cond) g (uPred qd (match cond with
      | .eq => decide (x = y) | .ne => decide (x ≠ y)
      | .ltS => decide (x.toInt < y.toInt) | .leS => decide (x.toInt ≤ y.toInt)
      | .gtS => decide (x.toInt > y.toInt) | .geS => decide (x.toInt ≥ y.toInt)
      | .ltZ => decide (x.toNat < y.toNat) | .leZ => decide (x.toNat ≤ y.toNat)
      | .gtZ => decide (x.toNat > y.toNat) | .geZ => decide (x.toNat ≥ y.toNat))) s.cur.next)) ∧
  (∀ (s : State) (g : Guard) (d a : Nat) (b : Src2), s.namesOk [] ([d, d + 1, a, a + 1] ++ b.sregs 2) = true →
    UniRun s (.umovi g d b) g (uPair d (b.uval64 s)) s.cur.next ∧
    UniRun s (.uadd64 g d a b) g (uPair d (s.ur2 a + b.uval64 s)) s.cur.next ∧
    (∀ n, UniRun s (.ulea64 g d a b n false) g (uPair d (BitVec.ofNat 64 ((s.ur2 a).toNat + (b.uval s).toNat * 2 ^ n))) s.cur.next ∧
      UniRun s (.ulea64 g d a b n true) g (uPair d (BitVec.ofInt 64 ((s.ur2 a).toNat + (b.uval s).toInt * (2 ^ n : Nat)))) s.cur.next))

namespace Sys2Proof.Claims

/-- The address a displacement names, counted in words from the base word (13 R254). -/
def branchTarget {w : Nat} (s : State) (disp : BitVec w) : DWord := s.cur.pc + 4 * disp.signExtend 64

end Sys2Proof.Claims

/-- R254, R255, R256: control transfers. `bra` and `call` go to their displacement and `brx` and `ret` to a register pair, each
executing lane for itself; `call` leaves the sequential PC in `v126:v127`, `ucall` in `s62:s63`; uniform forms move the whole
entry in one step; `ubra` is the tiller's too. -/
def Obligations.ControlTransfers : Prop :=
  (∀ (s : State) (g : Guard) (disp : BitVec 37), Legal s [126, 127] →
    LanesJump s (.bra g disp) g (fun _ => branchTarget s disp) .nothing ∧
    LanesJump s (.call g disp) g (fun _ => branchTarget s disp) (fun l => gPair l 126 s.cur.next 0)) ∧
  (∀ (s : State) (g : Guard) (a : Nat), Legal s [a, a + 1] →
    Executing s g (fun l => (l.rv a).side = false ∧ (l.rv (a + 1)).side = false ∧ (l.rd2 a).toNat % 4 = 0) →
    LanesJump s (.brx g a) g (fun l => l.rd2 a) .nothing ∧ LanesJump s (.ret g a) g (fun l => l.rd2 a) .nothing) ∧
  (∀ (s : State) (g : Guard) (disp : BitVec 34), s.cur.pc.toNat % 4 = 0 →
    UniRun s (.ubra g disp) g uNone (branchTarget s disp) ∧
    (s.cur.agent ≠ .tiller → UniRun s (.ucall g disp) g (uPair 62 s.cur.next) (branchTarget s disp))) ∧
  (∀ (s : State) (g : Guard) (a : Nat), s.cur.agent ≠ .tiller → s.namesOk [] [a, a + 1] = true → (s.ur2 a).toNat % 4 = 0 →
    UniRun s (.ubrx g a) g uNone (s.ur2 a) ∧ UniRun s (.uret g a) g uNone (s.ur2 a))

/-- R269 and Table 13.12: status registers read. R255 and Table 13.8: `nop` only goes on; `pause` also keeps its lane from issuing for
n reference cycles. -/
def Obligations.StatusPauseNop : Prop :=
  (∀ (s : State) (g : Guard) (d : Nat),
    (Legal s [d] →
      LanesRun s (.mfs g d .warpw) g (fun l => gWord l d 64 0) ∧
      LanesRunI s (.mfs g d .laneid) g (fun n l => gWord l d (BitVec.ofNat 32 n) 0) ∧
      LanesRun s (.mfs g d .capgen) g (fun l => gWord l d s.cap.gen 0) ∧
      LanesRun s (.mfs g d .priv) g (fun l => gWord l d (match l.level with | .u => 0 | .s => 1 | .h => 2) 0) ∧
      LanesRun s (.mfs g d .gdepth) g (fun l => gWord l d (BitVec.ofNat 32 (s.gridOf s.cur.blk).depth) 0) ∧
      LanesRun s (.mfs g d .gridh) g (fun l => gWord l d (s.gridOf s.cur.blk).handle 0) ∧
      LanesRun s (.mfs g d .rngs) g (fun l => gWord l d l.rngs 0) ∧
      LanesRun s (.mfs g d .flags) g (fun l => gWord l d l.flags 0)) ∧
    (Legal s [d, d + 1] →
      LanesRun s (.mfs g d .clock) g (fun l => gPair l d (BitVec.ofNat 64 s.clock) 0) ∧
      LanesRun s (.mfs g d .nsclk) g (fun l => gPair l d (BitVec.ofNat 64 (s.clock * 10 / 13)) 0))) ∧
  (∀ (s : State) (g : Guard), Legal s [] → LanesRun s (.nop g) g .nothing) ∧
  (∀ (s : State) (g : Guard) (k : BitVec 16), Legal s [] →
    ∃ t, exec (.pause g k) s = .next t ∧ SameBut s t s.cur.lanes ∧ (∀ key a, t.byteAt key a = s.byteAt key a) ∧
      ∀ n ∈ s.cur.lanes,
        (t.cl n).paused = (if (s.cl n).guard g then s.clock + k.toNat else (s.cl n).paused) ∧
        Took s (s.cl n) { t.cl n with paused := (s.cl n).paused } (.nothing (s.cl n)))

/-- Table 13.8: an exiting lane leaves its position exited and nothing of the thread behind; at S or H its bit of `s56:s57` goes;
the other lanes go on. -/
def Obligations.ThreadExit : Prop :=
  ∀ (s : State) (g : Guard), Legal s [] → s.Quiet s.cur.blk s.cur.warp →
    (∀ n ∈ s.cur.lanes, (s.cl n).level = s.cur.level) →
    ∃ t, exec (.exit g) s = .next t ∧ (∀ key a, t.byteAt key a = s.byteAt key a) ∧
      (∀ n ∈ acting s g, t.cl n = { Lane.empty with occ := .exited }) ∧
      (∀ n ∈ s.cur.lanes, n ∉ acting s g → Took s (s.cl n) (t.cl n) (.nothing (s.cl n))) ∧
      (s.cur.level = .u → SameBut s t s.cur.lanes) ∧
      (s.cur.level ≠ .u → TrapFrame s t s.cur.blk s.cur.warp s.cur.level s.cur.lanes ∧
        t.cw.rs2 s.cur.level 56 = s.cw.rs2 s.cur.level 56 &&& ~~~(maskOf (acting s g)))

/-- R113 to R117: `rep` chooses the body of the repetition that the entry has reached, its lane registers raised by the step in
the fields of `FMASK`; a count that is done goes on after the body. Under `rep` an instruction's lanes go on with the next
repetition (`Took`).
Readings of the model, not of the spec, that it rests on: log 39. -/
def Obligations.RepeatChoosesBody : Prop :=
  ∀ (s : State) (n step : Nat) (fmask : BitVec 4), Legal s [] →
    let q := bodyOf s.cur.body
    (s.cur.prog < n → (s.cur.prog = 0 → repBad n step fmask q = false) → ∀ q', stepBody q s.cur.prog step fmask = some q' →
      (q'.d = if fmask.getLsbD 0 then q.d + s.cur.prog * step else q.d) ∧ (q'.a = if fmask.getLsbD 1 then q.a + s.cur.prog * step else q.a) ∧
      (q'.b = if fmask.getLsbD 2 then q.b + s.cur.prog * step else q.b) ∧ (q'.c = if fmask.getLsbD 3 then q.c + s.cur.prog * step else q.c) ∧
      exec (.rep n step fmask) s =
        .next { s with cur := { s.cur with rep := n, run := q'.words.map (BitVec.ofNat 32) } }) ∧
    (n ≤ s.cur.prog →
      ∃ t, exec (.rep n step fmask) s = .next t ∧ SameBut s t s.cur.lanes ∧ ∀ i ∈ s.cur.lanes,
        (t.cl i).pc = s.cur.next ∧ (t.cl i).prog = 0 ∧
        { t.cl i with pc := (s.cl i).pc, prog := (s.cl i).prog, prio := (s.cl i).prio } = s.cl i)

/-- R264, R265, R303: `mxfork` starts an idle tiller at the kernel's tiller entry plus its offset with the warp's `s0` to `s15`;
`mxjoin` goes on when the tiller is idle; while it runs neither is ready. -/
def Obligations.TillerForkJoin : Prop :=
  ∀ (s : State) (g : Guard), s.cur.agent ≠ .tiller → s.cur.lanes.Nodup → s.uguard g = true →
    let tl := (s.blk s.cur.blk).tiller
    let h := (s.gridOf s.cur.blk).khdr
    (tl.run = true → exec (.mxjoin g) s = .next s ∧ ∀ off, h.tentry ≠ 0 → exec (.mxfork g off) s = .next s) ∧
    (tl.run = false →
      UniRun s (.mxjoin g) g uNone s.cur.next ∧
      ∀ off : BitVec 18, h.tentry ≠ 0 → (s.blk s.cur.blk).pend = [] →
        ∃ t, exec (.mxfork g off) s = .next t ∧ (∀ key a, t.byteAt key a = s.byteAt key a) ∧
          WarpTook s (t.modTiller s.cur.blk fun _ => tl) s.cur.next uNone ∧
          (let tl' := (t.blk s.cur.blk).tiller
           tl' = { tl with run := true, pc := h.tentry + BitVec.ofNat 64 (4 * off.toNat), wait := none, latch := none, scache := []
                           synced := s.wcount
                           s := tl'.s } ∧
           ∀ n, fget 0 tl'.s n = if n < 16 then s.ur n else fget 0 tl.s n))

/-! ### Meets: cross-lane instructions and runner channels (13 R239 to R253) -/

namespace Sys2Proof.Claims

/-- The lane n is an active participant. -/
def active (s : State) (g : Guard) (n : Nat) : Bool := s.cur.lanes.contains n && (s.cl n).guard g

/-- The parties of a meet of the entry. -/
def parties (s : State) (g : Guard) (i : Instr) : List Party :=
  s.cur.lanes.map fun n => { lane := n, l := s.cl n, i := i, active := (s.cl n).guard g }

/-- The source lane within a segment of width w from position p (13 R243). -/
def shuffleFrom (mode : ShflMode) (wr : Bool) (w p : Nat) (v : Int) : Int :=
  let k : Int := if wr then (w / 2 ^ min v.toNat 31 : Nat) else v
  match mode with
  | .abs => v
  | .rel => p + k
  | .rot => (p + k) % w
  | .xor => (p ^^^ k.toNat : Nat)

end Sys2Proof.Claims

/-- R240, R242, R243: a `shfl` meet completes: each active lane receives, side bits included, the source of the lane that its mode,
distance and segment name, or its own where that lane is outside the segment or not active, and the validity in `pP`. -/
def Sys2Proof.Claims.ShuffleResults : Prop :=
  ∀ (s : State) (g : Guard) (d a : Nat) (mode : ShflMode) (w64 : Bool) (src : ShflSrc) (seg : Nat) (wr : Bool) (pv m la : Nat),
    let k := if w64 then 2 else 1
    Together s m → (s.gridOf s.cur.blk).chained = false → s.laneOk (grp d k ++ grp a k ++ shflRegs src) [m, m + 1] = true → seg < 7 →
    Executing s g (fun l => match src with | .reg n => (l.rv n).side = false | .imm _ => True) →
    MeetRun s (.shfl g d a mode w64 src seg wr pv m la) g la (fun n l =>
      let w := 64 / 2 ^ seg
      let v : Int := match src, mode with
        | .reg r, .rel => (l.rd r).toInt
        | .reg r, _ => (l.rd r).toNat
        | .imm x, .rel => x.toInt
        | .imm x, _ => x.toNat
      let t := shuffleFrom mode wr w (n % w) v
      let q := n - n % w + t.toNat
      let ok := decide (0 ≤ t ∧ t < w) && active s g q
      let j := if ok then q else n
      { regs := if w64 then [(d, (s.cl j).rv a), (d + 1, (s.cl j).rv (a + 1))] else [(d, (s.cl j).rv a)]
        preds := [(pv, ok)], flags := 0, rngs := l.rngs }) uNone

/-- R244, R245: votes and matches over the active participants. -/
def Sys2Proof.Claims.VoteMatchResults : Prop :=
  ∀ (s : State) (g : Guard) (m la : Nat), Together s m → (s.gridOf s.cur.blk).chained = false →
    let act := acting s g
    let pred := fun (pd : Nat) (x : Bool) (_ : Nat) (l : Lane) => gPred l pd x
    (s.laneOk [] [m, m + 1] = true → ∀ pd pa,
      MeetRun s (.vote g (.pred .some pd) pa m la) g la (pred pd (act.any fun n => (s.cl n).rp pa)) uNone ∧
      MeetRun s (.vote g (.pred .every pd) pa m la) g la (pred pd (act.all fun n => (s.cl n).rp pa)) uNone ∧
      MeetRun s (.vote g (.pred .same pd) pa m la) g la
        (pred pd ((act.all fun n => (s.cl n).rp pa) || act.all fun n => !(s.cl n).rp pa)) uNone) ∧
    (∀ sd pa, s.laneOk [] [m, m + 1, sd, sd + 1] = true →
      MeetRun s (.vote g (.bits sd) pa m la) g la (fun _ l => .nothing l)
        (if act = [] then uNone else uPair sd (maskOf (act.filter fun n => (s.cl n).rp pa)))) ∧
    (∀ (d a : Nat) (w64 : Bool), s.laneOk ([d, d + 1] ++ grp a (if w64 then 2 else 1)) [m, m + 1] = true →
      let poison := fun l : Lane => (l.rv a).side || (w64 && (l.rv (a + 1)).side)
      let same := fun x y : Lane => decide (x.rd a = y.rd a) && (!w64 || decide (x.rd (a + 1) = y.rd (a + 1)))
      MeetRun s (.matchLanes g d a w64 m la) g la (fun _ l =>
        if poison l then gPoison2 l d
        else gPair l d (maskOf (act.filter fun n => !poison (s.cl n) && same (s.cl n) l)) 0) uNone)

/-- R240, R242 to R245: shuffles, votes and matches. -/
def Obligations.ShuffleVoteMatchResults : Prop :=
  Sys2Proof.Claims.ShuffleResults ∧ Sys2Proof.Claims.VoteMatchResults

/-- R246 to R250: scans complete with the values that R247 computes over the 64 lanes; `vscanc` starts from the carry in its
uniform register and leaves the aggregate there, `redux` leaves only the aggregate; nothing is written there when no
participant is active. Participants are not poison. -/
def Obligations.ScanResults : Prop :=
  ∀ (s : State) (g : Guard) (d a m la : Nat) (seg : Option Nat) (op : SOp) (exc : Bool) (ty : Ty),
    Together s m → (s.gridOf s.cur.blk).chained = false →
    Executing s g (fun l => scanSrcPoison ty (l.group a op.regs) = false) →
    let give := fun (c : Option ScanVal) (i : Instr) (sg : Option Nat) (n : Nat) (l : Lane) =>
      ({ regs := (scanLane (parties s g i) op ty sg exc c (scanAll op ty (scanStart (parties s g i) op ty sg meetSrc c)) n).regs d
         preds := [], flags := 0, rngs := l.rngs } : Gives)
    let agg := fun (c : Option ScanVal) (i : Instr) (sg : Option Nat) (sd : Nat) =>
      (if acting s g = [] then uNone
       else { regs := (grp sd op.regs).zip (scanAgg op ty (scanAll op ty (scanStart (parties s g i) op ty sg meetSrc c))).x, preds := [] } : UGives)
    (s.laneOk (grp d op.regs ++ grp a op.regs) [m, m + 1] = true →
      let i := Instr.vscan g d a seg op exc ty m la
      MeetRun s i g la (give none i seg) uNone) ∧
    (∀ sc, s.laneOk (grp d op.regs ++ grp a op.regs) ([m, m + 1] ++ grp sc op.regs) = true →
      let i := Instr.vscanc g d a seg op exc ty sc m la
      let c : ScanVal := { x := (grp sc op.regs).map (s.cw.rs s.cur.level), poison := false }
      MeetRun s i g la (give (some c) i seg) (agg (some c) i seg sc)) ∧
    (∀ sd, s.laneOk (grp a op.regs) ([m, m + 1] ++ grp sd op.regs) = true →
      let i := Instr.redux g sd a op ty m la
      MeetRun s i g 0 (fun _ l => .nothing l) (agg none i none sd))

/-- R251 to R253: in a chained grid in which nothing waits for a queue, an `rsend` with room places one entry in hop, an `rrecv`
takes the oldest entry of its queue, and `rpoll` tells of room or of an entry (its arrival in the neighbour's queue is stated in
`WaitAndThreadEvents`); beyond an end of the chain, or in a grid that is not chained, every arrived lane traps with cause 0x11. -/
def Obligations.RunnerResults : Prop :=
  ∀ (s : State) (g : Guard) (dir : Dir) (m la : Nat), Together s m → s.laneOk [] [m, m + 1] = true →
    let b := s.cur.blk
    let w := s.cur.warp
    let idle : Prop := ∀ c v i, match (s.lane c v i).park with | .runner _ _ _ _ => False | _ => True
    (s.neighbour b dir = none → ∀ a, s.laneOk [a] [m, m + 1] = true →
      ∀ T, Enterable s b w s.cur.lanes 0x11 T → ((s.gridOf b).chained = false ∨ idle) → (s.blk b).pend = [] →
        (∀ i ∈ [Instr.rsend g a dir m la, .rrecv g a dir m la, .rpoll g a dir true m la, .rpoll g a dir false m la],
          ∃ t, exec i s = .next t ∧
            ∀ n ∈ s.cur.lanes, Entered (s.cl n) (t.cl n) T (maskOf s.cur.lanes) 0x11 0 s.cur.pc
              (if s.cur.rep = 0 then 0 else (s.cl n).prog))) ∧
    (∀ x, s.neighbour b dir = some x → x ≠ b → s.gone x = false → idle →
      let q := (s.warp b w).queue dir
      let room := ((s.warp x w).queue dir.back).length + (s.blk b).hopsOf w dir < 8
      (∀ snd pd, MeetRun s (.rpoll g pd dir snd m la) g la (fun _ l => gPred l pd (if snd then decide room else q != [])) uNone) ∧
      (∀ a, s.laneOk [a] [m, m + 1] = true → room →
        ∃ t e, exec (.rsend g a dir m la) s = .next t ∧ (t.blk b).hops = (s.blk b).hops ++ [(w, dir, e)] ∧
          (∀ n, fget RegVal.zero e.vals n = if active s g n then (s.cl n).rv a else RegVal.zero) ∧
          SameBut s (t.modBlk b fun k => { k with hops := (s.blk b).hops }) s.cur.lanes ∧
          ∀ n ∈ s.cur.lanes, TookLater s (s.cl n) (t.cl n) 0 (.nothing (s.cl n))) ∧
      (∀ d, s.laneOk [d] [m, m + 1] = true → ∀ e rest, q = e :: rest →
        ∃ t, exec (.rrecv g d dir m la) s = .next t ∧ t.cw.queue dir = rest ∧ t.cw.queue dir.back = s.cw.queue dir.back ∧
          SameBut s (t.setWarp b w (t.cw.setQueue dir q)) s.cur.lanes ∧
          ∀ n ∈ s.cur.lanes, TookLater s (s.cl n) (t.cl n) la
            (if (s.cl n).guard g then gReg (s.cl n) d (fget RegVal.zero e.vals n) else .nothing (s.cl n))))

/-! ### Memory (11 R201 to R229, 15 R273 to R288) -/

namespace Sys2Proof.Claims

/-- Bytes from an address on read, under a key, as those in a list; every other byte reads as before under that key, and under any key
every byte outside the sectors, the data units of a key, that they touch (11 R205). -/
def memWritten (s t : State) (key addr : Nat) (bytes : List Byte) : Prop :=
  (∀ i, i < bytes.length → some (t.byteAt key (addr + i)) = bytes[i]?) ∧
  (∀ a, (a < addr ∨ addr + bytes.length ≤ a) → t.byteAt key a = s.byteAt key a) ∧
  ∀ k a, (∀ sec ∈ sectorsOf addr bytes.length, a / 32 ≠ sec) → t.byteAt k a = s.byteAt k a

/-- What a load of a type gives its group from little-endian bytes (11 Table 11.6, 07 R154). -/
def loaded (l : Lane) (d : Nat) (ty : Ty) (bytes : List Byte) (poison : Bool) : Gives :=
  let v := leNat bytes
  { regs := if poison then (grp d ty.regs).map fun n => (n, { val := 0x7FE05EED, side := true })
      else (List.range ty.regs).map fun j => (d + j,
        { val := if ty = .s8 then BitVec.ofInt 32 (BitVec.ofNat 8 v).toInt else if ty = .s16 then BitVec.ofInt 32 (BitVec.ofNat 16 v).toInt
            else BitVec.ofNat 32 (v / 2 ^ (32 * j)), side := false })
    preds := [], flags := 0, rngs := l.rngs }

/-- The bytes of a register group in memory order: byte i is byte i mod 4 of register i / 4. -/
def stored (rd : Nat → Word) (b : Nat) (ty : Ty) : List Byte :=
  (List.range ty.bytes).map fun i => (rd (b + i / 4)).extractLsb' (8 * (i % 4)) 8

/-- One lane n of the entry executes, and the lanes end with these results, apart from what they have seen of memory. -/
def laneLater (s t : State) (n la : Nat) (o : Gives) : Prop :=
  ∀ m ∈ s.cur.lanes, TookLater s (s.cl m) { t.cl m with seen := (s.cl m).seen } la (if m = n then o else .nothing (s.cl m))

/-- What a lane reads at the pieces of an access: memory under the stores it sees. -/
def laneReads (s : State) (n : Nat) (ps : List (Place × Nat × Nat)) : List Byte × Bool :=
  let own := s.ownStores s.cur.blk s.cur.warp n
  let read := fun p : Place × Nat × Nat => s.readAs (s.siteOf s.cur.blk) own p.1.key p.1.pa p.2.2
  ((ps.map fun p => (read p).1).flatten, ps.any fun p => (read p).2)

/-- No line of the pieces is being recovered by its home, and no request waits for it there (23 R401, 24 R408). -/
def noSuspect (s : State) (ps : List (Place × Nat × Nat)) : Prop :=
  ∀ p ∈ ps, ∀ l ∈ linesOf p.1.pa p.2.2, fget none s.suspects l = none ∧ ∀ q ∈ s.homeq, l ∉ q.lines

/-- The pieces of an access lie in HBM and on no `ordered` page; no line of theirs is being recovered, and no die has a poisoned clean
copy of one (23 R388, R401). -/
def inHbm (s : State) (ps : List (Place × Nat × Nat)) : Prop :=
  noSuspect s ps ∧ ∀ p ∈ ps, p.1.ord ≠ 1 ∧ s.paKind p.1.pa = .hbm ∧
    ∀ l ∈ linesOf p.1.pa p.2.2, ∀ x sec, sec / 4 = l → fget false (s.site x).bad sec = false

end Sys2Proof.Claims

/-- R219, R354: the translation of an access changes no byte of memory: it reads tables, of which lines come in through the bridge
and unbacked addresses are recorded, fills the TLBs of its die, and uses free values. -/
def Sys2Proof.Claims.TranslationChanges : Prop :=
  ∀ (s : State) (b : Nat) (lv : Level) (kind : AccKind) (va : DWord) (n : Nat),
    let t := (s.xlateLane b lv kind va n).1
    { t with bridge := s.bridge, mem := s.mem, bar2 := s.bar2, mclog := s.mclog, outs := s.outs, sites := s.sites, freeIx := s.freeIx } = s ∧
    memSame s t ∧ ∀ x, { t.site x with tlb1 := (s.site x).tlb1, tlb2 := (s.site x).tlb2 } = s.site x

namespace Sys2Proof.Claims

/-- The page-fault cause of an access kind (11 R219, 19 Table 19.3). -/
def pageFault : AccKind → Nat
  | .load => 0x04
  | .store | .atomic => 0x05
  | .fetch => 0x06

/-- An entry that points to a table: `V` alone of the low bits, no key, no reserved bit (19 R351, Table 19.4). -/
abbrev tableEntry (e : DWord) : Prop := e.toNat % 2 ^ 12 = 1 ∧ e.toNat / 2 ^ 52 = 0

/-- The address that an entry holds. -/
def entryAddr (e : DWord) : Nat := e.toNat / 2 ^ 12 % 2 ^ 40 * 2 ^ 12

/-- A valid leaf of a page of this size, not the larger one of its level. -/
abbrev leafEntry (e : DWord) (size : Nat) : Prop :=
  e.toNat % 4 = 3 ∧ e.getLsbD 6 = false ∧ e.toNat / 2 ^ 62 = 0 ∧ (e.toNat / 2 ^ 7 % 8 = 3 ∨ e.toNat / 2 ^ 7 % 8 = 4 ∨ e.toNat / 2 ^ 7 % 8 = 5) ∧
  e.toNat / 2 ^ 10 % 4 ≠ 3 ∧ entryAddr e % size = 0

/-- A leaf lets a level make an access of a kind, under the context's key id (19 R338, R351, 11 R205, R219). -/
abbrev leafGrants (e : DWord) (xkey : Nat) (lv : Level) (kind : AccKind) : Prop :=
  (match kind with
   | .load => e.getLsbD 2 = true
   | .store => e.getLsbD 3 = true
   | .atomic => e.getLsbD 2 = true ∧ e.getLsbD 3 = true
   | .fetch => e.getLsbD 4 = true) ∧
  (if lv = .u then e.getLsbD 5 = true else kind = .fetch → e.getLsbD 5 = false) ∧
  (e.toNat / 2 ^ 52 % 1024 = 0 ∨ e.toNat / 2 ^ 52 % 1024 = xkey)

end Sys2Proof.Claims

/-- R219, R338, R350 to R354: at level H an address is physical, with `DOM` system, `ORD` normal and `KEY` 0, and one with a bit of
[63:52] raises the page fault of its kind. Below H, an address that is not canonical raises it. Where stage 2 is off, no TLB holds
anything and no entry has changed, four levels of 2,048, 2,048, 512 and 512 entries are walked from the context's root: an invalid entry
raises the page fault; a leaf of the last level, or of the third, gives its address with the offset in its page, and its attributes,
where it grants the access, and else cause 0x07. None of the 32 entries about one is a leaf of the larger page of its level. Of an
access in two pieces the lower is translated first: its address is the one that a failure names. -/
def Sys2Proof.Claims.TranslationResults : Prop :=
  (∀ (s : State) (b n : Nat) (kind : AccKind) (va : DWord), va.toNat % n = 0 →
    (va.toNat < 2 ^ 52 →
      s.xlateLane b .h kind va n = (s, .ok [({ pa := va.toNat, dom := 5, ord := 0, key := 0 }, 0, n)])) ∧
    (2 ^ 52 ≤ va.toNat → s.xlateLane b .h kind va n = (s, .error (pageFault kind, va)))) ∧
  (∀ (s : State) (b n : Nat) (lv : Level) (kind : AccKind) (va : DWord), lv ≠ .h → va.toNat % n = 0 →
    let gives := fun r => ∃ t, s.xlateLane b lv kind va n = (t, r)
    let fault := gives (.error (pageFault kind, va))
    (va.toNat / 2 ^ 55 ≠ 0 → va.toNat / 2 ^ 55 ≠ 0x1FF → fault) ∧
    ((va.toNat / 2 ^ 55 = 0 ∨ va.toNat / 2 ^ 55 = 0x1FF) →
      let x := s.ctx (s.asidOf b)
      let d := s.site (s.siteOf b)
      let a := va.toNat % 2 ^ 56
      let page := fun (e : DWord) (size : Nat) =>
        (leafGrants e x.xkey.toNat lv kind → gives (.ok [({ pa := entryAddr e + a % size, dom := e.toNat / 2 ^ 7 % 8
                                                            ord := e.toNat / 2 ^ 10 % 4, key := e.toNat / 2 ^ 52 % 1024 }, 0, n)])) ∧
        (¬leafGrants e x.xkey.toNat lv kind → gives (.error (0x07, va)))
      let plain := fun (tab i : Nat) => ∀ j, j / 32 = i / 32 → (s.readPte (tab + 8 * j)).getLsbD 6 = false
      let t3 := x.xptb.toNat * 2 ^ 14
      let e3 := s.readPte (t3 + 8 * (a / 2 ^ 45 % 2048))
      let e2 := s.readPte (entryAddr e3 + 8 * (a / 2 ^ 34 % 2048))
      let e1 := s.readPte (entryAddr e2 + 8 * (a / 2 ^ 25 % 512))
      let e0 := s.readPte (entryAddr e1 + 8 * (a / 2 ^ 16 % 512))
      (s.part x.part).xptb2 = 0 → s.undo = [] → d.tlb1 = [] →
      (e3.getLsbD 0 = false → fault) ∧
      (tableEntry e3 → (e2.getLsbD 0 = false → fault) ∧
        (tableEntry e2 → plain (entryAddr e2) (a / 2 ^ 25 % 512) → (e1.getLsbD 0 = false → fault) ∧
          (leafEntry e1 (2 ^ 25) → page e1 (2 ^ 25)) ∧
          (tableEntry e1 → plain (entryAddr e1) (a / 2 ^ 16 % 512) → (e0.getLsbD 0 = false → fault) ∧
            (leafEntry e0 (2 ^ 16) → page e0 (2 ^ 16))))))) ∧
  (∀ (s s1 : State) (b n : Nat) (lv : Level) (kind : AccKind) (va : DWord), va.toNat % n ≠ 0 →
    let walk := fun (u : State) (a : DWord) => u.walkVa (u.siteOf b) (u.asidOf b) lv kind a
    (∀ e, walk s va = (s1, .error e) → s.xlateLane b lv kind va n = (s1, .error e)) ∧
    ∀ w s2 e, walk s va = (s1, .ok w) →
      s1.walkVa (s.siteOf b) (s.asidOf b) lv kind (va + BitVec.ofNat 64 (n - va.toNat % n)) = (s2, .error e) →
      s.xlateLane b lv kind va n = (s2, .error e))

/-- R208, R219, R222, R274, R106: a global load whose address translates completes with what memory holds there under the stores
that the thread sees, or poison; it lands at the lookahead position; no byte of memory changes. -/
def Sys2Proof.Claims.GlobalLoadResults : Prop :=
  ∀ (s s1 : State) (g : Guard) (d a : Nat) (ty : Ty) (acq : Bool) (ch : CacheHint) (sc : Scope) (off : BitVec 16) (la n : Nat)
    (ps : List (Place × Nat × Nat)),
    Legal s (grp d ty.regs ++ [a, a + 1]) → acting s g = [n] → cleanPair (s.cl n) a →
    s.xlateLane s.cur.blk s.cur.level .load ((s.cl n).rd2 a + off.signExtend 64) ty.bytes = (s1, .ok ps) → inHbm s1 ps →
    ∃ t, exec (.ld g d a ty acq ch sc off la) s = .next t ∧ memSame s t ∧
      SameBut s1 { t with sites := s1.sites, dir := s1.dir, freeIx := s1.freeIx } s.cur.lanes ∧
      laneLater s t n la (loaded (s.cl n) d ty (laneReads s1 n ps).1 (laneReads s1 n ps).2)

/-- R208, R219, R222, R274, R106, R338, R350 to R354: translation and global loads.
Readings of the model, not of the spec, that it rests on: logs 8, 11, 28. -/
def Obligations.GlobalLoadResults : Prop :=
  Sys2Proof.Claims.TranslationChanges ∧ Sys2Proof.Claims.TranslationResults ∧ Sys2Proof.Claims.GlobalLoadResults

/-- R208, R209, R223, R273, R280, R394: a global store completes: its pieces wait, with their addresses, bytes, poison and key, as
the youngest stores of the block still to be performed, or, in a replayable block that has not committed, as held stores; no byte
of memory changes yet. A release has performed the lane's own stores before. -/
def Sys2Proof.Claims.GlobalStoreResults : Prop :=
  ∀ (s s1 : State) (g : Guard) (b a : Nat) (ty : Ty) (rel : Bool) (ch : CacheHint) (sc : Scope) (off : BitVec 16) (la n : Nat)
    (ps : List (Place × Nat × Nat)),
    Legal s (grp b ty.regs ++ [a, a + 1]) → acting s g = [n] → n < 64 → cleanPair (s.cl n) a →
    s.xlateLane s.cur.blk s.cur.level .store ((s.cl n).rd2 a + off.signExtend 64) ty.bytes = (s1, .ok ps) → inHbm s1 ps →
    let k := s.blk s.cur.blk
    let new := ps.map fun p => ({ warp := s.cur.warp, lanes := [n], addr := p.1.pa
                                  bytes := ((stored (s.cl n).rd b ty).drop p.2.1).take p.2.2
                                  poison := (s.cl n).sideAny b ty.regs, key := p.1.key, stream := p.1.ord == 2, exec := s.steps } : PStore)
    (s.holding s.cur.blk = false → (rel = true → ∀ p ∈ k.pend, ¬(p.warp = s.cur.warp ∧ n ∈ p.lanes)) →
      ∃ t, exec (.st g b a ty rel ch sc off la) s = .next t ∧ memSame s t ∧ (t.blk s.cur.blk).pend = k.pend ++ new ∧
        SameBut s1 (t.modBlk s.cur.blk fun x => { x with pend := k.pend }) s.cur.lanes ∧ laneLater s t n 0 (.nothing (s.cl n))) ∧
    (s.holding s.cur.blk = true → rel = false → s.bufferHolds (s.siteOf s.cur.blk) s.cur.blk (new ++ k.hold) = true → ps.length = 1 →
      ∃ t, exec (.st g b a ty rel ch sc off la) s = .next t ∧ memSame s t ∧ (t.blk s.cur.blk).hold = k.hold ++ new ∧
        SameBut s1 (t.modBlk s.cur.blk fun x => { x with hold := k.hold }) s.cur.lanes ∧ laneLater s t n 0 (.nothing (s.cl n)))

/-- R273, R275: the performance of a store of a block: its bytes enter memory at its address, every other byte reads as before,
and it waits no longer. No save area hides a later write (19 R360), and the home of its lines holds no request (23 R402). -/
def Sys2Proof.Claims.StorePerformed : Prop :=
  ∀ (s : State) (b : Nat) (p : PStore), (s.blk b).pend = [p] → s.paKind p.addr = .hbm → p.addr + p.bytes.length ≤ 0x8000000000000 →
    (∀ x ∈ s.saves, x.2.2 ≤ s.wcount) →
    (∀ l ∈ linesOf p.addr p.bytes.length, fget none s.suspects l = none ∧ ∀ q ∈ s.homeq, l ∉ q.lines) →
    ∃ t, exec (.accessPerformed b 0) s = .next t ∧ memWritten s t p.key p.addr p.bytes ∧ (t.blk b).pend = [] ∧
      { t.blk b with pend := [p], warps := (s.blk b).warps } = s.blk b ∧ (∀ c, c ≠ b → t.blk c = s.blk c)

/-- R208, R209, R223, R273, R275: a global store from its issue to its performance.
Readings of the model, not of the spec, that it rests on: logs 8, 48. -/
def Obligations.GlobalStoreResults : Prop :=
  Sys2Proof.Claims.GlobalStoreResults ∧ Sys2Proof.Claims.StorePerformed

/-- R210, R211, R226: scratchpad and window loads complete with the bytes of the scratchpad they name, and stores write exactly
their bytes there, in global memory none; a clean store over part of a poisoned sector leaves it poisoned and is recorded (07 R154).
Readings of the model, not of the spec, that it rests on: log 62. -/
def Obligations.ScratchpadResults : Prop :=
  (∀ (s : State) (g : Guard) (d a : Nat) (ty : Ty) (off : BitVec 16) (la : Nat), Legal s (a :: grp d ty.regs) →
    let va := fun l : Lane => ((l.rd a).toNat : Int) + off.toInt
    (Executing s g (fun l => (l.rv a).side = false ∧ va l % ty.bytes = 0 ∧ 0 ≤ va l ∧
        va l + ty.bytes ≤ (s.gridOf s.cur.blk).khdr.scratch ∧ (s.blk s.cur.blk).absentLine ((va l).toNat / 128) = false) →
      LanesRunLater s (.lds g d a ty off la) g la (fun l =>
        let r := (s.blk s.cur.blk).getScratch (va l).toNat ty.bytes
        loaded l d ty r.1 r.2)) ∧
    (∀ (at_ : Lane → Nat × Nat),
      Executing s g (fun l => (l.rv a).side = false ∧ va l % ty.bytes = 0 ∧
        s.windowTarget s.cur.blk (va l) ty.bytes = .ok (.here (at_ l).1 (at_ l).2) ∧
        (s.blk (at_ l).1).absentLine ((at_ l).2 / 128) = false) →
      LanesRunLater s (.ldg g d a ty off la) g la (fun l =>
        let r := (s.blk (at_ l).1).getScratch (at_ l).2 ty.bytes
        loaded l d ty r.1 r.2))) ∧
  (∀ (s : State) (g : Guard) (b a : Nat) (ty : Ty) (off : BitVec 16) (la n : Nat), Legal s (a :: grp b ty.regs) → acting s g = [n] →
    (s.cl n).rv a = { val := (s.cl n).rd a, side := false } →
    let va := (((s.cl n).rd a).toNat : Int) + off.toInt
    va % ty.bytes = 0 →
    let wrote := fun (t : State) (m o : Nat) =>
      let dirty := (s.cl n).sideAny b ty.regs
      let mark : McRec := { McRec.zero with kind := 7, site := (s.blk m).site, ctx := (s.gridOf m).asid, addr := o / 32 * 32 }
      let u := if dirty = false ∧ fget false (s.blk m).spoison (o / 32) = true then s.logMc mark else s
      (∀ i, i < ty.bytes → some (fget 0 (t.blk m).scratch (o + i)) = (stored (s.cl n).rd b ty)[i]?) ∧
      (∀ x, (x < o ∨ o + ty.bytes ≤ x) → fget 0 (t.blk m).scratch x = fget 0 (s.blk m).scratch x) ∧
      (∀ sec, fget false (t.blk m).spoison sec = (fget false (s.blk m).spoison sec || decide (sec = o / 32 ∧ dirty = true))) ∧
      memSame s t ∧ laneLater s t n 0 (.nothing (s.cl n)) ∧
      SameBut u (t.modBlk m fun k => { k with scratch := (s.blk m).scratch, spoison := (s.blk m).spoison }) s.cur.lanes
    (0 ≤ va → va + ty.bytes ≤ (s.gridOf s.cur.blk).khdr.scratch → (s.blk s.cur.blk).absentLine (va.toNat / 128) = false →
      (s.blk s.cur.blk).marred = [] → ∃ t, exec (.sts g b a ty off la) s = .next t ∧ wrote t s.cur.blk va.toNat) ∧
    (∀ m o, s.windowTarget s.cur.blk va ty.bytes = .ok (.here m o) → (s.blk m).absentLine (o / 128) = false →
      (s.blk m).marred = [] → s.holding s.cur.blk = false → ∃ t, exec (.stg g b a ty off la) s = .next t ∧ wrote t m o)) ∧
  (∀ (s : State) (b : Nat) (va : Nat) (k : Nat), va < 2 ^ 24 → va / 2 ^ 20 = s.rank b → va / 2 ^ 20 < (s.gridOf b).gsize →
    va % 2 ^ 20 + k ≤ (s.gridOf b).khdr.scratch → s.windowTarget b va k = .ok (.here b (va % 2 ^ 20)))

namespace Sys2Proof.Claims

/-- The new value of an atomic, on w-bit patterns as numbers (11 Table 11.7). -/
def atomicNew (op : AOp) (ty : Ty) (o b c : Nat) : Nat :=
  let w := 8 * ty.bytes
  let num := fun x : Nat => if ty = .s32 ∨ ty = .s64 then (BitVec.ofNat w x).toInt else (x : Int)
  let x : FVal := fp32.decode o
  let y : FVal := fp32.decode b
  match op with
  | .add => if ty = .f32 then (fdot fp32 [(x, one), (y, one)] none .rn false).1 else (o + b) % 2 ^ w
  | .min => if ty = .f32 then fminmax fp32 false o b x y else if num b < num o then b else o
  | .max => if ty = .f32 then fminmax fp32 true o b x y else if num o < num b then b else o
  | .and => o &&& b
  | .or => o ||| b
  | .xor => o ^^^ b
  | .exch => b
  | .cas => if o = c then b else o

/-- The operand of an atomic: the low bits of its group as a number. -/
def atomicArg (l : Lane) (ty : Ty) (n : Nat) : Nat :=
  ((List.range ty.regs).map fun j => (l.rd (n + j)).toNat * 2 ^ (32 * j)).sum % 2 ^ (8 * ty.bytes)

/-- t with what a write to memory moves beside its lanes as in s: bytes with their tags, versions and poison, the directory, the dies'
caches, replicas of the line, what is sent outside, and the free values used. -/
def written (s t : State) : State :=
  { t with mem := s.mem, poison := s.poison, ktag := s.ktag, ver := s.ver, wcount := s.wcount, undo := s.undo, losses := s.losses
           outs := s.outs, ctxs := s.ctxs, sites := s.sites, dir := s.dir, freeIx := s.freeIx }

/-- The old value of an atomic in its destination group. -/
def gOld (l : Lane) (d : Nat) (ty : Ty) (o : Nat) : Gives :=
  { regs := (List.range ty.regs).map fun j => (d + j, { val := BitVec.ofNat 32 (o / 2 ^ (32 * j)), side := false })
    preds := [], flags := 0, rngs := l.rngs }

end Sys2Proof.Claims

/-- R227, R228: one atomic of one lane, clean operands and a clean place, with no store of the block waiting: the old value, and
memory or the scratchpad with the new one at the place, every other byte as before; a `cas` that fails writes nothing.
Readings of the model, not of the spec, that it rests on: log 8. -/
def Obligations.AtomicResults : Prop :=
  ∀ (s : State) (g : Guard) (d a b c n la : Nat) (op : AOp) (ty : Ty) (sem : Sem),
    op.tyOk ty = true → acting s g = [n] →
    Legal s (grp d ty.regs ++ grp a 2 ++ grp b ty.regs ++ (if op = .cas then grp c ty.regs else [])) →
    (s.blk s.cur.blk).pend = [] → s.holding s.cur.blk = false →
    atomPoison (s.cl n) op ty b c = false →
    let l := s.cl n
    let arg := atomicArg l ty b
    let cmp := atomicArg l ty c
    (∀ (s1 : State) (sc : Scope) (rel : Bool) (pl : Place), cleanPair l a → (l.rd2 a).toNat % ty.bytes = 0 →
      s.xlateLane s.cur.blk s.cur.level .atomic (l.rd2 a) ty.bytes = (s1, .ok [(pl, 0, ty.bytes)]) → inHbm s1 [(pl, 0, ty.bytes)] →
      pl.pa + ty.bytes ≤ 0x8000000000000 → s.poisonAt pl.pa ty.bytes = false → (∀ x ∈ s.saves, x.2.2 ≤ s.wcount) →
      let o := leNat (s.bytesAt pl.key pl.pa ty.bytes)
      let after := fun t : State =>
        (if op = .cas ∧ o ≠ cmp then memSame s t
         else memWritten s t pl.key pl.pa (leBytes ty.bytes (atomicNew op ty o arg cmp))) ∧
        SameBut s1 (written s1 t) s.cur.lanes
      (∃ t, exec (.atom g d a b c op ty sc sem la) s = .next t ∧ after t ∧ laneLater s t n la (gOld l d ty o)) ∧
      (op ≠ .cas → op ≠ .exch → ∃ t, exec (.red g a b op ty sc rel la) s = .next t ∧ after t ∧ laneLater s t n 0 (.nothing l))) ∧
    (∀ win : Bool, (l.rv a).side = false → (l.rd a).toNat % ty.bytes = 0 → (win = true → (l.rd a).toNat / 2 ^ 20 = s.rank s.cur.blk ∧
        (l.rd a).toNat / 2 ^ 20 < (s.gridOf s.cur.blk).gsize ∧ (l.rd a).toNat < 2 ^ 24) →
      let at_ := if win then (l.rd a).toNat % 2 ^ 20 else (l.rd a).toNat
      at_ + ty.bytes ≤ (s.gridOf s.cur.blk).khdr.scratch → (s.blk s.cur.blk).absentLine (at_ / 128) = false →
      let r := (s.blk s.cur.blk).getScratch at_ ty.bytes
      let o := leNat r.1
      r.2 = false →
      ∃ t, exec (.atoms g d a b c op ty sem win la) s = .next t ∧ memSame s t ∧ laneLater s t n la (gOld l d ty o) ∧
        (∀ x, fget 0 (t.blk s.cur.blk).scratch x =
          if at_ ≤ x ∧ x < at_ + ty.bytes ∧ ¬(op = .cas ∧ o ≠ cmp) then
            ((leBytes ty.bytes (atomicNew op ty o arg cmp))[x - at_]?).getD 0
          else fget 0 (s.blk s.cur.blk).scratch x) ∧
        SameBut s (t.modBlk s.cur.blk fun k => { k with scratch := (s.blk s.cur.blk).scratch, spoison := (s.blk s.cur.blk).spoison })
          s.cur.lanes)

/-- R229, R214 to R216: `pf` completes whatever its translation gives, and with `cinv` and `cwb` of a line of HBM changes no value; `cwb`
and `cinv` at system scope, where the page does not narrow it, bring the halves of a host line that the package holds modified out
to the host; a narrower one leaves the host's memory alone. -/
def Sys2Proof.Claims.CacheMaintenance : Prop :=
  ∀ (s s1 : State) (g : Guard) (a n la : Nat) (off : BitVec 16) (r : Except Stop (List (Place × Nat × Nat))), Legal s [a, a + 1] →
    acting s g = [n] → cleanPair (s.cl n) a →
    s.xlateLane s.cur.blk s.cur.level .load ((s.cl n).rd2 a + off.signExtend 64) 1 = (s1, r) →
    (∀ lvl excl, ∃ t, exec (.pf g a lvl excl off la) s = .next t ∧ memSame s t ∧ t.hostMem = s.hostMem ∧
      SameBut s1 { t with sites := s1.sites, dir := s1.dir, outs := s1.outs, bridge := s1.bridge, mem := s1.mem } s.cur.lanes ∧
      laneLater s t n 0 (.nothing (s.cl n))) ∧
    ∀ (pl : Place) (m : Nat), r = .ok [(pl, 0, m)] → noSuspect s1 [(pl, 0, m)] →
      let line := pl.pa / 128
      (s.paKind pl.pa = .hbm → ∀ sc, ∀ i ∈ [Instr.cinv g a sc off la, .cwb g a sc off la],
        ∃ t, exec i s = .next t ∧ memSame s t ∧ SameBut s1 { t with sites := s1.sites } s.cur.lanes ∧ laneLater s t n 0 (.nothing (s.cl n))) ∧
      let half := fun x : Nat => if x % 128 < 64 then (s1.hline line).h0 else (s1.hline line).h1
      let soiled := fun sec : Nat => s1.sites.any fun e => fget false e.2.dirty sec
      let out := fun x : Nat => half x = .m ∨ ∃ sec, sec / 2 = x / 64 ∧ soiled sec = true
      let mine := fun t : State => laneLater s t n 0 (.nothing (s.cl n)) ∧
        SameBut s1 { t with sites := s1.sites, bridge := s1.bridge, hostMem := s1.hostMem } s.cur.lanes
      (s.paKind pl.pa = .host → (∀ x, x / 128 = line → half x = .i → ¬out x) →
        (pl.dom = 5 →
          let sent := fun t : State => ∀ x,
            (x / 128 = line → out x → fget memDefault t.hostMem x = fget memDefault s1.mem x) ∧
            (¬(x / 128 = line ∧ out x) → fget memDefault t.hostMem x = fget memDefault s.hostMem x)
          (∃ t, exec (.cwb g a .sys off la) s = .next t ∧ mine t ∧ memSame s t ∧ sent t) ∧
          ∃ t, exec (.cinv g a .sys off la) s = .next t ∧ mine t ∧ sent t ∧ (∀ key x, x / 128 ≠ line → t.byteAt key x = s.byteAt key x) ∧
            ((∀ x, x / 128 = line → ¬out x → half x ≠ .i → fget memDefault s1.hostMem x = fget memDefault s1.mem x) → memSame s t)) ∧
        (pl.dom = 3 ∨ pl.dom = 4 → ∀ i ∈ [Instr.cwb g a .sys off la, .cinv g a .sys off la],
          ∃ t, exec i s = .next t ∧ mine t ∧ memSame s t ∧ t.hostMem = s.hostMem))

/-- R288, R340: a fence whose lanes hold no scratchpad store back completes; after a release or full fence no store of its lanes
waits; `fence.full.dev` also completes their pending register writes; an acquire fence changes nothing. -/
def Sys2Proof.Claims.FenceResults : Prop :=
  ∀ (s : State) (g : Guard) (kind : FenceKind) (sc : Scope) (la : Nat), Legal s [] →
    (∀ n ∈ acting s g, s.heldScratch s.cur.blk s.cur.warp n = false) →
    ∃ t, exec (.fence g kind sc la) s = .next t ∧
      (∀ n ∈ s.cur.lanes, TookLater s (s.cl n) { t.cl n with seen := (s.cl n).seen } 0 (.nothing (s.cl n))) ∧
      (kind = .acq ∨ ((s.blk s.cur.blk).pend = [] ∧ s.holding s.cur.blk = false) → memSame s t ∧
        (¬(kind = .full ∧ sc = .dev) → SameBut s t s.cur.lanes)) ∧
      (kind ≠ .acq → ∀ p ∈ (t.blk s.cur.blk).pend, ¬(p.warp = s.cur.warp ∧ ∃ n ∈ acting s g, n ∈ p.lanes)) ∧
      (kind = .full → sc = .dev → ∀ x ∈ t.xpend, ¬(x.blk = s.cur.blk ∧ x.warp = s.cur.warp ∧ ∃ n ∈ acting s g, n ∈ x.lanes)) ∧
      (¬(kind = .full ∧ sc = .dev) → t.xpend = s.xpend)

/-- R229, R214 to R216, R288, R340: cache maintenance and fences.
Readings of the model, not of the spec, that it rests on: logs 8, 41. -/
def Obligations.CacheAndFenceResults : Prop :=
  Sys2Proof.Claims.CacheMaintenance ∧ Sys2Proof.Claims.FenceResults

/-! ### Barriers (13 R258 to R263, 17 R333) -/

namespace Sys2Proof.Claims

/-- A barrier after one arrival (13 R261). -/
def arrivedBar (x : Barrier) : Barrier :=
  if x.cnt + 1 = x.exp then { x with ph := x.ph + 1, cnt := 0 } else { x with cnt := x.cnt + 1 }

/-- The tiller of the block has no `accwr` and no mma that still reads scratchpad (17 R333). -/
def stillTiller (s : State) : Prop :=
  let t := (s.blk s.cur.blk).tiller
  t.loading = none ∧ ∀ op ∈ t.flight, op.reading = false

/-- i leaves the entry, or the tiller, waiting behind it for the completion of phase tok of a barrier, with the other effects that u
shows, and changes nothing else. -/
def Waits (s u : State) (i : Instr) (grp : Bool) (b : Nat) (tok : Word) : Prop :=
  ∃ t, exec i s = .next t ∧ (∀ key a, t.byteAt key a = u.byteAt key a) ∧
    (s.cur.agent = .tiller →
      (t.blk s.cur.blk).tiller.wait = some (grp, b, tok, s.cur.pc) ∧
      TillerTook u (t.modTiller s.cur.blk fun x => { x with wait := (s.blk s.cur.blk).tiller.wait }) s.cur.next uNone) ∧
    (s.cur.agent ≠ .tiller → s.cur.lanes.Nodup →
      (∀ n ∈ s.cur.lanes, (t.cl n).park = .bar grp b tok) ∧
      WarpTook u (s.cur.lanes.foldl (fun t n => t.setCl n { t.cl n with park := (s.cl n).park }) t) s.cur.next uNone)

end Sys2Proof.Claims

/-- R259 to R263, R333: `bar.init` initialises, or renews the expected count of a barrier at rest; an arrival, of the tiller or of a
warp whose live lanes are all in the entry, adds one or completes the phase and gives the phase before; `bar.wait` goes on when the
phase of its token has completed, by serial arithmetic, and else waits; `bar.sync` arrives and waits for its own phase. A tiller that
goes on has acquired. -/
def Obligations.BarrierResults : Prop :=
  ∀ (s : State) (g : Guard) (b : Nat) (grp : Bool),
    b < (s.gridOf s.cur.blk).khdr.bars → (s.cur.agent = .tiller ∨ s.cur.level = .u) → s.uguard g = true →
    let k := s.cur.blk
    let x := s.bar k grp b
    let after := s.setBar k grp b (arrivedBar x)
    let acquired := fun u : State => if s.cur.agent = .tiller then u.modTiller k fun t => { t with synced := s.wcount } else u
    (∀ n : BitVec 16, n ≠ 0 →
      (x.init = false →
        UniDone s (s.setBar k grp b { init := true, exp := n.toNat, cnt := 0, ph := 0 }) (.barInit g b grp n) uNone s.cur.next) ∧
      (x.init = true → x.cnt = 0 → s.barWaited k grp b = false → (grp = true ∨ s.barNamed k b = false) →
        UniDone s (s.setBar k grp b { x with exp := n.toNat }) (.barInit g b grp n) uNone s.cur.next)) ∧
    (x.init = true →
      (((s.cur.agent = .tiller ∧ stillTiller s) ∨ (Gathered s ∧ (s.blk k).pend = [] ∧ (s.gridOf k).chained = false)) →
        (grp = true → s.holding k = false) →
        (∀ tok : Option Nat, s.namesOk [] tok.toList = true →
          UniDone s after (.barArr g b grp tok) (match tok with | some d => uReg d x.ph | none => uNone) s.cur.next) ∧
        (x.cnt + 1 = x.exp → UniDone s (acquired after) (.barSync g b grp) uNone s.cur.next) ∧
        (x.cnt + 1 ≠ x.exp → Waits s after (.barSync g b grp) grp b x.ph)) ∧
      ∀ tok : Option Nat, s.namesOk [] tok.toList = true →
        let p := match tok with | some n => s.ur n | none => x.ph
        let gone := (x.ph - p).toNat
        ((1 ≤ gone ∧ gone ≤ 2 ^ 31) → UniDone s (acquired s) (.barWait g b grp tok) uNone s.cur.next) ∧
        (¬(1 ≤ gone ∧ gone ≤ 2 ^ 31) → Waits s s (.barWait g b grp tok) grp b p))

/-! ### Uniform memory, bounded loads, rounds (11 R221, R225, 15 R289 to R300) -/

namespace Sys2Proof.Claims

/-- t with what the entry's lanes have seen of memory, the sites, the directory and the counter of free values as in s. -/
def unseen (s t : State) : State :=
  s.cur.lanes.foldl (fun t n => t.setCl n { t.cl n with seen := (s.cl n).seen }) { t with sites := s.sites, dir := s.dir, freeIx := s.freeIx }

/-- t with the uniform results of the issuing warp that are due as in s. -/
def undue (s t : State) : State := t.setWarp s.cur.blk s.cur.warp { t.warp s.cur.blk s.cur.warp with due := s.cw.due }

/-- t is s after a long-latency uniform instruction of the issuing entry that gives o: the registers are written, and due until the part
lands them, behind those due before (05 R106). -/
def UldTook (s t : State) (o : UGives) : Prop :=
  WarpTook s (undue s (unseen s t)) s.cur.next o ∧
  let keys := o.regs.map fun e => sKey s.cur.level e.1
  (t.warp s.cur.blk s.cur.warp).due = s.cw.due.filter (fun k => !keys.contains k) ++ keys

/-- No store of a lane of the entry waits to be performed. -/
def noneWaits (s : State) : Prop := ∀ p ∈ (s.blk s.cur.blk).pend, ¬(p.warp = s.cur.warp ∧ ∃ n ∈ s.cur.lanes, n ∈ p.lanes)

/-- What the entry reads at the pieces of a uniform access: memory under the stores that its block holds. -/
def entryReads (s : State) (ps : List (Place × Nat × Nat)) : List Byte × Bool :=
  let read := fun p : Place × Nat × Nat => s.readAs (s.siteOf s.cur.blk) (s.blk s.cur.blk).hold p.1.key p.1.pa p.2.2
  ((ps.map fun p => (read p).1).flatten, ps.any fun p => (read p).2)

/-- What a uniform load gives. -/
def uLoaded (d : Nat) (ty : Ty) (bytes : List Byte) : UGives :=
  { regs := (loaded Lane.empty d ty bytes false).regs.map fun e => (e.1, e.2.val), preds := [] }

/-- No save area hides a later write (19 R360). -/
def savesOld (s : State) : Prop := ∀ x ∈ s.saves, x.2.2 ≤ s.wcount

/-- A die's L2 holds no stamped copy of a line. -/
def noCopy (s : State) (pl : Place) : Prop := (s.site (s.siteOf s.cur.blk)).stamped.any (fun c => c.line == pl.pa / 128) = false

/-- The stamped copy that a bounded load of a page with a bound leaves in its die (15 R294). -/
def stampedFor (s : State) (slot : Nat) (pl : Place) : Stamped :=
  let l := pl.pa / 128
  { line := l, key := pl.key, asid := s.asidOf s.cur.blk, slot := slot, bytes := s.bytesAt pl.key (l * 128) 128
    poison := (List.range 4).map fun i => s.sectorPoison (l * 4 + i)
    stamp := s.viewOf s.cur.blk slot, fill := s.wcount }

/-- A target that the die's view of a region has reached, by serial arithmetic (15 R291). -/
def viewReached (s : State) (slot : Nat) (target : Word) : Prop :=
  (BitVec.ofNat 32 (s.viewOf s.cur.blk slot) - target).toNat < 2 ^ 31

end Sys2Proof.Claims

/-- R221, R222, R223, R225, R279: `uld` gives what memory holds under the stores that the block holds, once for the entry, and its
registers are due until they land; `ust`
leaves its pieces, each one access in the program order of every lane of the entry, waiting or held as a lane's store is; the lanes
of the entry only go on.
Readings of the model, not of the spec, that it rests on: logs 8, 38. -/
def Obligations.UniformMemoryResults : Prop :=
  ∀ (s s1 : State) (g : Guard) (d a : Nat) (ty : Ty) (flag : Bool) (sc : Scope) (off : BitVec 16) (ps : List (Place × Nat × Nat)),
    s.cur.agent ≠ .tiller → s.cur.lanes.Nodup → s.uguard g = true → s.namesOk [] (grp d ty.regs ++ [a, a + 1]) = true → inHbm s1 ps →
    let va := s.ur2 a + off.signExtend 64
    let k := s.blk s.cur.blk
    (s.xlateLane s.cur.blk s.cur.level .load va ty.bytes = (s1, .ok ps) → noneWaits s → (entryReads s1 ps).2 = false →
      ∃ t, exec (.uld g d a ty flag sc off) s = .next t ∧ memSame s t ∧
        UldTook s1 t (uLoaded d ty (entryReads s1 ps).1)) ∧
    (s.xlateLane s.cur.blk s.cur.level .store va ty.bytes = (s1, .ok ps) → s.cur.lanes ≠ [] →
      let new := ps.map fun p => ({ warp := s.cur.warp, lanes := s.cur.lanes, addr := p.1.pa
                                    bytes := ((stored s.ur d ty).drop p.2.1).take p.2.2
                                    poison := false, key := p.1.key, stream := p.1.ord == 2, exec := s.steps } : PStore)
      (s.holding s.cur.blk = false → (flag = true → noneWaits s) →
        ∃ t, exec (.ust g d a ty flag sc off) s = .next t ∧ memSame s t ∧ (t.blk s.cur.blk).pend = k.pend ++ new ∧
          WarpTook s1 (t.modBlk s.cur.blk fun x => { x with pend := k.pend }) s.cur.next uNone) ∧
      (s.holding s.cur.blk = true → flag = false → s.bufferHolds (s.siteOf s.cur.blk) s.cur.blk (new ++ k.hold) = true → ps.length = 1 →
        ∃ t, exec (.ust g d a ty flag sc off) s = .next t ∧ memSame s t ∧ (t.blk s.cur.blk).hold = k.hold ++ new ∧
          WarpTook s1 (t.modBlk s.cur.blk fun x => { x with hold := k.hold }) s.cur.next uNone))

/-- R289 to R297: on a page with a bound, whose line no stamped copy serves, a bounded load gives what memory holds and leaves a stamped
copy with the die's view; on any other page it is a load; a target that the view has not reached parks the thread. `uldb` is the
same once for the entry; one that has parked goes on with the target and the address that it read then, whatever its guard and
registers hold now. -/
def Sys2Proof.Claims.BoundedLoadResults : Prop :=
  ∀ (s s1 : State) (g : Guard) (d a slot : Nat) (ty : Ty) (bound : Bound) (off : BitVec 16) (la : Nat) (va : DWord) (pl : Place),
    s.xlateLane s.cur.blk s.cur.level .load va ty.bytes = (s1, .ok [(pl, 0, ty.bytes)]) → va.toNat % ty.bytes = 0 →
    pl.pa % ty.bytes = 0 → inHbm s1 [(pl, 0, ty.bytes)] → (s.ctxOf s.cur.blk).regionAt va = some slot → noCopy s1 pl →
    let copied := fun t : State => pl.dom = 4 → (t.site (s.siteOf s.cur.blk)).stamped.head? = some (stampedFor s1 slot pl)
    (∀ n, Legal s (grp d ty.regs ++ [a, a + 1] ++ bound.regs) → acting s g = [n] → cleanPair (s.cl n) a →
      va = (s.cl n).rd2 a + off.signExtend 64 →
      ((∀ c, bound = .target c → ((s.cl n).rv c).side = false ∧ (pl.dom = 4 → viewReached s slot ((s.cl n).rd c))) →
        let x := laneReads s1 n [(pl, 0, ty.bytes)]
        ∃ t, exec (.ldb g d a ty bound off la) s = .next t ∧ memSame s t ∧ copied t ∧
          SameBut s1 { t with sites := s1.sites, dir := s1.dir, freeIx := s1.freeIx } s.cur.lanes ∧
          laneLater s t n la (loaded (s.cl n) d ty x.1 x.2)) ∧
      (∀ c, bound = .target c → ((s.cl n).rv c).side = false → pl.dom = 4 → ¬viewReached s slot ((s.cl n).rd c) →
        ∃ t, exec (.ldb g d a ty bound off la) s = .next t ∧ memSame s t ∧
          t.cl n = { s.cl n with park := .round slot ((s.cl n).rd c) va (s.steps * 256) })) ∧
    (∀ tgt : Word, s.cur.agent ≠ .tiller → s.cur.lanes.Nodup → noneWaits s →
      (s.cur.given = some (tgt, va) ∨
        (s.cur.given = none ∧ s.uguard g = true ∧ s.namesOk [] (grp d ty.regs ++ [a, a + 1] ++ bound.regs) = true ∧
          va = s.ur2 a + off.signExtend 64 ∧ ∀ c, bound = .target c → tgt = s.ur c)) →
      ((∀ c, bound = .target c → pl.dom = 4 → viewReached s slot tgt) → (entryReads s1 [(pl, 0, ty.bytes)]).2 = false →
        ∃ t, exec (.uldb g d a ty bound off) s = .next t ∧ memSame s t ∧ copied t ∧
          UldTook s1 t (uLoaded d ty (entryReads s1 [(pl, 0, ty.bytes)]).1)) ∧
      (∀ c, bound = .target c → pl.dom = 4 → ¬viewReached s slot tgt →
        ∃ t, exec (.uldb g d a ty bound off) s = .next t ∧ memSame s t ∧
          ∀ n ∈ s.cur.lanes, t.cl n = { s.cl n with park := .uround slot tgt va (s.steps * 256) }))

/-- R291 to R293, R297: `rnd.ld` and a `rnd.wait` whose target is reached give the executing die's view of the region, and every die then
has received the notices of the rounds up to it, and has at least the view that they give (R292 step 3, R299); `rnd.adv` releases, counts
the round and sends its notice to every active die; a die that receives its oldest notice has that round as its view. -/
def Sys2Proof.Claims.RoundResults : Prop :=
  (∀ (s s1 : State) (g : Guard) (d a c slot : Nat) (off : BitVec 16) (la n : Nat) (ps : List (Place × Nat × Nat)),
    Legal s [d, c, a, a + 1] → acting s g = [n] → cleanPair (s.cl n) a →
    let va := (s.cl n).rd2 a + off.signExtend 64
    (s.ctxOf s.cur.blk).regionAt va = some slot →
    let asid := s.asidOf s.cur.blk
    let r := (s.ctx asid).region slot
    let got := s.viewOf s.cur.blk slot
    let same := fun (s1 t : State) => SameBut s1 { t with ctxs := s1.ctxs } s.cur.lanes ∧ memSame s t ∧ (∀ x, x ≠ asid → t.ctx x = s.ctx x) ∧
      ∃ views, t.ctx asid = (s.ctx asid).setRegion slot { r with notices := r.notices.filter fun n => got < n.2, views := views } ∧
        ∀ die, fget 0 views die = (r.notices.filter fun n => n.1 == die && n.2 ≤ got).foldl (fun m n => max m n.2) (fget 0 r.views die)
    let view := BitVec.ofNat 32 got
    (s.xlateLane s.cur.blk s.cur.level .load va 1 = (s1, .ok ps) →
      (∃ t, exec (.rndld g d a off la) s = .next t ∧ same s1 t ∧ laneLater s t n la (gWord (s.cl n) d view 0)) ∧
      (((s.cl n).rv c).side = false → viewReached s slot ((s.cl n).rd c) →
        ∃ t, exec (.rndwait g d a c off la) s = .next t ∧ same s1 t ∧ laneLater s t n la (gWord (s.cl n) d view 0))) ∧
    (s.xlateLane s.cur.blk s.cur.level .store va 1 = (s1, .ok ps) → s.holding s.cur.blk = false →
      (∀ p ∈ (s.blk s.cur.blk).pend, ¬(p.warp = s.cur.warp ∧ n ∈ p.lanes)) →
      let k := r.count + 1
      ∃ t, exec (.rndadv g d a off la) s = .next t ∧ memSame s t ∧
        t.ctx asid = (s.ctx asid).setRegion slot { r with count := k, notices := r.notices ++ s.activeSites.map fun die => (die, k) } ∧
        (∀ x, x ≠ asid → t.ctx x = s.ctx x) ∧ SameBut s1 { t with ctxs := s1.ctxs } s.cur.lanes ∧
        (t.cl n).awaits = (s.cl n).awaits ++ [(slot, k)] ∧
        ∀ m ∈ s.cur.lanes, TookLater s (s.cl m) { t.cl m with awaits := (s.cl m).awaits } la
          (if m = n then gWord (s.cl n) d (BitVec.ofNat 32 k) 0 else .nothing (s.cl m)))) ∧
  (∀ (s : State) (asid slot die k : Nat),
    let r := (s.ctx asid).region slot
    r.notices.find? (fun x => x.1 == die) = some (die, k) → fget 0 r.views die < k → 
    exec (.roundNotice asid slot die) s =
      .next (s.setCtx asid ((s.ctx asid).setRegion slot { r with notices := r.notices.erase (die, k), views := fset 0 r.views die k })))

/-- R289 to R297: bounded loads and rounds.
Readings of the model, not of the spec, that it rests on: logs 8, 40. -/
def Obligations.BoundedLoadAndRoundResults : Prop :=
  Sys2Proof.Claims.BoundedLoadResults ∧ Sys2Proof.Claims.RoundResults

/-- R289, R300, R355 to R357: `tlbinv` discards, in the dies of its scope, the stage-1 and stage-2 translations it names and no
other; `tlbinv.rgn` registers the region of a table entry in a free slot, leaves one that stands as it is, and answers 3 beyond the
table. No store waits, and no command or copy keeps a translation.
Readings of the model, not of the spec, that it rests on: log 33. -/
def Obligations.TranslationAndRegionInvalidation : Prop :=
  ∀ (s : State) (g : Guard) (a n la : Nat) (sc : TlbScope), s.cur.agent ≠ .tiller → s.cur.lanes.Nodup → acting s g = [n] →
    (s.blk s.cur.blk).pend = [] → s.holding s.cur.blk = false → s.cmdHolds (fun _ => true) = false →
    let l := s.cl n
    let c := s.ctxOf s.cur.blk
    let vmid := (s.part c.part).vmid
    let drops := fun (i : Instr) (cov : Cover) (f1 : Tlb1 → Bool) (f2 : Tlb2 → Bool) =>
      ∃ t, exec i s = .next t ∧ memSame s t ∧ SameBut s { t with sites := s.sites, undo := s.undo } s.cur.lanes ∧
        (∀ m ∈ s.cur.lanes, TookLater s (s.cl m) (t.cl m) la (.nothing (s.cl m))) ∧
        t.undo = (if cov = .all ∧ sc = .dev then [] else s.undo) ∧
        ∀ x, t.site x = if (if sc = .dev then x < 24 else x = s.siteOf s.cur.blk) then
            { s.site x with
              tlb1 := (s.site x).tlb1.filter fun e => !f1 e, tlb2 := (s.site x).tlb2.filter fun e => !f2 e
              invs := if cov = .all then [(cov, s.wcount)] else (cov, s.wcount) :: (s.site x).invs }
          else s.site x
    (s.cur.level ≠ .u →
      (s.namesOk [a, a + 1] [] = true → cleanPair l a →
        let va := (l.rd2 a).toNat % 2 ^ 56
        drops (.tlbinvVa g a sc la) (.va c.xasid.toNat vmid va) (fun e => e.asid == c.xasid.toNat && e.vmid == vmid &&
          e.vpage * 65536 / e.size == va / e.size) (fun _ => false)) ∧
      (s.namesOk [a] [] = true → (l.rv a).side = false → (l.level = .s → (l.rd a).toNat % 65536 = c.xasid.toNat) →
        drops (.tlbinvAsid g a sc la) (.asid ((l.rd a).toNat % 65536)) (fun e => e.asid == (l.rd a).toNat % 65536) (fun _ => false)) ∧
      (∀ d, s.namesOk [d, a] [] = true → (l.rv a).side = false →
        let k := (l.rd a).toNat
        let answers := fun (t : State) (x : Word) => laneLater s t n la (gWord l d x 0)
        (c.rcnt ≤ k → ∃ t, exec (.tlbinvRgn g d a la) s = .next t ∧ memSame s t ∧ SameBut s t s.cur.lanes ∧ answers t 3) ∧
        (k < c.rcnt → ∀ (s1 : State) (ps : List (Place × Nat × Nat)),
          s.xlatePieces (s.siteOf s.cur.blk) (s.asidOf s.cur.blk) .s .load false (c.rtab + BitVec.ofNat 64 (16 * k)) 16 = (s1, .ok ps) →
          inHbm s1 ps → (laneReads s1 n ps).2 = false →
          let v := leNat (laneReads s1 n ps).1
          let id : Word := BitVec.ofNat 32 v
          let len := v / 2 ^ 32 % 2 ^ 32 * 65536
          let base : DWord := BitVec.ofNat 64 (v / 2 ^ 64)
          let old := c.region k
          let asid := s.asidOf s.cur.blk
          let back := fun t : State =>
            memSame s t ∧ SameBut s1 { t with sites := s1.sites, dir := s1.dir, freeIx := s1.freeIx, ctxs := s1.ctxs } s.cur.lanes
          (old.id = 0 → id = 0 →
            ∃ t, exec (.tlbinvRgn g d a la) s = .next t ∧ back t ∧ t.ctxs = s.ctxs ∧ answers t 1) ∧
          (old.id = 0 → id ≠ 0 → c.regionOk k id base len = false →
            ∃ t, exec (.tlbinvRgn g d a la) s = .next t ∧ back t ∧ t.ctxs = s.ctxs ∧ answers t 2) ∧
          (old.id = 0 → id ≠ 0 → c.regionOk k id base len = true →
            ∃ t, exec (.tlbinvRgn g d a la) s = .next t ∧ back t ∧ answers t 0 ∧
              t.ctx asid = c.setRegion k { id := id, base := base, len := len, count := 0, views := [], notices := [] }) ∧
          (id ≠ 0 → c.regionOk k id base len = true → old.id = id → old.base = base → old.len = len →
            ∃ t, exec (.tlbinvRgn g d a la) s = .next t ∧ back t ∧ t.ctxs = s.ctxs ∧ answers t 0)))) ∧
    (s.cur.level = .h →
      (s.namesOk [a, a + 1] [] = true → cleanPair l a →
        drops (.tlbinvIpa g a sc la) (.ipa vmid (l.rd2 a).toNat) (fun e => e.vmid == vmid)
          (fun e => e.vmid == vmid && e.ipage * 65536 / e.size == (l.rd2 a).toNat / e.size)) ∧
      (s.namesOk [a] [] = true → (l.rv a).side = false →
        drops (.tlbinvVmid g a sc la) (.vmid ((l.rd a).toNat % 256)) (fun e => e.vmid == (l.rd a).toNat % 256) (fun e => e.vmid == (l.rd a).toNat % 256)) ∧
      drops (.tlbinvAll g sc la) .all (fun _ => true) (fun _ => true))

/-! ### Waiting for a write, and events of threads (19 R358, 05 R107, 13 R251, R255, 03 R48) -/

/-- R358: `mwait` goes on at once with a timeout of 0 or where a byte of the line holds a write newer than what the thread has seen, and
else waits, past the instruction, with its line and deadline; such a write wakes it; without one, the timeout raises cause 0x0B with the
line's address. R106, R107, R255, R251, R48: due results of a lane and of its warp's uniform registers land; a pause ends; an entry in
hop reaches the neighbour's queue; regrouping changes nothing.
Readings of the model, not of the spec, that it rests on: logs 9, 32. -/
def Obligations.WaitAndThreadEvents : Prop :=
  (∀ (s s1 : State) (g : Guard) (a b n la m : Nat) (off : BitVec 16) (pl : Place), Legal s [b, a, a + 1] → acting s g = [n] →
    cleanPair (s.cl n) a → ((s.cl n).rv b).side = false →
    let va := (s.cl n).rd2 a + off.signExtend 64
    s.xlateLane s.cur.blk s.cur.level .load va 1 = (s1, .ok [(pl, 0, m)]) → s.paKind pl.pa = .hbm → noSuspect s1 [(pl, 0, m)] →
    (∀ p ∈ (s.blk s.cur.blk).pend, ¬(p.warp = s.cur.warp ∧ n ∈ p.lanes)) →
    let t := min ((s.cl n).rd b).toNat (2 ^ 24)
    let new := s.lineNew (s.cl n) (pl.pa / 128)
    let same := fun u : State => memSame s u ∧ SameBut s1 u s.cur.lanes
    ((t = 0 ∨ new = true) →
      ∃ u, exec (.mwait g a b off la) s = .next u ∧ same u ∧ ∀ i ∈ s.cur.lanes, TookLater s (s.cl i) (u.cl i) 0 (.nothing (s.cl i))) ∧
    (t ≠ 0 → new = false →
      ∃ u, exec (.mwait g a b off la) s = .next u ∧ same u ∧ (u.cl n).park = .mwait (pl.pa / 128) (va &&& ~~~0x7F) (s.clock + t) (s.steps * 256) ∧
        ∀ i ∈ s.cur.lanes, TookLater s (s.cl i) (if i = n then { u.cl i with park := (s.cl i).park } else u.cl i) 0 (.nothing (s.cl i)))) ∧
  (∀ (s : State) (b w i : Nat), s.runs b = true → (s.lane b w i).occ = .live →
    exec (.resultLanding b w i) s =
      .next (s.setWarp b w { (s.warp b w).setLane i ((s.lane b w i).land 0) with due := [] }) ∧
    exec (.pauseExpiry b w i) s = .next ((s.reach (s.lane b w i).paused).setLane b w i { s.lane b w i with paused := 0 }) ∧
    ∀ line v d ex, (s.lane b w i).park = .mwait line v d ex →
      (s.lineNew (s.lane b w i) line = true →
        exec (.mwaitWake b w i) s = .next (s.setLane b w i { s.lane b w i with park := .none })) ∧
      (s.lineNew (s.lane b w i) line = false → (∀ j, j ≠ i → (s.lane b w j).occ ≠ .live) → (s.gridOf b).chained = false →
        ∀ T, Enterable s b w [i] 0x0B T →
          ∃ t, exec (.mwaitTimeout b w i) s = .next t ∧ s.clock ≤ t.clock ∧ d ≤ t.clock ∧
            Entered (s.lane b w i) (t.lane b w i) T (maskOf [i]) 0x0B v (s.lane b w i).pc 0)) ∧
  (∀ s : State, exec .sliceRegroup s = .next s) ∧
  (∀ (s : State) (b w x : Nat) (dir : Dir) (e : RunEntry), (s.blk b).hops.find? (fun h => h.1 == w && h.2.1 == dir) = some (w, dir, e) →
    s.neighbour b dir = some x → x ≠ b → s.gone x = false →
    (∀ c v i, match (s.lane c v i).park with | .runner _ _ _ _ => False | _ => True) →
    ∃ t, exec (.runnerEntryArrive b w dir) s = .next t ∧ (t.blk b).hops = (s.blk b).hops.erase (w, dir, e) ∧
      (t.warp x w).queue dir.back = (s.warp x w).queue dir.back ++ [e] ∧ (t.warp x w).queue dir = (s.warp x w).queue dir ∧
      { t with blocks := s.blocks } = s ∧ (∀ c v i, t.lane c v i = s.lane c v i))

/-! ### Barrow commands (11 R212, R213, R230 to R237) -/

namespace Sys2Proof.Claims

/-- The command that an issue accepts: header, base, pitch and the second word of a pair as read, before its translations. -/
def cmdOf (s : State) (kind : CmdKind) (h a p b : Nat) (ord : CpOrd) (w : CpWidth) (bf : Bool) (idx : List Nat) : Cmd :=
  let hd := (s.blk s.cur.blk).hdr h
  { id := (s.blk s.cur.blk).nextCmd, kind := kind, hdr := hd, base := s.ur2 a, pitch := (s.ur p).toNat, width2 := cmdWidth2 kind bf w hd
    bar := b, ord := ord, bf := bf, idx := idx, mask := BitVec.ofNat 16 (s.ur (p + 1)).toNat, level := s.cur.level, pages := []
    lines := [], deliv := [], data := none, warp := s.cur.warp, lanes := s.cur.lanes, exec := s.steps }

/-- The issuing checks of a command pass (11 R232): room on the core, no cancelled command of the block still to reissue (19 R363), the
header, alignment of base and pitch, the tile inside. -/
def CmdFits (s : State) (c : Cmd) : Prop :=
  let unit := if c.width2 < 2 then 1 else c.width2 / 2
  s.coreCmds s.cur.blk < 64 ∧ (s.blk s.cur.blk).cancelled = [] ∧ Hdr.plainOk c.hdr = true ∧ Hdr.rowBytes c.hdr c.width2 ≤ Hdr.stride c.hdr ∧
  ¬(Hdr.fmt c.hdr = 0 ∧ Hdr.cols c.hdr % 2 = 1) ∧ c.base.toNat % unit = 0 ∧ c.pitch % unit = 0 ∧
  Hdr.inside c.hdr c.width2 (s.gridOf s.cur.blk).khdr.scratch = true

/-- A block with a command accepted and its mark, if any, last in the order of each line of its tile. -/
def withCmd (k : Block) (c : Cmd) (mark : Option LineOp) : Block :=
  { k with
    cmds := k.cmds ++ [c]
    lines := match mark with
      | some op => c.tileLines.foldl (fun ls l => fset [] ls l (fget [] ls l ++ [op])) k.lines
      | none => k.lines }

/-- i issues the command c, marking its lines, once its pages are translated. -/
def Issues (s : State) (i : Instr) (c : Cmd) (mark : Option LineOp) : Prop :=
  ∀ s1 pages, s.planCmd s.cur.blk c c.footprint = (s1, .ok pages) →
    UniDone s (s1.modBlk s.cur.blk fun k => withCmd k { c with pages := pages } mark) i uNone s.cur.next

end Sys2Proof.Claims

/-- R230 to R233, R212, R213: a barrow command whose checks pass and whose pages translate is accepted: it is recorded with what it
read at issue; the lines that it writes are absent and those that it reads are marked, in issue order; a `cp.grp` to its own block keeps
its place in the order of its lines, which are not absent yet. Outside an uncommitted replayable block, with no store of the entry waiting.
Readings of the model, not of the spec, that it rests on: logs 36, 44. -/
def Obligations.BarrowCommandIssue : Prop :=
  ∀ (s : State) (g : Guard) (h a p b : Nat) (ord : CpOrd) (w : CpWidth), s.cur.agent ≠ .tiller → s.uguard g = true → noneWaits s →
    s.holding s.cur.blk = false → b < (s.gridOf s.cur.blk).khdr.bars → (s.bar s.cur.blk false b).init = true →
    s.namesOk [] [a, a + 1, p, p + 1] = true →
    let blk := s.cur.blk
    let at_ := (s.ur (p + 1)).toNat
    (let c := cmdOf s .cin h a p b ord w false []
     CmdFits s c → Issues s (.cpIn g h a p b ord w) c (some (.cmd blk c.id))) ∧
    (let c := cmdOf s .out h a p b ord w false []
     CmdFits s c → Issues s (.cpOut g h a p b ord w) c (some (.reader c.id))) ∧
    (∀ bf, let c := cmdOf s .red h a p b ord .hdr bf []
     CmdFits s c → Issues s (.cpRed g h a p b ord bf) c (some (.reader c.id))) ∧
    (let c := cmdOf s .grp h a p b ord w false []
     CmdFits s c → (∀ r, r < 16 → c.mask.getLsbD r = true → r < (s.gridOf blk).gsize) → 
       Issues s (.cpGrp g h a p b ord w) c (if c.mask.getLsbD (s.rank blk) then some (.due c.id) else none)) ∧
    (∀ idx : List Nat, let c := cmdOf s .gat h a p b ord w false idx
     CmdFits s c → at_ % 4 = 0 → at_ + 4 * Hdr.rows c.hdr ≤ (s.gridOf blk).khdr.scratch →
     (∀ l ∈ linesOf at_ (4 * Hdr.rows c.hdr), (s.blk blk).absentLine l = false) →
     ((s.blk blk).getScratch at_ (4 * Hdr.rows c.hdr)).2 = false →
     idx = (List.range (Hdr.rows c.hdr)).map (fun i => leNat (((s.blk blk).getScratch at_ (4 * Hdr.rows c.hdr)).1.drop (4 * i) |>.take 4)) →
     Issues s (.cpGat g h a p b ord w) c (some (.cmd blk c.id)))

namespace Sys2Proof.Claims

/-- The pieces of a line of a command's tile, byte by byte. -/
def linePieces (c : Cmd) (line : Nat) : List (Place × Nat × Nat) := (c.bytesIn line).map fun x => (c.placeOf x.2, 0, 1)

/-- R212, R213, R233: one line of a `cp.in` or `cp.gat` at its turn writes the bytes it reads at its global addresses to the scratchpad,
after which the line is present. One line of a `cp.out` at its turn is read; what has been read goes out to memory a sector at a
time, those sectors in which nothing is left to read, and the rest is kept. -/
def LineMovement : Prop :=
  ∀ (s : State) (b line : Nat) (c : Cmd), (s.blk b).cmd c.id = some c → s.barrowRuns b = true → s.lineReady b c line = true →
    inHbm s (linePieces c line) →
    ((c.kind = .cin ∨ c.kind = .gat) → fget [] (s.blk b).lines line = [.cmd b c.id] → ((c.bytesIn line).map (·.1)).Nodup →
      ∃ t, exec (.barrowLineWritten b c.id line) s = .next t ∧ memSame s t ∧ (t.blk b).absentLine line = false ∧
        (∀ x ∈ c.bytesIn line,
          [fget 0 (t.blk b).scratch x.1] = (s.readAs (s.siteOf b) (s.blk b).hold (c.placeOf x.2).key (c.placeOf x.2).pa 1).1) ∧
        (∀ o, o ∉ (c.bytesIn line).map (·.1) → fget 0 (t.blk b).scratch o = fget 0 (s.blk b).scratch o) ∧
        { t.blk b with scratch := (s.blk b).scratch, spoison := (s.blk b).spoison, marred := (s.blk b).marred, lines := (s.blk b).lines
                       cmds := (s.blk b).cmds } = s.blk b ∧
        ∀ k, k ≠ b → t.blk k = s.blk k) ∧
    (c.kind = .out → fget [] (s.blk b).lines line = [.reader c.id] → s.holding b = false → savesOld s →
      let done := c.did line
      let left := done.sectorsLeft (c.tileLines.filter fun l => !done.lines.contains l)
      let xs := c.data.getD [] ++ c.readLine (s.blk b) line
      let at_ := fun x : Nat × Byte × Bool => c.placeOf (BitVec.ofNat 64 x.1)
      (xs.map fun x => (at_ x).pa).Nodup → (xs.map (·.1)).Nodup →
      (∀ x ∈ xs, x.1 < 2 ^ 64 ∧ (at_ x).ord ≠ 1 ∧ s.paKind (at_ x).pa = .hbm ∧ (at_ x).pa < 0x8000000000000) →
      ∀ key, (∀ x ∈ xs, (at_ x).key = key) →
      ∃ t, exec (.barrowLineWritten b c.id line) s = .next t ∧
        (∀ x ∈ xs, x.1 / 32 ∉ left → t.byteAt key (at_ x).pa = x.2.1) ∧
        (∀ pa, (∀ x ∈ xs, x.1 / 32 ∉ left → (at_ x).pa ≠ pa) → t.byteAt key pa = s.byteAt key pa) ∧
        (t.blk b).cmd c.id = some { done with data := some (xs.filter fun x => left.contains (x.1 / 32)) } ∧
        { t.blk b with lines := (s.blk b).lines, marred := (s.blk b).marred, cmds := (s.blk b).cmds } = s.blk b ∧
        ∀ k, k ≠ b → t.blk k = s.blk k)

/-- R234: a line of a `cp.red` that holds one element adds it, clean, to the clean element of memory at its address, in the source's
format and rounded to nearest. -/
def ReduceMovement : Prop :=
  ∀ (s : State) (b line r x : Nat) (c : Cmd), (s.blk b).cmd c.id = some c → s.barrowRuns b = true → s.lineReady b c line = true →
    c.kind = .red → c.width2 = (if c.bf then 4 else 8) → fget [] (s.blk b).lines line = [.reader c.id] → s.holding b = false → savesOld s →
    let n := c.width2 / 2
    let pl := c.placeOf (c.gva r x)
    let f := if c.bf then fbf16 else fp32
    let bad := if c.bf then 0x7FE5 else 0x7FE05EED
    let o := leNat (s.bytesAt pl.key pl.pa n)
    let src := (s.blk b).getScratch (Hdr.place c.hdr r x) n
    c.chunksIn line = [(r, x, n)] → inHbm s (linePieces c line ++ [(pl, 0, n)]) → pl.pa + n ≤ 0x8000000000000 →
    src.2 = false → leNat src.1 ≠ bad → s.poisonAt pl.pa n = false → o ≠ bad →
    ∃ t, exec (.barrowLineWritten b c.id line) s = .next t ∧
      memWritten s t pl.key pl.pa (leBytes n (fdot f [(f.decode o, one), (f.decode (leNat src.1), one)] none .rn false).1) ∧
      (t.blk b).cmd c.id = some (c.did line) ∧
      { t.blk b with lines := (s.blk b).lines, marred := (s.blk b).marred, cmds := (s.blk b).cmds } = s.blk b ∧
      ∀ k, k ≠ b → t.blk k = s.blk k

/-- R233, R63: a command whose every part is done completes: it leaves, and arrives on its barrier, but for a `cp.grp`, whose deliveries
have arrived; a failing block ends when its last command to global memory has, and what it had begun to deliver goes. No earlier store
of the issuing lanes waits for the command's release. -/
def CommandCompletion : Prop :=
  ∀ (s : State) (b : Nat) (c : Cmd), (s.blk b).cmd c.id = some c → s.barrowRuns b = true → s.holding b = false → c.allMoved = true →
    (c.ord.rel = true → ∀ p ∈ (s.blk b).pend, ¬(p.warp = c.warp ∧ (∃ n ∈ p.lanes, n ∈ c.lanes) ∧ p.exec < c.exec)) →
    let s1 := s.modBlk b fun k => { k with cmds := k.cmds.filter fun x => x.id != c.id }
    let ends := fun u : State =>
      if (s.blk b).phase = .failing ∧ ((s.blk b).cmds.filter fun x => x.id != c.id).any Cmd.drains = false then
        (u.modBlk b fun k => { k with phase := .failed, cmds := [] }).dropBegun b
      else u
    (c.kind ≠ .grp → exec (.barrowCommandComplete b c.id) s = .next (ends (s1.setBar b false c.bar (arrivedBar (s.bar b false c.bar))))) ∧
    (c.kind = .grp → exec (.barrowCommandComplete b c.id) s = .next (ends s1))

/-- R212, R213, R235: a delivery of a `cp.grp`, before which the block has no earlier one to begin on lines of its tile there, begins by
making the member's lines absent, last in their order, or, into its own block, at the place of its issue; it lands with its bytes, an
arrival on the member's barrier, and the lines present. -/
def GroupDelivery : Prop :=
  ∀ (s : State) (b rank m : Nat) (c : Cmd) (d : List (Nat × Byte × Bool)), (s.blk b).cmd c.id = some c → s.barrowRuns b = true →
    c.kind = .grp → c.mask.getLsbD rank = true → c.data = some d → s.memberAt b rank = some m → (s.blk m).phase = .resident →
    s.holding b = false →
    (fget Deliv.waiting c.deliv rank = .waiting → s.delivBehind b c rank = false →
      ∃ t, exec (.cpGrpDeliveryBegin b c.id rank) s = .next t ∧ memSame s t ∧ { t with blocks := s.blocks } = s ∧
        (∀ l ∈ c.tileLines, (t.blk m).absentLine l = true) ∧ (t.blk b).cmd c.id = some { c with deliv := fput c.deliv rank .begun } ∧
        { t.blk m with lines := (s.blk m).lines, cmds := (s.blk m).cmds } = s.blk m ∧
        { t.blk b with lines := (s.blk b).lines, cmds := (s.blk b).cmds } = s.blk b ∧ (∀ k, k ≠ b → k ≠ m → t.blk k = s.blk k) ∧
        ∀ l ∈ c.tileLines, LineOp.cmd b c.id ∉ fget [] (s.blk m).lines l →
          (m ≠ b → fget [] (t.blk m).lines l = fget [] (s.blk m).lines l ++ [.cmd b c.id]) ∧
          (m = b → fget [] (s.blk b).lines l = [.due c.id] → fget [] (t.blk b).lines l = [.cmd b c.id])) ∧
    (fget Deliv.waiting c.deliv rank = .begun → m ≠ b → (∀ l ∈ c.tileLines, fget [] (s.blk m).lines l = [.cmd b c.id]) →
      (∀ e ∈ d, e.1 / 128 ∈ c.tileLines) → (d.map (·.1)).Nodup →
      ∃ t, exec (.cpGrpDeliveryLand b c.id rank) s = .next t ∧ memSame s t ∧ (∀ l ∈ c.tileLines, (t.blk m).absentLine l = false) ∧
        (∀ e ∈ d, fget 0 (t.blk m).scratch e.1 = e.2.1) ∧
        (∀ o, o ∉ d.map (·.1) → fget 0 (t.blk m).scratch o = fget 0 (s.blk m).scratch o) ∧
        t.bar m false c.bar = arrivedBar (s.bar m false c.bar) ∧
        t.blk b = (s.blk b).setCmd { c with deliv := fput c.deliv rank .done } ∧ ∀ k, k ≠ b → k ≠ m → t.blk k = s.blk k)

end Sys2Proof.Claims

/-- R212, R213, R233, R234, R235: barrow commands move, complete and deliver.
Readings of the model, not of the spec, that it rests on: log 44. -/
def Obligations.BarrowMovement : Prop :=
  Sys2Proof.Claims.LineMovement ∧ Sys2Proof.Claims.ReduceMovement ∧ Sys2Proof.Claims.CommandCompletion ∧ Sys2Proof.Claims.GroupDelivery

/-! ### The tiller and the matrix engine (17 R302 to R335, 07 R156, R157) -/

namespace Sys2Proof.Claims

/-- An unscaled operand as it is read afresh: element (x, j) along M or N and along K, transposed where its header says so (17 R316). -/
def plainOperand (k : Block) (h : Hdr) : Operand :=
  let w := fmtWidth2 (Hdr.fmt h)
  { fmt := Hdr.fmt h, rows := Hdr.mn h, k := Hdr.kk h, smode := Hdr.smode h, scales := []
    elems := ((List.range (Hdr.mn h)).map fun x => (List.range (Hdr.kk h)).map fun j =>
      if Hdr.tr h then k.elem h w j x else k.elem h w x j).flatten }

/-- No mma in flight adds into a tile. -/
def quietTile (k : Block) (t : Nat) : Prop := ∀ op ∈ k.tiller.flight, op.tile ≠ t

/-- The checks of a transfer between an accumulator tile and scratchpad pass, every line of the region is present, and its elements
of n bytes stand apart. -/
def Transfers (s : State) (hd : Hdr) (n : Nat) : Prop :=
  Hdr.plainOk hd = true ∧ Hdr.cols hd * n ≤ Hdr.stride hd ∧ Hdr.rows hd ≤ 128 ∧ Hdr.cols hd ≤ 128 ∧
  Hdr.inside hd (2 * n) (s.gridOf s.cur.blk).khdr.scratch = true ∧ (s.blk s.cur.blk).tileAbsent hd (2 * n) = false ∧
  (Hdr.region hd n).Pairwise fun e f => e.2.2 + n ≤ f.2.2 ∨ f.2.2 + n ≤ e.2.2

/-- What the mma operations in flight have still to read is nothing: neither scratchpad (17 R334) nor scales (R337). -/
def allRead (k : Block) : Prop := ∀ op ∈ k.tiller.flight, op.reading = false ∧ op.sa = [] ∧ op.sb = []

end Sys2Proof.Claims

/-- R302, R308, R311, R316, R322 to R332: `hset` and `hld` write a header, and a latch filled from it goes; `mscl` writes a scale slot,
whose cached bytes go; `accz` clears its tile; an `mma` of unscaled operands joins those in flight with its operands as read, A
from the latch where `.ra` and the latch name it; `accrd` converts each element of a tile into scratchpad; `accwr` begins to read its
region, and its elements, converted, stand in the tile when the stream ends, as they were read where scratchpad kept them; `mexit`
completes what is in flight and stops the stream.
Readings of the model, not of the spec, that it rests on: logs 42, 43. -/
def Obligations.TillerInstructionResults : Prop :=
  ∀ (s : State) (g : Guard), s.cur.agent = .tiller → s.uguard g = true →
    let b := s.cur.blk
    let k := s.blk b
    let scr := (s.gridOf b).khdr.scratch
    let tiles := (s.gridOf b).khdr.acc
    let next := s.cur.next
    let header := fun (d : Nat) (h : Hdr) => s.modBlk b fun x =>
      { x with hdrs := fset 0 x.hdrs d h, tiller := { x.tiller with latch := x.tiller.latch.filter fun l => l.hdr != d } }
    (∀ d a, UniDone s (header d (s.ur (a + 3) ++ s.ur (a + 2) ++ s.ur (a + 1) ++ s.ur a)) (.hset g d a) uNone next) ∧
    (∀ d a (off : BitVec 16), let va := ((s.ur a).toNat : Int) + off.toInt
      va % 16 = 0 → 0 ≤ va → va + 16 ≤ scr → k.absentLine (va.toNat / 128) = false → (k.getScratch va.toNat 16).2 = false →
      UniDone s (header d (BitVec.ofNat 128 (leNat (k.getScratch va.toNat 16).1))) (.hld g d a off) uNone next) ∧
    (∀ n a c ssh,
      UniDone s (s.modTiller b fun t =>
        { t with slots := fset ScaleSlot.zero t.slots n { scb := s.ur2 a, eb := s.ur c, ssh := ssh }
                 scache := t.scache.filter fun e => e.slot != n, sdrop := fput t.sdrop n s.wcount }) (.mscl g n a c ssh) uNone next) ∧
    (∀ d, d < tiles → k.tiller.loading = none → quietTile k d →
      let u := s.modBlk b fun x => { x with acc := x.acc.filter fun e => e.1 / 16384 != d }
      UniDone s u (.accz g d) uNone next ∧ ∀ i j, i < 128 → j < 128 → (u.blk b).accAt (accKey d i j) = RegVal.zero) ∧
    (∀ d a c ra sat, let ha := k.hdr a
      let hb := k.hdr c
      d < tiles → mmaOk ha hb sat = true → Hdr.smode ha = 0 → Hdr.smode hb = 0 →
      Hdr.inside ha (fmtWidth2 (Hdr.fmt ha)) scr = true → Hdr.inside hb (fmtWidth2 (Hdr.fmt hb)) scr = true →
      let hit := match k.tiller.latch with
        | some l => ra && decide (l.hdr = a)
        | none => false
      (hit = false → k.tileAbsent ha (fmtWidth2 (Hdr.fmt ha)) = false) → k.tileAbsent hb (fmtWidth2 (Hdr.fmt hb)) = false →
      k.tiller.loading = none → k.tiller.flight.length < 4 → (hit = true → ∀ op ∈ k.tiller.flight, op.reading = false) →
      let oa := match k.tiller.latch with
        | some l => if hit then l.op else plainOperand k ha
        | none => plainOperand k ha
      UniDone s (s.modTiller b fun t =>
        { t with flight := (t.flight.map fun op => if op.fill then { op with fill := false, sa := if hit then [] else op.sa } else op) ++
                   [{ tile := d, a := oa, b := plainOperand k hb, sat := sat, ha := ha, hb := hb, afresh := !hit, fill := ra && !hit
                      reading := true, sa := [], sb := [] }]
                 latch := if ra then some { hdr := a, op := oa } else none }) (.mma g d a c ra sat) uNone next) ∧
    (k.tiller.loading = none → allRead k →
      UniDone s (({ s with freeIx := s.freeIx + 4 * k.tiller.flight.length }.modBlk b fun x => x.completeMma fun _ => true).modTiller b fun t =>
        { t with run := false, latch := none, scache := [] }) (.mexit g) uNone next) ∧
    (∀ h a c cv sat, let hd := k.hdr h
      let n := cv.bytes
      a < tiles → Transfers s hd n → k.tiller.loading = none → quietTile k a → (∀ op ∈ k.tiller.flight, op.reading = false) → k.marred = [] →
      (∀ x ∈ Hdr.region hd n, fget false k.spoison (x.2.2 / 32) = false) →
      let e := max (-127) (min 127 (s.ur c).toInt)
      ∃ t, exec (.accrd g h a c cv sat) s = .next t ∧ memSame s t ∧
        (∀ x ∈ Hdr.region hd n, ∀ q, q < n → fget 0 (t.blk b).scratch (x.2.2 + q) =
          let v := k.accAt (accKey a x.1 x.2.1)
          BitVec.ofNat 8 ((if v.side then cv.payload else cv.out v.val e sat) / 256 ^ q)) ∧
        (∀ o, (∀ x ∈ Hdr.region hd n, o < x.2.2 ∨ x.2.2 + n ≤ o) → fget 0 (t.blk b).scratch o = fget 0 k.scratch o) ∧
        TillerTook s (t.modBlk b fun x => { x with scratch := k.scratch, spoison := k.spoison }) next uNone) ∧
    (∀ d h cv, let hd := k.hdr h
      let n := cv.bytes
      d < tiles → Transfers s hd n → k.tiller.loading = none → quietTile k d →
      let l : AccLoad := { tile := d, hdr := hd, cv := cv, elems := k.regionElems hd n }
      UniDone s (s.modTiller b fun t => { t with loading := some l }) (.accwr g d h cv) uNone next) ∧
    (∀ l : AccLoad, k.tiller.loading = some l → k.tiller.flight = [] → Hdr.rows l.hdr ≤ 128 → Hdr.cols l.hdr ≤ 128 →
      k.regionElems l.hdr l.cv.bytes = l.elems →
      ∃ t, exec (.mexit g) s = .next t ∧ memSame s t ∧ (t.blk b).tiller.run = false ∧
        (∀ x ∈ Hdr.region l.hdr l.cv.bytes, (t.blk b).accAt (accKey l.tile x.1 x.2.1) =
          let r := k.getScratch x.2.2 l.cv.bytes
          if r.2 then { val := 0x7FE05EED, side := true } else { val := l.cv.inn (leNat r.1), side := false }) ∧
        (∀ key, (∀ x ∈ Hdr.region l.hdr l.cv.bytes, key ≠ accKey l.tile x.1 x.2.1) → (t.blk b).accAt key = k.accAt key) ∧
        TillerTook s (({ t with freeIx := s.freeIx } : State).modBlk b fun x => { x with
          acc := k.acc, tiller := { x.tiller with run := k.tiller.run, latch := k.tiller.latch, scache := k.tiller.scache
                                                  loading := k.tiller.loading } }) next uNone)

/-- R156, R157, R308: the oldest mma in flight completes: every element of its tile takes its product and every other element stays; poison
in the element or in a row or column that it multiplies gives poison; an integer product of one group is the exact sum modulo
2^32, a float one is one `fdot` rounded to nearest. No mma in flight still reads, nor fills the latch. -/
def Sys2Proof.Claims.MatrixProductResults : Prop :=
  (∀ (s : State) (b : Nat) (op : MmaOp) (r : List MmaOp), (s.blk b).tiller.flight = op :: r → op.a.rows ≤ 128 → op.b.rows ≤ 128 →
    allRead (s.blk b) → (∀ x ∈ op :: r, x.fill = false) →
    ∃ t, exec (.mmaComplete b) s = .next t ∧ (t.blk b).tiller = { (s.blk b).tiller with flight := r } ∧
      (∀ m n, m < op.a.rows → n < op.b.rows → (t.blk b).accAt (accKey op.tile m n) =
        let x := (s.blk b).accAt (accKey op.tile m n)
        if x.side || op.a.poisoned m || op.b.poisoned n then { val := 0x7FE05EED, side := true }
        else { val := mmaElement op m n x.val, side := false }) ∧
      (∀ key, (∀ m n, m < op.a.rows → n < op.b.rows → key ≠ accKey op.tile m n) → (t.blk b).accAt key = (s.blk b).accAt key) ∧
      { t.blk b with acc := (s.blk b).acc, tiller := (s.blk b).tiller } = s.blk b ∧ (∀ c, c ≠ b → t.blk c = s.blk c) ∧
      { t with blocks := s.blocks, freeIx := s.freeIx } = s) ∧
  (∀ (op : MmaOp) (m n : Nat) (acc : Word), op.a.smode = 0 → op.b.smode = 0 → op.a.k = 32 →
    ((op.a.fmt = 5 ∨ op.a.fmt = 6) → op.sat = false →
      mmaElement op m n acc = acc + BitVec.ofInt 32 (((List.range 32).map fun k => op.a.ival m k * op.b.ival n k).sum)) ∧
    (op.a.fmt ≠ 5 → op.a.fmt ≠ 6 →
      mmaElement op m n acc = BitVec.ofNat 32
        (fdot fp32 ((List.range 32).map fun k => (op.a.fval m k, op.b.fval n k)) (some (fp32.decode acc.toNat)) .rn false).1))

namespace Sys2Proof.Claims

/-- The scale byte of the block of K that holds element k of row x: blocks of 32 for E8M0 scales, of 16 for E4M3 ones (17 R319). -/
def scaleByteOf (o : Operand) (x k : Nat) : RegVal :=
  let n := if o.smode = 1 then 32 else 16
  (o.scales[x * ((o.k + n - 1) / n) + k / n]?).getD RegVal.zero

/-- The exact value of an element times its scale: 2^(b − 127) of an E8M0 byte b, of which 255 is NaN, or the value of an E4M3 byte (07
R139, R156). -/
def scaledVal (o : Operand) (x k : Nat) : FVal :=
  let v := (tileFmt o.fmt).decode (o.at x k).val.toNat
  let b := (scaleByteOf o x k).val.toNat
  if o.smode = 0 then v
  else if o.smode = 1 then (if b = 255 then .nan else (v.mul (.num false 1 ((b : Int) - 127))).getD .nan)
  else (v.mul (fe4m3.decode b)).getD .nan

/-- The scale byte that the block of row r and block c of K reads: at SCB + ((e − EB) >> SSH), e the unswizzled offset of the byte that
holds the block's first element (17 R319). -/
def scalePlace (h : Hdr) (sl : ScaleSlot) (r c : Nat) : DWord :=
  let n := if Hdr.smode h = 1 then 32 else 16
  let e := Hdr.off h + r * Hdr.stride h + c * n * fmtWidth2 (Hdr.fmt h) / 2
  sl.scb + BitVec.ofNat 64 ((e - sl.eb.toNat) / 2 ^ sl.ssh.toNat)

/-- No scale block of an operand stands below `EB`. -/
def scalesAbove (h : Hdr) (sl : ScaleSlot) : Prop :=
  Hdr.smode h ≠ 0 → let n := if Hdr.smode h = 1 then 32 else 16
    ∀ r c, r < Hdr.rows h → c < (Hdr.cols h + n - 1) / n →
      sl.eb.toNat ≤ Hdr.off h + r * Hdr.stride h + c * n * fmtWidth2 (Hdr.fmt h) / 2

end Sys2Proof.Claims

/-- R156, R319, R320, R337: scaled operands. An element is the sum of its groups in ascending k, with one rounding per group, of 32, or of
16 where a scale is E4M3; each factor is an element times the scale of its block; integer sums wrap or, under `.sat`, saturate per
group. An operand that is read at issue holds the scale bytes at the addresses that the slot's `SCB`, `EB` and `SSH` give then, one for
each row and block; a byte not cached is what memory holds at the translation of its address, and is cached. An `mma` of operands with
scales joins those in flight with both as read, and with the places of their scale bytes; where a block stands below `EB` the stream
faults with cause 0x0F. -/
def Sys2Proof.Claims.ScaledProductResults : Prop :=
  (∀ (op : MmaOp) (m n : Nat) (acc : Word),
    let len := if op.a.smode = 2 ∨ op.b.smode = 2 then 16 else 32
    (op.a.fmt ≠ 5 → op.a.fmt ≠ 6 → op.a.smode ≤ 2 → op.b.smode ≤ 2 →
      mmaElement op m n acc = (List.range (op.a.k / len)).foldl (fun acc q => BitVec.ofNat 32
        (fdot fp32 ((List.range len).map fun i => (scaledVal op.a m (q * len + i), scaledVal op.b n (q * len + i)))
          (some (fp32.decode acc.toNat)) .rn false).1) acc) ∧
    ((op.a.fmt = 5 ∨ op.a.fmt = 6) →
      mmaElement op m n acc = (List.range (op.a.k / len)).foldl (fun acc q =>
        (fit 32 (if op.sat then .signed else .wrap)
          (acc.toInt + ((List.range len).map fun i => op.a.ival m (q * len + i) * op.b.ival n (q * len + i)).sum)).1) acc)) ∧
  (∀ (s s1 : State) (b slot : Nat) (va : DWord) (pl : Place), (∀ c ∈ (s.blk b).tiller.scache, ¬(c.slot = slot ∧ c.va = va)) →
    (s.blk b).hold = [] → s.undo = [] → s.xlate (s.siteOf b) (s.asidOf b) .u .load true va = (s1, .ok pl) → inHbm s1 [(pl, 0, 1)] →
    ∃ t, s.scaleByte b slot va = (t, .ok ({ val := (s1.byteAt pl.key pl.pa).setWidth 32, side := s1.poisonAt pl.pa 1 }, pl.pa, pl.key)) ∧
      memSame s t ∧ ∃ c ∈ (t.blk b).tiller.scache, c.slot = slot ∧ c.va = va ∧ c.pa = pl.pa ∧ c.key = pl.key) ∧
  (∀ (s t : State) (b : Nat) (h : Hdr) (o : Operand) (ps : List (Nat × Nat)), s.readOperand b h = (t, .ok (o, ps)) →
    let sl := (s.blk b).tiller.slot (Hdr.ssel h)
    let n := if Hdr.smode h = 1 then 32 else 16
    let blocks := (Hdr.cols h + n - 1) / n
    { o with scales := [] } = plainOperand (s.blk b) h ∧ (Hdr.smode h = 0 → o.scales = [] ∧ ps = [] ∧ t = s) ∧
    ((Hdr.smode h = 1 ∨ Hdr.smode h = 2) → scalesAbove h sl →
      o.scales.length = Hdr.rows h * blocks ∧ ps.length = Hdr.rows h * blocks ∧ ∀ r c, r < Hdr.rows h → c < blocks →
        ∃ u w v p, u.scaleByte b (Hdr.ssel h) (scalePlace h sl r c) = (w, .ok (v, p)) ∧ ((s.blk b).hold = [] → memSame s u) ∧
          o.scales[r * blocks + c]? = some v ∧ ps[r * blocks + c]? = some p)) ∧
  (∀ (s s1 s2 : State) (g : Guard) (d a c : Nat) (ra sat : Bool) (oa ob : Operand × List (Nat × Nat)), s.cur.agent = .tiller →
    s.uguard g = true →
    let b := s.cur.blk
    let k := s.blk b
    let scr := (s.gridOf b).khdr.scratch
    let ha := k.hdr a
    let hb := k.hdr c
    let slot := fun h => k.tiller.slot (Hdr.ssel h)
    let hit := ∃ l, k.tiller.latch = some l ∧ ra = true ∧ l.hdr = a
    d < (s.gridOf b).khdr.acc → mmaOk ha hb sat = true →
    (scalesAbove ha (slot ha) → scalesAbove hb (slot hb) →
      Hdr.inside ha (fmtWidth2 (Hdr.fmt ha)) scr = true → Hdr.inside hb (fmtWidth2 (Hdr.fmt hb)) scr = true →
      (¬hit → k.tileAbsent ha (fmtWidth2 (Hdr.fmt ha)) = false) → k.tileAbsent hb (fmtWidth2 (Hdr.fmt hb)) = false →
      k.tiller.loading = none → k.tiller.flight.length < 4 → (hit → ∀ op ∈ k.tiller.flight, op.reading = false) →
      (hit → s1 = s ∧ ∀ l, k.tiller.latch = some l → oa = (l.op, [])) → (¬hit → s.readOperand b ha = (s1, .ok oa)) →
      s1.readOperand b hb = (s2, .ok ob) →
      ∃ fl, fl.length = k.tiller.flight.length ∧
        (∀ (i : Nat) (op : MmaOp), k.tiller.flight[i]? = some op →
          ∃ sa, fl[i]? = some { op with fill := false, sa := sa } ∧ ((op.fill = false ∨ ¬hit) → sa = op.sa)) ∧
        ∃ fresh : Bool, (fresh = true ↔ ¬hit) ∧
        UniDone s (s2.modTiller b fun t => { t with
          flight := fl ++ [{ tile := d, a := oa.1, b := ob.1, sat := sat, ha := ha, hb := hb, afresh := fresh, fill := ra && fresh
                             reading := true, sa := oa.2, sb := ob.2 }]
          latch := if ra then some { hdr := a, op := oa.1 } else none }) (.mma g d a c ra sat) uNone s.cur.next) ∧
    (¬(scalesAbove ha (slot ha) ∧ scalesAbove hb (slot hb)) →
      exec (.mma g d a c ra sat) s = .next ((s.settleStream b).failBlock b 0x0F s.cur.pc 0 0)))

/-- R156, R157, R308, R319, R320, R337: products of tiles, and the scales of their operands.
Readings of the model, not of the spec, that it rests on: log 42. -/
def Obligations.MatrixProductResults : Prop :=
  Sys2Proof.Claims.MatrixProductResults ∧ Sys2Proof.Claims.ScaledProductResults

/-! ### Work (03 R61 to R87, 13 R266 to R268, 19 R359 to R363) -/

/-- R65, R66, R266 to R268, R28, R69: `launch` reads its record, places it in the queue of the child's priority and answers 0 with a
handle that no live grid of the context holds, or 1 with handle 0 from a full queue, due until they land; `gridgrow` adds to `GX` where
it may and gives the old `GX` and whether it grew; `capq` makes four stores of 16 bytes each, in order, of the 64 bytes of the capacity
record.
Readings of the model, not of the spec, that it rests on: logs 8, 51. -/
def Obligations.LaunchInstructionResults : Prop :=
  ∀ (s s1 : State) (g : Guard) (d a : Nat) (off : BitVec 16) (pl : Place), s.cur.agent ≠ .tiller → s.cur.lanes.Nodup →
    s.uguard g = true → s.namesOk [] [d, d + 1, a, a + 1] = true → noneWaits s → s.holding s.cur.blk = false → inHbm s1 [(pl, 0, 64)] →
    let asid := s.asidOf s.cur.blk
    let gr := s.gridOf s.cur.blk
    let va := s.ur2 a + off.signExtend 64
    (∀ qp, let n := (s.ur a).toNat
      let ok := decide (gr.gy = 1 ∧ gr.gz = 1 ∧ gr.chained = false ∧ n % gr.gsize = 0 ∧ gr.gx + n ≤ 0xFFFFFFFF)
      UniDone s (s.setGrid (s.blk s.cur.blk).grid (if ok then { gr with gx := gr.gx + n } else gr)) (.gridgrow g qp d a)
        { regs := [(d, BitVec.ofNat 32 gr.gx)], preds := [(qp, ok)] } s.cur.next) ∧
    (va.toNat % 64 = 0 →
      (s.xlateLane s.cur.blk s.cur.level .store va 64 = (s1, .ok [(pl, 0, 64)]) → s.cur.lanes ≠ [] →
        let k := s.blk s.cur.blk
        let new := (List.range 4).map fun c => ({ warp := s.cur.warp, lanes := s.cur.lanes, addr := pl.pa + 16 * c
                                                  bytes := (s1.cap.bytes.drop (16 * c)).take 16, poison := false, key := pl.key
                                                  stream := pl.ord == 2, exec := s.steps } : PStore)
        ∃ t, exec (.capq g a off) s = .next t ∧ memSame s t ∧ (t.blk s.cur.blk).pend = k.pend ++ new ∧ s1.cap.bytes.length = 64 ∧
          WarpTook s1 (t.modBlk s.cur.blk fun x => { x with pend := k.pend }) s.cur.next uNone) ∧
      (s.xlateLane s.cur.blk s.cur.level .load va 64 = (s1, .ok [(pl, 0, 64)]) → gr.depth ≠ 9 → (entryReads s1 [(pl, 0, 64)]).2 = false →
        let r := recordOf (entryReads s1 [(pl, 0, 64)]).1
        let q := min r.qpri gr.pri
        let old := fget [] (s.ctx asid).devq q
        (old.length < 4096 →
          ∃ t h, exec (.launch g d a off) s = .next t ∧ memSame s t ∧ ((s.handles asid).length < 2 ^ 32 - 1 → h ≠ 0 ∧ h ∉ s.handles asid) ∧
            t.ctx asid = { s.ctx asid with
              devq := fput (s.ctx asid).devq q (old ++ [{ r with ctx := asid, parent := some (s.blk s.cur.blk).grid, hres := h }]) } ∧
            (∀ c, c ≠ asid → t.ctx c = s.ctx c) ∧
            UldTook s1 { t with ctxs := s1.ctxs } { regs := [(d, 0), (d + 1, h)], preds := [] }) ∧
        (4096 ≤ old.length →
          ∃ t, exec (.launch g d a off) s = .next t ∧ memSame s t ∧
            UldTook s1 t { regs := [(d, 1), (d + 1, 0)], preds := [] })))

/-- R67, R68, R70, R71, R76: a record of 64 bytes written to an enabled port with room is queued there, and to a port that is not
enabled is refused with code 0x06; the Dibber visits every queue of a level once in a pass before a lower level, and no queue twice; no
queue again before every die has been served; it takes the head of a queue: refused at a port that is not enabled, left while its
counter has not reached its value, and admitted, where every check passes, as a live grid with its header, dimensions and priority; a
counter read acts on a head that waits as taking it does.
Readings of the model, not of the spec, that it rests on: logs 15, 50, 61. -/
def Obligations.LaunchQueueResults : Prop :=
  (∀ (s : State) (p : Nat) (bytes : List Byte), s.phase ≠ .coldFrame → p < 64 → s.rdy 52 = true → s.io ≠ .changeover →
    (s.port p).q.length < 256 →
    ((s.port p).enable = true → bytes.length = 64 →
      exec (.launchRecordWrite 0 p 0 bytes) s =
        .next ((s.setPort p { s.port p with q := (s.port p).q ++ [recordOf bytes] }).out .successful)) ∧
    ((s.port p).enable = false →
      exec (.launchRecordWrite 0 p 0 bytes) s =
        .next ((s.setPort p { s.port p with refcnt := (s.port p).refcnt + 1, lastcode := 6 }).out .successful))) ∧
  (∀ (s : State) (q l : Nat), s.dibberUp = true → s.queueLevel q = some l →
    (s.served = none →
      (l = s.dlevel → q ∈ s.queues → q ∉ s.visited → s.comeTo q = some { s with visited := q :: s.visited }) ∧
      (∀ x m, x ∈ s.queues → x ∉ s.visited → s.queueLevel x = some m → l < m → m ≤ s.dlevel → exec (.dibberTakeHead q) s = .next s) ∧
      (∀ x, x ∈ s.queues → x ∉ s.visited → s.queueLevel x = some s.dlevel → q ∈ s.visited → exec (.dibberTakeHead q) s = .next s)) ∧
    (∀ x d, s.served = some x → d ∈ computeSites → d ∉ x.2 → s.eligible d = true → s.nextBlocks d ≠ [] →
      exec (.dibberTakeHead q) s = .next s) ∧
    (∀ s', s.comeTo q = some s' → q ∈ s.queues ∧ s'.dlevel = l ∧ q ∈ s'.visited ∧
      { s' with dlevel := s.dlevel, visited := s.visited, served := s.served } = s)) ∧
  (∀ (s s' : State) (q : Nat) (r : LaunchRec) (rest : List LaunchRec), s.dibberUp = true → s.queue q = r :: rest →
    s.comeTo q = some s' →
    ((s.ctx r.ctx).bound = true →
      (r.lflags.getLsbD 3 = false → exec (.waitCounterRead q) s = .next s) ∧
      (r.lflags.getLsbD 3 = true → exec (.waitCounterRead q) s = exec (.dibberTakeHead q) s ∧
        ∀ s1 bs, r.waddr.toNat % 8 = 0 → s'.agentRead r.ctx r.waddr 8 = (s1, some bs) → leNat bs < r.wval.toNat →
          exec (.dibberTakeHead q) s = .next s1)) ∧
    (r.lflags.getLsbD 3 = false → q < 64 → ((s.port q).enable = false ∨ r.ctx ≠ (s.port q).asid ∨ (s.ctx r.ctx).bound = false) →
      ∃ t, exec (.dibberTakeHead q) s = .next t ∧ t.port q = { s.port q with q := rest, refcnt := (s.port q).refcnt + 1, lastcode := 6 } ∧
        { t with ports := s.ports } = s') ∧
    (r.lflags.getLsbD 3 = false → q < 64 → (s.port q).enable = true → r.ctx = (s.port q).asid → (s.ctx r.ctx).bound = true →
      r.lflags.getLsbD 2 = false → r.parent = none →
      ∀ s1 h m, (s'.setQueue q rest).validate r = (s1, .ok (h, m)) →
        ∃ t, exec (.dibberTakeHead q) s = .next t ∧ t.nextGrid = s1.nextGrid + 1 ∧
          let x := t.grid s1.nextGrid
          x.phase = .live ∧ x.asid = r.ctx ∧ x.khdr = h ∧ x.pmap = m ∧ x.gx = r.gx ∧ x.gy = r.gy ∧ x.gz = r.gz ∧ x.gsize = r.gsize ∧
          x.pri = min r.qpri (s1.port q).pcap ∧ x.chained = r.lflags.getLsbD 0 ∧ x.replay = r.lflags.getLsbD 1 ∧ x.args = r.args ∧
          x.caddr = r.caddr ∧ x.parent = none ∧ x.depth = 0 ∧ x.next = 0 ∧ x.retired = 0 ∧
          ∀ i, i ≠ s1.nextGrid → t.grid i = s1.grid i)) ∧
  (∀ (s : State) (part addr asid : Nat) (c : Ctx), s.phase = .up → part < 256 → s.poisonAt addr 128 = false → s.paKind addr = .hbm →
    (∀ sec, fget false (s.site home).bad sec = false ∧ fget false (s.site home).dirty sec = false) →
    ctxOf part (s.bytesAt 0 addr 128) = some (asid, c) → s.idleCtx asid = true →
    ∃ t, exec (.bindContextDescriptor part addr) s = .next t ∧ t.ctx asid = c ∧ c.bound = true ∧ c.part = part ∧
      c.xptb = (BitVec.ofNat 64 (leNat (s.bytesAt 0 addr 8))).extractLsb' 14 38 ∧ (∀ a, a ≠ asid → t.ctx a = s.ctx a) ∧
      { t with ctxs := s.ctxs } = s)

/-- R59, R61, R73 to R76, R81 to R83, R85, R235, R360 to R363: a die, at its turn, which no die has while a queue is left to visit,
takes the next block of an unchained grid: it is resident on its core, with its threads live at the entry; a block of which every thread
has exited, whose tiller has stopped and whose commands are done retires, its grid counts it, and deliveries begun into it are dropped;
a planned fence past its drain saves a block into its context's save area, with the `RESUME_MAX` of that moment for its wait; it resumes
with its state, its ages 0 and its scale cache empty, on a core with room; a wait that has reached `RESUME_MAX` makes room where no die
has any.
Readings of the model, not of the spec, that it rests on: logs 16, 20, 48, 61. -/
def Obligations.BlockLifeResults : Prop :=
  (∀ (s : State) (g site core : Nat), (s.ctx (s.grid g).asid).sched = true → s.dibberUp = true → s.eligible site = true →
    (s.grid g).chained = false → .start g ∈ s.nextBlocks site → s.fits site core (s.grid g).khdr = true →
    let x := s.grid g
    let b := s.nextBlock
    (s.served = none → s.passOver = false → exec (.blockStart g site core) s = .next s) ∧
    ((s.serve site).isSome = true → ∃ t, exec (.blockStart g site core) s = .next t ∧ t.nextBlock = b + 1 ∧ (t.grid g).next = x.next + 1 ∧
      (t.blk b).phase = .resident ∧ (t.blk b).site = site ∧ (t.blk b).core = core ∧ (t.blk b).grid = g ∧ (t.blk b).lin = x.next ∧
      (t.blk b).order = s.orders + 1 ∧ (t.blk b).nwarps = (x.khdr.bx * x.khdr.by_ * x.khdr.bz + 63) / 64 ∧
      (∀ w i, let l := t.lane b w i
        (w < (t.blk b).nwarps → i < 64 → 64 * w + i < x.khdr.bx * x.khdr.by_ * x.khdr.bz →
          l.occ = .live ∧ l.pc = x.khdr.entry ∧ l.level = .u ∧ l.prio = x.prioAt x.khdr.entry ∧ l.pending = [] ∧ l.park = .none ∧
          l.rngs = rngsOf x.handle x.next (64 * w + i)) ∧
        ((64 ≤ i ∨ x.khdr.bx * x.khdr.by_ * x.khdr.bz ≤ 64 * w + i) → l = Lane.empty)) ∧
      ∀ c, c ≠ b → t.blk c = s.blk c)) ∧
  (∀ (s : State) (b : Nat), let k := s.blk b
    let r := s.rank b
    k.phase = .resident → k.allExited = true → k.tiller.run = false → k.cmds = [] → k.cancelled = [] → k.hops = [] → k.pend = [] → s.holding b = false →
    s.suspects = [] → (s.gridOf b).chained = false → (s.gridOf b).retired + 1 < (s.gridOf b).total →
    ∃ t, exec (.blockRetire b) s = .next t ∧ t.grid k.grid = { s.gridOf b with retired := (s.gridOf b).retired + 1 } ∧
      t.blk b = { Block.absent with grid := k.grid, lin := k.lin, site := k.site, core := k.core, order := k.order, attempts := k.attempts
                                    committed := true, nwarps := k.nwarps } ∧
      (∀ c, c ≠ b → { t.blk c with cmds := (s.blk c).cmds } = s.blk c ∧
        ((∀ x ∈ (s.blk c).cmds, fget Deliv.waiting x.deliv r ≠ .begun) → t.blk c = s.blk c) ∧
        (c ∈ s.members b → ∀ x ∈ (t.blk c).cmds, x.owes r = true → fget Deliv.waiting x.deliv r ≠ .begun)) ∧
      (∀ i, i ≠ k.grid → t.grid i = s.grid i) ∧ { t with blocks := s.blocks, grids := s.grids } = s) ∧
  (∀ (s : State) (b base : Nat), let k := s.blk b
    let n := (s.gridOf b).khdr.imageBytes
    (s.site k.site).stat = .fencing → (s.site k.site).deadline ≤ s.clock → s.canPreempt b = true → (s.gridOf b).chained = false →
    k.pend = [] → k.tiller.flight = [] → k.tiller.loading = none → (∀ c, (s.blk c).cmds = []) → s.findRoom (s.gridOf b).asid n = some base →
    s.unbackedIn base n = none →
    ∃ t, exec (.preemptBlock b .fence) s = .next t ∧
      t.blk b = { k with phase := .preempted, image := some (base, n, s.wcount + 1), waited := 0, since := s.clock
                         limit := (s.part (s.ctxOf b).part).xresume, tiller := { k.tiller with scache := [] } } ∧
      (∀ c, c ≠ b → t.blk c = s.blk c) ∧ t.wcount = s.wcount + 1 ∧ t.saves.head? = some (base, n, s.wcount + 1) ∧ t.grids = s.grids) ∧
  (∀ (s : State) (b site core base n sealed : Nat), let k := s.blk b
    (s.ctxOf b).sched = true → s.dibberUp = true → s.eligible site = true → k.phase = .preempted → (s.gridOf b).chained = false →
    .resume b ∈ s.nextBlocks site → s.fits site core (s.gridOf b).khdr = true → k.image = some (base, n, sealed) →
    s.imageAltered base n sealed = false → k.cancelled = [] → (s.serve site).isSome = true →
    ∃ t, exec (.resumeBlock b site core) s = .next t ∧ (t.blk b).phase = .resident ∧ (t.blk b).site = site ∧ (t.blk b).core = core ∧
      (t.blk b).order = s.orders + 1 ∧ (t.blk b).fresh = s.wcount + 1 ∧ (t.blk b).image = none ∧ (t.blk b).scratch = k.scratch ∧
      (t.blk b).acc = k.acc ∧ (t.blk b).tiller = { k.tiller with scache := [], synced := s.wcount + 1 } ∧ (t.blk b).bars = k.bars ∧
      (t.blk b).hdrs = k.hdrs ∧
      (∀ w, (t.warp b w).ages = [] ∧ (t.warp b w).s = (s.warp b w).s ∧ (t.warp b w).q = (s.warp b w).q ∧
        ∀ i, let l := s.lane b w i
          t.lane b w i = match l.park with | .mwait _ _ _ _ => { l with park := .none } | _ => l) ∧
      ∀ c, c ≠ b → t.blk c = s.blk c) ∧
  (∀ (s : State) (b : Nat), s.dibberUp = true → (s.blk b).phase = .preempted → (s.ctxOf b).sched = true →
    let s1 := s.reach ((s.blk b).since + (usec (s.blk b).limit - (s.blk b).waited))
    let u := s1.tickFree
    ((∃ d ∈ computeSites, s1.waitFits b d = true) → exec (.resumeMaxExpiry b) s = .next s1) ∧
    (∀ d v s2, s1.roomFor b = [d] → u.youngest (u.victims b d) = some v → u.preempt v = some s2 →
      s2.waitFits b d = true → exec (.resumeMaxExpiry b) s = .next s2))

/-! ### The Grafting Engine (21 R365 to R387) -/

namespace Sys2Proof.Claims

/-- t is s after the one executing lane n completed with these results, but for contexts, sites, the directory and free values. -/
def laneGraft (s t : State) (n la : Nat) (o : Gives) : Prop :=
  memSame s t ∧ SameBut s { t with ctxs := s.ctxs, sites := s.sites, dir := s.dir, freeIx := s.freeIx } s.cur.lanes ∧ laneLater s t n la o

/-- A slot that `route` may choose: live, and at most SBOUND rounds behind the executing die's view (21 R372). -/
def routable (x : GTab) (sl : Slot) (view : Nat) : Prop :=
  sl.state = .live ∧ sl.rfr = false ∧ (BitVec.ofNat 32 sl.stamp - (BitVec.ofNat 32 view - BitVec.ofNat 32 x.sbound)).toNat < 2 ^ 31

end Sys2Proof.Claims

/-- R371, R372, R374: `route` counts the route in the die's load, takes a reference on the slot it chooses and gives the handle and the
slot's buffer; it chooses the least `REF` among the slots that may serve, else the rootstock; with the engine down it gives
version 0 and changes nothing. `rdone` returns a reference, and a handle that no longer holds is ignored. -/
def Obligations.RouteResults : Prop :=
  (∀ (s : State) (g : Guard) (d a t la n : Nat), Legal s [d, d + 1, d + 2, d + 3, a] → acting s g = [n] → ((s.cl n).rv a).side = false →
    let asid := s.asidOf s.cur.blk
    let x := s.tab asid t
    let e := ((s.cl n).rd a).toNat
    let ex := x.expert e
    let die := s.siteOf s.cur.blk
    let view := fget 0 (s.tabRegion asid t).views die
    let quad := fun (lo ver : Word) (buf : DWord) => ({ preds := [], flags := 0, rngs := (s.cl n).rngs, regs :=
      [(d, { val := lo, side := false }), (d + 1, { val := ver, side := false }), (d + 2, { val := buf.extractLsb' 0 32, side := false }),
       (d + 3, { val := buf.extractLsb' 32 32, side := false })] } : Gives)
    x.bound = true → e < x.nexp → ex.merging = false →
    (s.graftUp = true →
      ∃ i u, exec (.route g d a t la) s = .next u ∧ i < 16 ∧
        (i ≠ 0 → routable x (ex.slot i) view ∧ ∀ j, 1 ≤ j → j < 16 → routable x (ex.slot j) view →
          (ex.slot i).ref ≤ (ex.slot j).ref ∧ ((ex.slot i).ref = (ex.slot j).ref → i ≤ j)) ∧
        (i = 0 → ∀ j, 1 ≤ j → j < 16 → ¬routable x (ex.slot j) view) ∧
        laneGraft s u n la (quad (BitVec.ofNat 32 (i + e * 16 + t * 2 ^ 16)) x.ver (x.buf e i)) ∧
        u.ctx asid = (s.ctx asid).setTab t (x.setExpert e (({ ex with
          load := fset 0 ex.load die (fget 0 ex.load die + 1), winLoad := ex.winLoad + 1 } : Expert).setSlot i
            { ex.slot i with ref := (ex.slot i).ref + 1, hits := (ex.slot i).hits + 1 })) ∧
        ∀ c, c ≠ asid → u.ctx c = s.ctx c) ∧
    (s.graftUp = false →
      ∃ u, exec (.route g d a t la) s = .next u ∧ u.ctxs = s.ctxs ∧
        laneGraft s u n la (quad (BitVec.ofNat 32 (e * 16 + t * 2 ^ 16)) 0 (x.buf e 0)))) ∧
  (∀ (s : State) (g : Guard) (a la n t e i : Nat), Legal s [a, a + 1] → acting s g = [n] → (s.cl n).sideAny a 2 = false →
    let asid := s.asidOf s.cur.blk
    let x := s.tab asid t
    let v := (s.cl n).rd (a + 1)
    let sl := s.gslot asid t e i
    (s.cl n).rd a = BitVec.ofNat 32 (i + e * 16 + t * 2 ^ 16) → i < 16 → e < 4096 → t < 4 → x.bound = true → e < x.nexp →
    ((v = 0 ∨ 2 ^ 31 ≤ (v - sl.sver).toNat) →
      ∃ u, exec (.rdone g a la) s = .next u ∧ u.ctxs = s.ctxs ∧ laneGraft s u n la (.nothing (s.cl n))) ∧
    (v ≠ 0 → (v - sl.sver).toNat < 2 ^ 31 → sl.ref ≠ 0 → sl.state = .live → s.holding s.cur.blk = false →
      (∀ p ∈ (s.blk s.cur.blk).pend, ¬(p.warp = s.cur.warp ∧ n ∈ p.lanes)) →
      ∃ u, exec (.rdone g a la) s = .next u ∧ laneGraft s u n la (.nothing (s.cl n)) ∧
        u.gslot asid t e i = { sl with ref := sl.ref - 1 } ∧ (∀ j, j ≠ i → u.gslot asid t e j = s.gslot asid t e j) ∧
        ∀ c, c ≠ asid → u.ctx c = s.ctx c))

/-- R370, R371, R373, R379 to R382, R384, R386: the members of cell 0x0E of a warp, with no store of the entry waiting: `graft.bind`
binds the table of a valid descriptor whose rootstocks lie in its region; `graft.unbind` unbinds an idle one; `graft.rep` starts a copy
into the lowest free slot, or answers why not; `prune` drains a live slot in use and publishes; `gmerge` and `gmerge.all` are accepted
and stop routing to their experts; `grefresh` stamps every live slot with the present round, publishes and waits for those that drain
for a fresh copy; `gtabq` makes twenty stores of 16 bytes each, in order, of the 320 bytes of the record.
Readings of the model, not of the spec, that it rests on: logs 8, 52. -/
def Obligations.GraftInstructionResults : Prop :=
  ∀ (s : State) (g : Guard) (t a : Nat), s.cur.agent ≠ .tiller → s.cur.lanes.Nodup → s.uguard g = true → noneWaits s →
    s.holding s.cur.blk = false → s.namesOk [] [a, a + 1] = true → s.graftUp = true →
    let asid := s.asidOf s.cur.blk
    let x := s.tab asid t
    let next := s.cur.next
    (s.cur.level ≠ .u →
      (∀ (s1 : State) (ps : List (Place × Nat × Nat)) (y : GTab), (s.ur2 a).toNat % 128 = 0 →
        s.xlateLane s.cur.blk s.cur.level .load (s.ur2 a) 128 = (s1, .ok ps) → inHbm s1 ps → (entryReads s1 ps).2 = false → x.bound = false →
        tabOf (entryReads s1 ps).1 = some y → (s.ctx asid).rootsInside y = true →
        ∃ u, exec (.graftBind g t a) s = .next u ∧ memSame s u ∧ u.ctx asid = (s.ctx asid).setTab t y ∧ y.bound = true ∧ y.ver = 1 ∧
          (∀ c, c ≠ asid → u.ctx c = s.ctx c) ∧ WarpTook s1 { unseen s1 u with ctxs := s1.ctxs } next uNone) ∧
      (x.bound = true → x.busy = false → x.work = [] →
        UniDone s ((s.setTab asid t x).setTab asid t GTab.unbound) (.graftUnbind g t) uNone next) ∧
      (∀ d, s.namesOk [] [d, a] = true → x.bound = true →
        let e := (s.ur a).toNat
        e < x.nexp →
        ((∀ i, 1 ≤ i → i < 16 → ((x.expert e).slot i).state ≠ .free) → UniDone s s (.graftRep g t d a) (uReg d 1) next) ∧
        (∀ i, 1 ≤ i → i < 16 → ((x.expert e).slot i).state = .free → (∀ j, 1 ≤ j → j < i → ((x.expert e).slot j).state ≠ .free) →
          (s.chooseDie asid t e = none → UniDone s s (.graftRep g t d a) (uReg d 2) next) ∧
          ∀ die, s.chooseDie asid t e = some die →
            UniDone s (s.startCopy asid t e i die) (.graftRep g t d a) (uReg d (BitVec.ofNat 32 (i * 256))) next)) ∧
      (∀ b, s.namesOk [] [a, b] = true → x.bound = true →
        let e := (s.ur a).toNat
        let i := (s.ur b).toNat
        let sl := s.gslot asid t e i
        e < x.nexp → 1 ≤ i → i < 16 →
        (sl.state = .free → UniDone s s (.prune g t a b) uNone next) ∧
        (sl.state = .live → sl.ref ≠ 0 →
          UniDone s ((s.putSlot asid t e i { sl with state := .draining, rfr := false }).publishTab asid t) (.prune g t a b) uNone next))) ∧
    (x.bound = true → ∀ (s1 : State) (ps : List (Place × Nat × Nat)), (s.ur2 a).toNat % 8 = 0 →
      s.xlateLane s.cur.blk (if s.cur.level = .h then .s else s.cur.level) .atomic (s.ur2 a) 8 = (s1, .ok ps) →
      (∀ b, s.namesOk [] [b, a, a + 1] = true → (s.ur b).toNat < x.nexp → (x.expert (s.ur b).toNat).merging = false →
        let e := (s.ur b).toNat
        UniDone s (s1.setTab asid t { x.setExpert e { x.expert e with merging := true } with work := x.work ++ [.merge [e] [e] (s.ur2 a)] })
          (.gmerge g t a b) uNone next) ∧
      ((∀ e, e < x.nexp → (x.expert e).merging = false) →
        UniDone s (s1.acceptMerge asid t (List.range x.nexp) (s.ur2 a)) (.gmergeAll g t a) uNone next) ∧
      (x.replicas (fun sl => sl.state == .live) = [] →
        UniDone s (s1.setTab asid t { x with
          work := x.work ++ [.refresh (x.replicas fun sl => sl.state == .draining && sl.rfr) (s.ur2 a)] }) (.grefresh g t a) uNone next) ∧
      (∀ e i, x.replicas (fun sl => sl.state == .live) = [(e, i)] →
        UniDone s (s1.setTab asid t { x.setExpert e ((x.expert e).setSlot i { (x.expert e).slot i with stamp := (s.tabRegion asid t).count }) with
          work := x.work ++ [.refresh (x.replicas fun sl => sl.state == .draining && sl.rfr) (s.ur2 a)], ver := x.ver + 1 })
          (.grefresh g t a) uNone next)) ∧
    (∀ (b : Nat) (off : BitVec 16) (s1 : State) (ps : List Place), s.namesOk [] [b, a, a + 1] = true → x.bound = true → s.cur.lanes ≠ [] →
      let e := (s.ur b).toNat
      let va := s.ur2 a + off.signExtend 64
      let k := s.blk s.cur.blk
      e < x.nexp → va.toNat % 64 = 0 → s.xlateSpan va .store 5 = (s1, .ok ps) → ps.length = 5 → inHbm s1 (ps.map fun p => (p, 0, 64)) →
      let new := (((List.range 5).zip ps).map fun p => (List.range 4).map fun c => ({
        warp := s.cur.warp, lanes := s.cur.lanes, addr := p.2.pa + 16 * c, bytes := ((s.gtabRecord asid t e).drop (64 * p.1 + 16 * c)).take 16
        poison := false, key := p.2.key, stream := p.2.ord == 2, exec := s.steps } : PStore)).flatten
      ∃ u, exec (.gtabq g t a b off) s = .next u ∧ memSame s u ∧ (u.blk s.cur.blk).pend = k.pend ++ new ∧
        (s.gtabRecord asid t e).length = 320 ∧ WarpTook s1 (u.modBlk s.cur.blk fun x => { x with pend := k.pend }) next uNone)

namespace Sys2Proof.Claims

/-- The place of element j of the buffer of an expert and slot (21 R369, R380). -/
def gradAt (s : State) (asid t e : Nat) (ps : List (Nat × Place)) (i j : Nat) : Place := placeIn ps (((s.tab asid t).buf e i).toNat + 4 * j)
/-- An element that is poison: in a poisoned sector, or of the poison pattern. -/
def gradBad (s : State) (pl : Place) : Bool := s.poisonAt pl.pa 4 || leNat (s.bytesAt pl.key pl.pa 4) == 0x7FE05EED

end Sys2Proof.Claims

/-- R376, R377, R365: a copy that has translated its rootstock, met no failure but perhaps a write before it read the line, and finds
no poison goes live with the round it read and a new version, its die a sharer of each line; a copy that failed frees its slot and is
logged. -/
def Sys2Proof.Claims.GraftCopyResults : Prop :=
  ∀ (s : State) (asid t e i : Nat), let x := s.gslot asid t e i
    s.graftUp = true → s.suspects = [] → (s.tab asid t).bound = true → i ≠ 0 → x.state = .copying →
    ((x.fail = 0 ∨ x.fail = 4) → x.foot ≠ [] → (∀ f ∈ x.foot, s.poisonFor x.site f.1 f.2 = false) →
      ∃ u, exec (.graftCopyVerified asid t e i) s = .next u ∧ memSame s u ∧ (u.tab asid t).ver = (s.tab asid t).ver + 1 ∧
        u.gslot asid t e i = { x with state := .live, rfr := false, stamp := x.round, sver := (s.tab asid t).ver + 1, hits := 0, whole := false
                                      fail := 0, held := [] } ∧
        (∀ j, j ≠ i → u.gslot asid t e j = s.gslot asid t e j) ∧ (∀ c, c ≠ asid → u.ctx c = s.ctx c) ∧
        (x.site ≠ home → x.held.length = x.foot.length → ∀ f ∈ x.foot, s.paKind f.1 = .hbm → ∀ l ∈ linesOf f.1 f.2, x.site ∈ fget [] u.dir l) ∧
        { u with ctxs := s.ctxs, sites := s.sites, dir := s.dir, bridge := s.bridge, mem := s.mem, mclog := s.mclog, bar2 := s.bar2
                 outs := s.outs, peers := s.peers, freeIx := s.freeIx } = s) ∧
    ∀ kind : Nat, let poisoned := x.foot.any fun f => s.poisonFor x.site f.1 f.2
      (kind = 1 ∧ (x.fail = 0 ∨ x.fail = 4) ∧ poisoned = true) ∨ (kind = 3 ∧ (x.fail = 0 ∨ x.fail = 4) ∧ x.foot ≠ [] ∧ poisoned = false) ∨
        (kind = 4 ∧ x.fail = 4) ∨ (kind = 8 ∧ x.fail = 8) →
      let s1 := s.putSlot asid t e i x.freed
      (s1.gslot asid t e i).state = .free ∧ exec (.graftCopyFail asid t e i kind) s = .next (s1.graftEvent asid t e i kind (s.tab asid t).ver)

/-- R18, R380, R382: while a controller does the engine's work, a merge whose next expert is unheld merges it, and after the last adds
to its counter; a refresh whose slots have settled adds to its counter; with none, neither. The merge of an expert whose buffers are in
HBM, apart from each other: each element of buffer 0 is the FP32 sum over the slots in ascending order with one rounding per addition,
poison with its sector where a term is; the others are 0, clean. -/
def Sys2Proof.Claims.GradientMergeResults : Prop :=
  (∀ (s : State) (asid t e : Nat) (left all : List Nat) (c : DWord) (r : List GWork) (s1 : State),
    s.engineUp = true → s.suspects = [] → (s.tab asid t).work = .merge (e :: left) all c :: r → (∀ j, j < 16 → (((s.tab asid t).expert e).slot j).ref = 0) →
    s.mergeExpert asid t e = (s1, true) →
    let x := s1.tab asid t
    (left = [] →
      exec (.expertMerge asid t) s =
        .next ((s1.setTab asid t { x.stopMerging all with work := x.work.erase (.merge [e] all c) }).graftCount asid c 1)) ∧
    (left ≠ [] →
      exec (.expertMerge asid t) s = .next (s1.setTab asid t { x with
        work := x.work.map fun w => if w = .merge (e :: left) all c then .merge left all c else w }))) ∧
  (∀ (s : State) (asid t : Nat) (c : DWord), s.engineUp = true → s.suspects = [] → (s.tab asid t).work = [.refresh [] c] →
    exec (.grefreshCounterAdd asid t) s = .next ((s.setTab asid t { s.tab asid t with work := [] }).graftCount asid c 2)) ∧
  (∀ (s : State) (asid t : Nat), s.engineUp = false →
    exec (.expertMerge asid t) s = .next s ∧ exec (.grefreshCounterAdd asid t) s = .next s) ∧
  (∀ (s s1 : State) (asid t e : Nat) (ps : List (Nat × Place)), s.mergePages asid t e (upto 0 16) = (s1, .ok ps) →
    let n := (s.tab asid t).gelem
    let at_ := gradAt s asid t e ps
    let bad := fun i j => gradBad s1 (at_ i j)
    let val := fun i j => leNat (s1.bytesAt (at_ i j).key (at_ i j).pa 4)
    let sum := fun j => (List.range 15).foldl (fun acc i =>
      (fdot fp32 [(fp32.decode acc, one), (fp32.decode (val (i + 1) j), one)] none .rn false).1) (val 0 j)
    n % 8 = 0 → (∀ i, i < 16 → ((s.tab asid t).buf e i).toNat % 32 = 0) → (∀ x ∈ s1.saves, x.2.2 ≤ s1.wcount) →
    (∀ i j, i < 16 → j < n → s1.paKind (at_ i j).pa = .hbm ∧ (at_ i j).pa + 32 ≤ 0x8000000000000 ∧ (at_ i j).key = (at_ 0 0).key) →
    (∀ i j k l, i < 16 → j < n → k < 16 → l < n → (at_ i j).pa / 32 = (at_ k l).pa / 32 → i = k ∧ j / 8 = l / 8) →
    ∃ u, s.mergeExpert asid t e = (u, true) ∧ ∀ j, j < n →
      u.bytesAt (at_ 0 j).key (at_ 0 j).pa 4 = leBytes 4 (if (List.range 16).any (bad · j) then 0x7FE05EED else sum j) ∧
      u.sectorPoison ((at_ 0 j).pa / 32) = (List.range 8).any (fun k => (List.range 16).any (bad · (j / 8 * 8 + k))) ∧
      ∀ i, 1 ≤ i → i < 16 → u.bytesAt (at_ i j).key (at_ i j).pa 4 = [0, 0, 0, 0] ∧ u.sectorPoison ((at_ i j).pa / 32) = false)

/-- R379: the policy on an expert at a window's end: over `HOT` routes start one copy, into the lowest free slot, on the die that is
chosen; a slot that has been live for the whole window with fewer than `COLD` hits is pruned; its loads and hits start at 0. At the
window's end the engine, while it works, applies it to each table whose `AUTO` is 1, its experts in order; each table's window starts
anew, with the load of the last one kept. -/
def Sys2Proof.Claims.GraftWindowResults : Prop :=
  (∀ (s : State) (asid t e : Nat), let x := s.tab asid t
    let ex := x.expert e
    let u := s.policyExpert asid t e
    let free := (upto 1 15).filter fun i => (ex.slot i).state == .free
    let copies := fun i d => x.hot < (ex.load.map fun l => l.2).sum ∧ free.head? = some i ∧ s.chooseDie asid t e = some d
    ((u.tab asid t).expert e).load = [] ∧ (∀ j, (u.gslot asid t e j).hits = 0) ∧
    (∀ i d, copies i d → (u.gslot asid t e i).state = .copying ∧ (u.gslot asid t e i).site = d) ∧
    ∀ j, 1 ≤ j → j < 16 → (¬∃ d, copies j d) → (u.gslot asid t e j).state =
      let sl := ex.slot j
      if sl.state = .live ∧ sl.whole = true ∧ sl.hits < x.cold then (if sl.ref = 0 then .free else .draining) else sl.state) ∧
  (∀ s : State,
    let s1 := s.reach s.windowAt
    let s2 := if s.graftUp = true then (s1.boundTabs.filter fun k => (s1.tab k.1 k.2).auto).foldl (fun s k =>
      (fkeys (s.tab k.1 k.2).experts).foldl (fun s e => s.policyExpert k.1 k.2 e) s) s1 else s1
    ∃ u, exec .graftWindowEnd s = .next u ∧ u.windowAt = s.windowAt + 1300 * s2.xgwin ∧ (∀ d, (u.site d).resid = 0) ∧
      { u with ctxs := s2.ctxs, windowAt := s2.windowAt, sites := s2.sites } = s2 ∧
      (s.boundTabs = [] → u.ctxs = s.ctxs) ∧
      ∀ k ∈ s2.boundTabs, s2.boundTabs.Nodup → (s2.tab k.1 k.2).bound = true → ∀ e,
        let y := (s2.tab k.1 k.2).expert e
        let z := (u.tab k.1 k.2).expert e
        z.winLoad = 0 ∧ z.lastLoad = y.winLoad ∧ z.load = y.load ∧
          ∀ i, z.slot i = { y.slot i with whole := (y.slot i).state == .live })

/-- R365, R376, R377, R379, R380, R382: the events of the Grafting Engine: copies, merges and refreshes, windows.
Readings of the model, not of the spec, that it rests on: log 52. -/
def Obligations.GraftEventResults : Prop :=
  Sys2Proof.Claims.GraftCopyResults ∧ Sys2Proof.Claims.GradientMergeResults ∧ Sys2Proof.Claims.GraftWindowResults

/-! ### The life of the package (01 R14 to R40, 23 R388, R389, R408) -/

namespace Sys2Proof.Claims

/-- No record of the machine waits to be told of a capacity event: neither notice place is enabled and no chained grid is live. -/
def untold (s : State) : Prop :=
  s.bar2.nrbase.getLsbD 0 = false ∧ s.bar2.dnbase.getLsbD 0 = false ∧ ∀ g, (s.grid g).chained = false

/-- The sites, the stacks and the log entry of a boot. -/
def booted (s : State) (step unit st : Nat) : State :=
  { s.tickFree with dvsec := { s.dvsec with log := s.dvsec.log ++ [{ step := step, unit := unit, status := st, time := s.nsclk }] } }

/-- The declared topology trained, and nothing else. -/
def topologyOk (s : State) (sites : BitVec 24) (hbm : BitVec 12) : Prop :=
  (∀ n, n < 24 → sites.getLsbD n = s.declared n) ∧ ∀ k, k < 12 → hbm.getLsbD k = s.declared (24 + k)

/-- The registers of the host to which no reset, boot or fence gives another value (their frame). -/
def calm (s t : State) : Prop :=
  memSame s t ∧ t.hostMem = s.hostMem ∧ t.ports = s.ports ∧ t.bar2 = s.bar2 ∧ t.parts = s.parts ∧ t.clock = s.clock

end Sys2Proof.Claims

/-- A capacity event: from the first record on it publishes one generation, with the record of the configuration that it leaves; before
it, none. -/
def Sys2Proof.Claims.publishesOne (s t : State) : Prop :=
  (s.capLog = true → t.cap = t.capNow (s.cap.gen + 1) ∧ t.capLog = true) ∧ (s.capLog = false → t.cap = s.cap ∧ t.capLog = false)

/-- R33, R36, R38 to R40, R43: package reset; the end of boot: into Cold Frame with a bad signature, with a declared site or stack that
did not train, one of them named, and, the model's choice of log 7, with a unit that trained undeclared; else up. A site, a stack, a
peer port or another item becomes ready: its bit is set (that of the Dibber not while the I/O dies change over, that of a port not on a
fenced I/O die); of these a compute die, a stack, whose channels then carry lines too, and a port publish a generation once the first
record stands; the first record has generation 1. -/
def Sys2Proof.Claims.BootAndReadiness : Prop :=
  (∀ s : State, exec .packageReset s = .next { State.reset with
      hostMem := s.hostMem, straps := s.straps, agenda := s.agenda, freeIx := s.freeIx, steps := s.steps, outs := s.outs } ∧
    ∀ site, site < 18 → (s.site site).stat = .active → exec (.clockHoldFailure site) s = exec .packageReset s) ∧
  (∀ (s : State) (sites : BitVec 24) (hbm : BitVec 12), s.phase = .booting →
    let cold := fun t : State => t.phase = .coldFrame ∧ { t with phase := s.phase, dvsec := s.dvsec, freeIx := s.freeIx } = s
    let lacks := fun u => (u < 24 ∧ s.declared u = true ∧ sites.getLsbD u = false) ∨
      ∃ k, k < 12 ∧ u = 0x100 + k ∧ s.declared (24 + k) = true ∧ hbm.getLsbD k = false
    let extra := fun u => (u < 24 ∧ s.declared u = false ∧ sites.getLsbD u = true) ∨
      ∃ k, k < 12 ∧ u = 0x100 + k ∧ s.declared (24 + k) = false ∧ hbm.getLsbD k = true
    (topologyOk s sites hbm → ∃ st, exec (.bootTopologyCheck true sites hbm) s = .next { booted s 4 0 st with phase := .up }) ∧
    (∃ t, exec (.bootTopologyCheck false sites hbm) s = .next t ∧ cold t ∧ t.dvsec.dstep = 2 ∧ t.dvsec.dkind = 1) ∧
    (∀ u, lacks u → ∃ t, exec (.bootTopologyCheck true sites hbm) s = .next t ∧ cold t ∧ t.dvsec.dstep = 3 ∧ lacks t.dvsec.dunit ∧
      t.dvsec.dkind = if t.dvsec.dunit < 24 then 2 else 3) ∧
    (∀ u, extra u → (∀ v, ¬lacks v) → ∃ t, exec (.bootTopologyCheck true sites hbm) s = .next t ∧ cold t ∧ t.dvsec.dstep = 4 ∧
      t.dvsec.dkind = 4 ∧ extra t.dvsec.dunit)) ∧
  (∀ (s : State) (n : Nat), s.phase = .up → s.rdy n = false → untold s →
    let ready := fun t : State => exec (.nodeReady n) s = .next t ∧ t.rdymap = (s.rdymap ||| (1 : DWord) <<< n) ∧ calm s t
    (n < 24 → n ≠ 16 → n ≠ 17 → s.declared n = true → (s.site n).stat = .off →
      ∃ t, ready t ∧ t.site n = { s.site n with stat := .active } ∧ (∀ d, d ≠ n → t.site d = s.site d) ∧
        (∀ a r, ((t.ctx a).region r).view n = ((t.ctx a).region r).count) ∧ (n < 18 → publishesOne s t) ∧ (18 ≤ n → t.cap = s.cap)) ∧
    (∀ k, n = 24 + k → k < 12 → s.declared n = true → (∀ l ∈ s.losses, l.ch / 32 ≠ k) →
      ∃ t, ready t ∧ publishesOne s t ∧ t.placing.lay = { gen := t.cap.gen.toNat, chans := t.liveChannels }) ∧
    (∀ p, n = 36 + p → p < 16 → (s.peer p).disabled = false → (s.site (if p < 8 then 22 else 23)).stat ≠ .fenced →
      ∃ t, ready t ∧ t.peer p = { s.peer p with trained := true } ∧ (∀ q, q ≠ p → t.peer q = s.peer q) ∧ publishesOne s t) ∧
    (n = 52 → s.rdy (if s.io = .primary then 22 else 23) = true → s.io ≠ .changeover →
      exec (.nodeReady n) s = .next { s with rdymap := s.rdymap ||| (1 : DWord) <<< 52 }) ∧
    (n = 52 → s.io = .changeover → exec (.nodeReady n) s = .next s) ∧
    (n = 53 → s.rdy 22 = true → s.io = .primary → exec (.nodeReady n) s = .next { s with rdymap := s.rdymap ||| (1 : DWord) <<< 53 }) ∧
    (n = 54 → exec (.nodeReady n) s = .next
      { s with cap := s.capNow 1, capLog := true, hbmTop := (s.capNow 1).hbm, hdmTop := (s.capNow 1).hbm
               rdymap := s.rdymap ||| (1 : DWord) <<< 54 }) ∧
    (n = 55 → exec (.nodeReady n) s = .next { s with rdymap := s.rdymap ||| (1 : DWord) <<< 55 }))

/-- R14 to R18, R28, R40, R378, R408: a planned fence of a compute die, its drain, which writes back what the die holds modified, and its
completion, before which it does so once more; an error fence, which poisons what the die held modified; each clears the die's bit,
empties its caches and publishes one generation; a fence of the I/O die in use stops the Dibber, one of I/O die 0 the Grafting Engine
and, by log 67, the host's port and memory, and of either the peer ports that log 67 puts on it; a spare; the change of I/O dies. -/
def Sys2Proof.Claims.NodeFences : Prop :=
  (∀ (s : State) (n : Nat), n < 18 →
    ((s.site n).stat = .active →
      exec (.plannedFence n) s = .next (s.setSite n { s.site n with stat := .fencing, deadline := s.clock + 1300000 })) ∧
    (s.onDie n = [] → (∀ b, (s.blk b).phase ≠ .preempted) →
      ((s.site n).stat = .fencing →
        let s1 := s.reach (s.site n).deadline
        (∃ t, exec (.plannedFenceDrainExpiry n) s = .next t ∧ memSame s t ∧ (∀ sec, fget false (t.site n).dirty sec = false) ∧
          { t.site n with dirty := (s1.site n).dirty } = s1.site n ∧ (∀ d, d ≠ n → t.site d = s1.site d) ∧
          { t with sites := s1.sites, bridge := s1.bridge } = s1) ∧
        (untold s → s.boundTabs = [] → ∃ t, exec (.nodeFence n) s = .next t ∧ calm s t ∧ t.poison = s.poison ∧ publishesOne s t ∧
          t.rdymap = (s.rdymap &&& ~~~((1 : DWord) <<< n)) ∧ (∀ d, d ≠ n → t.site d = s.site d) ∧ (∀ l, n ∉ fget [] t.dir l) ∧
          t.site n = { s.site n with stat := .fenced, tlb1 := [], tlb2 := [], invs := [], stamped := [], dirty := [], bad := []
                                     incoming := none })) ∧
      ((s.site n).stat = .active ∨ (s.site n).stat = .fencing → untold s → s.boundTabs = [] → ∀ latched : List Nat,
        ∃ t, exec (.errorFence n latched) s = .next t ∧ calm s t ∧ t.rdymap = (s.rdymap &&& ~~~((1 : DWord) <<< n)) ∧ publishesOne s t ∧
          (t.site n).stat = .fenced ∧ (∀ d, d ≠ n → t.site d = s.site d) ∧
          ∀ x, fget false t.poison x = (fget false s.poison x || (latched.contains x && fget false (s.site n).dirty x))))) ∧
  (∀ (s : State) (n : Nat), (n = 22 ∨ n = 23) → (s.site n).stat = .active → untold s → s.boundTabs = [] → s.onDie n = [] →
    (∀ b, (s.blk b).phase ≠ .preempted) →
    ∃ t, exec (.errorFence n []) s = .next t ∧ (t.site n).stat = .fenced ∧ t.rdy n = false ∧
      t.rdy 52 = (s.rdy 52 && !decide (n = if s.io = .primary then 22 else 23)) ∧ t.rdy 53 = (s.rdy 53 && !decide (n = 22)) ∧
      (∀ p, p < 16 → t.rdy (36 + p) = (s.rdy (36 + p) && !decide (n = if p < 8 then 22 else 23))) ∧
      (∀ i, i ≠ n → (i < 36 ∨ 53 < i) → t.rdy i = s.rdy i) ∧
      (∀ p off, p < 16 → n = (if p < 8 then 22 else 23) → t.peerBacked p off = false) ∧
      (n = 22 → (∀ a, t.hbmTop ≤ a → 0x8000000000000 ≤ a → a < 0xC000000000000 → t.paKind a = .unbacked) ∧
        (∀ l, t.hline l = { h0 := .i, h1 := .i }) ∧ ∀ bar4 a op, t.phase = .up → exec (.hostDeviceAccess bar4 a op) t = .next t)) ∧
  (∀ (s : State) (n : Nat), s.mayJoin n = true →
    exec (.spareJoin n false) s = .next (s.setSite n { s.site n with tried := true }) ∧
    (untold s → ∃ t, exec (.spareJoin n true) s = .next t ∧ t.site n = { s.site n with stat := .active, tried := true } ∧
      t.rdymap = (s.rdymap ||| (1 : DWord) <<< n) ∧ (∀ d, d ≠ n → t.site d = s.site d) ∧ publishesOne s t)) ∧
  (∀ s : State, (s.site 22).stat = .fenced → s.io = .primary → ((s.site 23).stat = .active ∨ (s.site 23).stat = .fencing) →
    (∀ c ∈ s.ctxs, c.2.tabs = []) → exec .ioDieChangeover s = .next { s with io := .changeover }) ∧
  (∀ s : State, s.io = .changeover → ((s.site 23).stat = .active ∨ (s.site 23).stat = .fencing) →
    exec .ioDieChangeoverComplete s = .next { s with io := .standby, rdymap := s.rdymap ||| (1 : DWord) <<< 52 })

/-- R14 to R18, R28, R33, R36, R38 to R40, R43, R408: boot and readiness, fences, spares and the change of I/O dies.
Readings of the model, not of the spec, that it rests on: logs 6, 7, 18, 19, 20, 21, 67. -/
def Obligations.BootAndFenceResults : Prop :=
  Sys2Proof.Claims.BootAndReadiness ∧ Sys2Proof.Claims.NodeFences

/-- R19 to R25, R28, R30 to R32, R389: a capacity event publishes one generation, with the record of the present configuration, and a notice
in the host's ring while it is enabled and has room; a lost channel is recorded with the placement of that moment, and after an abrupt
loss the sectors that stood on it read poisoned; its release range stays backed until the shrink is acknowledged; the re-hash of the
earliest loss that is ready moves line after line behind its watermarks and changes no value and no poison; clocks, spare rows and
banks, of which an L2 bank gives up its lines.
Readings of the model, not of the spec, that it rests on: logs 22, 23, 46, 64. -/
def Obligations.CapacityEventResults : Prop :=
  (∀ (s : State) (kind site detail sh : Nat), untold s →
    let c := s.capNow (s.cap.gen + 1)
    let top := ({ s with cap := c } : State).backedTop
    s.publish kind site detail sh = (if s.capLog then { s with cap := c, hbmTop := top } else s) ∧
    c.hbm ≤ top ∧ (∀ l ∈ s.losses, ∀ lo hi, l.acked = false → l.shrink = some (lo, hi) → hi ≤ top) ∧
    (top = c.hbm ∨ ∃ l ∈ s.losses, ∃ lo, l.acked = false ∧ l.shrink = some (lo, top))) ∧
  (∀ (s : State) (n : List Byte), let r := s.bar2
    let at_ := 0x8000000000000 + (r.nrbase.toNat / 64 * 64 + 32 * (r.nrtail.toNat % 2 ^ r.nrsize))
    r.nrbase.getLsbD 0 = true → n.length = 32 → (∀ l, s.hline l = { h0 := .i, h1 := .i }) →
    ((r.nrtail - r.nrhead).toNat ≠ 2 ^ r.nrsize →
      (s.ringNotice n).bar2 = { r with nrtail := r.nrtail + 1 } ∧
      (s.ringNotice n).outs = s.outs ++ (if r.nrvec.getLsbD 11 then [.msix (r.nrvec.toNat % 2048)] else []) ∧
      (∀ i, i < 32 → some (fget memDefault (s.ringNotice n).hostMem (at_ + i)) = n[i]?) ∧
      ∀ a, (a < at_ ∨ at_ + 32 ≤ a) → fget memDefault (s.ringNotice n).hostMem a = fget memDefault s.hostMem a) ∧
    ((r.nrtail - r.nrhead).toNat = 2 ^ r.nrsize → s.ringNotice n = { s with bar2 := { r with nrstat := true } })) ∧
  (∀ (s : State) (ch : Nat) (ab : Bool), ch < 384 → s.rdy (24 + ch / 32) = true → (∀ l ∈ s.losses, l.ch ≠ ch) → untold s →
    ∃ t sh, exec (if ab then .channelLossAbrupt ch else .channelLossPlanned ch) s = .next t ∧ publishesOne s t ∧
      t.losses = s.losses ++ [{ ch := ch, gen := s.cap.gen + 1, abrupt := ab, shrink := sh, acked := false, done := false
                                placing := s.placing, good := [] }] ∧
      (sh = if s.capLog ∧ (t.capNow 0).hbm < (s.capNow 0).hbm then some ((t.capNow 0).hbm, (s.capNow 0).hbm) else none) ∧
      (∀ lo hi, sh = some (lo, hi) → hi ≤ t.hbmTop) ∧
      { t with losses := s.losses, cap := s.cap, rdymap := s.rdymap, hbmTop := s.hbmTop } = s ∧ (∀ i, i < 24 → t.rdy i = s.rdy i) ∧
      ∀ sec, s.paKind (sec * 32) = .hbm → t.paKind (sec * 32) = .hbm →
        t.sectorPoison sec = (s.sectorPoison sec || (ab && s.placing.chan (sec / 4) == some ch))) ∧
  (∀ (s : State) (g : Word),
    (1 ≤ (g - s.cap.gen).toNat → (g - s.cap.gen).toNat < 2 ^ 31 → s.phase = .up → exec (.shrkack g) s = .next s) ∧
    (¬(1 ≤ (g - s.cap.gen).toNat ∧ (g - s.cap.gen).toNat < 2 ^ 31) → s.phase = .up →
      ∃ t, exec (.shrkack g) s = .next t ∧ t.bar2 = { s.bar2 with shrkack := g } ∧ t.hdmTop ≤ s.hdmTop ∧
        t.losses = s.losses.map (fun l => if (g - l.gen).toNat < 2 ^ 31 then { l with acked := true } else l) ∧
        (∀ l ∈ s.losses, ∀ lo hi, (g - l.gen).toNat < 2 ^ 31 → l.acked = false → l.shrink = some (lo, hi) → t.hdmTop ≤ lo) ∧
        (t.hbmTop = if s.capLog then t.backedTop else s.hbmTop) ∧
        { t with bar2 := s.bar2, losses := s.losses, hbmTop := s.hbmTop, hdmTop := s.hdmTop } = s)) ∧
  (∀ s : State,
    (∀ c, c ∈ s.liveChannels ↔ c < 384 ∧ s.rdy (24 + c / 32) = true ∧ ∀ l ∈ s.losses, l.ch ≠ c) ∧
    (∀ l pre r, s.placing.re = none → s.losses = pre ++ l :: r → l.done = false → (l.shrink = none ∨ l.acked = true) →
      (∀ x ∈ pre, x.done = true ∨ (x.shrink ≠ none ∧ x.acked = false)) →
      exec .rehashStart s = .next { s with placing := { s.placing with
        re := some { ch := l.ch, next := { gen := s.cap.gen.toNat, chans := s.liveChannels }, marks := [] } } }) ∧
    (∀ r c, s.placing.re = some r → c < 384 → c ∈ s.placing.lay.chans → fget 0 r.marks c * 128 < s.hbmTop →
      (∀ d, d < c → d ∈ s.placing.lay.chans → s.hbmTop ≤ fget 0 r.marks d * 128) →
      ∃ t, exec .rehashLineMove s = .next t ∧
        t = { s with placing := { s.placing with re := some { r with marks := fput r.marks c (fget 0 r.marks c + 1) } } } ∧
        memSame s t ∧ (∀ sec, t.sectorPoison sec = s.sectorPoison sec) ∧
        ∀ line d, s.placing.lay.chan line = some d → t.placing.chan line =
          if line < fget 0 r.marks d + (if d = c then 1 else 0) then r.next.chan line else some d) ∧
    (∀ r, s.placing.re = some r →
      exec .rehashComplete s = .next (({ s with
        placing := { lay := r.next, re := none }
        losses := s.losses.map fun l => if l.ch = r.ch then { l with done := true } else l } : State).publish 5 (18 + r.ch / 96) r.ch 0))) ∧
  (∀ (s : State) (n mhz : Nat), n < 18 → (s.site n).stat = .active →
    (1000 ≤ mhz → exec (.clockReplan n mhz) s = .next ((s.setSite n { s.site n with mhz := mhz }).publish 6 n 0 0)) ∧
    (mhz < 1000 → exec (.clockReplan n mhz) s = exec (.plannedFence n) s)) ∧
  (∀ (s : State) (n bank : Nat) (l3 : Bool), s.bankLeft n bank l3 = true → (s.site n).stat = .active →
    let x := s.site n
    let used := fget 0 x.rows bank
    (used < 32 → exec (.rowRemap n bank l3) s = .next (s.setSite n { x with rows := fput x.rows bank (used + 1) }) ∧
      exec (.bankRemoval n bank l3) s = .next s) ∧
    (32 ≤ used → l3 = true → exec (.bankRemoval n bank l3) s =
      .next ((s.setSite n { x with banksL3 := x.banksL3 ++ [bank] }).publish 7 n bank 0)) ∧
    (32 ≤ used → l3 = false → (64 - x.banksL2.length) * 0x200000 < 0x1200000 + x.gpart * 2 ^ 20 →
      exec (.bankRemoval n bank l3) s = exec (.plannedFence n) s) ∧
    (32 ≤ used → l3 = false → 0x1200000 + x.gpart * 2 ^ 20 ≤ (64 - x.banksL2.length) * 0x200000 →
      ∃ u, exec (.bankRemoval n bank l3) s = .next ((u.setSite n { u.site n with banksL2 := x.banksL2 ++ [bank] }).publish 7 n bank 0) ∧
        memSame s u ∧ u.poison = s.poison ∧ (∀ d, d ≠ n → u.site d = s.site d) ∧
        { u with sites := s.sites, bridge := s.bridge, dir := s.dir } = s ∧
        { u.site n with dirty := x.dirty, bad := x.bad, stamped := x.stamped } = x ∧
        (∀ sec, fget false (u.site n).dirty sec = (fget false x.dirty sec && Config.bankOf (sec / 4) % 64 != bank)) ∧
        (∀ sec, fget false (u.site n).bad sec = (fget false x.bad sec && Config.bankOf (sec / 4) % 64 != bank)) ∧
        (u.site n).stamped = (x.stamped.filter fun c => Config.bankOf c.line % 64 != bank) ∧
        ∀ l, n ∈ fget [] u.dir l → n ∈ fget [] s.dir l ∧ Config.bankOf l % 64 ≠ bank))

/-! ### The host's side (01 R36, R37, R39, R41, 11 R215 to R218, R238) -/

namespace Sys2Proof.Claims

/-- A write of all of an 8-byte register, of its low half or of its high half. -/
def merged (old v : DWord) : Sys2Proof.Part → DWord
  | .whole => v
  | .lo => old &&& 0xFFFFFFFF00000000 ||| (v &&& 0xFFFFFFFF)
  | .hi => old &&& 0xFFFFFFFF ||| v <<< 32

end Sys2Proof.Claims

/-- R36 to R39, R41: the management registers, written whole or by halves, outside Cold Frame, where they do not respond: `NRBASE`
(while the ring is in use only `NREN`; setting it restarts both counts), `NRSTAT` (1 clears), `B4BASE` (its old value may still be
used), `PWEN`, `PORTVF`, the ring's other registers and a port's `PCFG` by offset; reads answer with the register's value, whole or
half, an access of another form with 0, and end the use of an older `B4BASE`; a write of `MBCMD` starts a command, and is discarded
while one runs; while the management controller works, on the I/O die in use, it ends the command with its result or rejects it, and
answers attestation once that is available; while it does not, neither.
Readings of the model, not of the spec, that it rests on: logs 19, 24, 56. -/
def Obligations.RegisterAndMailboxResults : Prop :=
  (∀ (s : State) (part : Sys2Proof.Part) (v : DWord), s.phase ≠ .coldFrame →
    let x := s.bar2
    let put := fun y : Bar2 => ({ s with bar2 := y } : State)
    (let w := merged x.nrbase v part
     (x.nrbase.getLsbD 0 = true →
       exec (.nrbase part v) s = .next (put { x with nrbase := x.nrbase &&& ~~~1 ||| (w &&& 1) })) ∧
     (x.nrbase.getLsbD 0 = false → w.getLsbD 0 = true →
       exec (.nrbase part v) s = .next (put { x with nrbase := w &&& ~~~0x3E, nrtail := 0, nrhead := 0 })) ∧
     (x.nrbase.getLsbD 0 = false → w.getLsbD 0 = false → exec (.nrbase part v) s = .next (put { x with nrbase := w &&& ~~~0x3E }))) ∧
    (let w := merged x.b4base v part &&& 0x000FFFFFC0000000
     exec (.b4base part v) s = .next (if w = x.b4base then s else put { x with b4base := w, b4olds := x.b4olds ++ [x.b4base] })) ∧
    exec (.pwen v) s = .next (put { x with pwen := v.setWidth 16 }) ∧
    (∀ w : Word, exec (.nrstat w) s = .next (put { x with nrstat := x.nrstat && !w.getLsbD 0 })) ∧
    (∀ p, p < 64 →
      exec (.portvf p part v) s = .next (put { x with
        portvf := fset 0 x.portvf p ((merged (BitVec.ofNat 64 (fget 0 x.portvf p)) v part).toNat % 32) })) ∧
    exec (.registerWrite 0x1C 4 v) s = .next (put { x with nrvec := v.setWidth 12 }) ∧
    exec (.registerWrite 0x24 4 v) s = .next (put { x with nrhead := v.setWidth 32 }) ∧
    exec (.registerWrite 0x30 8 v) s = .next (put { x with dnbase := v &&& 0x000FFFFFFFFFF001 }) ∧
    exec (.registerWrite 0x1008 8 v) s = .next (put { x with mccfg := v.setWidth 12 }) ∧
    (∀ p, p < 64 → exec (.registerWrite (0x100080 + 4096 * p) 8 v) s = .next (s.setPort p { s.port p with
      pcap := v.toNat % 4, enable := v.getLsbD 2, asid := v.toNat / 2 ^ 16 % 2 ^ 16 }))) ∧
  (∀ s : State, s.phase ≠ .coldFrame →
    let answers := fun (t : State) (space : RegSpace) (off size v : Nat) =>
      t.hostRead space off size = { t with outs := t.outs ++ [.data (leBytes size v) false] }
    answers s .bar2 0x08 8 s.bar2.shrkack.toNat ∧ answers s .bar2 0x18 4 s.bar2.nrsize ∧ answers s .bar2 0x1C 4 s.bar2.nrvec.toNat ∧
    answers s .bar2 0x20 8 (s.bar2.nrtail.toNat + 2 ^ 32 * s.bar2.nrhead.toNat) ∧
    answers s .bar2 0x34 4 (s.bar2.dnbase.toNat / 2 ^ 32) ∧ answers s .bar2 0x1000 8 s.bar2.mcseq.toNat ∧
    (∀ off size, ¬ ((size = 4 ∨ size = 8) ∧ off % size = 0) → answers s .bar2 off size 0) ∧
    (let t := ({ s with bar2 := { s.bar2 with b4olds := [] } } : State)
     s.hostRead .bar2 0x40 8 = t.out (.data (leBytes 8 s.bar2.b4base.toNat) false)) ∧
    (∀ p, p < 64 →
      answers s (.bar0 0) (4096 * p + 0x48) 8 (s.port p).q.length ∧
      answers s (.bar0 0) (4096 * p + 0x40) 4 (s.port p).refcnt.toNat ∧
      ∀ vf, vf ≠ 0 → fget 0 s.bar2.portvf p ≠ vf → answers s (.bar0 vf) (4096 * p + 0x48) 8 0)) ∧
  (∀ (s : State) (off size : Nat), s.phase = .coldFrame →
    s.hostRead .bar2 off size = s.out .unsupported ∧
    s.hostRead .dvsec 0x10 8 = s.out (.data (leBytes 8 (2 ^ 63)) false)) ∧
  (∀ s : State, s.dvsec.mbstat ≠ 1 →
    let runs := fun c : Word => ({ s with dvsec := { s.dvsec with mbcmd := c, mbstat := 1 } } : State)
    exec .mbcmdReadLog s = .next (runs 1) ∧ exec .mbcmdReadMeasurement s = .next (runs 2) ∧ exec .mbcmdRestartLog s = .next (runs 3) ∧
    ∀ v, exec (.mbcmdRejected v) s = .next (runs v)) ∧
  (∀ s : State,
    let up := (s.io = .primary ∧ (s.site 22).stat ≠ .fenced) ∨ (s.io = .standby ∧ (s.site 23).stat ≠ .fenced)
    (¬up → exec .mailboxDone s = .next s ∧ ∀ nonce, exec (.attestationRequest nonce) s = .next s) ∧
    (up → s.rdy 55 = true → ∀ nonce : List Byte,
      exec (.attestationRequest nonce) s = .next { s with outs := s.outs ++ [.signed (Config.attestation nonce)] }) ∧
    (s.dvsec.mbstat = 1 →
      (exec .mbcmdReadLog s = .next s ∧ exec .mbcmdReadMeasurement s = .next s ∧ exec .mbcmdRestartLog s = .next s ∧
        ∀ v, exec (.mbcmdRejected v) s = .next s) ∧
      (up →
        (3 < s.dvsec.mbcmd.toNat → exec .mailboxDone s = .next { s with dvsec := { s.dvsec with mbstat := 2 } }) ∧
        (s.dvsec.mbcmd = 0 → exec .mailboxDone s = .next { s with dvsec := { s.dvsec with mbstat := 3 } }) ∧
        (s.dvsec.mbcmd = 3 → exec .mailboxDone s = .next { s with dvsec := { s.dvsec with mbstat := 3, cursor := 0 } }) ∧
        (s.dvsec.mbcmd = 1 → s.dvsec.log.length ≤ s.dvsec.cursor →
          exec .mailboxDone s = .next { s with dvsec := { s.dvsec with mbstat := 3, mbdata := [] } }) ∧
        ((s.dvsec.mbcmd = 2 ∨ (s.dvsec.mbcmd = 1 ∧ s.dvsec.cursor < s.dvsec.log.length)) →
          ∃ bytes : List Byte, bytes.length = 32 ∧ exec .mailboxDone s = .next { s with dvsec := { s.dvsec with
            mbstat := 3, mbdata := bytes, cursor := if s.dvsec.mbcmd = 1 then s.dvsec.cursor + 1 else s.dvsec.cursor } }))))

namespace Sys2Proof.Claims

/-- The package holds a half of a host line modified: at the bridge, or in the caches of a node. -/
def modifiedHalf (s : State) (line : Nat) (h : Half) : Bool :=
  let st := (s.hline (hostLine line)).half h
  st == .m || (st != .i && s.sites.any fun x => (List.range 2).any fun k => fget false x.2.dirty (halfAddr line h / 32 + k))

end Sys2Proof.Claims

/-- R37, R154, R215 to R218, R238: a host access through CXL.mem or BAR4, and a peer's through its enabled port under a key that the port
accepts, read or write device memory under key id 0 at the address, and the read is answered with the bytes there, the host's and the
port's I/O die not being fenced and no home holding requests; a snoop takes or
shares a half that the bridge holds and supplies its data when the package holds it modified, and the host's store follows, which
clears the poison of whole sectors; an eviction writes modified halves back and leaves nothing held.
Readings of the model, not of the spec, that it rests on: logs 25, 26, 60, 64, 67. -/
def Obligations.HostAccessResults : Prop :=
  (∀ (s : State) (addr n : Nat), s.phase = .up → s.suspects = [] → s.homeq = [] → (s.site 22).stat ≠ .fenced → addr + n ≤ s.hdmTop → s.hdmTop ≤ s.hbmTop →
    s.hbmTop ≤ 0x8000000000000 → 0 < n →
    (∃ t, exec (.hostDeviceAccess false addr (.read n)) s = .next t ∧
      t.outs = s.outs ++ [.data (s.bytesAt 0 addr n) (s.poisonAt addr n)] ∧ memSame s t ∧
      { t with outs := s.outs, dir := s.dir, sites := s.sites, freeIx := s.freeIx } = s) ∧
    (∀ base, s.bar2.b4base = BitVec.ofNat 64 base → base < 2 ^ 52 → s.bar2.b4olds = [] → base ≤ addr → addr - base < 2 ^ 36 →
      ∃ t, exec (.hostDeviceAccess true (addr - base) (.read n)) s = .next t ∧
        t.outs = s.outs ++ [.data (s.bytesAt 0 addr n) (s.poisonAt addr n)] ∧ memSame s t) ∧
    (∀ bytes : List Byte, bytes.length = n → n ≤ 64 → addr / 64 = (addr + n - 1) / 64 → savesOld s →
      ∃ t, exec (.hostDeviceAccess false addr (.write bytes)) s = .next t ∧ memWritten s t 0 addr bytes ∧ t.blocks = s.blocks) ∧
    (∀ (p : Nat) (sel : Bool), p < 16 → s.bar2.pwen.getLsbD p = true → (s.peer p).trained = true → (s.peer p).disabled = false →
      (s.site (if p < 8 then 22 else 23)).stat ≠ .fenced →
      ((sel = (s.peer p).sel ∨ (s.peer p).old ≠ none) →
        ∃ t, exec (.peerDeviceAccess { port := p, sel := sel } addr (.read n)) s = .next t ∧
          t.outs = s.outs ++ [.data (s.bytesAt 0 addr n) (s.poisonAt addr n)] ∧ memSame s t) ∧
      (sel ≠ (s.peer p).sel → (s.peer p).old = none → exec (.peerDeviceAccess { port := p, sel := sel } addr (.read n)) s = .next s))) ∧
  (∀ (s : State) (line : Nat) (h : Half), line < 2 ^ 43 → (s.site 22).stat ≠ .fenced → let l := hostLine line
    let a := halfAddr line h
    let st := (s.hline l).half h
    let mod := modifiedHalf s line h
    let data := Out.data (s.bytesAt 0 a 64) (s.poisonAt a 64)
    let clean := fun t : State => ∀ x sec, sec / 4 = l → fget false (t.site x).dirty sec = false
    let host := fun (x : Nat) => if mod = true ∧ a ≤ x ∧ x < a + 64 then fget memDefault s.mem x else fget memDefault s.hostMem x
    (st = .i → exec (.hostSnoopSnpdata line h) s = .next s ∧ exec (.hostSnoopSnpcur line h) s = .next s) ∧
    (st ≠ .i → exec (.hostSnoopSnpcur line h) s = .next { s with outs := s.outs ++ [data] } ∧
      ∃ t, exec (.hostSnoopSnpdata line h) s = .next t ∧ (t.hline l).half h = .s ∧ t.outs = s.outs ++ (if mod then [data] else []) ∧
        (∀ x, fget memDefault t.hostMem x = host x) ∧ clean t ∧
        { t with bridge := s.bridge, outs := s.outs, hostMem := s.hostMem, sites := s.sites } = s) ∧
    (∀ bytes : List Byte, (∀ x ∈ s.saves, x.1 + x.2.1 ≤ a ∨ a + 64 ≤ x.1) →
      ∃ t, exec (.hostSnoopSnpinv line h bytes) s = .next t ∧ (t.hline l).half h = .i ∧
        t.outs = s.outs ++ (if mod then [data] else []) ∧ clean t ∧
        (∀ x, fget memDefault t.hostMem x =
          if a ≤ x ∧ x < a + min 64 bytes.length then (bytes[x - a]?).getD 0 else host x) ∧
        (∀ key x, a ≤ x → x < a + 64 → t.byteAt key x = fget memDefault t.hostMem x) ∧
        (∀ key x, (x < a ∨ a + 64 ≤ x) → t.byteAt key x = s.byteAt key x) ∧
        (∀ sec, fget false t.poison sec =
          (fget false s.poison sec && !decide (a ≤ sec * 32 ∧ sec * 32 + 32 ≤ a + min 64 bytes.length))) ∧
        { t with bridge := s.bridge, outs := s.outs, hostMem := s.hostMem, mem := s.mem, ver := s.ver, wcount := s.wcount
                 undo := s.undo, poison := s.poison, sites := s.sites, ctxs := s.ctxs } = s) ∧
    (∃ t, exec (.bridgeEviction line) s = .next t ∧ t.hline l = { h0 := .i, h1 := .i } ∧ (∀ k, k ≠ l → t.hline k = s.hline k) ∧
      clean t ∧
      (∀ x, fget memDefault t.hostMem x =
        if (modifiedHalf s line .h0 = true ∧ l * 128 ≤ x ∧ x < l * 128 + 64) ∨
            (modifiedHalf s line .h1 = true ∧ l * 128 + 64 ≤ x ∧ x < l * 128 + 128) then
          fget memDefault s.mem x else fget memDefault s.hostMem x) ∧
      { t with bridge := s.bridge, hostMem := s.hostMem, sites := s.sites } = s))

/-! ### Errors and links (23 R388, R391 to R393, R398 to R406, 24 R409) -/

namespace Sys2Proof.Claims

/-- The newest machine-check record of t, the one after those of s. -/
def noted (s t : State) (P : McRec → Prop) : Prop :=
  t.bar2.mcseq = s.bar2.mcseq + 1 ∧ ∃ r, fget none t.mclog ((t.bar2.mcseq.toNat + 62) % 63) = some r ∧ r.seq = t.bar2.mcseq ∧ P r

/-- A sector is poisoned in its storage, with a record of kind 1; no other sector is. -/
def poisoned (s t : State) (addr : Nat) : Prop :=
  fget false t.poison (addr / 32) = true ∧ (∀ x, x ≠ addr / 32 → fget false t.poison x = fget false s.poison x) ∧ memSame s t ∧
  t.blocks = s.blocks ∧ noted s t fun r => r.kind = 1 ∧ r.addr = addr / 32 * 32

/-- A block is contained and awaits its relaunch, with a record of kind 4. -/
def relaunched (s t : State) (b cause : Nat) : Prop :=
  (t.blk b).phase = .relaunch ∧ (t.blk b).attempts = (s.blk b).attempts + 1 ∧ (t.blk b).lin = (s.blk b).lin ∧
  (t.blk b).grid = (s.blk b).grid ∧ (t.blk b).hold = [] ∧ memSame s t ∧
  noted s t fun r => r.kind = 4 ∧ r.cause = cause ∧ r.attempt = (s.blk b).attempts

end Sys2Proof.Claims

/-- R388, R391 to R393, R400: an uncorrectable error poisons its sector with a record of kind 1: in storage, struck or found by the
patrol, or where a die has its only copy; in a die's clean copy, or its stamped copies, that copy alone; or it contains its block: an
uncommitted replayable one is relaunched. A shadow mismatch does so with cause 0x16, in a block whose context has `XSHADOW`, at a
lane-class instruction of cells 0x01 to 0x28 that a lane is to execute, its guard holding. -/
def Sys2Proof.Claims.ErrorResults : Prop :=
  (∀ (s : State) (addr : Nat), s.paKind addr = .hbm →
    (∀ i ∈ [Instr.uncorrectableError (.dram addr), .patrolScrub addr true], ∃ t, exec i s = .next t ∧ poisoned s t addr) ∧
    exec (.patrolScrub addr false) s = .next s ∧
    (∀ site, 18 ≤ site → s.homeSite (addr / 128) = site →
      ∃ t, exec (.uncorrectableError (.cacheClean site addr)) s = .next t ∧ poisoned s t addr) ∧
    ∀ site, site < 18 → fget false (s.site site).dirty (addr / 32) = false →
      (site ∉ fget [] s.dir (addr / 128) → (∃ c ∈ (s.site site).stamped, c.line = addr / 128) →
        ∃ t, exec (.uncorrectableError (.cacheClean site addr)) s = .next t ∧ t.poison = s.poison ∧ t.site site = { s.site site with
          stamped := (s.site site).stamped.map fun c => if c.line = addr / 128 then { c with poison := c.poison.set (addr / 32 % 4) true } else c } ∧
          noted s t fun r => r.kind = 1 ∧ r.site = site ∧ r.addr = addr / 32 * 32) ∧
      ((∀ c ∈ (s.site site).stamped, c.line ≠ addr / 128) → (site ∈ fget [] s.dir (addr / 128) →
        ∃ t, exec (.uncorrectableError (.cacheClean site addr)) s = .next t ∧ fget false (t.site site).bad (addr / 32) = true ∧
          t.poison = s.poison ∧ (∀ x, x ≠ site → t.site x = s.site x) ∧
          { t with sites := s.sites, bar2 := s.bar2, mclog := s.mclog, outs := s.outs } = s ∧
          noted s t fun r => r.kind = 1 ∧ r.site = site ∧ r.addr = addr / 32 * 32) ∧
      (site ∉ fget [] s.dir (addr / 128) → exec (.uncorrectableError (.cacheClean site addr)) s = .next s))) ∧
  (∀ (s : State) (site addr : Nat),
    (fget false (s.site site).dirty (addr / 32) = true →
      ∃ t, exec (.uncorrectableError (.cacheDirty site addr)) s = .next t ∧ poisoned s t addr) ∧
    (fget false (s.site site).dirty (addr / 32) = false → exec (.uncorrectableError (.cacheDirty site addr)) s = .next s)) ∧
  (∀ (s : State) (b w i reg : Nat), s.runs b = true → s.holding b = true → (s.blk b).attempts < 3 →
    (∀ place ∈ [ErrPlace.laneReg b w i reg, .shared b w i reg, .core b],
      ∃ t, exec (.uncorrectableError place) s = .next t ∧ relaunched s t b 0x15) ∧
    (∀ n p, (s.blk b).hold[n]? = some p → ∃ t, exec (.uncorrectableError (.held b n)) s = .next t ∧ relaunched s t b 0x15) ∧
    (∀ n q, s.laneInstr b w i = some n → Instr.fields n = some q → (s.ctxOf b).xshadow = true → i ∈ (s.warp b w).live →
      (s.lane b w i).park = .none → (s.lane b w i).held = none →
      let checked := q.uni = false ∧ 1 ≤ q.op ∧ q.op ≤ 0x28 ∧ (s.lane b w i).guard q.guard = true
      (checked → ∃ t, exec (.uncorrectableError (.shadow b w i)) s = .next t ∧ relaunched s t b 0x16) ∧
      (¬checked → exec (.uncorrectableError (.shadow b w i)) s = .next s))) ∧
  (∀ (s : State) (b tile i : Nat), s.runs b = true →
    (∃ t, exec (.uncorrectableError (.scratch b i)) s = .next t ∧ fget false (t.blk b).spoison (i / 32) = true ∧
      (∀ x, x ≠ i / 32 → fget false (t.blk b).spoison x = fget false (s.blk b).spoison x) ∧
      { t.blk b with spoison := (s.blk b).spoison } = s.blk b ∧ t.bar2.mcseq = s.bar2.mcseq + 1 ∧ ∀ c, c ≠ b → t.blk c = s.blk c) ∧
    (i < 16384 → ∃ t, exec (.uncorrectableError (.accTile b tile i)) s = .next t ∧
      (t.blk b).accAt (accKey tile (i / 128) (i % 128)) = { val := 0x7FE05EED, side := true } ∧
      (∀ k, k ≠ accKey tile (i / 128) (i % 128) → (t.blk b).accAt k = (s.blk b).accAt k) ∧
      { t.blk b with acc := (s.blk b).acc } = s.blk b ∧ { t with blocks := s.blocks } = s ∧ ∀ c, c ≠ b → t.blk c = s.blk c))

/-- R398, R399, R409: a fallow core hands its role on after its drain, a passed scan clears its log, and a failed one, of a die that is
active or drains for a planned fence, retires it with one generation and hands the role on. -/
def Sys2Proof.Claims.FallowResults : Prop :=
  ∀ (s : State) (n : Nat), n < 18 → ((s.site n).stat = .active ∨ (s.site n).stat = .fencing) →
    let x := s.site n
    let log := x.log.filter fun e => e.1 != x.fallow
    let marked := x.overflow.filter fun c => c != x.fallow
    let due := s.clock + 1300000
    (x.incoming = none →
      exec (.fallowRotation n) s = .next (s.setSite n { x with incoming := x.nextCore, drainAt := due })) ∧
    (∀ c, x.incoming = some c → s.onCore n c = [] →
      let s1 := s.reach x.drainAt
      exec (.fallowDrainExpiry n) s = .next (s1.setSite n { s1.site n with fallow := c, incoming := none })) ∧
    (x.fallow < 32 → x.fallow ∉ x.retiredCores →
      exec (.fallowScanPass n) s = .next (s.setSite n { x with log := log, overflow := marked }) ∧
      (untold s → 29 ≤ x.inService.length →
        let y := { x with retiredCores := x.retiredCores ++ [x.fallow], log := log, overflow := marked }
        ∃ t, exec (.fallowScanFail n) s = .next t ∧ publishesOne s t ∧ (∀ d, d ≠ n → t.site d = s.site d) ∧
          t.site n = if x.incoming = none then { y with incoming := y.nextCore, drainAt := due } else y))

/-- R401, R402, R404, R408: a recall asks every active compute die and the bridge, snoops the host for device memory and loses the
line's entry, which the answers rebuild; a die's answer writes its modified copy back; a flit that fails its check is replayed; a lost
flit makes its line suspect until each sharer has acknowledged, and meanwhile the home holds the host's request there; a node silent
past the limit is fenced, with a record of kind 6. -/
def Sys2Proof.Claims.LineRecovery : Prop :=
  ∀ (s : State) (addr : Nat), let l := addr / 128
    let owed := (fget [] s.dir l).filter fun n => n < 24 && (s.site n).isActive
    (∀ host : Bool, s.paKind addr = (if host then .host else .hbm) → ∃ t, exec (.directoryRecall addr) s = .next t ∧ memSame s t ∧
      fget [] t.dir l = [] ∧ (∀ k, k ≠ l → fget [] t.dir k = fget [] s.dir k) ∧
      t.outs = s.outs ++ (if host then [] else [.backInvalidate l 0, .backInvalidate l 1]) ∧
      (∀ d, (d < 18 ∨ d = if s.io = .primary then 22 else 23) → (s.site d).stat = .active → ∃ q, fget none t.suspects l = some q ∧
        d ∈ q.owed ∧ q.deadline = s.clock + 1300 * s.xackto ∧ q.recalled = true) ∧
      { t with dir := s.dir, outs := s.outs, suspects := s.suspects } = s) ∧
    (∀ p, exec (.flitCrcFail p) s = .next s) ∧
    (fget none s.suspects l ≠ none → s.phase = .up → (s.site 22).stat ≠ .fenced → addr < s.hbmTop → addr < s.hdmTop →
      exec (.hostDeviceAccess false addr (.read 1)) s =
        .next { s with homeq := s.homeq ++ [{ lines := [l], who := .outside false addr (.read 1) }] }) ∧
    (let q : Suspect := { owed := owed, deadline := s.clock + 1300 * s.xackto, recalled := false, holders := [] }
     exec (.flitLost addr) s = .next (if owed = [] then s else { s with suspects := fput s.suspects l (some q) })) ∧
    (∀ q n, fget none s.suspects l = some q →
      (let left := q.owed.filter fun m => m != n
       let left' := if left = [] then fdel s.suspects l else fput s.suspects l (some { q with owed := left })
       (n ∉ q.owed → exec (.ackArrival addr n) s = .next s) ∧
       (q.recalled = false → n ∈ q.owed → exec (.ackArrival addr n) s = .next { s with suspects := left' }) ∧
       (q.recalled = true → n ∈ q.owed → ∃ t, exec (.ackArrival addr n) s = .next t ∧ t.suspects = left' ∧ memSame s t ∧
         (∀ x, fget false (t.site n).dirty x = if x / 4 = l then false else fget false (s.site n).dirty x) ∧
         fget [] t.dir l = fget [] s.dir l ++
           (if s.paKind (l * 128) = .hbm ∧ (n ∈ q.holders ∨ s.replicaOn n l = true) then [n] else []) ∧
         { t with suspects := s.suspects, sites := s.sites, dir := s.dir, bridge := s.bridge } = s)) ∧
      (q.owed = [n] → 18 ≤ n → (s.site n).stat = .off →
        ∃ t, exec (.ackTimeoutExpiry addr) s = .next t ∧ q.deadline ≤ t.clock ∧ noted s t fun r => r.kind = 6 ∧ r.site = n) ∧
      (q.owed = [n] → n < 18 → (s.site n).stat = .active → s.lostBlocks n = [] → untold s → s.boundTabs = [] →
        ∃ t, exec (.ackTimeoutExpiry addr) s = .next t ∧ (t.site n).stat = .fenced ∧ t.rdy n = false ∧
          noted s t fun r => r.kind = 6 ∧ r.site = n))

/-- R403 to R406: spare lanes, link keys and tags, host integrity, memory keys: a rollover toggles the selector and keeps the old key
until it is retired, and no second one comes before; a key id that receives a new key has left the caches, and memory under any other
key id reads as before. -/
def Sys2Proof.Claims.LinkAndKeyResults : Prop :=
  (∀ (s : State) (p lane : Nat), p < 16 → let x := s.peer p
    (0 < x.spares → exec (.laneSpareSwap false p lane) s = .next (s.setPeer p { x with spares := x.spares - 1 })) ∧
    (x.spares = 0 → exec (.laneSpareSwap false p lane) s = .next (s.setPeer p { x with lanes := 4 })) ∧
    (let y := fget Link.swi s.swihus p;
      (0 < y.spares →
        exec (.laneSpareSwap true p lane) s = .next { s with swihus := fput s.swihus p { y with spares := y.spares - 1 } }) ∧
      (y.spares = 0 → exec (.laneSpareSwap true p lane) s = exec (.plannedFence p) s)) ∧
    (x.trained = true → x.disabled = false →
      (x.tagFail = false → exec (.peerTagFail p) s = .next (s.setPeer p { x with tagFail := true })) ∧
      (x.tagFail = true → ∃ t, exec (.peerTagFail p) s = .next t ∧ t.peer p = { x with disabled := true } ∧ t.rdy (36 + p) = false ∧
        noted s t (fun r => r.kind = 9 ∧ r.detail = p) ∧ memSame s t ∧ ∀ b, ∀ q ∈ (t.blk b).pend,
          q.addr < 0xC000000000000 + p * 0x400000000000 ∨ 0xC000000000000 + (p + 1) * 0x400000000000 ≤ q.addr))) ∧
  (∀ (s : State) (p : Nat), p ≤ 16 → let x := s.peer p
    (∀ key, x.old = none → exec (.keyRollover p key) s = .next (s.setPeer p { x with key := key, old := some x.key, sel := !x.sel })) ∧
    (∀ key, x.old ≠ none → exec (.keyRollover p key) s = .next s) ∧
    exec (.oldKeyRetire p) s = .next (s.setPeer p { x with old := none, flits := x.flits.filter fun f => f == x.sel })) ∧
  (∀ (s : State) (n lane : Nat), n < 18 → (s.site n).isActive = true → s.lostBlocks n = [] → untold s → s.boundTabs = [] →
    ∃ t, exec (.laneFail n lane) s = .next t ∧ (t.site n).stat = .fenced ∧ t.rdy n = false ∧ memSame s t) ∧
  (∀ s : State, ∃ t, exec .ideIntegrityFail s = .next t ∧ t.hostInsecure = true ∧ memSame s t ∧
    noted s t fun r => r.kind = 9 ∧ r.detail = 0xFFFF) ∧
  (∀ (s : State) (k : Nat), k < 1024 →
    ∃ t, exec (.memoryKeyInstall k) s = .next t ∧ t.keygen = fset 0 s.keygen k (fget 0 s.keygen k + 1) ∧
      (∀ key a, key ≠ k → t.byteAt key a = s.byteAt key a) ∧ (∀ x, ∀ c ∈ (t.site x).stamped, c.key ≠ k) ∧
      (∀ x sec, sec * 32 < 0x8000000000000 → fget 0 s.ktag sec = s.tagOf k → fget false (t.site x).dirty sec = false) ∧
      { t with keygen := s.keygen, sites := s.sites, dir := s.dir, bridge := s.bridge } = s)

/-- R388, R391 to R393, R398 to R406, R408, R409: errors, fallow cores, recovery of lines, links and keys.
Readings of the model, not of the spec, that it rests on: logs 27, 28, 29, 53, 66, 68. -/
def Obligations.ReliabilityEventResults : Prop :=
  Sys2Proof.Claims.ErrorResults ∧ Sys2Proof.Claims.FallowResults ∧ Sys2Proof.Claims.LineRecovery ∧ Sys2Proof.Claims.LinkAndKeyResults

/-! ### The machine as a whole -/

/-- R313: byte b of row r of a tile lies at its unswizzled offset with r modulo 2^SWZ exclusive-ored into the number of its 16-byte
chunk: a nonzero swizzle exchanges chunks of 16 bytes within a line, and no byte leaves its line; elements are read there. -/
def Obligations.SwizzledPlace : Prop :=
  ∀ (h : BitVec 128) (r b : Nat), (h.extractLsb' 55 3).toNat < 4 →
    let u := (h.extractLsb' 0 20).toNat + r * (h.extractLsb' 64 20).toNat + b
    let x := r % 2 ^ (h.extractLsb' 55 3).toNat
    Hdr.place h r b = (u ^^^ (x <<< 4)) ∧ Hdr.place h r b / 128 = u / 128 ∧ Hdr.place h r b % 16 = u % 16 ∧
    Hdr.place h r b / 16 % 8 = (u / 16 % 8) ^^^ x ∧
    ∀ (k : Block) (j : Nat), k.elem h 2 r j =
      { val := BitVec.ofNat 32 (fget 0 k.scratch (Hdr.place h r j)).toNat, side := fget false k.spoison (Hdr.place h r j / 32) }

/-- R343: the target level of cause k raised at level L is H where bit k of `XDELEG` reads 1, and S otherwise, raised to L where L is
the higher; the level that a lane enters, after escalation too, is never below its own. -/
def Obligations.TrapTargetLevel : Prop :=
  (∀ (deleg : DWord) (k : Nat) (l : Level),
    (trapTarget deleg k l).num = Nat.max (if deleg.getLsbD k then 2 else 1) l.num) ∧
  (∀ (l : Lane) (deleg : DWord) (k : Nat) (val : DWord) (c : Nat) (v : DWord) (t : Level), l.route deleg k val = some (c, v, t) →
    l.level.num ≤ t.num ∧ ((c = k ∧ v = val ∧ t = trapTarget deleg k l.level) ∨ t = .h) ∧
    ∀ (epc : DWord) (pi : Nat) (m : DWord), (l.enter c v epc pi t m).level = t)

/-- R349: the words of `sys n`, with and without its extension, and no other immediate; each active lane raises cause 0x0C with n as
its value and the next instruction as its return PC, and `sys` writes nothing else. -/
def Obligations.SystemCall : Prop :=
  (∀ p n : Nat, p < 8 → n < 65536 →
    (n < 4096 → decode [BitVec.ofNat 32 (0x78000030 + p), BitVec.ofNat 32 n] = .ok (.sys { p := p, neg := false } (BitVec.ofNat 12 n))) ∧
    (4096 ≤ n → ∀ i, decode [BitVec.ofNat 32 (0x78000030 + p), BitVec.ofNat 32 n] ≠ .ok i) ∧
    decode [BitVec.ofNat 32 (0x38000030 + p)] = .ok (.sys { p := p, neg := false } 0)) ∧
  decode [0x78000037, 0x0000002A] = .ok (.sys { p := 7, neg := false } 0x2A) ∧
  decode [0x38000037] = .ok (.sys { p := 7, neg := false } 0) ∧
  (∀ (s : State) (g : Guard) (n : BitVec 12), Legal s [] →
    LanesTrap s (.sys g n) g (fun _ => true) 0x0C (fun _ => n.zeroExtend 64) s.cur.next .nothing)

namespace Sys2Proof.Claims

/-- What stands at the step's selection: an entry of the agenda, selected as R51 says, or the part's own choice with an empty agenda;
s1 is the state with the ages after the selection. -/
def Selected (s s1 : State) (b w : Nat) (k : EntryKey) : Prop :=
  (∃ r, s.agenda = .issue b w k :: r ∧ ({ s with agenda := r } : State).selectEntry b w true k = some s1) ∨
  (s.agenda = [] ∧ s.defaultAction = some (.issue b w k) ∧ s.tickFree.selectEntry b w false k = some s1)

/-- The issue of lanes of an entry, with what a parked `uldb.at` of theirs has read. -/
def entryIssue (b w : Nat) (k : EntryKey) (x : List Nat × Option (Word × DWord)) : Issue :=
  { Issue.idle with agent := .warp, blk := b, warp := w, lanes := x.1, pc := k.pc, level := k.level, prog := k.prog, given := x.2 }

/-- The execution of i: exec, and, where a `rep` has chosen a body, exec of that body. -/
def runs (i : Instr) (u : State) : Result :=
  andThen (exec i { u with cur := { u.cur with instr := some i } }) fun v =>
    if v.cur.run = [] then .next v
    else
      let j := instrOfWords v.cur.run
      exec j { v with cur := { v.cur with word := v.cur.body.headD 0, run := [], instr := some j } }

/-- What a tiller's instruction leaves; where the block has failed by it, what stands earlier in the stream takes effect first, and the
instruction executes after that (17 R306, R309). -/
def streams (s : State) (b : Nat) (r : Result) : Result :=
  andThen r fun t => if (t.blk b).phase = .failed ∨ (t.blk b).phase = .failing then (s.settleStream b).runIssue else .next t

/-- What follows an issue of a warp, and of a tiller. -/
def warpEnds (b w : Nat) (t : State) : State := ((t.endIssue.settleWarp b w).settle).after
def tillerEnds (t : State) : State := t.endIssue.settle.after

end Sys2Proof.Claims

/-- A step runs the instruction that stands at the program counter: after what falls due before it, results due to the registers that it
names land, the selected entry's lanes wake and its words are fetched; where they decode to i, the step is exec of i there, the
sequential PC past its words (behind a `rep`, past its body's words too), and what settles of itself afterwards. The tiller's step, in
which what stands earlier in the stream takes effect before a fault, and an event's are the same with their own beginnings; a step in
which the host reads registers is that read. All lanes of the entry issue together, unless some are parked in one execution of a
`uldb.at`. A fetch whose translation gives a place reads the words there.
Readings of the model, not of the spec, that it rests on: logs 1, 2, 30, 31, 32, 56. -/
def Obligations.StepRunsDecodedInstruction : Prop :=
  (∀ (s s1 s3 : State) (b w : Nat) (k : EntryKey) (ws : List Word) (i : Instr), Selected s.before s1 b w k →
    let ls := s1.issueSet b w (s.before.lanesAt b w k)
    let s2 := (s1.landNamed b w k ls.1).wakeLanes b w ls.1
    let u : State := { s2 with cur := entryIssue b w k ls }
    u.fetch (u.siteOf b) (u.asidOf b) k.level k.pc = (s3, .ok ws) → decode ws = .ok i →
    let next := k.pc + BitVec.ofNat 64 (4 * ws.length)
    (Instr.isRep i = false →
      step s = afterwards (runs i { s3 with cur := { entryIssue b w k ls with next := next, word := ws.headD 0, prog := 0 } }) (warpEnds b w)) ∧
    (Instr.isRep i = true → ∀ (s4 : State) (body : List Word),
      ({ s3 with cur := { entryIssue b w k ls with next := next, word := ws.headD 0 } } : State).fetch (s3.siteOf b) (s3.asidOf b) k.level next =
        (s4, .ok body) →
      step s = afterwards (runs i { s4 with
        cur := { entryIssue b w k ls with next := next + BitVec.ofNat 64 (4 * body.length), word := ws.headD 0, body := body } })
        (warpEnds b w))) ∧
  (∀ (s : State) (b w : Nat) (ls : List Nat), (∀ i ∈ ls, ∀ slot t va ex, (s.lane b w i).park ≠ .uround slot t va ex) →
    s.issueSet b w ls = (ls, none)) ∧
  (∀ (s s3 : State) (b : Nat) (r : List Action) (ws : List Word) (i : Instr), s.before.agenda = .tiller b :: r →
    let s0 : State := { s.before with agenda := r }
    s0.tillerReady b = true →
    let s1 := s0.modTiller b fun t => { t with wait := none, synced := if t.wait = none then t.synced else s0.wcount }
    let c : Issue := { Issue.idle with agent := .tiller, blk := b, pc := (s1.blk b).tiller.pc, level := .u }
    ({ s1 with cur := c } : State).fetch (s1.siteOf b) (s1.asidOf b) .u c.pc = (s3, .ok ws) → decode ws = .ok i → Instr.isRep i = false →
    step s = afterwards (streams { s1 with cur := c } b
      (runs i { s3 with cur := { c with next := c.pc + BitVec.ofNat 64 (4 * ws.length), word := ws.headD 0, prog := 0 } })) tillerEnds) ∧
  (∀ (s : State) (r : List Action) (i : Instr), s.before.agenda = .event i :: r → encode i = none → (∀ w, i ≠ .reservedCell w) →
    step s = afterwards (exec i { s.before with agenda := r }) fun t => t.settle.after) ∧
  (∀ (s : State) (r : List Action) (space : RegSpace) (off size : Nat), s.before.agenda = .hostRead space off size :: r →
    step s = .next (({ s.before with agenda := r } : State).hostRead space off size).after) ∧
  (∀ s : State, s.before.agenda = [] → s.before.defaultAction = none → step s = .next s.before.settle.after) ∧
  (∀ (s s1 : State) (site asid : Nat) (lv : Level) (pc : DWord) (pl : Place), s.xlate site asid lv .fetch true pc = (s1, .ok pl) →
    let s2 := s1.touchRead site asid pl.key pl.pa 4
    s1.heldUp [(pl, 0, 4)] = [] → s2.poisonFor site pl.pa 4 = false →
    let w : Word := BitVec.ofNat 32 (leNat (s2.bytesAt pl.key pl.pa 4))
    w.getLsbD 30 = false → s.fetch site asid lv pc = (s2, .ok [w]))

/-- R33, R36, R52, R85, R341, R367, R379, R391: what the machine holds at package reset: `CLOCK` and `NSCLK` 0, the registers of BAR2
at 0 but `NRSIZE` 4, the system registers of R341 at the values of its table, an `XAGE` limit of 256, no record of a machine check, no
item of the readiness map, and nothing of a program.
Readings of the model, not of the spec, that it rests on: logs 5, 6. -/
def Obligations.ResetHoldsSpecValues : Prop :=
  let s := State.reset
  s.clock = 0 ∧ s.nsclk = 0 ∧ s.rdymap = 0 ∧ s.phase = .booting ∧ s.bar2.nrsize = 4 ∧ s.bar2.nrbase = 0 ∧ s.bar2.nrvec = 0 ∧
  s.bar2.nrtail = 0 ∧ s.bar2.nrhead = 0 ∧ s.bar2.nrstat = false ∧ s.bar2.dnbase = 0 ∧ s.bar2.b4base = 0 ∧ s.bar2.shrkack = 0 ∧
  s.bar2.pwen = 0 ∧ (∀ p, fget 0 s.bar2.pwsize p = 0 ∧ fget 0 s.bar2.portvf p = 0) ∧ s.bar2.mcseq = 0 ∧ s.bar2.mccfg = 0 ∧
  (∀ n, fget none s.mclog n = none) ∧ (∀ v, (s.part v).xresume = 2000 ∧ (s.part v).xhvec = 0) ∧ s.xgwin = 1000 ∧ s.xackto = 20 ∧
  (∀ n, (s.site n).gpart = 0) ∧ (∀ a, (s.ctx a).xage = 256) ∧ (∀ b w i, (s.lane b w i).occ = .unoccupied) ∧
  (∀ p, (s.port p).enable = false ∧ (s.port p).q = []) ∧ s.memWf

/-- The memory of the package and the host's stay in their canonical form (addresses strictly rising, no entry equal to what an
unlisted address reads as) over every step: the form that the model gives memory (log 3).
Readings of the model, not of the spec, that it rests on: log 3. -/
def Obligations.StepKeepsMemoryCanonical : Prop :=
  ∀ s t : State, s.memWf → step s = .next t → t.memWf

/-- R89 to R105, R118 to R122, R127 and the encodings of every cell: an encoded well-formed instruction decodes to itself, with every
operand at every value that its encoding admits; what decodes is well-formed and has words. -/
def Obligations.DecodeEncodeRoundTrip : Prop :=
  (∀ (i : Instr) (ws : List Word), i.wf = true → encode i = some ws → decode ws = .ok i) ∧
  (∀ (ws : List Word) (i : Instr), decode ws = .ok i → i.wf = true ∧ ∃ us, encode i = some us)

/-- Words that the spec writes out, and what they stand for. -/
def Obligations.SpecWordsDecode : Prop :=
  let u : Guard := { p := 7, neg := false }
  decode [0x79002057, 0x00000040] = .ok (.mwait u 8 10 0x40 0) ∧
  decode [0x7D100007, 0x00000001] = .ok (.xrd u 8 .xepc .own) ∧
  decode [0x7D002407, 0x00010000] = .ok (.xwr u 9 .xstatus .own) ∧
  decode [0x3800004F] ≠ .ok (.nop u) ∧ decode [0x38000007] = .ok (.nop u) ∧
  decode [0x7E001017, 0x00000020] = .ok (.tlbinvVa u 4 .dev 0) ∧
  decode [0x66061007, 0x000005A7] = .ok (.cvt u 3 4 .s32 .f32 .rz false false) ∧
  decode [0xC3180038, 0x0000FFFE] = .ok (.umovi u 6 (.imm 0x7FFE)) ∧
  decode [0x642854B7, 0x02E50000] = .ok (.idp8 u 20 21 22 23 true false true) ∧
  decode [0x75000007, 0x00000013] = .ok (.fence u .full .dev 0) ∧ decode [0x75000007, 0x00000005] = .ok (.fence u .acq .blk 0) ∧
  decode [0xCE106038, 0x00000000] = .ok (.graftRep u 0 4 6) ∧ decode [0xCE0061F9, 0x00000000] = .ok (.prune u 0 6 7)
end

