-- ==== Sys2Proof/Laws/FMap.lean ====
section
/-! SUPPORT. The laws of sparse maps: what a read gives after a write, without any premise on the map, and that a write keeps
the canonical form. -/

namespace Sys2Proof.Machine

@[simp] theorem fget_nil {α : Type} (d : α) (k : Nat) : fget d ([] : FMap α) k = d := rfl

/-- A read after a put gives what was put at that key, and elsewhere what stood there. -/
theorem fget_fput {α : Type} (d : α) (m : FMap α) (k j : Nat) (x : α) :
    fget d (fput m k x) j = if k = j then x else fget d m j := by
  induction m with
  | nil => simp [fput, fget]
  | cons e r ih =>
    obtain ⟨k', y⟩ := e
    simp only [fput]
    split
    · simp [fget]
    · split
      · subst k'; by_cases h : k = j <;> simp [fget, h]
      · by_cases h : k' = j
        · subst h; simp [fget]; intro h2; omega
        · simp [fget, h, ih]

theorem fget_fput_same {α : Type} (d : α) (m : FMap α) (k : Nat) (x : α) : fget d (fput m k x) k = x := by
  simp [fget_fput]

theorem fget_fput_ne {α : Type} (d : α) (m : FMap α) {k j : Nat} (x : α) (h : k ≠ j) :
    fget d (fput m k x) j = fget d m j := by
  simp [fget_fput, h]

/-- A read after a removal gives the default at that key. -/
theorem fget_fdel {α : Type} (d : α) (m : FMap α) (k j : Nat) :
    fget d (fdel m k) j = if k = j then d else fget d m j := by
  induction m with
  | nil => simp [fdel, fget]
  | cons e r ih =>
    obtain ⟨k', y⟩ := e
    simp only [fdel]
    split
    · subst k'; rw [ih]; by_cases h : k = j <;> simp [fget, h]
    · by_cases h : k' = j
      · subst h; simp [fget]; intro h2; omega
      · simp [fget, h, ih]

/-- A read after a set gives what was set. -/
theorem fget_fset {α : Type} [DecidableEq α] (d : α) (m : FMap α) (k j : Nat) (x : α) :
    fget d (fset d m k x) j = if k = j then x else fget d m j := by
  unfold fset
  split
  · rename_i h; rw [fget_fdel, h]
  · rw [fget_fput]

theorem fget_fset_same {α : Type} [DecidableEq α] (d : α) (m : FMap α) (k : Nat) (x : α) :
    fget d (fset d m k x) k = x := by simp [fget_fset]

theorem fget_fset_ne {α : Type} [DecidableEq α] (d : α) (m : FMap α) {k j : Nat} (x : α) (h : k ≠ j) :
    fget d (fset d m k x) j = fget d m j := by simp [fget_fset, h]

/-- A map sorted above a key is sorted above a smaller one. -/
theorem fsorted_mono {α : Type} (m : FMap α) {a b : Nat} (h : a ≤ b) (s : fsorted (some b) m = true) :
    fsorted (some a) m = true := by
  cases m with
  | nil => rfl
  | cons e r => simp only [fsorted, Bool.and_eq_true, decide_eq_true_eq] at *; exact ⟨by omega, s.2⟩

theorem fsorted_none {α : Type} (m : FMap α) (a : Nat) (s : fsorted (some a) m = true) : fsorted none m = true := by
  cases m with
  | nil => rfl
  | cons e r => simp only [fsorted, Bool.and_eq_true] at *; exact s.2

theorem fsorted_fput_some {α : Type} (m : FMap α) (l k : Nat) (x : α) (h : l < k) (s : fsorted (some l) m = true) :
    fsorted (some l) (fput m k x) = true := by
  induction m generalizing l with
  | nil => simp [fput, fsorted, h]
  | cons e r ih =>
    obtain ⟨k', y⟩ := e
    simp only [fsorted, Bool.and_eq_true, decide_eq_true_eq] at s
    simp only [fput]
    split
    · simp [fsorted, h, s.2]; assumption
    · split
      · subst k'; simp [fsorted, h, s.2]
      · simp only [fsorted, Bool.and_eq_true, decide_eq_true_eq]
        exact ⟨s.1, ih k' (by omega) s.2⟩

theorem fsorted_fput {α : Type} (m : FMap α) (k : Nat) (x : α) (s : fsorted none m = true) :
    fsorted none (fput m k x) = true := by
  cases m with
  | nil => rfl
  | cons e r =>
    obtain ⟨k', y⟩ := e
    simp only [fsorted] at s
    simp only [fput]
    split
    · simp [fsorted, s]; assumption
    · split
      · subst k'; simp [fsorted, s]
      · simp only [fsorted]
        exact fsorted_fput_some r k' k x (by omega) s

theorem fsorted_fdel_some {α : Type} (m : FMap α) (l k : Nat) (s : fsorted (some l) m = true) :
    fsorted (some l) (fdel m k) = true := by
  induction m generalizing l with
  | nil => rfl
  | cons e r ih =>
    obtain ⟨k', y⟩ := e
    simp only [fsorted, Bool.and_eq_true, decide_eq_true_eq] at s
    simp only [fdel]
    split
    · exact ih l (fsorted_mono r (by omega) s.2)
    · simp only [fsorted, Bool.and_eq_true, decide_eq_true_eq]; exact ⟨s.1, ih k' s.2⟩

theorem fsorted_fdel {α : Type} (m : FMap α) (k : Nat) (s : fsorted none m = true) : fsorted none (fdel m k) = true := by
  induction m with
  | nil => rfl
  | cons e r ih =>
    obtain ⟨k', y⟩ := e
    simp only [fsorted] at s
    simp only [fdel]
    split
    · exact ih (fsorted_none r k' s)
    · simp only [fsorted]; exact fsorted_fdel_some r k' k s

theorem fdel_all {α : Type} (p : Nat × α → Bool) (m : FMap α) (k : Nat) (h : m.all p = true) : (fdel m k).all p = true := by
  induction m with
  | nil => rfl
  | cons e r ih =>
    obtain ⟨k', y⟩ := e
    simp only [List.all_cons, Bool.and_eq_true] at h
    simp only [fdel]
    split
    · exact ih h.2
    · simp only [List.all_cons, Bool.and_eq_true]; exact ⟨h.1, ih h.2⟩

theorem fput_all {α : Type} (p : Nat × α → Bool) (m : FMap α) (k : Nat) (x : α) (h : m.all p = true) (hx : p (k, x) = true) :
    (fput m k x).all p = true := by
  induction m with
  | nil => simp [fput, hx]
  | cons e r ih =>
    obtain ⟨k', y⟩ := e
    simp only [List.all_cons, Bool.and_eq_true] at h
    simp only [fput]
    split
    · simp only [List.all_cons, Bool.and_eq_true]; exact ⟨hx, h.1, h.2⟩
    · split
      · simp only [List.all_cons, Bool.and_eq_true]; exact ⟨hx, h.2⟩
      · simp only [List.all_cons, Bool.and_eq_true]; exact ⟨h.1, ih h.2⟩

theorem mem_upto (k lo n : Nat) : k ∈ upto lo n ↔ lo ≤ k ∧ k < lo + n := by
  induction n generalizing lo with
  | zero => simp [upto]
  | succ n ih => rw [upto, List.mem_cons, ih]; omega

/-- A set keeps the canonical form. -/
theorem fwf_fset {α : Type} [DecidableEq α] (d : α) (m : FMap α) (k : Nat) (x : α) (h : fwf d m = true) :
    fwf d (fset d m k x) = true := by
  simp only [fwf, Bool.and_eq_true] at *
  unfold fset
  split
  · exact ⟨fsorted_fdel m k h.1, fdel_all _ m k h.2⟩
  · rename_i hx
    exact ⟨fsorted_fput m k x h.1, fput_all _ m k x h.2 (by simpa using hx)⟩

end Sys2Proof.Machine
end

