-- ==== Sys2Proof/Laws/State.lean ====
section
/-! SUPPORT. Every field of State after every named update: unchanged, or what was put (all by unfolding), so that no later proof
unfolds a record update. -/

namespace Sys2Proof.Machine

variable (s : State)

@[simp] theorem State.setBlk_phase (b : Nat) (x : Block) : (s.setBlk b x).phase = s.phase := rfl
@[simp] theorem State.setBlk_clock (b : Nat) (x : Block) : (s.setBlk b x).clock = s.clock := rfl
@[simp] theorem State.setBlk_rdymap (b : Nat) (x : Block) : (s.setBlk b x).rdymap = s.rdymap := rfl
@[simp] theorem State.setBlk_cap (b : Nat) (x : Block) : (s.setBlk b x).cap = s.cap := rfl
@[simp] theorem State.setBlk_capLog (b : Nat) (x : Block) : (s.setBlk b x).capLog = s.capLog := rfl
@[simp] theorem State.setBlk_sites (b : Nat) (x : Block) : (s.setBlk b x).sites = s.sites := rfl
@[simp] theorem State.setBlk_losses (b : Nat) (x : Block) : (s.setBlk b x).losses = s.losses := rfl
@[simp] theorem State.setBlk_placing (b : Nat) (x : Block) : (s.setBlk b x).placing = s.placing := rfl
@[simp] theorem State.setBlk_hbmTop (b : Nat) (x : Block) : (s.setBlk b x).hbmTop = s.hbmTop := rfl
@[simp] theorem State.setBlk_hdmTop (b : Nat) (x : Block) : (s.setBlk b x).hdmTop = s.hdmTop := rfl
@[simp] theorem State.setBlk_straps (b : Nat) (x : Block) : (s.setBlk b x).straps = s.straps := rfl
@[simp] theorem State.setBlk_io (b : Nat) (x : Block) : (s.setBlk b x).io = s.io := rfl
@[simp] theorem State.setBlk_bar2 (b : Nat) (x : Block) : (s.setBlk b x).bar2 = s.bar2 := rfl
@[simp] theorem State.setBlk_mclog (b : Nat) (x : Block) : (s.setBlk b x).mclog = s.mclog := rfl
@[simp] theorem State.setBlk_dvsec (b : Nat) (x : Block) : (s.setBlk b x).dvsec = s.dvsec := rfl
@[simp] theorem State.setBlk_ports (b : Nat) (x : Block) : (s.setBlk b x).ports = s.ports := rfl
@[simp] theorem State.setBlk_peers (b : Nat) (x : Block) : (s.setBlk b x).peers = s.peers := rfl
@[simp] theorem State.setBlk_swihus (b : Nat) (x : Block) : (s.setBlk b x).swihus = s.swihus := rfl
@[simp] theorem State.setBlk_hostInsecure (b : Nat) (x : Block) : (s.setBlk b x).hostInsecure = s.hostInsecure := rfl
@[simp] theorem State.setBlk_suspects (b : Nat) (x : Block) : (s.setBlk b x).suspects = s.suspects := rfl
@[simp] theorem State.setBlk_homeq (b : Nat) (x : Block) : (s.setBlk b x).homeq = s.homeq := rfl
@[simp] theorem State.setBlk_served (b : Nat) (x : Block) : (s.setBlk b x).served = s.served := rfl
@[simp] theorem State.setBlk_dir (b : Nat) (x : Block) : (s.setBlk b x).dir = s.dir := rfl
@[simp] theorem State.setBlk_bridge (b : Nat) (x : Block) : (s.setBlk b x).bridge = s.bridge := rfl
@[simp] theorem State.setBlk_hostMem (b : Nat) (x : Block) : (s.setBlk b x).hostMem = s.hostMem := rfl
@[simp] theorem State.setBlk_mem (b : Nat) (x : Block) : (s.setBlk b x).mem = s.mem := rfl
@[simp] theorem State.setBlk_poison (b : Nat) (x : Block) : (s.setBlk b x).poison = s.poison := rfl
@[simp] theorem State.setBlk_ktag (b : Nat) (x : Block) : (s.setBlk b x).ktag = s.ktag := rfl
@[simp] theorem State.setBlk_ver (b : Nat) (x : Block) : (s.setBlk b x).ver = s.ver := rfl
@[simp] theorem State.setBlk_wcount (b : Nat) (x : Block) : (s.setBlk b x).wcount = s.wcount := rfl
@[simp] theorem State.setBlk_undo (b : Nat) (x : Block) : (s.setBlk b x).undo = s.undo := rfl
@[simp] theorem State.setBlk_saves (b : Nat) (x : Block) : (s.setBlk b x).saves = s.saves := rfl
@[simp] theorem State.setBlk_keygen (b : Nat) (x : Block) : (s.setBlk b x).keygen = s.keygen := rfl
@[simp] theorem State.setBlk_xgwin (b : Nat) (x : Block) : (s.setBlk b x).xgwin = s.xgwin := rfl
@[simp] theorem State.setBlk_windowAt (b : Nat) (x : Block) : (s.setBlk b x).windowAt = s.windowAt := rfl
@[simp] theorem State.setBlk_xackto (b : Nat) (x : Block) : (s.setBlk b x).xackto = s.xackto := rfl
@[simp] theorem State.setBlk_xgsite (b : Nat) (x : Block) : (s.setBlk b x).xgsite = s.xgsite := rfl
@[simp] theorem State.setBlk_ctxs (b : Nat) (x : Block) : (s.setBlk b x).ctxs = s.ctxs := rfl
@[simp] theorem State.setBlk_parts (b : Nat) (x : Block) : (s.setBlk b x).parts = s.parts := rfl
@[simp] theorem State.setBlk_xpend (b : Nat) (x : Block) : (s.setBlk b x).xpend = s.xpend := rfl
@[simp] theorem State.setBlk_grids (b : Nat) (x : Block) : (s.setBlk b x).grids = s.grids := rfl
@[simp] theorem State.setBlk_nextGrid (b : Nat) (x : Block) : (s.setBlk b x).nextGrid = s.nextGrid := rfl
@[simp] theorem State.setBlk_blocks (b : Nat) (x : Block) : (s.setBlk b x).blocks = fput s.blocks b x := rfl
@[simp] theorem State.setBlk_nextBlock (b : Nat) (x : Block) : (s.setBlk b x).nextBlock = s.nextBlock := rfl
@[simp] theorem State.setBlk_orders (b : Nat) (x : Block) : (s.setBlk b x).orders = s.orders := rfl
@[simp] theorem State.setBlk_turns (b : Nat) (x : Block) : (s.setBlk b x).turns = s.turns := rfl
@[simp] theorem State.setBlk_dlevel (b : Nat) (x : Block) : (s.setBlk b x).dlevel = s.dlevel := rfl
@[simp] theorem State.setBlk_visited (b : Nat) (x : Block) : (s.setBlk b x).visited = s.visited := rfl
@[simp] theorem State.setBlk_outs (b : Nat) (x : Block) : (s.setBlk b x).outs = s.outs := rfl
@[simp] theorem State.setBlk_agenda (b : Nat) (x : Block) : (s.setBlk b x).agenda = s.agenda := rfl
@[simp] theorem State.setBlk_cur (b : Nat) (x : Block) : (s.setBlk b x).cur = s.cur := rfl
@[simp] theorem State.setBlk_freeIx (b : Nat) (x : Block) : (s.setBlk b x).freeIx = s.freeIx := rfl
@[simp] theorem State.setBlk_steps (b : Nat) (x : Block) : (s.setBlk b x).steps = s.steps := rfl

@[simp] theorem State.setGrid_phase (g : Nat) (x : Grid) : (s.setGrid g x).phase = s.phase := rfl
@[simp] theorem State.setGrid_clock (g : Nat) (x : Grid) : (s.setGrid g x).clock = s.clock := rfl
@[simp] theorem State.setGrid_rdymap (g : Nat) (x : Grid) : (s.setGrid g x).rdymap = s.rdymap := rfl
@[simp] theorem State.setGrid_cap (g : Nat) (x : Grid) : (s.setGrid g x).cap = s.cap := rfl
@[simp] theorem State.setGrid_capLog (g : Nat) (x : Grid) : (s.setGrid g x).capLog = s.capLog := rfl
@[simp] theorem State.setGrid_sites (g : Nat) (x : Grid) : (s.setGrid g x).sites = s.sites := rfl
@[simp] theorem State.setGrid_losses (g : Nat) (x : Grid) : (s.setGrid g x).losses = s.losses := rfl
@[simp] theorem State.setGrid_placing (g : Nat) (x : Grid) : (s.setGrid g x).placing = s.placing := rfl
@[simp] theorem State.setGrid_hbmTop (g : Nat) (x : Grid) : (s.setGrid g x).hbmTop = s.hbmTop := rfl
@[simp] theorem State.setGrid_hdmTop (g : Nat) (x : Grid) : (s.setGrid g x).hdmTop = s.hdmTop := rfl
@[simp] theorem State.setGrid_straps (g : Nat) (x : Grid) : (s.setGrid g x).straps = s.straps := rfl
@[simp] theorem State.setGrid_io (g : Nat) (x : Grid) : (s.setGrid g x).io = s.io := rfl
@[simp] theorem State.setGrid_bar2 (g : Nat) (x : Grid) : (s.setGrid g x).bar2 = s.bar2 := rfl
@[simp] theorem State.setGrid_mclog (g : Nat) (x : Grid) : (s.setGrid g x).mclog = s.mclog := rfl
@[simp] theorem State.setGrid_dvsec (g : Nat) (x : Grid) : (s.setGrid g x).dvsec = s.dvsec := rfl
@[simp] theorem State.setGrid_ports (g : Nat) (x : Grid) : (s.setGrid g x).ports = s.ports := rfl
@[simp] theorem State.setGrid_peers (g : Nat) (x : Grid) : (s.setGrid g x).peers = s.peers := rfl
@[simp] theorem State.setGrid_swihus (g : Nat) (x : Grid) : (s.setGrid g x).swihus = s.swihus := rfl
@[simp] theorem State.setGrid_hostInsecure (g : Nat) (x : Grid) : (s.setGrid g x).hostInsecure = s.hostInsecure := rfl
@[simp] theorem State.setGrid_suspects (g : Nat) (x : Grid) : (s.setGrid g x).suspects = s.suspects := rfl
@[simp] theorem State.setGrid_homeq (g : Nat) (x : Grid) : (s.setGrid g x).homeq = s.homeq := rfl
@[simp] theorem State.setGrid_served (g : Nat) (x : Grid) : (s.setGrid g x).served = s.served := rfl
@[simp] theorem State.setGrid_dir (g : Nat) (x : Grid) : (s.setGrid g x).dir = s.dir := rfl
@[simp] theorem State.setGrid_bridge (g : Nat) (x : Grid) : (s.setGrid g x).bridge = s.bridge := rfl
@[simp] theorem State.setGrid_hostMem (g : Nat) (x : Grid) : (s.setGrid g x).hostMem = s.hostMem := rfl
@[simp] theorem State.setGrid_mem (g : Nat) (x : Grid) : (s.setGrid g x).mem = s.mem := rfl
@[simp] theorem State.setGrid_poison (g : Nat) (x : Grid) : (s.setGrid g x).poison = s.poison := rfl
@[simp] theorem State.setGrid_ktag (g : Nat) (x : Grid) : (s.setGrid g x).ktag = s.ktag := rfl
@[simp] theorem State.setGrid_ver (g : Nat) (x : Grid) : (s.setGrid g x).ver = s.ver := rfl
@[simp] theorem State.setGrid_wcount (g : Nat) (x : Grid) : (s.setGrid g x).wcount = s.wcount := rfl
@[simp] theorem State.setGrid_undo (g : Nat) (x : Grid) : (s.setGrid g x).undo = s.undo := rfl
@[simp] theorem State.setGrid_saves (g : Nat) (x : Grid) : (s.setGrid g x).saves = s.saves := rfl
@[simp] theorem State.setGrid_keygen (g : Nat) (x : Grid) : (s.setGrid g x).keygen = s.keygen := rfl
@[simp] theorem State.setGrid_xgwin (g : Nat) (x : Grid) : (s.setGrid g x).xgwin = s.xgwin := rfl
@[simp] theorem State.setGrid_windowAt (g : Nat) (x : Grid) : (s.setGrid g x).windowAt = s.windowAt := rfl
@[simp] theorem State.setGrid_xackto (g : Nat) (x : Grid) : (s.setGrid g x).xackto = s.xackto := rfl
@[simp] theorem State.setGrid_xgsite (g : Nat) (x : Grid) : (s.setGrid g x).xgsite = s.xgsite := rfl
@[simp] theorem State.setGrid_ctxs (g : Nat) (x : Grid) : (s.setGrid g x).ctxs = s.ctxs := rfl
@[simp] theorem State.setGrid_parts (g : Nat) (x : Grid) : (s.setGrid g x).parts = s.parts := rfl
@[simp] theorem State.setGrid_xpend (g : Nat) (x : Grid) : (s.setGrid g x).xpend = s.xpend := rfl
@[simp] theorem State.setGrid_grids (g : Nat) (x : Grid) : (s.setGrid g x).grids = fput s.grids g x := rfl
@[simp] theorem State.setGrid_nextGrid (g : Nat) (x : Grid) : (s.setGrid g x).nextGrid = s.nextGrid := rfl
@[simp] theorem State.setGrid_blocks (g : Nat) (x : Grid) : (s.setGrid g x).blocks = s.blocks := rfl
@[simp] theorem State.setGrid_nextBlock (g : Nat) (x : Grid) : (s.setGrid g x).nextBlock = s.nextBlock := rfl
@[simp] theorem State.setGrid_orders (g : Nat) (x : Grid) : (s.setGrid g x).orders = s.orders := rfl
@[simp] theorem State.setGrid_turns (g : Nat) (x : Grid) : (s.setGrid g x).turns = s.turns := rfl
@[simp] theorem State.setGrid_dlevel (g : Nat) (x : Grid) : (s.setGrid g x).dlevel = s.dlevel := rfl
@[simp] theorem State.setGrid_visited (g : Nat) (x : Grid) : (s.setGrid g x).visited = s.visited := rfl
@[simp] theorem State.setGrid_outs (g : Nat) (x : Grid) : (s.setGrid g x).outs = s.outs := rfl
@[simp] theorem State.setGrid_agenda (g : Nat) (x : Grid) : (s.setGrid g x).agenda = s.agenda := rfl
@[simp] theorem State.setGrid_cur (g : Nat) (x : Grid) : (s.setGrid g x).cur = s.cur := rfl
@[simp] theorem State.setGrid_freeIx (g : Nat) (x : Grid) : (s.setGrid g x).freeIx = s.freeIx := rfl
@[simp] theorem State.setGrid_steps (g : Nat) (x : Grid) : (s.setGrid g x).steps = s.steps := rfl

@[simp] theorem State.setCtx_phase (a : Nat) (x : Ctx) : (s.setCtx a x).phase = s.phase := rfl
@[simp] theorem State.setCtx_clock (a : Nat) (x : Ctx) : (s.setCtx a x).clock = s.clock := rfl
@[simp] theorem State.setCtx_rdymap (a : Nat) (x : Ctx) : (s.setCtx a x).rdymap = s.rdymap := rfl
@[simp] theorem State.setCtx_cap (a : Nat) (x : Ctx) : (s.setCtx a x).cap = s.cap := rfl
@[simp] theorem State.setCtx_capLog (a : Nat) (x : Ctx) : (s.setCtx a x).capLog = s.capLog := rfl
@[simp] theorem State.setCtx_sites (a : Nat) (x : Ctx) : (s.setCtx a x).sites = s.sites := rfl
@[simp] theorem State.setCtx_losses (a : Nat) (x : Ctx) : (s.setCtx a x).losses = s.losses := rfl
@[simp] theorem State.setCtx_placing (a : Nat) (x : Ctx) : (s.setCtx a x).placing = s.placing := rfl
@[simp] theorem State.setCtx_hbmTop (a : Nat) (x : Ctx) : (s.setCtx a x).hbmTop = s.hbmTop := rfl
@[simp] theorem State.setCtx_hdmTop (a : Nat) (x : Ctx) : (s.setCtx a x).hdmTop = s.hdmTop := rfl
@[simp] theorem State.setCtx_straps (a : Nat) (x : Ctx) : (s.setCtx a x).straps = s.straps := rfl
@[simp] theorem State.setCtx_io (a : Nat) (x : Ctx) : (s.setCtx a x).io = s.io := rfl
@[simp] theorem State.setCtx_bar2 (a : Nat) (x : Ctx) : (s.setCtx a x).bar2 = s.bar2 := rfl
@[simp] theorem State.setCtx_mclog (a : Nat) (x : Ctx) : (s.setCtx a x).mclog = s.mclog := rfl
@[simp] theorem State.setCtx_dvsec (a : Nat) (x : Ctx) : (s.setCtx a x).dvsec = s.dvsec := rfl
@[simp] theorem State.setCtx_ports (a : Nat) (x : Ctx) : (s.setCtx a x).ports = s.ports := rfl
@[simp] theorem State.setCtx_peers (a : Nat) (x : Ctx) : (s.setCtx a x).peers = s.peers := rfl
@[simp] theorem State.setCtx_swihus (a : Nat) (x : Ctx) : (s.setCtx a x).swihus = s.swihus := rfl
@[simp] theorem State.setCtx_hostInsecure (a : Nat) (x : Ctx) : (s.setCtx a x).hostInsecure = s.hostInsecure := rfl
@[simp] theorem State.setCtx_suspects (a : Nat) (x : Ctx) : (s.setCtx a x).suspects = s.suspects := rfl
@[simp] theorem State.setCtx_homeq (a : Nat) (x : Ctx) : (s.setCtx a x).homeq = s.homeq := rfl
@[simp] theorem State.setCtx_served (a : Nat) (x : Ctx) : (s.setCtx a x).served = s.served := rfl
@[simp] theorem State.setCtx_dir (a : Nat) (x : Ctx) : (s.setCtx a x).dir = s.dir := rfl
@[simp] theorem State.setCtx_bridge (a : Nat) (x : Ctx) : (s.setCtx a x).bridge = s.bridge := rfl
@[simp] theorem State.setCtx_hostMem (a : Nat) (x : Ctx) : (s.setCtx a x).hostMem = s.hostMem := rfl
@[simp] theorem State.setCtx_mem (a : Nat) (x : Ctx) : (s.setCtx a x).mem = s.mem := rfl
@[simp] theorem State.setCtx_poison (a : Nat) (x : Ctx) : (s.setCtx a x).poison = s.poison := rfl
@[simp] theorem State.setCtx_ktag (a : Nat) (x : Ctx) : (s.setCtx a x).ktag = s.ktag := rfl
@[simp] theorem State.setCtx_ver (a : Nat) (x : Ctx) : (s.setCtx a x).ver = s.ver := rfl
@[simp] theorem State.setCtx_wcount (a : Nat) (x : Ctx) : (s.setCtx a x).wcount = s.wcount := rfl
@[simp] theorem State.setCtx_undo (a : Nat) (x : Ctx) : (s.setCtx a x).undo = s.undo := rfl
@[simp] theorem State.setCtx_saves (a : Nat) (x : Ctx) : (s.setCtx a x).saves = s.saves := rfl
@[simp] theorem State.setCtx_keygen (a : Nat) (x : Ctx) : (s.setCtx a x).keygen = s.keygen := rfl
@[simp] theorem State.setCtx_xgwin (a : Nat) (x : Ctx) : (s.setCtx a x).xgwin = s.xgwin := rfl
@[simp] theorem State.setCtx_windowAt (a : Nat) (x : Ctx) : (s.setCtx a x).windowAt = s.windowAt := rfl
@[simp] theorem State.setCtx_xackto (a : Nat) (x : Ctx) : (s.setCtx a x).xackto = s.xackto := rfl
@[simp] theorem State.setCtx_xgsite (a : Nat) (x : Ctx) : (s.setCtx a x).xgsite = s.xgsite := rfl
@[simp] theorem State.setCtx_ctxs (a : Nat) (x : Ctx) : (s.setCtx a x).ctxs = fput s.ctxs a x := rfl
@[simp] theorem State.setCtx_parts (a : Nat) (x : Ctx) : (s.setCtx a x).parts = s.parts := rfl
@[simp] theorem State.setCtx_xpend (a : Nat) (x : Ctx) : (s.setCtx a x).xpend = s.xpend := rfl
@[simp] theorem State.setCtx_grids (a : Nat) (x : Ctx) : (s.setCtx a x).grids = s.grids := rfl
@[simp] theorem State.setCtx_nextGrid (a : Nat) (x : Ctx) : (s.setCtx a x).nextGrid = s.nextGrid := rfl
@[simp] theorem State.setCtx_blocks (a : Nat) (x : Ctx) : (s.setCtx a x).blocks = s.blocks := rfl
@[simp] theorem State.setCtx_nextBlock (a : Nat) (x : Ctx) : (s.setCtx a x).nextBlock = s.nextBlock := rfl
@[simp] theorem State.setCtx_orders (a : Nat) (x : Ctx) : (s.setCtx a x).orders = s.orders := rfl
@[simp] theorem State.setCtx_turns (a : Nat) (x : Ctx) : (s.setCtx a x).turns = s.turns := rfl
@[simp] theorem State.setCtx_dlevel (a : Nat) (x : Ctx) : (s.setCtx a x).dlevel = s.dlevel := rfl
@[simp] theorem State.setCtx_visited (a : Nat) (x : Ctx) : (s.setCtx a x).visited = s.visited := rfl
@[simp] theorem State.setCtx_outs (a : Nat) (x : Ctx) : (s.setCtx a x).outs = s.outs := rfl
@[simp] theorem State.setCtx_agenda (a : Nat) (x : Ctx) : (s.setCtx a x).agenda = s.agenda := rfl
@[simp] theorem State.setCtx_cur (a : Nat) (x : Ctx) : (s.setCtx a x).cur = s.cur := rfl
@[simp] theorem State.setCtx_freeIx (a : Nat) (x : Ctx) : (s.setCtx a x).freeIx = s.freeIx := rfl
@[simp] theorem State.setCtx_steps (a : Nat) (x : Ctx) : (s.setCtx a x).steps = s.steps := rfl

@[simp] theorem State.setPart_phase (v : Nat) (x : Part) : (s.setPart v x).phase = s.phase := rfl
@[simp] theorem State.setPart_clock (v : Nat) (x : Part) : (s.setPart v x).clock = s.clock := rfl
@[simp] theorem State.setPart_rdymap (v : Nat) (x : Part) : (s.setPart v x).rdymap = s.rdymap := rfl
@[simp] theorem State.setPart_cap (v : Nat) (x : Part) : (s.setPart v x).cap = s.cap := rfl
@[simp] theorem State.setPart_capLog (v : Nat) (x : Part) : (s.setPart v x).capLog = s.capLog := rfl
@[simp] theorem State.setPart_sites (v : Nat) (x : Part) : (s.setPart v x).sites = s.sites := rfl
@[simp] theorem State.setPart_losses (v : Nat) (x : Part) : (s.setPart v x).losses = s.losses := rfl
@[simp] theorem State.setPart_placing (v : Nat) (x : Part) : (s.setPart v x).placing = s.placing := rfl
@[simp] theorem State.setPart_hbmTop (v : Nat) (x : Part) : (s.setPart v x).hbmTop = s.hbmTop := rfl
@[simp] theorem State.setPart_hdmTop (v : Nat) (x : Part) : (s.setPart v x).hdmTop = s.hdmTop := rfl
@[simp] theorem State.setPart_straps (v : Nat) (x : Part) : (s.setPart v x).straps = s.straps := rfl
@[simp] theorem State.setPart_io (v : Nat) (x : Part) : (s.setPart v x).io = s.io := rfl
@[simp] theorem State.setPart_bar2 (v : Nat) (x : Part) : (s.setPart v x).bar2 = s.bar2 := rfl
@[simp] theorem State.setPart_mclog (v : Nat) (x : Part) : (s.setPart v x).mclog = s.mclog := rfl
@[simp] theorem State.setPart_dvsec (v : Nat) (x : Part) : (s.setPart v x).dvsec = s.dvsec := rfl
@[simp] theorem State.setPart_ports (v : Nat) (x : Part) : (s.setPart v x).ports = s.ports := rfl
@[simp] theorem State.setPart_peers (v : Nat) (x : Part) : (s.setPart v x).peers = s.peers := rfl
@[simp] theorem State.setPart_swihus (v : Nat) (x : Part) : (s.setPart v x).swihus = s.swihus := rfl
@[simp] theorem State.setPart_hostInsecure (v : Nat) (x : Part) : (s.setPart v x).hostInsecure = s.hostInsecure := rfl
@[simp] theorem State.setPart_suspects (v : Nat) (x : Part) : (s.setPart v x).suspects = s.suspects := rfl
@[simp] theorem State.setPart_homeq (v : Nat) (x : Part) : (s.setPart v x).homeq = s.homeq := rfl
@[simp] theorem State.setPart_served (v : Nat) (x : Part) : (s.setPart v x).served = s.served := rfl
@[simp] theorem State.setPart_dir (v : Nat) (x : Part) : (s.setPart v x).dir = s.dir := rfl
@[simp] theorem State.setPart_bridge (v : Nat) (x : Part) : (s.setPart v x).bridge = s.bridge := rfl
@[simp] theorem State.setPart_hostMem (v : Nat) (x : Part) : (s.setPart v x).hostMem = s.hostMem := rfl
@[simp] theorem State.setPart_mem (v : Nat) (x : Part) : (s.setPart v x).mem = s.mem := rfl
@[simp] theorem State.setPart_poison (v : Nat) (x : Part) : (s.setPart v x).poison = s.poison := rfl
@[simp] theorem State.setPart_ktag (v : Nat) (x : Part) : (s.setPart v x).ktag = s.ktag := rfl
@[simp] theorem State.setPart_ver (v : Nat) (x : Part) : (s.setPart v x).ver = s.ver := rfl
@[simp] theorem State.setPart_wcount (v : Nat) (x : Part) : (s.setPart v x).wcount = s.wcount := rfl
@[simp] theorem State.setPart_undo (v : Nat) (x : Part) : (s.setPart v x).undo = s.undo := rfl
@[simp] theorem State.setPart_saves (v : Nat) (x : Part) : (s.setPart v x).saves = s.saves := rfl
@[simp] theorem State.setPart_keygen (v : Nat) (x : Part) : (s.setPart v x).keygen = s.keygen := rfl
@[simp] theorem State.setPart_xgwin (v : Nat) (x : Part) : (s.setPart v x).xgwin = s.xgwin := rfl
@[simp] theorem State.setPart_windowAt (v : Nat) (x : Part) : (s.setPart v x).windowAt = s.windowAt := rfl
@[simp] theorem State.setPart_xackto (v : Nat) (x : Part) : (s.setPart v x).xackto = s.xackto := rfl
@[simp] theorem State.setPart_xgsite (v : Nat) (x : Part) : (s.setPart v x).xgsite = s.xgsite := rfl
@[simp] theorem State.setPart_ctxs (v : Nat) (x : Part) : (s.setPart v x).ctxs = s.ctxs := rfl
@[simp] theorem State.setPart_parts (v : Nat) (x : Part) : (s.setPart v x).parts = fput s.parts v x := rfl
@[simp] theorem State.setPart_xpend (v : Nat) (x : Part) : (s.setPart v x).xpend = s.xpend := rfl
@[simp] theorem State.setPart_grids (v : Nat) (x : Part) : (s.setPart v x).grids = s.grids := rfl
@[simp] theorem State.setPart_nextGrid (v : Nat) (x : Part) : (s.setPart v x).nextGrid = s.nextGrid := rfl
@[simp] theorem State.setPart_blocks (v : Nat) (x : Part) : (s.setPart v x).blocks = s.blocks := rfl
@[simp] theorem State.setPart_nextBlock (v : Nat) (x : Part) : (s.setPart v x).nextBlock = s.nextBlock := rfl
@[simp] theorem State.setPart_orders (v : Nat) (x : Part) : (s.setPart v x).orders = s.orders := rfl
@[simp] theorem State.setPart_turns (v : Nat) (x : Part) : (s.setPart v x).turns = s.turns := rfl
@[simp] theorem State.setPart_dlevel (v : Nat) (x : Part) : (s.setPart v x).dlevel = s.dlevel := rfl
@[simp] theorem State.setPart_visited (v : Nat) (x : Part) : (s.setPart v x).visited = s.visited := rfl
@[simp] theorem State.setPart_outs (v : Nat) (x : Part) : (s.setPart v x).outs = s.outs := rfl
@[simp] theorem State.setPart_agenda (v : Nat) (x : Part) : (s.setPart v x).agenda = s.agenda := rfl
@[simp] theorem State.setPart_cur (v : Nat) (x : Part) : (s.setPart v x).cur = s.cur := rfl
@[simp] theorem State.setPart_freeIx (v : Nat) (x : Part) : (s.setPart v x).freeIx = s.freeIx := rfl
@[simp] theorem State.setPart_steps (v : Nat) (x : Part) : (s.setPart v x).steps = s.steps := rfl

@[simp] theorem State.setSite_phase (n : Nat) (x : Site) : (s.setSite n x).phase = s.phase := rfl
@[simp] theorem State.setSite_clock (n : Nat) (x : Site) : (s.setSite n x).clock = s.clock := rfl
@[simp] theorem State.setSite_rdymap (n : Nat) (x : Site) : (s.setSite n x).rdymap = s.rdymap := rfl
@[simp] theorem State.setSite_cap (n : Nat) (x : Site) : (s.setSite n x).cap = s.cap := rfl
@[simp] theorem State.setSite_capLog (n : Nat) (x : Site) : (s.setSite n x).capLog = s.capLog := rfl
@[simp] theorem State.setSite_sites (n : Nat) (x : Site) : (s.setSite n x).sites = fput s.sites n x := rfl
@[simp] theorem State.setSite_losses (n : Nat) (x : Site) : (s.setSite n x).losses = s.losses := rfl
@[simp] theorem State.setSite_placing (n : Nat) (x : Site) : (s.setSite n x).placing = s.placing := rfl
@[simp] theorem State.setSite_hbmTop (n : Nat) (x : Site) : (s.setSite n x).hbmTop = s.hbmTop := rfl
@[simp] theorem State.setSite_hdmTop (n : Nat) (x : Site) : (s.setSite n x).hdmTop = s.hdmTop := rfl
@[simp] theorem State.setSite_straps (n : Nat) (x : Site) : (s.setSite n x).straps = s.straps := rfl
@[simp] theorem State.setSite_io (n : Nat) (x : Site) : (s.setSite n x).io = s.io := rfl
@[simp] theorem State.setSite_bar2 (n : Nat) (x : Site) : (s.setSite n x).bar2 = s.bar2 := rfl
@[simp] theorem State.setSite_mclog (n : Nat) (x : Site) : (s.setSite n x).mclog = s.mclog := rfl
@[simp] theorem State.setSite_dvsec (n : Nat) (x : Site) : (s.setSite n x).dvsec = s.dvsec := rfl
@[simp] theorem State.setSite_ports (n : Nat) (x : Site) : (s.setSite n x).ports = s.ports := rfl
@[simp] theorem State.setSite_peers (n : Nat) (x : Site) : (s.setSite n x).peers = s.peers := rfl
@[simp] theorem State.setSite_swihus (n : Nat) (x : Site) : (s.setSite n x).swihus = s.swihus := rfl
@[simp] theorem State.setSite_hostInsecure (n : Nat) (x : Site) : (s.setSite n x).hostInsecure = s.hostInsecure := rfl
@[simp] theorem State.setSite_suspects (n : Nat) (x : Site) : (s.setSite n x).suspects = s.suspects := rfl
@[simp] theorem State.setSite_homeq (n : Nat) (x : Site) : (s.setSite n x).homeq = s.homeq := rfl
@[simp] theorem State.setSite_served (n : Nat) (x : Site) : (s.setSite n x).served = s.served := rfl
@[simp] theorem State.setSite_dir (n : Nat) (x : Site) : (s.setSite n x).dir = s.dir := rfl
@[simp] theorem State.setSite_bridge (n : Nat) (x : Site) : (s.setSite n x).bridge = s.bridge := rfl
@[simp] theorem State.setSite_hostMem (n : Nat) (x : Site) : (s.setSite n x).hostMem = s.hostMem := rfl
@[simp] theorem State.setSite_mem (n : Nat) (x : Site) : (s.setSite n x).mem = s.mem := rfl
@[simp] theorem State.setSite_poison (n : Nat) (x : Site) : (s.setSite n x).poison = s.poison := rfl
@[simp] theorem State.setSite_ktag (n : Nat) (x : Site) : (s.setSite n x).ktag = s.ktag := rfl
@[simp] theorem State.setSite_ver (n : Nat) (x : Site) : (s.setSite n x).ver = s.ver := rfl
@[simp] theorem State.setSite_wcount (n : Nat) (x : Site) : (s.setSite n x).wcount = s.wcount := rfl
@[simp] theorem State.setSite_undo (n : Nat) (x : Site) : (s.setSite n x).undo = s.undo := rfl
@[simp] theorem State.setSite_saves (n : Nat) (x : Site) : (s.setSite n x).saves = s.saves := rfl
@[simp] theorem State.setSite_keygen (n : Nat) (x : Site) : (s.setSite n x).keygen = s.keygen := rfl
@[simp] theorem State.setSite_xgwin (n : Nat) (x : Site) : (s.setSite n x).xgwin = s.xgwin := rfl
@[simp] theorem State.setSite_windowAt (n : Nat) (x : Site) : (s.setSite n x).windowAt = s.windowAt := rfl
@[simp] theorem State.setSite_xackto (n : Nat) (x : Site) : (s.setSite n x).xackto = s.xackto := rfl
@[simp] theorem State.setSite_xgsite (n : Nat) (x : Site) : (s.setSite n x).xgsite = s.xgsite := rfl
@[simp] theorem State.setSite_ctxs (n : Nat) (x : Site) : (s.setSite n x).ctxs = s.ctxs := rfl
@[simp] theorem State.setSite_parts (n : Nat) (x : Site) : (s.setSite n x).parts = s.parts := rfl
@[simp] theorem State.setSite_xpend (n : Nat) (x : Site) : (s.setSite n x).xpend = s.xpend := rfl
@[simp] theorem State.setSite_grids (n : Nat) (x : Site) : (s.setSite n x).grids = s.grids := rfl
@[simp] theorem State.setSite_nextGrid (n : Nat) (x : Site) : (s.setSite n x).nextGrid = s.nextGrid := rfl
@[simp] theorem State.setSite_blocks (n : Nat) (x : Site) : (s.setSite n x).blocks = s.blocks := rfl
@[simp] theorem State.setSite_nextBlock (n : Nat) (x : Site) : (s.setSite n x).nextBlock = s.nextBlock := rfl
@[simp] theorem State.setSite_orders (n : Nat) (x : Site) : (s.setSite n x).orders = s.orders := rfl
@[simp] theorem State.setSite_turns (n : Nat) (x : Site) : (s.setSite n x).turns = s.turns := rfl
@[simp] theorem State.setSite_dlevel (n : Nat) (x : Site) : (s.setSite n x).dlevel = s.dlevel := rfl
@[simp] theorem State.setSite_visited (n : Nat) (x : Site) : (s.setSite n x).visited = s.visited := rfl
@[simp] theorem State.setSite_outs (n : Nat) (x : Site) : (s.setSite n x).outs = s.outs := rfl
@[simp] theorem State.setSite_agenda (n : Nat) (x : Site) : (s.setSite n x).agenda = s.agenda := rfl
@[simp] theorem State.setSite_cur (n : Nat) (x : Site) : (s.setSite n x).cur = s.cur := rfl
@[simp] theorem State.setSite_freeIx (n : Nat) (x : Site) : (s.setSite n x).freeIx = s.freeIx := rfl
@[simp] theorem State.setSite_steps (n : Nat) (x : Site) : (s.setSite n x).steps = s.steps := rfl

@[simp] theorem State.setPort_phase (p : Nat) (x : Port) : (s.setPort p x).phase = s.phase := rfl
@[simp] theorem State.setPort_clock (p : Nat) (x : Port) : (s.setPort p x).clock = s.clock := rfl
@[simp] theorem State.setPort_rdymap (p : Nat) (x : Port) : (s.setPort p x).rdymap = s.rdymap := rfl
@[simp] theorem State.setPort_cap (p : Nat) (x : Port) : (s.setPort p x).cap = s.cap := rfl
@[simp] theorem State.setPort_capLog (p : Nat) (x : Port) : (s.setPort p x).capLog = s.capLog := rfl
@[simp] theorem State.setPort_sites (p : Nat) (x : Port) : (s.setPort p x).sites = s.sites := rfl
@[simp] theorem State.setPort_losses (p : Nat) (x : Port) : (s.setPort p x).losses = s.losses := rfl
@[simp] theorem State.setPort_placing (p : Nat) (x : Port) : (s.setPort p x).placing = s.placing := rfl
@[simp] theorem State.setPort_hbmTop (p : Nat) (x : Port) : (s.setPort p x).hbmTop = s.hbmTop := rfl
@[simp] theorem State.setPort_hdmTop (p : Nat) (x : Port) : (s.setPort p x).hdmTop = s.hdmTop := rfl
@[simp] theorem State.setPort_straps (p : Nat) (x : Port) : (s.setPort p x).straps = s.straps := rfl
@[simp] theorem State.setPort_io (p : Nat) (x : Port) : (s.setPort p x).io = s.io := rfl
@[simp] theorem State.setPort_bar2 (p : Nat) (x : Port) : (s.setPort p x).bar2 = s.bar2 := rfl
@[simp] theorem State.setPort_mclog (p : Nat) (x : Port) : (s.setPort p x).mclog = s.mclog := rfl
@[simp] theorem State.setPort_dvsec (p : Nat) (x : Port) : (s.setPort p x).dvsec = s.dvsec := rfl
@[simp] theorem State.setPort_ports (p : Nat) (x : Port) : (s.setPort p x).ports = fput s.ports p x := rfl
@[simp] theorem State.setPort_peers (p : Nat) (x : Port) : (s.setPort p x).peers = s.peers := rfl
@[simp] theorem State.setPort_swihus (p : Nat) (x : Port) : (s.setPort p x).swihus = s.swihus := rfl
@[simp] theorem State.setPort_hostInsecure (p : Nat) (x : Port) : (s.setPort p x).hostInsecure = s.hostInsecure := rfl
@[simp] theorem State.setPort_suspects (p : Nat) (x : Port) : (s.setPort p x).suspects = s.suspects := rfl
@[simp] theorem State.setPort_homeq (p : Nat) (x : Port) : (s.setPort p x).homeq = s.homeq := rfl
@[simp] theorem State.setPort_served (p : Nat) (x : Port) : (s.setPort p x).served = s.served := rfl
@[simp] theorem State.setPort_dir (p : Nat) (x : Port) : (s.setPort p x).dir = s.dir := rfl
@[simp] theorem State.setPort_bridge (p : Nat) (x : Port) : (s.setPort p x).bridge = s.bridge := rfl
@[simp] theorem State.setPort_hostMem (p : Nat) (x : Port) : (s.setPort p x).hostMem = s.hostMem := rfl
@[simp] theorem State.setPort_mem (p : Nat) (x : Port) : (s.setPort p x).mem = s.mem := rfl
@[simp] theorem State.setPort_poison (p : Nat) (x : Port) : (s.setPort p x).poison = s.poison := rfl
@[simp] theorem State.setPort_ktag (p : Nat) (x : Port) : (s.setPort p x).ktag = s.ktag := rfl
@[simp] theorem State.setPort_ver (p : Nat) (x : Port) : (s.setPort p x).ver = s.ver := rfl
@[simp] theorem State.setPort_wcount (p : Nat) (x : Port) : (s.setPort p x).wcount = s.wcount := rfl
@[simp] theorem State.setPort_undo (p : Nat) (x : Port) : (s.setPort p x).undo = s.undo := rfl
@[simp] theorem State.setPort_saves (p : Nat) (x : Port) : (s.setPort p x).saves = s.saves := rfl
@[simp] theorem State.setPort_keygen (p : Nat) (x : Port) : (s.setPort p x).keygen = s.keygen := rfl
@[simp] theorem State.setPort_xgwin (p : Nat) (x : Port) : (s.setPort p x).xgwin = s.xgwin := rfl
@[simp] theorem State.setPort_windowAt (p : Nat) (x : Port) : (s.setPort p x).windowAt = s.windowAt := rfl
@[simp] theorem State.setPort_xackto (p : Nat) (x : Port) : (s.setPort p x).xackto = s.xackto := rfl
@[simp] theorem State.setPort_xgsite (p : Nat) (x : Port) : (s.setPort p x).xgsite = s.xgsite := rfl
@[simp] theorem State.setPort_ctxs (p : Nat) (x : Port) : (s.setPort p x).ctxs = s.ctxs := rfl
@[simp] theorem State.setPort_parts (p : Nat) (x : Port) : (s.setPort p x).parts = s.parts := rfl
@[simp] theorem State.setPort_xpend (p : Nat) (x : Port) : (s.setPort p x).xpend = s.xpend := rfl
@[simp] theorem State.setPort_grids (p : Nat) (x : Port) : (s.setPort p x).grids = s.grids := rfl
@[simp] theorem State.setPort_nextGrid (p : Nat) (x : Port) : (s.setPort p x).nextGrid = s.nextGrid := rfl
@[simp] theorem State.setPort_blocks (p : Nat) (x : Port) : (s.setPort p x).blocks = s.blocks := rfl
@[simp] theorem State.setPort_nextBlock (p : Nat) (x : Port) : (s.setPort p x).nextBlock = s.nextBlock := rfl
@[simp] theorem State.setPort_orders (p : Nat) (x : Port) : (s.setPort p x).orders = s.orders := rfl
@[simp] theorem State.setPort_turns (p : Nat) (x : Port) : (s.setPort p x).turns = s.turns := rfl
@[simp] theorem State.setPort_dlevel (p : Nat) (x : Port) : (s.setPort p x).dlevel = s.dlevel := rfl
@[simp] theorem State.setPort_visited (p : Nat) (x : Port) : (s.setPort p x).visited = s.visited := rfl
@[simp] theorem State.setPort_outs (p : Nat) (x : Port) : (s.setPort p x).outs = s.outs := rfl
@[simp] theorem State.setPort_agenda (p : Nat) (x : Port) : (s.setPort p x).agenda = s.agenda := rfl
@[simp] theorem State.setPort_cur (p : Nat) (x : Port) : (s.setPort p x).cur = s.cur := rfl
@[simp] theorem State.setPort_freeIx (p : Nat) (x : Port) : (s.setPort p x).freeIx = s.freeIx := rfl
@[simp] theorem State.setPort_steps (p : Nat) (x : Port) : (s.setPort p x).steps = s.steps := rfl

@[simp] theorem State.setPeer_phase (p : Nat) (x : Link) : (s.setPeer p x).phase = s.phase := rfl
@[simp] theorem State.setPeer_clock (p : Nat) (x : Link) : (s.setPeer p x).clock = s.clock := rfl
@[simp] theorem State.setPeer_rdymap (p : Nat) (x : Link) : (s.setPeer p x).rdymap = s.rdymap := rfl
@[simp] theorem State.setPeer_cap (p : Nat) (x : Link) : (s.setPeer p x).cap = s.cap := rfl
@[simp] theorem State.setPeer_capLog (p : Nat) (x : Link) : (s.setPeer p x).capLog = s.capLog := rfl
@[simp] theorem State.setPeer_sites (p : Nat) (x : Link) : (s.setPeer p x).sites = s.sites := rfl
@[simp] theorem State.setPeer_losses (p : Nat) (x : Link) : (s.setPeer p x).losses = s.losses := rfl
@[simp] theorem State.setPeer_placing (p : Nat) (x : Link) : (s.setPeer p x).placing = s.placing := rfl
@[simp] theorem State.setPeer_hbmTop (p : Nat) (x : Link) : (s.setPeer p x).hbmTop = s.hbmTop := rfl
@[simp] theorem State.setPeer_hdmTop (p : Nat) (x : Link) : (s.setPeer p x).hdmTop = s.hdmTop := rfl
@[simp] theorem State.setPeer_straps (p : Nat) (x : Link) : (s.setPeer p x).straps = s.straps := rfl
@[simp] theorem State.setPeer_io (p : Nat) (x : Link) : (s.setPeer p x).io = s.io := rfl
@[simp] theorem State.setPeer_bar2 (p : Nat) (x : Link) : (s.setPeer p x).bar2 = s.bar2 := rfl
@[simp] theorem State.setPeer_mclog (p : Nat) (x : Link) : (s.setPeer p x).mclog = s.mclog := rfl
@[simp] theorem State.setPeer_dvsec (p : Nat) (x : Link) : (s.setPeer p x).dvsec = s.dvsec := rfl
@[simp] theorem State.setPeer_ports (p : Nat) (x : Link) : (s.setPeer p x).ports = s.ports := rfl
@[simp] theorem State.setPeer_peers (p : Nat) (x : Link) : (s.setPeer p x).peers = fput s.peers p x := rfl
@[simp] theorem State.setPeer_swihus (p : Nat) (x : Link) : (s.setPeer p x).swihus = s.swihus := rfl
@[simp] theorem State.setPeer_hostInsecure (p : Nat) (x : Link) : (s.setPeer p x).hostInsecure = s.hostInsecure := rfl
@[simp] theorem State.setPeer_suspects (p : Nat) (x : Link) : (s.setPeer p x).suspects = s.suspects := rfl
@[simp] theorem State.setPeer_homeq (p : Nat) (x : Link) : (s.setPeer p x).homeq = s.homeq := rfl
@[simp] theorem State.setPeer_served (p : Nat) (x : Link) : (s.setPeer p x).served = s.served := rfl
@[simp] theorem State.setPeer_dir (p : Nat) (x : Link) : (s.setPeer p x).dir = s.dir := rfl
@[simp] theorem State.setPeer_bridge (p : Nat) (x : Link) : (s.setPeer p x).bridge = s.bridge := rfl
@[simp] theorem State.setPeer_hostMem (p : Nat) (x : Link) : (s.setPeer p x).hostMem = s.hostMem := rfl
@[simp] theorem State.setPeer_mem (p : Nat) (x : Link) : (s.setPeer p x).mem = s.mem := rfl
@[simp] theorem State.setPeer_poison (p : Nat) (x : Link) : (s.setPeer p x).poison = s.poison := rfl
@[simp] theorem State.setPeer_ktag (p : Nat) (x : Link) : (s.setPeer p x).ktag = s.ktag := rfl
@[simp] theorem State.setPeer_ver (p : Nat) (x : Link) : (s.setPeer p x).ver = s.ver := rfl
@[simp] theorem State.setPeer_wcount (p : Nat) (x : Link) : (s.setPeer p x).wcount = s.wcount := rfl
@[simp] theorem State.setPeer_undo (p : Nat) (x : Link) : (s.setPeer p x).undo = s.undo := rfl
@[simp] theorem State.setPeer_saves (p : Nat) (x : Link) : (s.setPeer p x).saves = s.saves := rfl
@[simp] theorem State.setPeer_keygen (p : Nat) (x : Link) : (s.setPeer p x).keygen = s.keygen := rfl
@[simp] theorem State.setPeer_xgwin (p : Nat) (x : Link) : (s.setPeer p x).xgwin = s.xgwin := rfl
@[simp] theorem State.setPeer_windowAt (p : Nat) (x : Link) : (s.setPeer p x).windowAt = s.windowAt := rfl
@[simp] theorem State.setPeer_xackto (p : Nat) (x : Link) : (s.setPeer p x).xackto = s.xackto := rfl
@[simp] theorem State.setPeer_xgsite (p : Nat) (x : Link) : (s.setPeer p x).xgsite = s.xgsite := rfl
@[simp] theorem State.setPeer_ctxs (p : Nat) (x : Link) : (s.setPeer p x).ctxs = s.ctxs := rfl
@[simp] theorem State.setPeer_parts (p : Nat) (x : Link) : (s.setPeer p x).parts = s.parts := rfl
@[simp] theorem State.setPeer_xpend (p : Nat) (x : Link) : (s.setPeer p x).xpend = s.xpend := rfl
@[simp] theorem State.setPeer_grids (p : Nat) (x : Link) : (s.setPeer p x).grids = s.grids := rfl
@[simp] theorem State.setPeer_nextGrid (p : Nat) (x : Link) : (s.setPeer p x).nextGrid = s.nextGrid := rfl
@[simp] theorem State.setPeer_blocks (p : Nat) (x : Link) : (s.setPeer p x).blocks = s.blocks := rfl
@[simp] theorem State.setPeer_nextBlock (p : Nat) (x : Link) : (s.setPeer p x).nextBlock = s.nextBlock := rfl
@[simp] theorem State.setPeer_orders (p : Nat) (x : Link) : (s.setPeer p x).orders = s.orders := rfl
@[simp] theorem State.setPeer_turns (p : Nat) (x : Link) : (s.setPeer p x).turns = s.turns := rfl
@[simp] theorem State.setPeer_dlevel (p : Nat) (x : Link) : (s.setPeer p x).dlevel = s.dlevel := rfl
@[simp] theorem State.setPeer_visited (p : Nat) (x : Link) : (s.setPeer p x).visited = s.visited := rfl
@[simp] theorem State.setPeer_outs (p : Nat) (x : Link) : (s.setPeer p x).outs = s.outs := rfl
@[simp] theorem State.setPeer_agenda (p : Nat) (x : Link) : (s.setPeer p x).agenda = s.agenda := rfl
@[simp] theorem State.setPeer_cur (p : Nat) (x : Link) : (s.setPeer p x).cur = s.cur := rfl
@[simp] theorem State.setPeer_freeIx (p : Nat) (x : Link) : (s.setPeer p x).freeIx = s.freeIx := rfl
@[simp] theorem State.setPeer_steps (p : Nat) (x : Link) : (s.setPeer p x).steps = s.steps := rfl

@[simp] theorem State.tickFree_phase : (s.tickFree).phase = s.phase := rfl
@[simp] theorem State.tickFree_clock : (s.tickFree).clock = s.clock := rfl
@[simp] theorem State.tickFree_rdymap : (s.tickFree).rdymap = s.rdymap := rfl
@[simp] theorem State.tickFree_cap : (s.tickFree).cap = s.cap := rfl
@[simp] theorem State.tickFree_capLog : (s.tickFree).capLog = s.capLog := rfl
@[simp] theorem State.tickFree_sites : (s.tickFree).sites = s.sites := rfl
@[simp] theorem State.tickFree_losses : (s.tickFree).losses = s.losses := rfl
@[simp] theorem State.tickFree_placing : (s.tickFree).placing = s.placing := rfl
@[simp] theorem State.tickFree_hbmTop : (s.tickFree).hbmTop = s.hbmTop := rfl
@[simp] theorem State.tickFree_hdmTop : (s.tickFree).hdmTop = s.hdmTop := rfl
@[simp] theorem State.tickFree_straps : (s.tickFree).straps = s.straps := rfl
@[simp] theorem State.tickFree_io : (s.tickFree).io = s.io := rfl
@[simp] theorem State.tickFree_bar2 : (s.tickFree).bar2 = s.bar2 := rfl
@[simp] theorem State.tickFree_mclog : (s.tickFree).mclog = s.mclog := rfl
@[simp] theorem State.tickFree_dvsec : (s.tickFree).dvsec = s.dvsec := rfl
@[simp] theorem State.tickFree_ports : (s.tickFree).ports = s.ports := rfl
@[simp] theorem State.tickFree_peers : (s.tickFree).peers = s.peers := rfl
@[simp] theorem State.tickFree_swihus : (s.tickFree).swihus = s.swihus := rfl
@[simp] theorem State.tickFree_hostInsecure : (s.tickFree).hostInsecure = s.hostInsecure := rfl
@[simp] theorem State.tickFree_suspects : (s.tickFree).suspects = s.suspects := rfl
@[simp] theorem State.tickFree_homeq : (s.tickFree).homeq = s.homeq := rfl
@[simp] theorem State.tickFree_served : (s.tickFree).served = s.served := rfl
@[simp] theorem State.tickFree_dir : (s.tickFree).dir = s.dir := rfl
@[simp] theorem State.tickFree_bridge : (s.tickFree).bridge = s.bridge := rfl
@[simp] theorem State.tickFree_hostMem : (s.tickFree).hostMem = s.hostMem := rfl
@[simp] theorem State.tickFree_mem : (s.tickFree).mem = s.mem := rfl
@[simp] theorem State.tickFree_poison : (s.tickFree).poison = s.poison := rfl
@[simp] theorem State.tickFree_ktag : (s.tickFree).ktag = s.ktag := rfl
@[simp] theorem State.tickFree_ver : (s.tickFree).ver = s.ver := rfl
@[simp] theorem State.tickFree_wcount : (s.tickFree).wcount = s.wcount := rfl
@[simp] theorem State.tickFree_undo : (s.tickFree).undo = s.undo := rfl
@[simp] theorem State.tickFree_saves : (s.tickFree).saves = s.saves := rfl
@[simp] theorem State.tickFree_keygen : (s.tickFree).keygen = s.keygen := rfl
@[simp] theorem State.tickFree_xgwin : (s.tickFree).xgwin = s.xgwin := rfl
@[simp] theorem State.tickFree_windowAt : (s.tickFree).windowAt = s.windowAt := rfl
@[simp] theorem State.tickFree_xackto : (s.tickFree).xackto = s.xackto := rfl
@[simp] theorem State.tickFree_xgsite : (s.tickFree).xgsite = s.xgsite := rfl
@[simp] theorem State.tickFree_ctxs : (s.tickFree).ctxs = s.ctxs := rfl
@[simp] theorem State.tickFree_parts : (s.tickFree).parts = s.parts := rfl
@[simp] theorem State.tickFree_xpend : (s.tickFree).xpend = s.xpend := rfl
@[simp] theorem State.tickFree_grids : (s.tickFree).grids = s.grids := rfl
@[simp] theorem State.tickFree_nextGrid : (s.tickFree).nextGrid = s.nextGrid := rfl
@[simp] theorem State.tickFree_blocks : (s.tickFree).blocks = s.blocks := rfl
@[simp] theorem State.tickFree_nextBlock : (s.tickFree).nextBlock = s.nextBlock := rfl
@[simp] theorem State.tickFree_orders : (s.tickFree).orders = s.orders := rfl
@[simp] theorem State.tickFree_turns : (s.tickFree).turns = s.turns := rfl
@[simp] theorem State.tickFree_dlevel : (s.tickFree).dlevel = s.dlevel := rfl
@[simp] theorem State.tickFree_visited : (s.tickFree).visited = s.visited := rfl
@[simp] theorem State.tickFree_outs : (s.tickFree).outs = s.outs := rfl
@[simp] theorem State.tickFree_agenda : (s.tickFree).agenda = s.agenda := rfl
@[simp] theorem State.tickFree_cur : (s.tickFree).cur = s.cur := rfl
@[simp] theorem State.tickFree_freeIx : (s.tickFree).freeIx = s.freeIx + 1 := rfl
@[simp] theorem State.tickFree_steps : (s.tickFree).steps = s.steps := rfl

@[simp] theorem State.out_phase (o : Out) : (s.out o).phase = s.phase := rfl
@[simp] theorem State.out_clock (o : Out) : (s.out o).clock = s.clock := rfl
@[simp] theorem State.out_rdymap (o : Out) : (s.out o).rdymap = s.rdymap := rfl
@[simp] theorem State.out_cap (o : Out) : (s.out o).cap = s.cap := rfl
@[simp] theorem State.out_capLog (o : Out) : (s.out o).capLog = s.capLog := rfl
@[simp] theorem State.out_sites (o : Out) : (s.out o).sites = s.sites := rfl
@[simp] theorem State.out_losses (o : Out) : (s.out o).losses = s.losses := rfl
@[simp] theorem State.out_placing (o : Out) : (s.out o).placing = s.placing := rfl
@[simp] theorem State.out_hbmTop (o : Out) : (s.out o).hbmTop = s.hbmTop := rfl
@[simp] theorem State.out_hdmTop (o : Out) : (s.out o).hdmTop = s.hdmTop := rfl
@[simp] theorem State.out_straps (o : Out) : (s.out o).straps = s.straps := rfl
@[simp] theorem State.out_io (o : Out) : (s.out o).io = s.io := rfl
@[simp] theorem State.out_bar2 (o : Out) : (s.out o).bar2 = s.bar2 := rfl
@[simp] theorem State.out_mclog (o : Out) : (s.out o).mclog = s.mclog := rfl
@[simp] theorem State.out_dvsec (o : Out) : (s.out o).dvsec = s.dvsec := rfl
@[simp] theorem State.out_ports (o : Out) : (s.out o).ports = s.ports := rfl
@[simp] theorem State.out_peers (o : Out) : (s.out o).peers = s.peers := rfl
@[simp] theorem State.out_swihus (o : Out) : (s.out o).swihus = s.swihus := rfl
@[simp] theorem State.out_hostInsecure (o : Out) : (s.out o).hostInsecure = s.hostInsecure := rfl
@[simp] theorem State.out_suspects (o : Out) : (s.out o).suspects = s.suspects := rfl
@[simp] theorem State.out_homeq (o : Out) : (s.out o).homeq = s.homeq := rfl
@[simp] theorem State.out_served (o : Out) : (s.out o).served = s.served := rfl
@[simp] theorem State.out_dir (o : Out) : (s.out o).dir = s.dir := rfl
@[simp] theorem State.out_bridge (o : Out) : (s.out o).bridge = s.bridge := rfl
@[simp] theorem State.out_hostMem (o : Out) : (s.out o).hostMem = s.hostMem := rfl
@[simp] theorem State.out_mem (o : Out) : (s.out o).mem = s.mem := rfl
@[simp] theorem State.out_poison (o : Out) : (s.out o).poison = s.poison := rfl
@[simp] theorem State.out_ktag (o : Out) : (s.out o).ktag = s.ktag := rfl
@[simp] theorem State.out_ver (o : Out) : (s.out o).ver = s.ver := rfl
@[simp] theorem State.out_wcount (o : Out) : (s.out o).wcount = s.wcount := rfl
@[simp] theorem State.out_undo (o : Out) : (s.out o).undo = s.undo := rfl
@[simp] theorem State.out_saves (o : Out) : (s.out o).saves = s.saves := rfl
@[simp] theorem State.out_keygen (o : Out) : (s.out o).keygen = s.keygen := rfl
@[simp] theorem State.out_xgwin (o : Out) : (s.out o).xgwin = s.xgwin := rfl
@[simp] theorem State.out_windowAt (o : Out) : (s.out o).windowAt = s.windowAt := rfl
@[simp] theorem State.out_xackto (o : Out) : (s.out o).xackto = s.xackto := rfl
@[simp] theorem State.out_xgsite (o : Out) : (s.out o).xgsite = s.xgsite := rfl
@[simp] theorem State.out_ctxs (o : Out) : (s.out o).ctxs = s.ctxs := rfl
@[simp] theorem State.out_parts (o : Out) : (s.out o).parts = s.parts := rfl
@[simp] theorem State.out_xpend (o : Out) : (s.out o).xpend = s.xpend := rfl
@[simp] theorem State.out_grids (o : Out) : (s.out o).grids = s.grids := rfl
@[simp] theorem State.out_nextGrid (o : Out) : (s.out o).nextGrid = s.nextGrid := rfl
@[simp] theorem State.out_blocks (o : Out) : (s.out o).blocks = s.blocks := rfl
@[simp] theorem State.out_nextBlock (o : Out) : (s.out o).nextBlock = s.nextBlock := rfl
@[simp] theorem State.out_orders (o : Out) : (s.out o).orders = s.orders := rfl
@[simp] theorem State.out_turns (o : Out) : (s.out o).turns = s.turns := rfl
@[simp] theorem State.out_dlevel (o : Out) : (s.out o).dlevel = s.dlevel := rfl
@[simp] theorem State.out_visited (o : Out) : (s.out o).visited = s.visited := rfl
@[simp] theorem State.out_outs (o : Out) : (s.out o).outs = s.outs ++ [o] := rfl
@[simp] theorem State.out_agenda (o : Out) : (s.out o).agenda = s.agenda := rfl
@[simp] theorem State.out_cur (o : Out) : (s.out o).cur = s.cur := rfl
@[simp] theorem State.out_freeIx (o : Out) : (s.out o).freeIx = s.freeIx := rfl
@[simp] theorem State.out_steps (o : Out) : (s.out o).steps = s.steps := rfl

@[simp] theorem State.setWarp_phase (b w : Nat) (x : Warp) : (s.setWarp b w x).phase = s.phase := rfl
@[simp] theorem State.setWarp_clock (b w : Nat) (x : Warp) : (s.setWarp b w x).clock = s.clock := rfl
@[simp] theorem State.setWarp_rdymap (b w : Nat) (x : Warp) : (s.setWarp b w x).rdymap = s.rdymap := rfl
@[simp] theorem State.setWarp_cap (b w : Nat) (x : Warp) : (s.setWarp b w x).cap = s.cap := rfl
@[simp] theorem State.setWarp_capLog (b w : Nat) (x : Warp) : (s.setWarp b w x).capLog = s.capLog := rfl
@[simp] theorem State.setWarp_sites (b w : Nat) (x : Warp) : (s.setWarp b w x).sites = s.sites := rfl
@[simp] theorem State.setWarp_losses (b w : Nat) (x : Warp) : (s.setWarp b w x).losses = s.losses := rfl
@[simp] theorem State.setWarp_placing (b w : Nat) (x : Warp) : (s.setWarp b w x).placing = s.placing := rfl
@[simp] theorem State.setWarp_hbmTop (b w : Nat) (x : Warp) : (s.setWarp b w x).hbmTop = s.hbmTop := rfl
@[simp] theorem State.setWarp_hdmTop (b w : Nat) (x : Warp) : (s.setWarp b w x).hdmTop = s.hdmTop := rfl
@[simp] theorem State.setWarp_straps (b w : Nat) (x : Warp) : (s.setWarp b w x).straps = s.straps := rfl
@[simp] theorem State.setWarp_io (b w : Nat) (x : Warp) : (s.setWarp b w x).io = s.io := rfl
@[simp] theorem State.setWarp_bar2 (b w : Nat) (x : Warp) : (s.setWarp b w x).bar2 = s.bar2 := rfl
@[simp] theorem State.setWarp_mclog (b w : Nat) (x : Warp) : (s.setWarp b w x).mclog = s.mclog := rfl
@[simp] theorem State.setWarp_dvsec (b w : Nat) (x : Warp) : (s.setWarp b w x).dvsec = s.dvsec := rfl
@[simp] theorem State.setWarp_ports (b w : Nat) (x : Warp) : (s.setWarp b w x).ports = s.ports := rfl
@[simp] theorem State.setWarp_peers (b w : Nat) (x : Warp) : (s.setWarp b w x).peers = s.peers := rfl
@[simp] theorem State.setWarp_swihus (b w : Nat) (x : Warp) : (s.setWarp b w x).swihus = s.swihus := rfl
@[simp] theorem State.setWarp_hostInsecure (b w : Nat) (x : Warp) : (s.setWarp b w x).hostInsecure = s.hostInsecure := rfl
@[simp] theorem State.setWarp_suspects (b w : Nat) (x : Warp) : (s.setWarp b w x).suspects = s.suspects := rfl
@[simp] theorem State.setWarp_homeq (b w : Nat) (x : Warp) : (s.setWarp b w x).homeq = s.homeq := rfl
@[simp] theorem State.setWarp_served (b w : Nat) (x : Warp) : (s.setWarp b w x).served = s.served := rfl
@[simp] theorem State.setWarp_dir (b w : Nat) (x : Warp) : (s.setWarp b w x).dir = s.dir := rfl
@[simp] theorem State.setWarp_bridge (b w : Nat) (x : Warp) : (s.setWarp b w x).bridge = s.bridge := rfl
@[simp] theorem State.setWarp_hostMem (b w : Nat) (x : Warp) : (s.setWarp b w x).hostMem = s.hostMem := rfl
@[simp] theorem State.setWarp_mem (b w : Nat) (x : Warp) : (s.setWarp b w x).mem = s.mem := rfl
@[simp] theorem State.setWarp_poison (b w : Nat) (x : Warp) : (s.setWarp b w x).poison = s.poison := rfl
@[simp] theorem State.setWarp_ktag (b w : Nat) (x : Warp) : (s.setWarp b w x).ktag = s.ktag := rfl
@[simp] theorem State.setWarp_ver (b w : Nat) (x : Warp) : (s.setWarp b w x).ver = s.ver := rfl
@[simp] theorem State.setWarp_wcount (b w : Nat) (x : Warp) : (s.setWarp b w x).wcount = s.wcount := rfl
@[simp] theorem State.setWarp_undo (b w : Nat) (x : Warp) : (s.setWarp b w x).undo = s.undo := rfl
@[simp] theorem State.setWarp_saves (b w : Nat) (x : Warp) : (s.setWarp b w x).saves = s.saves := rfl
@[simp] theorem State.setWarp_keygen (b w : Nat) (x : Warp) : (s.setWarp b w x).keygen = s.keygen := rfl
@[simp] theorem State.setWarp_xgwin (b w : Nat) (x : Warp) : (s.setWarp b w x).xgwin = s.xgwin := rfl
@[simp] theorem State.setWarp_windowAt (b w : Nat) (x : Warp) : (s.setWarp b w x).windowAt = s.windowAt := rfl
@[simp] theorem State.setWarp_xackto (b w : Nat) (x : Warp) : (s.setWarp b w x).xackto = s.xackto := rfl
@[simp] theorem State.setWarp_xgsite (b w : Nat) (x : Warp) : (s.setWarp b w x).xgsite = s.xgsite := rfl
@[simp] theorem State.setWarp_ctxs (b w : Nat) (x : Warp) : (s.setWarp b w x).ctxs = s.ctxs := rfl
@[simp] theorem State.setWarp_parts (b w : Nat) (x : Warp) : (s.setWarp b w x).parts = s.parts := rfl
@[simp] theorem State.setWarp_xpend (b w : Nat) (x : Warp) : (s.setWarp b w x).xpend = s.xpend := rfl
@[simp] theorem State.setWarp_grids (b w : Nat) (x : Warp) : (s.setWarp b w x).grids = s.grids := rfl
@[simp] theorem State.setWarp_nextGrid (b w : Nat) (x : Warp) : (s.setWarp b w x).nextGrid = s.nextGrid := rfl
@[simp] theorem State.setWarp_nextBlock (b w : Nat) (x : Warp) : (s.setWarp b w x).nextBlock = s.nextBlock := rfl
@[simp] theorem State.setWarp_orders (b w : Nat) (x : Warp) : (s.setWarp b w x).orders = s.orders := rfl
@[simp] theorem State.setWarp_turns (b w : Nat) (x : Warp) : (s.setWarp b w x).turns = s.turns := rfl
@[simp] theorem State.setWarp_dlevel (b w : Nat) (x : Warp) : (s.setWarp b w x).dlevel = s.dlevel := rfl
@[simp] theorem State.setWarp_visited (b w : Nat) (x : Warp) : (s.setWarp b w x).visited = s.visited := rfl
@[simp] theorem State.setWarp_outs (b w : Nat) (x : Warp) : (s.setWarp b w x).outs = s.outs := rfl
@[simp] theorem State.setWarp_agenda (b w : Nat) (x : Warp) : (s.setWarp b w x).agenda = s.agenda := rfl
@[simp] theorem State.setWarp_cur (b w : Nat) (x : Warp) : (s.setWarp b w x).cur = s.cur := rfl
@[simp] theorem State.setWarp_freeIx (b w : Nat) (x : Warp) : (s.setWarp b w x).freeIx = s.freeIx := rfl
@[simp] theorem State.setWarp_steps (b w : Nat) (x : Warp) : (s.setWarp b w x).steps = s.steps := rfl

@[simp] theorem State.setLane_phase (b w i : Nat) (x : Lane) : (s.setLane b w i x).phase = s.phase := rfl
@[simp] theorem State.setLane_clock (b w i : Nat) (x : Lane) : (s.setLane b w i x).clock = s.clock := rfl
@[simp] theorem State.setLane_rdymap (b w i : Nat) (x : Lane) : (s.setLane b w i x).rdymap = s.rdymap := rfl
@[simp] theorem State.setLane_cap (b w i : Nat) (x : Lane) : (s.setLane b w i x).cap = s.cap := rfl
@[simp] theorem State.setLane_capLog (b w i : Nat) (x : Lane) : (s.setLane b w i x).capLog = s.capLog := rfl
@[simp] theorem State.setLane_sites (b w i : Nat) (x : Lane) : (s.setLane b w i x).sites = s.sites := rfl
@[simp] theorem State.setLane_losses (b w i : Nat) (x : Lane) : (s.setLane b w i x).losses = s.losses := rfl
@[simp] theorem State.setLane_placing (b w i : Nat) (x : Lane) : (s.setLane b w i x).placing = s.placing := rfl
@[simp] theorem State.setLane_hbmTop (b w i : Nat) (x : Lane) : (s.setLane b w i x).hbmTop = s.hbmTop := rfl
@[simp] theorem State.setLane_hdmTop (b w i : Nat) (x : Lane) : (s.setLane b w i x).hdmTop = s.hdmTop := rfl
@[simp] theorem State.setLane_straps (b w i : Nat) (x : Lane) : (s.setLane b w i x).straps = s.straps := rfl
@[simp] theorem State.setLane_io (b w i : Nat) (x : Lane) : (s.setLane b w i x).io = s.io := rfl
@[simp] theorem State.setLane_bar2 (b w i : Nat) (x : Lane) : (s.setLane b w i x).bar2 = s.bar2 := rfl
@[simp] theorem State.setLane_mclog (b w i : Nat) (x : Lane) : (s.setLane b w i x).mclog = s.mclog := rfl
@[simp] theorem State.setLane_dvsec (b w i : Nat) (x : Lane) : (s.setLane b w i x).dvsec = s.dvsec := rfl
@[simp] theorem State.setLane_ports (b w i : Nat) (x : Lane) : (s.setLane b w i x).ports = s.ports := rfl
@[simp] theorem State.setLane_peers (b w i : Nat) (x : Lane) : (s.setLane b w i x).peers = s.peers := rfl
@[simp] theorem State.setLane_swihus (b w i : Nat) (x : Lane) : (s.setLane b w i x).swihus = s.swihus := rfl
@[simp] theorem State.setLane_hostInsecure (b w i : Nat) (x : Lane) : (s.setLane b w i x).hostInsecure = s.hostInsecure := rfl
@[simp] theorem State.setLane_suspects (b w i : Nat) (x : Lane) : (s.setLane b w i x).suspects = s.suspects := rfl
@[simp] theorem State.setLane_homeq (b w i : Nat) (x : Lane) : (s.setLane b w i x).homeq = s.homeq := rfl
@[simp] theorem State.setLane_served (b w i : Nat) (x : Lane) : (s.setLane b w i x).served = s.served := rfl
@[simp] theorem State.setLane_dir (b w i : Nat) (x : Lane) : (s.setLane b w i x).dir = s.dir := rfl
@[simp] theorem State.setLane_bridge (b w i : Nat) (x : Lane) : (s.setLane b w i x).bridge = s.bridge := rfl
@[simp] theorem State.setLane_hostMem (b w i : Nat) (x : Lane) : (s.setLane b w i x).hostMem = s.hostMem := rfl
@[simp] theorem State.setLane_mem (b w i : Nat) (x : Lane) : (s.setLane b w i x).mem = s.mem := rfl
@[simp] theorem State.setLane_poison (b w i : Nat) (x : Lane) : (s.setLane b w i x).poison = s.poison := rfl
@[simp] theorem State.setLane_ktag (b w i : Nat) (x : Lane) : (s.setLane b w i x).ktag = s.ktag := rfl
@[simp] theorem State.setLane_ver (b w i : Nat) (x : Lane) : (s.setLane b w i x).ver = s.ver := rfl
@[simp] theorem State.setLane_wcount (b w i : Nat) (x : Lane) : (s.setLane b w i x).wcount = s.wcount := rfl
@[simp] theorem State.setLane_undo (b w i : Nat) (x : Lane) : (s.setLane b w i x).undo = s.undo := rfl
@[simp] theorem State.setLane_saves (b w i : Nat) (x : Lane) : (s.setLane b w i x).saves = s.saves := rfl
@[simp] theorem State.setLane_keygen (b w i : Nat) (x : Lane) : (s.setLane b w i x).keygen = s.keygen := rfl
@[simp] theorem State.setLane_xgwin (b w i : Nat) (x : Lane) : (s.setLane b w i x).xgwin = s.xgwin := rfl
@[simp] theorem State.setLane_windowAt (b w i : Nat) (x : Lane) : (s.setLane b w i x).windowAt = s.windowAt := rfl
@[simp] theorem State.setLane_xackto (b w i : Nat) (x : Lane) : (s.setLane b w i x).xackto = s.xackto := rfl
@[simp] theorem State.setLane_xgsite (b w i : Nat) (x : Lane) : (s.setLane b w i x).xgsite = s.xgsite := rfl
@[simp] theorem State.setLane_ctxs (b w i : Nat) (x : Lane) : (s.setLane b w i x).ctxs = s.ctxs := rfl
@[simp] theorem State.setLane_parts (b w i : Nat) (x : Lane) : (s.setLane b w i x).parts = s.parts := rfl
@[simp] theorem State.setLane_xpend (b w i : Nat) (x : Lane) : (s.setLane b w i x).xpend = s.xpend := rfl
@[simp] theorem State.setLane_grids (b w i : Nat) (x : Lane) : (s.setLane b w i x).grids = s.grids := rfl
@[simp] theorem State.setLane_nextGrid (b w i : Nat) (x : Lane) : (s.setLane b w i x).nextGrid = s.nextGrid := rfl
@[simp] theorem State.setLane_nextBlock (b w i : Nat) (x : Lane) : (s.setLane b w i x).nextBlock = s.nextBlock := rfl
@[simp] theorem State.setLane_orders (b w i : Nat) (x : Lane) : (s.setLane b w i x).orders = s.orders := rfl
@[simp] theorem State.setLane_turns (b w i : Nat) (x : Lane) : (s.setLane b w i x).turns = s.turns := rfl
@[simp] theorem State.setLane_dlevel (b w i : Nat) (x : Lane) : (s.setLane b w i x).dlevel = s.dlevel := rfl
@[simp] theorem State.setLane_visited (b w i : Nat) (x : Lane) : (s.setLane b w i x).visited = s.visited := rfl
@[simp] theorem State.setLane_outs (b w i : Nat) (x : Lane) : (s.setLane b w i x).outs = s.outs := rfl
@[simp] theorem State.setLane_agenda (b w i : Nat) (x : Lane) : (s.setLane b w i x).agenda = s.agenda := rfl
@[simp] theorem State.setLane_cur (b w i : Nat) (x : Lane) : (s.setLane b w i x).cur = s.cur := rfl
@[simp] theorem State.setLane_freeIx (b w i : Nat) (x : Lane) : (s.setLane b w i x).freeIx = s.freeIx := rfl
@[simp] theorem State.setLane_steps (b w i : Nat) (x : Lane) : (s.setLane b w i x).steps = s.steps := rfl

@[simp] theorem State.setCl_phase (i : Nat) (x : Lane) : (s.setCl i x).phase = s.phase := rfl
@[simp] theorem State.setCl_clock (i : Nat) (x : Lane) : (s.setCl i x).clock = s.clock := rfl
@[simp] theorem State.setCl_rdymap (i : Nat) (x : Lane) : (s.setCl i x).rdymap = s.rdymap := rfl
@[simp] theorem State.setCl_cap (i : Nat) (x : Lane) : (s.setCl i x).cap = s.cap := rfl
@[simp] theorem State.setCl_capLog (i : Nat) (x : Lane) : (s.setCl i x).capLog = s.capLog := rfl
@[simp] theorem State.setCl_sites (i : Nat) (x : Lane) : (s.setCl i x).sites = s.sites := rfl
@[simp] theorem State.setCl_losses (i : Nat) (x : Lane) : (s.setCl i x).losses = s.losses := rfl
@[simp] theorem State.setCl_placing (i : Nat) (x : Lane) : (s.setCl i x).placing = s.placing := rfl
@[simp] theorem State.setCl_hbmTop (i : Nat) (x : Lane) : (s.setCl i x).hbmTop = s.hbmTop := rfl
@[simp] theorem State.setCl_hdmTop (i : Nat) (x : Lane) : (s.setCl i x).hdmTop = s.hdmTop := rfl
@[simp] theorem State.setCl_straps (i : Nat) (x : Lane) : (s.setCl i x).straps = s.straps := rfl
@[simp] theorem State.setCl_io (i : Nat) (x : Lane) : (s.setCl i x).io = s.io := rfl
@[simp] theorem State.setCl_bar2 (i : Nat) (x : Lane) : (s.setCl i x).bar2 = s.bar2 := rfl
@[simp] theorem State.setCl_mclog (i : Nat) (x : Lane) : (s.setCl i x).mclog = s.mclog := rfl
@[simp] theorem State.setCl_dvsec (i : Nat) (x : Lane) : (s.setCl i x).dvsec = s.dvsec := rfl
@[simp] theorem State.setCl_ports (i : Nat) (x : Lane) : (s.setCl i x).ports = s.ports := rfl
@[simp] theorem State.setCl_peers (i : Nat) (x : Lane) : (s.setCl i x).peers = s.peers := rfl
@[simp] theorem State.setCl_swihus (i : Nat) (x : Lane) : (s.setCl i x).swihus = s.swihus := rfl
@[simp] theorem State.setCl_hostInsecure (i : Nat) (x : Lane) : (s.setCl i x).hostInsecure = s.hostInsecure := rfl
@[simp] theorem State.setCl_suspects (i : Nat) (x : Lane) : (s.setCl i x).suspects = s.suspects := rfl
@[simp] theorem State.setCl_homeq (i : Nat) (x : Lane) : (s.setCl i x).homeq = s.homeq := rfl
@[simp] theorem State.setCl_served (i : Nat) (x : Lane) : (s.setCl i x).served = s.served := rfl
@[simp] theorem State.setCl_dir (i : Nat) (x : Lane) : (s.setCl i x).dir = s.dir := rfl
@[simp] theorem State.setCl_bridge (i : Nat) (x : Lane) : (s.setCl i x).bridge = s.bridge := rfl
@[simp] theorem State.setCl_hostMem (i : Nat) (x : Lane) : (s.setCl i x).hostMem = s.hostMem := rfl
@[simp] theorem State.setCl_mem (i : Nat) (x : Lane) : (s.setCl i x).mem = s.mem := rfl
@[simp] theorem State.setCl_poison (i : Nat) (x : Lane) : (s.setCl i x).poison = s.poison := rfl
@[simp] theorem State.setCl_ktag (i : Nat) (x : Lane) : (s.setCl i x).ktag = s.ktag := rfl
@[simp] theorem State.setCl_ver (i : Nat) (x : Lane) : (s.setCl i x).ver = s.ver := rfl
@[simp] theorem State.setCl_wcount (i : Nat) (x : Lane) : (s.setCl i x).wcount = s.wcount := rfl
@[simp] theorem State.setCl_undo (i : Nat) (x : Lane) : (s.setCl i x).undo = s.undo := rfl
@[simp] theorem State.setCl_saves (i : Nat) (x : Lane) : (s.setCl i x).saves = s.saves := rfl
@[simp] theorem State.setCl_keygen (i : Nat) (x : Lane) : (s.setCl i x).keygen = s.keygen := rfl
@[simp] theorem State.setCl_xgwin (i : Nat) (x : Lane) : (s.setCl i x).xgwin = s.xgwin := rfl
@[simp] theorem State.setCl_windowAt (i : Nat) (x : Lane) : (s.setCl i x).windowAt = s.windowAt := rfl
@[simp] theorem State.setCl_xackto (i : Nat) (x : Lane) : (s.setCl i x).xackto = s.xackto := rfl
@[simp] theorem State.setCl_xgsite (i : Nat) (x : Lane) : (s.setCl i x).xgsite = s.xgsite := rfl
@[simp] theorem State.setCl_ctxs (i : Nat) (x : Lane) : (s.setCl i x).ctxs = s.ctxs := rfl
@[simp] theorem State.setCl_parts (i : Nat) (x : Lane) : (s.setCl i x).parts = s.parts := rfl
@[simp] theorem State.setCl_xpend (i : Nat) (x : Lane) : (s.setCl i x).xpend = s.xpend := rfl
@[simp] theorem State.setCl_grids (i : Nat) (x : Lane) : (s.setCl i x).grids = s.grids := rfl
@[simp] theorem State.setCl_nextGrid (i : Nat) (x : Lane) : (s.setCl i x).nextGrid = s.nextGrid := rfl
@[simp] theorem State.setCl_nextBlock (i : Nat) (x : Lane) : (s.setCl i x).nextBlock = s.nextBlock := rfl
@[simp] theorem State.setCl_orders (i : Nat) (x : Lane) : (s.setCl i x).orders = s.orders := rfl
@[simp] theorem State.setCl_turns (i : Nat) (x : Lane) : (s.setCl i x).turns = s.turns := rfl
@[simp] theorem State.setCl_dlevel (i : Nat) (x : Lane) : (s.setCl i x).dlevel = s.dlevel := rfl
@[simp] theorem State.setCl_visited (i : Nat) (x : Lane) : (s.setCl i x).visited = s.visited := rfl
@[simp] theorem State.setCl_outs (i : Nat) (x : Lane) : (s.setCl i x).outs = s.outs := rfl
@[simp] theorem State.setCl_agenda (i : Nat) (x : Lane) : (s.setCl i x).agenda = s.agenda := rfl
@[simp] theorem State.setCl_cur (i : Nat) (x : Lane) : (s.setCl i x).cur = s.cur := rfl
@[simp] theorem State.setCl_freeIx (i : Nat) (x : Lane) : (s.setCl i x).freeIx = s.freeIx := rfl
@[simp] theorem State.setCl_steps (i : Nat) (x : Lane) : (s.setCl i x).steps = s.steps := rfl

@[simp] theorem State.modBlk_phase (b : Nat) (f : Block → Block) : (s.modBlk b f).phase = s.phase := rfl
@[simp] theorem State.modBlk_clock (b : Nat) (f : Block → Block) : (s.modBlk b f).clock = s.clock := rfl
@[simp] theorem State.modBlk_rdymap (b : Nat) (f : Block → Block) : (s.modBlk b f).rdymap = s.rdymap := rfl
@[simp] theorem State.modBlk_cap (b : Nat) (f : Block → Block) : (s.modBlk b f).cap = s.cap := rfl
@[simp] theorem State.modBlk_capLog (b : Nat) (f : Block → Block) : (s.modBlk b f).capLog = s.capLog := rfl
@[simp] theorem State.modBlk_sites (b : Nat) (f : Block → Block) : (s.modBlk b f).sites = s.sites := rfl
@[simp] theorem State.modBlk_losses (b : Nat) (f : Block → Block) : (s.modBlk b f).losses = s.losses := rfl
@[simp] theorem State.modBlk_placing (b : Nat) (f : Block → Block) : (s.modBlk b f).placing = s.placing := rfl
@[simp] theorem State.modBlk_hbmTop (b : Nat) (f : Block → Block) : (s.modBlk b f).hbmTop = s.hbmTop := rfl
@[simp] theorem State.modBlk_hdmTop (b : Nat) (f : Block → Block) : (s.modBlk b f).hdmTop = s.hdmTop := rfl
@[simp] theorem State.modBlk_straps (b : Nat) (f : Block → Block) : (s.modBlk b f).straps = s.straps := rfl
@[simp] theorem State.modBlk_io (b : Nat) (f : Block → Block) : (s.modBlk b f).io = s.io := rfl
@[simp] theorem State.modBlk_bar2 (b : Nat) (f : Block → Block) : (s.modBlk b f).bar2 = s.bar2 := rfl
@[simp] theorem State.modBlk_mclog (b : Nat) (f : Block → Block) : (s.modBlk b f).mclog = s.mclog := rfl
@[simp] theorem State.modBlk_dvsec (b : Nat) (f : Block → Block) : (s.modBlk b f).dvsec = s.dvsec := rfl
@[simp] theorem State.modBlk_ports (b : Nat) (f : Block → Block) : (s.modBlk b f).ports = s.ports := rfl
@[simp] theorem State.modBlk_peers (b : Nat) (f : Block → Block) : (s.modBlk b f).peers = s.peers := rfl
@[simp] theorem State.modBlk_swihus (b : Nat) (f : Block → Block) : (s.modBlk b f).swihus = s.swihus := rfl
@[simp] theorem State.modBlk_hostInsecure (b : Nat) (f : Block → Block) : (s.modBlk b f).hostInsecure = s.hostInsecure := rfl
@[simp] theorem State.modBlk_suspects (b : Nat) (f : Block → Block) : (s.modBlk b f).suspects = s.suspects := rfl
@[simp] theorem State.modBlk_homeq (b : Nat) (f : Block → Block) : (s.modBlk b f).homeq = s.homeq := rfl
@[simp] theorem State.modBlk_served (b : Nat) (f : Block → Block) : (s.modBlk b f).served = s.served := rfl
@[simp] theorem State.modBlk_dir (b : Nat) (f : Block → Block) : (s.modBlk b f).dir = s.dir := rfl
@[simp] theorem State.modBlk_bridge (b : Nat) (f : Block → Block) : (s.modBlk b f).bridge = s.bridge := rfl
@[simp] theorem State.modBlk_hostMem (b : Nat) (f : Block → Block) : (s.modBlk b f).hostMem = s.hostMem := rfl
@[simp] theorem State.modBlk_mem (b : Nat) (f : Block → Block) : (s.modBlk b f).mem = s.mem := rfl
@[simp] theorem State.modBlk_poison (b : Nat) (f : Block → Block) : (s.modBlk b f).poison = s.poison := rfl
@[simp] theorem State.modBlk_ktag (b : Nat) (f : Block → Block) : (s.modBlk b f).ktag = s.ktag := rfl
@[simp] theorem State.modBlk_ver (b : Nat) (f : Block → Block) : (s.modBlk b f).ver = s.ver := rfl
@[simp] theorem State.modBlk_wcount (b : Nat) (f : Block → Block) : (s.modBlk b f).wcount = s.wcount := rfl
@[simp] theorem State.modBlk_undo (b : Nat) (f : Block → Block) : (s.modBlk b f).undo = s.undo := rfl
@[simp] theorem State.modBlk_saves (b : Nat) (f : Block → Block) : (s.modBlk b f).saves = s.saves := rfl
@[simp] theorem State.modBlk_keygen (b : Nat) (f : Block → Block) : (s.modBlk b f).keygen = s.keygen := rfl
@[simp] theorem State.modBlk_xgwin (b : Nat) (f : Block → Block) : (s.modBlk b f).xgwin = s.xgwin := rfl
@[simp] theorem State.modBlk_windowAt (b : Nat) (f : Block → Block) : (s.modBlk b f).windowAt = s.windowAt := rfl
@[simp] theorem State.modBlk_xackto (b : Nat) (f : Block → Block) : (s.modBlk b f).xackto = s.xackto := rfl
@[simp] theorem State.modBlk_xgsite (b : Nat) (f : Block → Block) : (s.modBlk b f).xgsite = s.xgsite := rfl
@[simp] theorem State.modBlk_ctxs (b : Nat) (f : Block → Block) : (s.modBlk b f).ctxs = s.ctxs := rfl
@[simp] theorem State.modBlk_parts (b : Nat) (f : Block → Block) : (s.modBlk b f).parts = s.parts := rfl
@[simp] theorem State.modBlk_xpend (b : Nat) (f : Block → Block) : (s.modBlk b f).xpend = s.xpend := rfl
@[simp] theorem State.modBlk_grids (b : Nat) (f : Block → Block) : (s.modBlk b f).grids = s.grids := rfl
@[simp] theorem State.modBlk_nextGrid (b : Nat) (f : Block → Block) : (s.modBlk b f).nextGrid = s.nextGrid := rfl
@[simp] theorem State.modBlk_nextBlock (b : Nat) (f : Block → Block) : (s.modBlk b f).nextBlock = s.nextBlock := rfl
@[simp] theorem State.modBlk_orders (b : Nat) (f : Block → Block) : (s.modBlk b f).orders = s.orders := rfl
@[simp] theorem State.modBlk_turns (b : Nat) (f : Block → Block) : (s.modBlk b f).turns = s.turns := rfl
@[simp] theorem State.modBlk_dlevel (b : Nat) (f : Block → Block) : (s.modBlk b f).dlevel = s.dlevel := rfl
@[simp] theorem State.modBlk_visited (b : Nat) (f : Block → Block) : (s.modBlk b f).visited = s.visited := rfl
@[simp] theorem State.modBlk_outs (b : Nat) (f : Block → Block) : (s.modBlk b f).outs = s.outs := rfl
@[simp] theorem State.modBlk_agenda (b : Nat) (f : Block → Block) : (s.modBlk b f).agenda = s.agenda := rfl
@[simp] theorem State.modBlk_cur (b : Nat) (f : Block → Block) : (s.modBlk b f).cur = s.cur := rfl
@[simp] theorem State.modBlk_freeIx (b : Nat) (f : Block → Block) : (s.modBlk b f).freeIx = s.freeIx := rfl
@[simp] theorem State.modBlk_steps (b : Nat) (f : Block → Block) : (s.modBlk b f).steps = s.steps := rfl

@[simp] theorem State.modTiller_phase (b : Nat) (f : Tiller → Tiller) : (s.modTiller b f).phase = s.phase := rfl
@[simp] theorem State.modTiller_clock (b : Nat) (f : Tiller → Tiller) : (s.modTiller b f).clock = s.clock := rfl
@[simp] theorem State.modTiller_rdymap (b : Nat) (f : Tiller → Tiller) : (s.modTiller b f).rdymap = s.rdymap := rfl
@[simp] theorem State.modTiller_cap (b : Nat) (f : Tiller → Tiller) : (s.modTiller b f).cap = s.cap := rfl
@[simp] theorem State.modTiller_capLog (b : Nat) (f : Tiller → Tiller) : (s.modTiller b f).capLog = s.capLog := rfl
@[simp] theorem State.modTiller_sites (b : Nat) (f : Tiller → Tiller) : (s.modTiller b f).sites = s.sites := rfl
@[simp] theorem State.modTiller_losses (b : Nat) (f : Tiller → Tiller) : (s.modTiller b f).losses = s.losses := rfl
@[simp] theorem State.modTiller_placing (b : Nat) (f : Tiller → Tiller) : (s.modTiller b f).placing = s.placing := rfl
@[simp] theorem State.modTiller_hbmTop (b : Nat) (f : Tiller → Tiller) : (s.modTiller b f).hbmTop = s.hbmTop := rfl
@[simp] theorem State.modTiller_hdmTop (b : Nat) (f : Tiller → Tiller) : (s.modTiller b f).hdmTop = s.hdmTop := rfl
@[simp] theorem State.modTiller_straps (b : Nat) (f : Tiller → Tiller) : (s.modTiller b f).straps = s.straps := rfl
@[simp] theorem State.modTiller_io (b : Nat) (f : Tiller → Tiller) : (s.modTiller b f).io = s.io := rfl
@[simp] theorem State.modTiller_bar2 (b : Nat) (f : Tiller → Tiller) : (s.modTiller b f).bar2 = s.bar2 := rfl
@[simp] theorem State.modTiller_mclog (b : Nat) (f : Tiller → Tiller) : (s.modTiller b f).mclog = s.mclog := rfl
@[simp] theorem State.modTiller_dvsec (b : Nat) (f : Tiller → Tiller) : (s.modTiller b f).dvsec = s.dvsec := rfl
@[simp] theorem State.modTiller_ports (b : Nat) (f : Tiller → Tiller) : (s.modTiller b f).ports = s.ports := rfl
@[simp] theorem State.modTiller_peers (b : Nat) (f : Tiller → Tiller) : (s.modTiller b f).peers = s.peers := rfl
@[simp] theorem State.modTiller_swihus (b : Nat) (f : Tiller → Tiller) : (s.modTiller b f).swihus = s.swihus := rfl
@[simp] theorem State.modTiller_hostInsecure (b : Nat) (f : Tiller → Tiller) : (s.modTiller b f).hostInsecure = s.hostInsecure := rfl
@[simp] theorem State.modTiller_suspects (b : Nat) (f : Tiller → Tiller) : (s.modTiller b f).suspects = s.suspects := rfl
@[simp] theorem State.modTiller_homeq (b : Nat) (f : Tiller → Tiller) : (s.modTiller b f).homeq = s.homeq := rfl
@[simp] theorem State.modTiller_served (b : Nat) (f : Tiller → Tiller) : (s.modTiller b f).served = s.served := rfl
@[simp] theorem State.modTiller_dir (b : Nat) (f : Tiller → Tiller) : (s.modTiller b f).dir = s.dir := rfl
@[simp] theorem State.modTiller_bridge (b : Nat) (f : Tiller → Tiller) : (s.modTiller b f).bridge = s.bridge := rfl
@[simp] theorem State.modTiller_hostMem (b : Nat) (f : Tiller → Tiller) : (s.modTiller b f).hostMem = s.hostMem := rfl
@[simp] theorem State.modTiller_mem (b : Nat) (f : Tiller → Tiller) : (s.modTiller b f).mem = s.mem := rfl
@[simp] theorem State.modTiller_poison (b : Nat) (f : Tiller → Tiller) : (s.modTiller b f).poison = s.poison := rfl
@[simp] theorem State.modTiller_ktag (b : Nat) (f : Tiller → Tiller) : (s.modTiller b f).ktag = s.ktag := rfl
@[simp] theorem State.modTiller_ver (b : Nat) (f : Tiller → Tiller) : (s.modTiller b f).ver = s.ver := rfl
@[simp] theorem State.modTiller_wcount (b : Nat) (f : Tiller → Tiller) : (s.modTiller b f).wcount = s.wcount := rfl
@[simp] theorem State.modTiller_undo (b : Nat) (f : Tiller → Tiller) : (s.modTiller b f).undo = s.undo := rfl
@[simp] theorem State.modTiller_saves (b : Nat) (f : Tiller → Tiller) : (s.modTiller b f).saves = s.saves := rfl
@[simp] theorem State.modTiller_keygen (b : Nat) (f : Tiller → Tiller) : (s.modTiller b f).keygen = s.keygen := rfl
@[simp] theorem State.modTiller_xgwin (b : Nat) (f : Tiller → Tiller) : (s.modTiller b f).xgwin = s.xgwin := rfl
@[simp] theorem State.modTiller_windowAt (b : Nat) (f : Tiller → Tiller) : (s.modTiller b f).windowAt = s.windowAt := rfl
@[simp] theorem State.modTiller_xackto (b : Nat) (f : Tiller → Tiller) : (s.modTiller b f).xackto = s.xackto := rfl
@[simp] theorem State.modTiller_xgsite (b : Nat) (f : Tiller → Tiller) : (s.modTiller b f).xgsite = s.xgsite := rfl
@[simp] theorem State.modTiller_ctxs (b : Nat) (f : Tiller → Tiller) : (s.modTiller b f).ctxs = s.ctxs := rfl
@[simp] theorem State.modTiller_parts (b : Nat) (f : Tiller → Tiller) : (s.modTiller b f).parts = s.parts := rfl
@[simp] theorem State.modTiller_xpend (b : Nat) (f : Tiller → Tiller) : (s.modTiller b f).xpend = s.xpend := rfl
@[simp] theorem State.modTiller_grids (b : Nat) (f : Tiller → Tiller) : (s.modTiller b f).grids = s.grids := rfl
@[simp] theorem State.modTiller_nextGrid (b : Nat) (f : Tiller → Tiller) : (s.modTiller b f).nextGrid = s.nextGrid := rfl
@[simp] theorem State.modTiller_nextBlock (b : Nat) (f : Tiller → Tiller) : (s.modTiller b f).nextBlock = s.nextBlock := rfl
@[simp] theorem State.modTiller_orders (b : Nat) (f : Tiller → Tiller) : (s.modTiller b f).orders = s.orders := rfl
@[simp] theorem State.modTiller_turns (b : Nat) (f : Tiller → Tiller) : (s.modTiller b f).turns = s.turns := rfl
@[simp] theorem State.modTiller_dlevel (b : Nat) (f : Tiller → Tiller) : (s.modTiller b f).dlevel = s.dlevel := rfl
@[simp] theorem State.modTiller_visited (b : Nat) (f : Tiller → Tiller) : (s.modTiller b f).visited = s.visited := rfl
@[simp] theorem State.modTiller_outs (b : Nat) (f : Tiller → Tiller) : (s.modTiller b f).outs = s.outs := rfl
@[simp] theorem State.modTiller_agenda (b : Nat) (f : Tiller → Tiller) : (s.modTiller b f).agenda = s.agenda := rfl
@[simp] theorem State.modTiller_cur (b : Nat) (f : Tiller → Tiller) : (s.modTiller b f).cur = s.cur := rfl
@[simp] theorem State.modTiller_freeIx (b : Nat) (f : Tiller → Tiller) : (s.modTiller b f).freeIx = s.freeIx := rfl
@[simp] theorem State.modTiller_steps (b : Nat) (f : Tiller → Tiller) : (s.modTiller b f).steps = s.steps := rfl

end Sys2Proof.Machine
end

