-- ==== Sys2Proof/Laws/Lanes.lean ====
section
/-! SUPPORT. Reads of blocks, warps and lanes after writes of them, and what the shared executions of Operands.lean do: each
lane of the entry takes its answer, nothing else moves. -/

namespace Sys2Proof.Machine

open Sys2Proof

variable (s : State)

theorem State.blk_setBlk (b c : Nat) (x : Block) : (s.setBlk b x).blk c = if b = c then x else s.blk c := by
  simp [State.blk, State.setBlk, fget_fput]

@[simp] theorem State.blk_setBlk_same (b : Nat) (x : Block) : (s.setBlk b x).blk b = x := by simp [State.blk_setBlk]

theorem Block.warp_setWarp (k : Block) (w v : Nat) (x : Warp) : (k.setWarp w x).warp v = if w = v then x else k.warp v := by
  simp [Block.warp, Block.setWarp, fget_fput]

@[simp] theorem Block.warp_setWarp_same (k : Block) (w : Nat) (x : Warp) : (k.setWarp w x).warp w = x := by
  simp [Block.warp_setWarp]

theorem Warp.lane_setLane (w : Warp) (i j : Nat) (x : Lane) : (w.setLane i x).lane j = if i = j then x else w.lane j := by
  simp [Warp.lane, Warp.setLane, fget_fput]

@[simp] theorem State.warp_setWarp_same (b w : Nat) (x : Warp) : (s.setWarp b w x).warp b w = x := by
  simp [State.warp, State.setWarp]

theorem State.warp_setWarp (b w c v : Nat) (x : Warp) :
    (s.setWarp b w x).warp c v = if b = c ∧ w = v then x else s.warp c v := by
  unfold State.warp State.setWarp
  rw [State.blk_setBlk]
  by_cases h : b = c
  · subst h; simp [Block.warp_setWarp]
  · simp [h]

theorem State.lane_setLane (b w i c v j : Nat) (x : Lane) :
    (s.setLane b w i x).lane c v j = if b = c ∧ w = v ∧ i = j then x else s.lane c v j := by
  unfold State.lane State.setLane
  rw [State.warp_setWarp]
  by_cases h : b = c ∧ w = v
  · obtain ⟨rfl, rfl⟩ := h; simp [Warp.lane_setLane]
  · rw [if_neg h, if_neg (fun g => h ⟨g.1, g.2.1⟩)]

@[simp] theorem State.cur_setLane (b w i : Nat) (x : Lane) : (s.setLane b w i x).cur = s.cur := rfl

/-- A lane of the issue after a write of a lane of the issue. -/
theorem State.cl_setCl (i j : Nat) (x : Lane) : (s.setCl i x).cl j = if i = j then x else s.cl j := by
  unfold State.cl State.setCl
  rw [State.cur_setLane, State.lane_setLane]; simp

@[simp] theorem State.cl_setCl_same (i : Nat) (x : Lane) : (s.setCl i x).cl i = x := by simp [State.cl_setCl]

/-! ### What stays when only lanes of the issuing warp move -/

theorem SameBut.refl (ls : List Nat) : SameBut s s ls := ⟨rfl, fun _ _ => rfl, rfl, fun _ _ => rfl, rfl, fun _ _ => rfl⟩

theorem SameBut.cur {s t : State} {ls : List Nat} (h : SameBut s t ls) : t.cur = s.cur := by
  rw [← h.rest]

theorem SameBut.cw_eq {s t : State} {ls : List Nat} (h : SameBut s t ls) : t.cw = t.warp s.cur.blk s.cur.warp := by
  simp [State.cw, h.cur]

theorem SameBut.cl_eq {s t : State} {ls : List Nat} (h : SameBut s t ls) (i : Nat) : t.cl i = t.lane s.cur.blk s.cur.warp i := by
  simp [State.cl, h.cur]

theorem SameBut.cl {s t : State} {ls : List Nat} (h : SameBut s t ls) {i : Nat} (hi : i ∉ ls) : t.cl i = s.cl i := by
  rw [h.cl_eq, h.lane i hi]

theorem SameBut.mono {s t : State} {ls ms : List Nat} (h : SameBut s t ls) (hs : ∀ i, i ∈ ls → i ∈ ms) : SameBut s t ms :=
  { h with lane := fun i hi => h.lane i fun g => hi (hs i g) }

theorem SameBut.trans {s t u : State} {ls : List Nat} (h : SameBut s t ls) (k : SameBut t u ls) : SameBut s u ls := by
  have hc := h.cur
  have ht := h.rest
  have hu := k.rest
  refine ⟨?_, ?_, ?_, ?_, ?_, ?_⟩
  · rw [← ht]; rw [← hu]
  · intro b hb; rw [k.blk b (by rw [hc]; exact hb), h.blk b hb]
  · have a := h.block; have b := k.block; rw [hc] at b; rw [← a]; rw [← b]
  · intro w hw
    have := k.warp w (by rw [hc]; exact hw); rw [hc] at this
    rw [this, h.warp w hw]
  · have a := h.cw; have b := k.cw; rw [h.cw_eq, hc] at b; rw [← a]; rw [← b]
  · intro i hi
    have := k.lane i hi; rw [hc] at this
    rw [this, h.cl_eq, h.lane i hi]

theorem SameBut.setCl (i : Nat) (x : Lane) (ls : List Nat) (hi : i ∈ ls) : SameBut s (s.setCl i x) ls := by
  refine ⟨?_, ?_, ?_, ?_, ?_, ?_⟩
  · rfl
  · intro b hb
    simp only [State.setCl, State.setLane, State.setWarp, State.blk_setBlk]
    rw [if_neg (Ne.symm hb)]
  · simp only [State.setCl, State.setLane, State.setWarp, State.blk_setBlk_same]; rfl
  · intro w hw
    simp only [State.setCl, State.setLane, State.warp_setWarp]
    rw [if_neg (fun g => hw g.2.symm)]
  · simp only [State.setCl, State.setLane, State.warp_setWarp_same]; rfl
  · intro j hj
    simp only [State.setCl, State.lane_setLane, State.cl]
    rw [if_neg]; rintro ⟨-, -, rfl⟩; exact hj hi

/-- The grid of the issuing block is the same. -/
theorem SameBut.grid {s t : State} {ls : List Nat} (h : SameBut s t ls) : t.gridOf s.cur.blk = s.gridOf s.cur.blk := by
  have a : t.grids = s.grids := by rw [← h.rest]
  have b : (t.blk s.cur.blk).grid = (s.blk s.cur.blk).grid := by rw [← h.block]
  simp [State.gridOf, State.grid, a, b]

/-- Memory reads as before. -/
theorem SameBut.byteAt {s t : State} {ls : List Nat} (h : SameBut s t ls) (key a : Nat) : t.byteAt key a = s.byteAt key a := by
  rw [← h.rest]; rfl

/-! ### Every lane of a list changes by a function of itself -/

/-- A fold that replaces one lane after the other. -/
theorem lanes_fold {β : Type} (num : β → Nat) (f : β → Lane → Lane) (rs : List β) (s : State) (hn : (rs.map num).Nodup) :
    let t := rs.foldl (fun s r => s.setCl (num r) (f r (s.cl (num r)))) s
    SameBut s t (rs.map num) ∧ ∀ r ∈ rs, t.cl (num r) = f r (s.cl (num r)) := by
  induction rs generalizing s with
  | nil => exact ⟨SameBut.refl s _, fun r h => absurd h (List.not_mem_nil)⟩
  | cons r rs ih =>
    simp only [List.map_cons, List.nodup_cons] at hn
    obtain ⟨h1, h2⟩ := ih (s.setCl (num r) (f r (s.cl (num r)))) hn.2
    have h0 := SameBut.setCl s (num r) (f r (s.cl (num r))) ((r :: rs).map num) (by simp)
    refine ⟨h0.trans (h1.mono (by intro i hi; simp at hi ⊢; exact .inr hi)), ?_⟩
    intro r' hr'
    simp only [List.foldl_cons]
    rcases List.mem_cons.1 hr' with rfl | hm
    · rw [h1.cl hn.1]; simp
    · rw [h2 r' hm]
      have : num r ≠ num r' := fun e => hn.1 (e ▸ List.mem_map_of_mem hm)
      rw [State.cl_setCl, if_neg this]

@[simp] theorem State.raiseAll_nil (b w : Nat) : s.raiseAll b w [] = s := by simp [State.raiseAll]

/-- An answer that raises nothing. -/
def Ans.quiet : Ans → Bool
  | .trap _ _ => false
  | .trapNext _ _ => false
  | _ => true

/-- Answers that raise nothing are taken lane by lane. -/
theorem State.commitAns_quiet (la : Option Nat) (rs : List (Nat × Ans)) (hn : (rs.map (·.1)).Nodup)
    (hq : ∀ r ∈ rs, r.2.quiet = true) :
    SameBut s (s.commitAns la rs) (rs.map (·.1)) ∧
      ∀ r ∈ rs, (s.commitAns la rs).cl r.1 = (s.cl r.1).take (s.gridOf s.cur.blk) s.cur la r.2 := by
  have hcur : ∀ (l : List (Nat × Ans)) (s' : State), s'.cur = s.cur →
      l.foldl (fun u r => u.setCl r.1 ((u.cl r.1).take (s.gridOf s.cur.blk) u.cur la r.2)) s' =
      l.foldl (fun u r => u.setCl r.1 ((u.cl r.1).take (s.gridOf s.cur.blk) s.cur la r.2)) s' := by
    intro l
    induction l with
    | nil => intros; rfl
    | cons r l ih =>
      intro s' h
      simp only [List.foldl_cons]
      rw [h]
      exact ih _ (by rw [← h]; rfl)
  have e : s.commitAns la rs =
      rs.foldl (fun u r => u.setCl r.1 ((u.cl r.1).take (s.gridOf s.cur.blk) s.cur la r.2)) s := by
    unfold State.commitAns
    dsimp only
    rw [List.filterMap_eq_nil_iff.2, State.raiseAll_nil]
    · exact hcur rs s rfl
    · intro r hr
      have := hq r hr
      cases h : r.2 <;> simp_all [Ans.quiet]
  rw [e]
  exact lanes_fold (fun r : Nat × Ans => r.1) (fun r l => l.take (s.gridOf s.cur.blk) s.cur la r.2) rs s hn

/-- What a lane-class instruction that touches its own lanes alone does where no lane raises. -/
theorem State.laneOpI_quiet (vs ss : List Nat) (g : Guard) (la : Option Nat) (f : Nat → Lane → Ans)
    (hok : s.laneOk vs ss = true) (hn : s.cur.lanes.Nodup)
    (hq : ∀ i ∈ s.cur.lanes, (s.cl i).guard g = true → (f i (s.cl i)).quiet = true) :
    SameBut s (s.laneOpI vs ss g la f) s.cur.lanes ∧ ∀ i ∈ s.cur.lanes,
      (s.laneOpI vs ss g la f).cl i =
        (s.cl i).take (s.gridOf s.cur.blk) s.cur la (if (s.cl i).guard g then f i (s.cl i) else .done) := by
  unfold State.laneOpI
  rw [if_pos hok]
  have hm : (s.cur.lanes.map fun i => (i, if (s.cl i).guard g = true then f i (s.cl i) else Ans.done)).map (·.1) = s.cur.lanes := by
    simp [List.map_map, Function.comp_def]
  have h := State.commitAns_quiet s la (s.cur.lanes.map fun i => (i, if (s.cl i).guard g = true then f i (s.cl i) else Ans.done))
    (by rw [hm]; exact hn)
    (by
      intro r hr
      obtain ⟨i, hi, rfl⟩ := List.mem_map.1 hr
      by_cases hg : (s.cl i).guard g = true
      · simpa [hg] using hq i hi hg
      · simp [hg, Ans.done, Ans.quiet])
  rw [hm] at h
  exact ⟨h.1, fun i hi => h.2 (i, _) (List.mem_map.2 ⟨i, hi, rfl⟩)⟩

theorem State.laneOp_quiet (vs ss : List Nat) (g : Guard) (la : Option Nat) (f : Lane → Ans)
    (hok : s.laneOk vs ss = true) (hn : s.cur.lanes.Nodup)
    (hq : ∀ i ∈ s.cur.lanes, (s.cl i).guard g = true → (f (s.cl i)).quiet = true) :
    SameBut s (s.laneOp vs ss g la f) s.cur.lanes ∧ ∀ i ∈ s.cur.lanes,
      (s.laneOp vs ss g la f).cl i =
        (s.cl i).take (s.gridOf s.cur.blk) s.cur la (if (s.cl i).guard g then f (s.cl i) else .done) :=
  State.laneOpI_quiet s vs ss g la (fun _ l => f l) hok hn hq

end Sys2Proof.Machine
end

