-- ==== Sys2Proof/Laws/Memory.lean ====
section
/-! SUPPORT. What memory traffic leaves alone, and that it keeps both memories in canonical form. -/

namespace Sys2Proof.Machine

open Sys2Proof

/-- t is s but for what memory traffic may change: memories with their tags, versions and poison, the bridge, the directory, the
sites' caches, replicas, losses, the log, what is sent outside and the free values used. -/
def Traffic (s t : State) : Prop :=
  { t with bar2 := s.bar2, mclog := s.mclog, outs := s.outs, bridge := s.bridge, mem := s.mem, ver := s.ver, ktag := s.ktag,
           wcount := s.wcount, undo := s.undo, poison := s.poison, losses := s.losses, dir := s.dir, sites := s.sites,
           ctxs := s.ctxs, peers := s.peers, freeIx := s.freeIx } = s

theorem Traffic.refl (s : State) : Traffic s s := rfl

theorem Traffic.trans {s t u : State} (h : Traffic s t) (k : Traffic t u) : Traffic s u := by
  unfold Traffic at *
  rw [← h]; rw [← k]

theorem Traffic.blocks {s t : State} (h : Traffic s t) : t.blocks = s.blocks := by rw [← h]
theorem Traffic.grids {s t : State} (h : Traffic s t) : t.grids = s.grids := by rw [← h]
theorem Traffic.cur {s t : State} (h : Traffic s t) : t.cur = s.cur := by rw [← h]
theorem Traffic.hostMem {s t : State} (h : Traffic s t) : t.hostMem = s.hostMem := by rw [← h]

theorem Traffic.foldl {β : Type} (f : State → β → State) (hf : ∀ s b, Traffic s (f s b)) (l : List β) (s : State) :
    Traffic s (l.foldl f s) := by
  induction l generalizing s with
  | nil => exact Traffic.refl s
  | cons b l ih => exact (hf s b).trans (ih _)

theorem Traffic.setBridge {s t : State} (h : Traffic s t) (x : FMap HLine) : Traffic s { t with bridge := x } := h

theorem Traffic.setPoison {s t : State} (h : Traffic s t) (x : FMap Bool) : Traffic s { t with poison := x } := h

theorem State.logMc_traffic (s : State) (r : McRec) : Traffic s (s.logMc r) := by
  unfold State.logMc
  dsimp only
  split <;> rfl

theorem State.fillHalf_traffic (s : State) (a : Nat) : Traffic s (s.fillHalf a) := rfl

theorem State.bridgeRead_traffic (s : State) (l : Nat) : Traffic s (s.bridgeRead l) := by
  unfold State.bridgeRead
  dsimp only
  split <;> split
  · exact ((State.fillHalf_traffic s _).trans (State.fillHalf_traffic _ _)).setBridge _
  · exact (State.fillHalf_traffic s _).setBridge _
  · exact (State.fillHalf_traffic s _).setBridge _
  · exact (Traffic.refl s).setBridge _

theorem State.bridgeOwn_traffic (s : State) (l : Nat) : Traffic s (s.bridgeOwn l) := by
  unfold State.bridgeOwn
  dsimp only
  split <;> split
  · exact ((State.fillHalf_traffic s _).trans (State.fillHalf_traffic _ _)).setBridge _
  · exact (State.fillHalf_traffic s _).setBridge _
  · exact (State.fillHalf_traffic s _).setBridge _
  · exact (Traffic.refl s).setBridge _

theorem State.bridgeDirty_traffic (s : State) (a : Nat) : Traffic s (s.bridgeDirty a) := rfl

theorem State.renewStamped_traffic (s : State) (x l : Nat) : Traffic s (s.renewStamped x l) := by
  unfold State.renewStamped; split <;> rfl

theorem State.addSharer_traffic (s : State) (x l : Nat) : Traffic s (s.addSharer x l) := by
  unfold State.addSharer
  dsimp only
  split
  · rfl
  · split
    · exact State.renewStamped_traffic s x l
    · exact (State.renewStamped_traffic s x l).trans rfl

theorem State.refetch_traffic (s : State) (x l : Nat) : Traffic s (s.refetch x l) := by
  unfold State.refetch
  dsimp only
  split
  · split <;> rfl
  · rfl

theorem State.logUnbacked_traffic (s : State) (x c a : Nat) : Traffic s (s.logUnbacked x c a) := State.logMc_traffic ..

theorem State.sendFlit_traffic (s : State) (p : Nat) : Traffic s (s.sendFlit p) := rfl

theorem State.witherLine_traffic (s : State) (l : Nat) : Traffic s (s.witherLine l) := rfl

theorem State.writeBack_traffic (s : State) (l : Nat) (f : Nat → Bool) : Traffic s (s.writeBack l f) := by
  unfold State.writeBack
  dsimp only
  split <;> rfl

theorem State.spill_traffic (s : State) (x key l : Nat) : Traffic s (s.spill x key l) := by
  unfold State.spill
  split
  · exact State.writeBack_traffic ..
  · rfl

theorem State.touchRead_traffic (s : State) (x c key a n : Nat) : Traffic s (s.touchRead x c key a n) := by
  unfold State.touchRead
  split
  · exact Traffic.foldl _ (fun s l => ((State.refetch_traffic s x l).trans (State.bridgeRead_traffic ..)).trans
      (State.renewStamped_traffic ..)) _ _
  · exact State.logUnbacked_traffic ..
  · exact Traffic.foldl _ (fun s l => ((State.spill_traffic s x key l).trans (State.refetch_traffic _ x l)).trans
      (State.addSharer_traffic ..)) _ _
  · exact State.sendFlit_traffic ..

theorem State.dropBad_traffic (s : State) (l : Nat) (f : Nat → Bool) : Traffic s (s.dropBad l f) := rfl

theorem State.soil_traffic (s : State) (x a n : Nat) : Traffic s (s.soil x a n) := by
  unfold State.soil; split <;> rfl

theorem State.ownLine_traffic (s : State) (x l : Nat) : Traffic s (s.ownLine x l) :=
  ((State.writeBack_traffic s l (· != x)).trans (State.dropBad_traffic _ l (· != x))).trans rfl

theorem State.writePoison_traffic (s : State) (x c a n : Nat) (p : Bool) : Traffic s (s.writePoison x c a n p) := by
  unfold State.writePoison
  refine Traffic.foldl _ (fun s i => ?_) _ _
  split
  · rfl
  · split
    · rfl
    · split
      · exact ((Traffic.refl s).setPoison _).trans (State.logMc_traffic _ _)
      · rfl

theorem State.rekeySector_traffic (s : State) (t x : Nat) : Traffic s (s.rekeySector t x) := by
  unfold State.rekeySector
  dsimp only
  split <;> rfl

theorem State.putBytes_traffic (s : State) (key a : Nat) (bytes : List Byte) : Traffic s (s.putBytes key a bytes) := by
  unfold State.putBytes
  dsimp only
  have k := Traffic.foldl (fun s x => s.rekeySector (s.tagOf key) x) (fun s x => State.rekeySector_traffic s _ x)
    (sectorsOf a bytes.length) s
  generalize List.foldl _ s (sectorsOf a bytes.length) = v at k ⊢
  suffices h : ∀ (n : Nat) (l : List Byte) (a : Nat) (u : State), Traffic s u → Traffic s (l.foldl (fun (p : Nat × State) b =>
      (p.1 + 1, { p.2 with mem := fset memDefault p.2.mem p.1 b, ver := fput p.2.ver p.1 n })) (a, u)).2 from
    h _ bytes a _ (k.trans rfl)
  intro n l
  induction l with
  | nil => intro a u h; exact h
  | cons b l ih => intro a u h; exact ih _ _ (h.trans rfl)

theorem State.writeMem_traffic (s : State) (x c key a : Nat) (bytes : List Byte) (p : Bool) :
    Traffic s (s.writeMem x c key a bytes p) := by
  unfold State.writeMem
  split
  · rfl
  · split
    · exact State.logUnbacked_traffic ..
    · have h := (((Traffic.foldl (fun s l => ((s.bridgeOwn l).writeBack l (· != x)).dropBad l (· != x))
        (fun s l => ((State.bridgeOwn_traffic s l).trans (State.writeBack_traffic ..)).trans (State.dropBad_traffic ..))
        (linesOf a bytes.length) s).trans (State.writePoison_traffic _ x c a bytes.length p)).trans
        (State.putBytes_traffic _ key a bytes)).trans (State.soil_traffic _ x a bytes.length)
      have k := h.trans (Traffic.foldl (fun s l => (s.renewStamped x l).witherLine l)
        (fun s l => (State.renewStamped_traffic s x l).trans (State.witherLine_traffic _ l)) (linesOf a bytes.length) _)
      dsimp only
      split
      · exact k
      · exact (k.trans (State.bridgeDirty_traffic _ _)).trans (State.bridgeDirty_traffic _ _)
    · have h := (((Traffic.foldl (fun s l => s.spill x key l) (fun s l => State.spill_traffic s x key l) (linesOf a bytes.length) s).trans
        (State.writePoison_traffic _ x c a bytes.length p)).trans (State.putBytes_traffic _ key a bytes)).trans
        (Traffic.foldl (fun s l => ((s.ownLine x l).renewStamped x l).witherLine l)
          (fun s l => ((State.ownLine_traffic s x l).trans (State.renewStamped_traffic _ x l)).trans (State.witherLine_traffic _ l))
          (linesOf a bytes.length) _)
      exact h.trans (State.soil_traffic ..)
    · exact (((State.sendFlit_traffic s _).trans (State.writePoison_traffic ..)).trans (State.putBytes_traffic _ ..)).trans
        (Traffic.foldl _ (fun s l => State.witherLine_traffic s l) _ _)

end Sys2Proof.Machine
end

