-- ==== Sys2Proof/Laws/Canonical.lean ====
section
/-! SUPPORT. Every operation that writes a byte keeps both memories in canonical form: addresses strictly rising, no entry equal to
what an unlisted address reads as. -/

namespace Sys2Proof.Machine

open Sys2Proof

/-- t keeps the canonical form of both memories of s. -/
structure KeepsForm (s t : State) : Prop where
  keeps : s.memWf → t.memWf

theorem KeepsForm.refl (s : State) : KeepsForm s s := ⟨id⟩

theorem KeepsForm.trans {s t u : State} (h : KeepsForm s t) (k : KeepsForm t u) : KeepsForm s u := ⟨fun x => k.keeps (h.keeps x)⟩

/-- What leaves both memories alone keeps their form. -/
theorem KeepsForm.of_eq {s t : State} (h : t.mem = s.mem) (k : t.hostMem = s.hostMem) : KeepsForm s t := by
  refine ⟨fun x => ?_⟩
  unfold State.memWf at *
  rw [h, k]
  exact x

theorem KeepsForm.setBridge {s t : State} (h : KeepsForm s t) (x : FMap HLine) : KeepsForm s { t with bridge := x } := ⟨h.keeps⟩

theorem KeepsForm.setPoison {s t : State} (h : KeepsForm s t) (x : FMap Bool) : KeepsForm s { t with poison := x } := ⟨h.keeps⟩

theorem KeepsForm.foldl {β : Type} (f : State → β → State) (hf : ∀ s b, KeepsForm s (f s b)) (l : List β) (s : State) :
    KeepsForm s (l.foldl f s) := by
  induction l generalizing s with
  | nil => exact KeepsForm.refl s
  | cons b l ih => exact (hf s b).trans (ih _)

/-- Bytes put at a list of addresses. -/
theorem Memory.wf_foldl {β : Type} (a : List Host.Cell → β → Nat) (x : List Host.Cell → β → Byte) (l : List β) (m : List Host.Cell)
    (h : Memory.wf m = true) : Memory.wf (l.foldl (fun m b => fset memDefault m (a m b) (x m b)) m) = true := by
  induction l generalizing m with
  | nil => exact h
  | cons b l ih => exact ih _ (fwf_fset memDefault m (a m b) (x m b) h)

/-- Bytes put one after another. -/
theorem Memory.wf_run (bs : List Byte) (a : Nat) (m : List Host.Cell) (h : Memory.wf m = true) :
    Memory.wf (bs.foldl (fun (p : Nat × List Host.Cell) b => (p.1 + 1, fset memDefault p.2 p.1 b)) (a, m)).2 = true := by
  induction bs generalizing a m with
  | nil => exact h
  | cons b bs ih => exact ih _ _ (fwf_fset memDefault m a b h)

theorem State.fillHalf_form (s : State) (a : Nat) : KeepsForm s (s.fillHalf a) :=
  ⟨fun h => ⟨Memory.wf_foldl (fun _ i => i) (fun _ i => fget memDefault s.hostMem i) _ _ h.1, h.2⟩⟩

theorem State.sendHalf_form (s : State) (a : Nat) : KeepsForm s (s.sendHalf a) :=
  ⟨fun h => ⟨h.1, Memory.wf_foldl (fun _ i => i) (fun _ i => fget memDefault s.mem i) _ _ h.2⟩⟩

/-- An operation done under a condition. -/
theorem KeepsForm.ite {s t : State} (c : Prop) [Decidable c] (h : KeepsForm s t) : KeepsForm s (if c then t else s) := by
  split
  · exact h
  · exact KeepsForm.refl s

theorem State.bridgeRead_form (s : State) (l : Nat) : KeepsForm s (s.bridgeRead l) := by
  unfold State.bridgeRead
  dsimp only
  split <;> split
  · exact ((State.fillHalf_form s _).trans (State.fillHalf_form _ _)).setBridge _
  · exact (State.fillHalf_form s _).setBridge _
  · exact (State.fillHalf_form s _).setBridge _
  · exact (KeepsForm.refl s).setBridge _

theorem State.bridgeOwn_form (s : State) (l : Nat) : KeepsForm s (s.bridgeOwn l) := by
  unfold State.bridgeOwn
  dsimp only
  split <;> split
  · exact ((State.fillHalf_form s _).trans (State.fillHalf_form _ _)).setBridge _
  · exact (State.fillHalf_form s _).setBridge _
  · exact (State.fillHalf_form s _).setBridge _
  · exact (KeepsForm.refl s).setBridge _

theorem State.bridgeDirty_form (s : State) (a : Nat) : KeepsForm s (s.bridgeDirty a) := KeepsForm.of_eq rfl rfl

theorem State.logMc_form (s : State) (r : McRec) : KeepsForm s (s.logMc r) := by
  unfold State.logMc
  dsimp only
  split <;> exact KeepsForm.of_eq rfl rfl

theorem State.renewStamped_form (s : State) (x l : Nat) : KeepsForm s (s.renewStamped x l) := by
  unfold State.renewStamped; split <;> exact KeepsForm.of_eq rfl rfl

theorem State.addSharer_form (s : State) (x l : Nat) : KeepsForm s (s.addSharer x l) := by
  unfold State.addSharer
  dsimp only
  split
  · exact KeepsForm.refl s
  · split
    · exact State.renewStamped_form s x l
    · exact (State.renewStamped_form s x l).trans (KeepsForm.of_eq rfl rfl)

theorem State.refetch_form (s : State) (x l : Nat) : KeepsForm s (s.refetch x l) := by
  unfold State.refetch
  dsimp only
  split
  · split <;> exact KeepsForm.of_eq rfl rfl
  · exact KeepsForm.refl s

theorem State.sendFlit_form (s : State) (p : Nat) : KeepsForm s (s.sendFlit p) := KeepsForm.of_eq rfl rfl

theorem State.writeBack_form (s : State) (l : Nat) (f : Nat → Bool) : KeepsForm s (s.writeBack l f) := by
  unfold State.writeBack
  dsimp only
  split <;> exact KeepsForm.of_eq rfl rfl

theorem State.spill_form (s : State) (x key l : Nat) : KeepsForm s (s.spill x key l) := by
  unfold State.spill
  split
  · exact State.writeBack_form ..
  · exact KeepsForm.refl s

theorem State.touchRead_form (s : State) (x c key a n : Nat) : KeepsForm s (s.touchRead x c key a n) := by
  unfold State.touchRead
  split
  · exact KeepsForm.foldl _ (fun s l => ((State.refetch_form s x l).trans (State.bridgeRead_form ..)).trans
      (State.renewStamped_form ..)) _ _
  · exact State.logMc_form s _
  · exact KeepsForm.foldl _ (fun s l => ((State.spill_form s x key l).trans (State.refetch_form _ x l)).trans
      (State.addSharer_form ..)) _ _
  · exact KeepsForm.of_eq rfl rfl

theorem State.writePoison_form (s : State) (x c a n : Nat) (p : Bool) : KeepsForm s (s.writePoison x c a n p) := by
  unfold State.writePoison
  refine KeepsForm.foldl _ (fun s i => ?_) _ _
  split
  · exact KeepsForm.of_eq rfl rfl
  · split
    · exact KeepsForm.of_eq rfl rfl
    · split
      · exact ((KeepsForm.refl s).setPoison _).trans (State.logMc_form _ _)
      · exact KeepsForm.refl s

theorem State.rekeySector_form (s : State) (t x : Nat) : KeepsForm s (s.rekeySector t x) := by
  unfold State.rekeySector
  dsimp only
  split
  · exact ⟨fun h => ⟨Memory.wf_foldl (fun _ i => i) (fun _ i => Config.scramble t (fget 0 s.ktag x) i (s.rawByte i)) _ _ h.1, h.2⟩⟩
  · exact KeepsForm.refl s

theorem State.putBytes_form (s : State) (key a : Nat) (bytes : List Byte) : KeepsForm s (s.putBytes key a bytes) := by
  unfold State.putBytes
  dsimp only
  have k := KeepsForm.foldl (fun s x => s.rekeySector (s.tagOf key) x) (fun s x => State.rekeySector_form s _ x)
    (sectorsOf a bytes.length) s
  generalize List.foldl _ s (sectorsOf a bytes.length) = v at k ⊢
  suffices h : ∀ (n : Nat) (l : List Byte) (a : Nat) (u : State), KeepsForm s u → KeepsForm s (l.foldl (fun (p : Nat × State) b =>
      (p.1 + 1, { p.2 with mem := fset memDefault p.2.mem p.1 b, ver := fput p.2.ver p.1 n })) (a, u)).2 from
    h _ bytes a _ (k.trans (KeepsForm.of_eq rfl rfl))
  intro n l
  induction l with
  | nil => intro a u h; exact h
  | cons b l ih => intro a u h; exact ih _ _ ⟨fun x => ⟨fwf_fset memDefault u.mem a b (h.keeps x).1, (h.keeps x).2⟩⟩

theorem State.witherLine_form (s : State) (l : Nat) : KeepsForm s (s.witherLine l) := KeepsForm.of_eq rfl rfl

theorem State.dropBad_form (s : State) (l : Nat) (f : Nat → Bool) : KeepsForm s (s.dropBad l f) := KeepsForm.of_eq rfl rfl

theorem State.soil_form (s : State) (x a n : Nat) : KeepsForm s (s.soil x a n) := by
  unfold State.soil; split <;> exact KeepsForm.of_eq rfl rfl

theorem State.ownLine_form (s : State) (x l : Nat) : KeepsForm s (s.ownLine x l) :=
  ((State.writeBack_form s l (· != x)).trans (State.dropBad_form _ l (· != x))).trans (KeepsForm.of_eq rfl rfl)

/-- A write performed at the place of its line. -/
theorem State.writeMem_form (s : State) (x c key a : Nat) (bytes : List Byte) (p : Bool) : KeepsForm s (s.writeMem x c key a bytes p) := by
  unfold State.writeMem
  split
  · exact KeepsForm.refl s
  · split
    · exact State.logMc_form s _
    · have h := (((KeepsForm.foldl (fun s l => ((s.bridgeOwn l).writeBack l (· != x)).dropBad l (· != x))
        (fun s l => ((State.bridgeOwn_form s l).trans (State.writeBack_form ..)).trans (State.dropBad_form ..))
        (linesOf a bytes.length) s).trans (State.writePoison_form _ x c a bytes.length p)).trans
        (State.putBytes_form _ key a bytes)).trans (State.soil_form _ x a bytes.length)
      have k := h.trans (KeepsForm.foldl (fun s l => (s.renewStamped x l).witherLine l)
        (fun s l => (State.renewStamped_form s x l).trans (State.witherLine_form _ l)) (linesOf a bytes.length) _)
      dsimp only
      split
      · exact k
      · exact k.trans (KeepsForm.of_eq rfl rfl)
    · have h := (((KeepsForm.foldl (fun s l => s.spill x key l) (fun s l => State.spill_form s x key l) (linesOf a bytes.length) s).trans
        (State.writePoison_form _ x c a bytes.length p)).trans (State.putBytes_form _ key a bytes)).trans
        (KeepsForm.foldl (fun s l => ((s.ownLine x l).renewStamped x l).witherLine l)
          (fun s l => ((State.ownLine_form s x l).trans (State.renewStamped_form _ x l)).trans (State.witherLine_form _ l))
          (linesOf a bytes.length) _)
      exact h.trans (State.soil_form ..)
    · exact (((State.sendFlit_form s _).trans (State.writePoison_form ..)).trans
        (State.putBytes_form _ ..)).trans (KeepsForm.foldl _ (fun s l => State.witherLine_form s l) _ _)

/-- A store of a lane performed. -/
theorem State.performStore_form (s : State) (b : Nat) (p : PStore) : KeepsForm s (s.performStore b p) := by
  unfold State.performStore
  exact (State.writeMem_form s ..).trans (KeepsForm.foldl
    (fun s i => s.setLane b p.warp i ((s.lane b p.warp i).see p.addr p.bytes.length s.wcount)) (fun s i => KeepsForm.of_eq rfl rfl) _ _)

theorem State.drainIf_form (s : State) (b : Nat) (f : PStore → Bool) : KeepsForm s (s.drainIf b f) := by
  unfold State.drainIf
  dsimp only
  exact KeepsForm.trans (t := s.modBlk b _) (KeepsForm.of_eq rfl rfl) (KeepsForm.foldl _ (fun s p => State.performStore_form s b p) _ _)

theorem State.commit_form (s : State) (b : Nat) : KeepsForm s (s.commit b) := by
  unfold State.commit
  split
  · refine KeepsForm.trans (t := s.modBlk b _) (KeepsForm.of_eq rfl rfl) (KeepsForm.foldl _ (fun s p => State.performStore_form s b p) _ _)
  · exact KeepsForm.refl s

theorem State.releaseLane_form (s : State) (b w i : Nat) (sc : Scope) : KeepsForm s (s.releaseLane b w i sc) := by
  unfold State.releaseLane
  dsimp only
  split
  · exact (State.commit_form s b).trans (State.drainIf_form ..)
  · exact State.drainIf_form ..

theorem State.orderAt_form (s : State) (b w i ord : Nat) : KeepsForm s (s.orderAt b w i ord) := by
  unfold State.orderAt
  split
  · exact (State.commit_form s b).trans (State.drainIf_form ..)
  · exact KeepsForm.refl s

/-- One piece of a load. -/
theorem State.loadPiece_form (s : State) (b w i : Nat) (pl : Place) (n : Nat) : KeepsForm s (s.loadPiece b w i pl n).1 := by
  unfold State.loadPiece
  dsimp only
  exact (State.orderAt_form s b w i pl.ord).trans (KeepsForm.trans
    (State.touchRead_form _ (State.siteOf _ b) (State.asidOf _ b) pl.key pl.pa n) (KeepsForm.of_eq rfl rfl))

/-- A store that issues. -/
theorem State.emit_form (s : State) (b : Nat) (pl : Place) (p : PStore) : KeepsForm s (s.emit b pl p) := by
  have h : ∀ u : State, KeepsForm u (p.lanes.foldl (fun s i => s.orderAt b p.warp i pl.ord) u) :=
    fun u => KeepsForm.foldl _ (fun s i => State.orderAt_form s b p.warp i pl.ord) _ _
  unfold State.emit
  dsimp only
  generalize hv : (if pl.ord = 1 then s.commit b else s) = v
  have k : KeepsForm s v := by
    rw [← hv]
    split
    · exact State.commit_form s b
    · exact KeepsForm.refl s
  have k := k.trans (h v)
  split
  · exact k.trans (KeepsForm.of_eq rfl rfl)
  · split
    · exact (k.trans (State.commit_form _ b)).trans (State.performStore_form ..)
    · exact (k.trans (State.commit_form _ b)).trans (KeepsForm.of_eq rfl rfl)

/-- The host writes a half. -/
theorem State.hostStore_form (s : State) (line : Nat) (h : Half) (bytes : List Byte) : KeepsForm s (s.hostStore line h bytes) := by
  unfold State.hostStore
  dsimp only
  split
  · exact KeepsForm.refl s
  · refine KeepsForm.trans (KeepsForm.trans ?_ (State.putBytes_form _ _ _ _)) (State.witherLine_form _ _)
    exact ⟨fun x => ⟨x.1, Memory.wf_run _ _ _ x.2⟩⟩

theorem State.sendDirty_form (s : State) (l : Nat) : KeepsForm s (s.sendDirty l) :=
  (KeepsForm.ite ((s.hline l).h0 = .m) (State.sendHalf_form s _)).trans (KeepsForm.ite ((s.hline l).h1 = .m) (State.sendHalf_form _ _))

/-- Maintenance of a line. -/
theorem State.cleanLine_form (s : State) (site line : Nat) (sc : Scope) (drop : Bool) : KeepsForm s (s.cleanLine site line sc drop) := by
  unfold State.cleanLine
  dsimp only
  generalize hf : (fun n => n == site || sc != Scope.die) = f
  have h0 : KeepsForm s (if drop = true then ((s.writeBack line f).dropBad line f).dropStamped line f else s.writeBack line f) := by
    split
    · exact (State.writeBack_form ..).trans (KeepsForm.of_eq rfl rfl)
    · exact State.writeBack_form ..
  generalize (if drop = true then ((s.writeBack line f).dropBad line f).dropStamped line f else s.writeBack line f) = u at h0 ⊢
  split
  · exact (h0.trans (State.sendDirty_form ..)).setBridge _
  · exact h0

/-- The host's memory takes back a line. -/
theorem State.giveBack_form (s : State) (l : Nat) : KeepsForm s (s.giveBack l) :=
  (((State.writeBack_form s l fun _ => true).trans (State.dropBad_form _ l fun _ => true)).trans (State.sendDirty_form ..)).setBridge _

/-- A write of the package to host memory by PCIe. -/
theorem State.hostPut_form (s : State) (h : Nat) (bytes : List Byte) : KeepsForm s (s.hostPut h bytes) := by
  have k := KeepsForm.foldl State.giveBack State.giveBack_form (linesOf (0x8000000000000 + h) bytes.length) s
  unfold State.hostPut
  dsimp only
  split
  · refine KeepsForm.trans ⟨fun x => ?_⟩ (KeepsForm.foldl _ State.witherLine_form _ _)
    have y := ((k.trans (State.writePoison_form _ home 0 (0x8000000000000 + h) bytes.length false)).trans
      (State.putBytes_form _ 0 (0x8000000000000 + h) bytes)).keeps x
    exact ⟨y.1, Memory.wf_run _ _ _ (k.keeps x).2⟩
  · exact ⟨fun x => ⟨(k.keeps x).1, Memory.wf_run _ _ _ (k.keeps x).2⟩⟩

/-- The bytes of a loaded program. -/
theorem State.loadBytes_form (s : State) (xs : List (Nat × Byte)) : KeepsForm s (s.loadBytes xs) :=
  ⟨fun x => ⟨Memory.wf_foldl (fun _ (e : Nat × Byte) => e.1) (fun _ e => e.2) _ _ x.1, x.2⟩⟩

/-- Device memory written from outside. -/
theorem State.devWrite_form (s : State) (node : Nat → Nat) (a : Nat) (bytes : List Byte) : KeepsForm s (s.devWrite node a bytes) := by
  unfold State.devWrite
  exact KeepsForm.foldl _ (fun s h => State.writeMem_form s ..) _ _

/-- The memories at reset. -/
theorem State.reset_memWf : State.reset.memWf := ⟨rfl, rfl⟩

end Sys2Proof.Machine
end

