-- ==== Sys2Proof/Laws/Access.lean ====
section
/-! SUPPORT. What translation and fetching change: a translation fills the TLBs of its site, reads tables and uses up free values, a
fetch also reads its words; both are memory traffic, and neither touches a register, a block or the issue in progress. -/

namespace Sys2Proof.Machine

open Sys2Proof

/-- t is s but for memory traffic, which keeps the canonical form. -/
structure Fetches (s t : State) : Prop where
  traffic : Traffic s t
  form : KeepsForm s t

theorem Fetches.refl (s : State) : Fetches s s := ⟨rfl, KeepsForm.refl s⟩

theorem Fetches.trans {s t u : State} (h : Fetches s t) (k : Fetches t u) : Fetches s u :=
  ⟨h.traffic.trans k.traffic, h.form.trans k.form⟩

theorem Fetches.cur {s t : State} (h : Fetches s t) : t.cur = s.cur := h.traffic.cur
theorem Fetches.blocks {s t : State} (h : Fetches s t) : t.blocks = s.blocks := h.traffic.blocks
theorem Fetches.grids {s t : State} (h : Fetches s t) : t.grids = s.grids := h.traffic.grids
theorem Fetches.hostMem {s t : State} (h : Fetches s t) : t.hostMem = s.hostMem := h.traffic.hostMem

theorem Fetches.tick {s t : State} (h : Fetches s t) (n : Nat) : Fetches s { t with freeIx := n } := ⟨h.traffic, ⟨h.form.keeps⟩⟩

theorem Fetches.fold {β : Type} (f : State → β → State) (hf : ∀ s b, Fetches s (f s b)) (l : List β) (s : State) :
    Fetches s (l.foldl f s) := by
  induction l generalizing s with
  | nil => exact Fetches.refl s
  | cons b l ih => exact (hf s b).trans (ih _)

theorem State.fillTlb1_fetches (s : State) (site : Nat) (t : Tlb1) : Fetches s (s.fillTlb1 site t) := by
  unfold State.fillTlb1
  split <;> exact ⟨rfl, KeepsForm.of_eq rfl rfl⟩

theorem State.fillTlb2_fetches (s : State) (site : Nat) (t : Tlb2) : Fetches s (s.fillTlb2 site t) := by
  unfold State.fillTlb2
  split <;> exact ⟨rfl, KeepsForm.of_eq rfl rfl⟩

/-- The reads of a walk. -/
theorem State.touchWalk_fetches (s : State) (site asid : Nat) (reads : List Nat) : Fetches s (s.touchWalk site asid reads) := by
  unfold State.touchWalk
  refine Fetches.fold _ (fun s a => ?_) _ _
  split
  · exact ⟨State.bridgeRead_traffic .., State.bridgeRead_form ..⟩
  · exact ⟨State.logUnbacked_traffic .., State.logMc_form ..⟩
  · exact Fetches.refl s

/-- One address walked. -/
theorem State.walkVa_fetches (s : State) (site asid : Nat) (lv : Level) (kind : AccKind) (va : DWord) :
    Fetches s (s.walkVa site asid lv kind va).1 := by
  unfold State.walkVa
  split
  · split <;> exact Fetches.refl s
  · split
    · exact Fetches.refl s
    · dsimp only
      split
      · exact (State.touchWalk_fetches ..).tick _
      · exact (State.touchWalk_fetches ..).tick _
      · have h (reads1 reads2 : List Nat) (t : Tlb1) : Fetches s
            ((({ s.touchWalk site asid reads1 with freeIx := s.freeIx + 5 }).fillTlb1 site t).touchWalk site asid reads2) :=
          (((State.touchWalk_fetches s site asid reads1).tick _).trans (State.fillTlb1_fetches ..)).trans
            (State.touchWalk_fetches ..)
        split
        · exact (h ..).tick _
        · exact (h ..).tick _
        · exact ((h ..).tick _).trans (State.fillTlb2_fetches ..)

/-- One address translated and checked. -/
theorem State.xlate_fetches (s : State) (site asid : Nat) (lv : Level) (kind : AccKind) (user : Bool) (va : DWord) :
    Fetches s (s.xlate site asid lv kind user va).1 := by
  have h := State.walkVa_fetches s site asid lv kind va
  unfold State.xlate
  split
  · rename_i e; rw [e] at h; exact h
  · rename_i e
    rw [e] at h
    split <;> exact h

theorem Fetches.foldl {α β : Type} (f : State × α → β → State × α) (hf : ∀ x p, Fetches x.1 (f x p).1) (l : List β) (x : State × α) :
    Fetches x.1 (l.foldl f x).1 := by
  induction l generalizing x with
  | nil => exact Fetches.refl _
  | cons b l ih => exact (hf x b).trans (ih _)

/-- Every piece of an access translated and checked. -/
theorem State.xlatePieces_fetches (s : State) (site asid : Nat) (lv : Level) (kind : AccKind) (user : Bool) (a : DWord) (n : Nat) :
    Fetches s (s.xlatePieces site asid lv kind user a n).1 := by
  unfold State.xlatePieces
  dsimp only
  generalize hr : List.foldl _ (s, Except.ok []) (pieces a n) = r
  have k : Fetches s r.1 := by
    rw [← hr]
    refine Fetches.foldl (x := (s, Except.ok [])) _ (fun x p => ?_) _
    split
    · exact Fetches.refl _
    · have h := State.walkVa_fetches x.1 site asid lv kind (a + BitVec.ofNat 64 p.1)
      split <;> (rename_i e; rw [e] at h; exact h)
  obtain ⟨u, w⟩ := r
  cases w with
  | error e => exact k
  | ok ws =>
    dsimp only
    split <;> exact k

theorem State.xlateLane_fetches (s : State) (b : Nat) (lv : Level) (kind : AccKind) (a : DWord) (n : Nat) :
    Fetches s (s.xlateLane b lv kind a n).1 := State.xlatePieces_fetches s ..

/-- A fetch of one word. -/
theorem State.fetchWord_fetches (s : State) (site asid : Nat) (lv : Level) (pc : DWord) :
    Fetches s (s.fetchWord site asid lv pc).1 := by
  have h := State.xlate_fetches s site asid lv .fetch true pc
  unfold State.fetchWord
  split
  · rename_i e; rw [e] at h; exact h
  · rename_i u pl e
    rw [e] at h
    split
    · exact h
    · have k : Fetches s (u.touchRead site asid pl.key pl.pa 4) :=
        h.trans ⟨State.touchRead_traffic u site asid pl.key pl.pa 4, State.touchRead_form u site asid pl.key pl.pa 4⟩
      dsimp only
      split <;> exact k

/-- The words of an instruction are fetched: the issue in progress, the blocks and the grids stay. -/
theorem State.fetch_fetches (s : State) (site asid : Nat) (lv : Level) (pc : DWord) : Fetches s (s.fetch site asid lv pc).1 := by
  have h := State.fetchWord_fetches s site asid lv pc
  unfold State.fetch
  split
  · rename_i e; rw [e] at h; exact h
  · rename_i u w0 e
    rw [e] at h
    split
    · exact h
    · have k := h.trans (State.fetchWord_fetches u site asid lv (pc + 4))
      split
      · rename_i e; rw [e] at k; exact k
      · rename_i v w1 e
        rw [e] at k
        split
        · exact k
        · have m := k.trans (State.fetchWord_fetches v site asid lv (pc + 8))
          split <;> (rename_i e; rw [e] at m; exact m)

end Sys2Proof.Machine
end

