-- ==== Sys2Proof/Laws/Take.lean ====
section
/-! SUPPORT. What a lane holds after it takes the answer of an instruction that completes: the registers and predicates named,
flags, the PC, and nothing else (05 R107, R108, R114). -/

namespace Sys2Proof.Machine

open Sys2Proof

/-! ### Writes of several keys -/

theorem fold_fset_other {α : Type} [DecidableEq α] (d : α) (rs : List (Nat × α)) (m : FMap α) (k : Nat)
    (h : ∀ e ∈ rs, e.1 ≠ k) : fget d (rs.foldl (fun m e => fset d m e.1 e.2) m) k = fget d m k := by
  induction rs generalizing m with
  | nil => rfl
  | cons e rs ih =>
    rw [List.foldl_cons, ih _ fun e' he => h e' (List.mem_cons_of_mem _ he)]
    exact fget_fset_ne d m e.2 (h e (List.mem_cons_self ..))

theorem fold_fset_mem {α : Type} [DecidableEq α] (d : α) (rs : List (Nat × α)) (m : FMap α) (hn : (rs.map (·.1)).Nodup)
    (e : Nat × α) (he : e ∈ rs) : fget d (rs.foldl (fun m e => fset d m e.1 e.2) m) e.1 = e.2 := by
  induction rs generalizing m with
  | nil => exact absurd he List.not_mem_nil
  | cons f rs ih =>
    simp only [List.map_cons, List.nodup_cons] at hn
    rw [List.foldl_cons]
    rcases List.mem_cons.1 he with rfl | hm
    · rw [fold_fset_other]
      · exact fget_fset_same ..
      · intro e' he' heq
        exact hn.1 (heq ▸ List.mem_map_of_mem (f := (·.1)) he')
    · exact ih _ hn.2 hm

/-! ### Lane.write, Lane.land, Lane.countPos -/

theorem Lane.fold_putV (rs : List (Nat × RegVal)) (l : Lane) :
    rs.foldl (fun l e => l.putV e.1 e.2) l = { l with v := rs.foldl (fun m e => fset RegVal.zero m e.1 e.2) l.v } := by
  induction rs generalizing l with
  | nil => rfl
  | cons e rs ih => rw [List.foldl_cons, ih]; rfl

theorem Lane.fold_putP (ps : List (Nat × Bool)) (l : Lane) :
    ps.foldl (fun l e => l.putP e.1 e.2) l = { l with p := ps.foldl (fun m e => fset false m e.1 e.2) l.p } := by
  induction ps generalizing l with
  | nil => rfl
  | cons e rs ih => rw [List.foldl_cons, ih]; rfl

/-- A write changes registers and predicates only. -/
theorem Lane.write_eq (l : Lane) (rs : List (Nat × RegVal)) (ps : List (Nat × Bool)) :
    l.write rs ps = { l with v := rs.foldl (fun m e => fset RegVal.zero m e.1 e.2) l.v
                             p := ps.foldl (fun m e => fset false m e.1 e.2) l.p } := by
  unfold Lane.write
  simp only [Lane.fold_putV, Lane.fold_putP]

/-! ### Landing -/

/-- Registers, and predicates, after the results of a list have been written in order. -/
def vAll (due : List Pending) (v : FMap RegVal) : FMap RegVal :=
  due.foldl (fun v p => p.regs.foldl (fun m e => fset RegVal.zero m e.1 e.2) v) v
def pAll (due : List Pending) (x : FMap Bool) : FMap Bool :=
  due.foldl (fun x p => p.preds.foldl (fun m e => fset false m e.1 e.2) x) x

theorem Lane.fold_write (due : List Pending) (l : Lane) :
    due.foldl (fun l p => l.write p.regs p.preds) l = { l with v := vAll due l.v, p := pAll due l.p } := by
  induction due generalizing l with
  | nil => rfl
  | cons e due ih => rw [List.foldl_cons, ih, Lane.write_eq]; rfl

/-- Landing changes registers, predicates and the pending list only. -/
theorem Lane.land_eq (l : Lane) (d : Nat) :
    l.land d = { l with v := vAll (l.pending.filter fun p => p.dist ≤ d) l.v, p := pAll (l.pending.filter fun p => p.dist ≤ d) l.p
                        pending := l.pending.filter fun p => d < p.dist } := by
  unfold Lane.land
  simp only [Lane.fold_write]

theorem Lane.fold_land (ds : List Nat) (l : Lane) :
    ds.foldl Lane.land l = { l with v := (ds.foldl Lane.land l).v, p := (ds.foldl Lane.land l).p
                                    pending := l.pending.filter fun p => ds.all fun d => d < p.dist } := by
  induction ds generalizing l with
  | nil => simp only [List.foldl_nil, List.all_nil, List.filter_eq_self.2 (fun _ _ => rfl)]
  | cons d ds ih =>
    rw [List.foldl_cons, ih, Lane.land_eq]
    simp [List.filter_filter, Bool.and_comm]

theorem le_foldl_max (xs : List Pending) (m : Nat) : m ≤ xs.foldl (fun m p => max m p.dist) m ∧
    ∀ p ∈ xs, p.dist ≤ xs.foldl (fun m p => max m p.dist) m := by
  induction xs generalizing m with
  | nil => simp
  | cons x xs ih =>
    rw [List.foldl_cons]
    obtain ⟨h1, h2⟩ := ih (max m x.dist)
    refine ⟨by omega, ?_⟩
    intro p hp
    rcases List.mem_cons.1 hp with rfl | hp
    · omega
    · exact h2 p hp

theorem Lane.landAll_eq (l : Lane) : l.landAll = { l with v := l.landAll.v, p := l.landAll.p, pending := [] } := by
  have h : (l.pending.filter fun p => (upto 0 (l.pending.foldl (fun m p => max m p.dist) 0 + 1)).all fun d => d < p.dist) = [] := by
    rw [List.filter_eq_nil_iff]
    intro p hp
    have := (le_foldl_max l.pending 0).2 p hp
    intro h
    have := List.all_eq_true.1 h p.dist ((mem_upto ..).2 (by omega))
    simp at this
  have := Lane.fold_land (upto 0 (l.pending.foldl (fun m p => max m p.dist) 0 + 1)) l
  rw [h] at this
  exact this

/-- Counting a position brings results one nearer; none lands by itself. -/
theorem Lane.countPos_eq (l : Lane) : l.countPos = { l with pending := l.dueNext ++ l.later } := rfl

theorem fold_fset_congr {α : Type} [DecidableEq α] (d : α) (rs : List (Nat × α)) {m m' : FMap α} {k : Nat}
    (h : fget d m k = fget d m' k) :
    fget d (rs.foldl (fun m e => fset d m e.1 e.2) m) k = fget d (rs.foldl (fun m e => fset d m e.1 e.2) m') k := by
  induction rs generalizing m m' with
  | nil => exact h
  | cons e rs ih =>
    rw [List.foldl_cons, List.foldl_cons]
    apply ih
    by_cases hk : e.1 = k
    · subst hk; rw [fget_fset_same, fget_fset_same]
    · rw [fget_fset_ne d m e.2 hk, fget_fset_ne d m' e.2 hk, h]

theorem vAll_congr (due : List Pending) {v w : FMap RegVal} {k : Nat} (h : fget RegVal.zero v k = fget RegVal.zero w k) :
    fget RegVal.zero (vAll due v) k = fget RegVal.zero (vAll due w) k := by
  induction due generalizing v w with
  | nil => exact h
  | cons p due ih => exact ih (fold_fset_congr _ _ h)

theorem pAll_congr (due : List Pending) {v w : FMap Bool} {k : Nat} (h : fget false v k = fget false w k) :
    fget false (pAll due v) k = fget false (pAll due w) k := by
  induction due generalizing v w with
  | nil => exact h
  | cons p due ih => exact ih (fold_fset_congr _ _ h)

theorem vAll_other (due : List Pending) (v : FMap RegVal) (k : Nat) (h : ∀ p ∈ due, ∀ e ∈ p.regs, e.1 ≠ k) :
    fget RegVal.zero (vAll due v) k = fget RegVal.zero v k := by
  induction due generalizing v with
  | nil => rfl
  | cons p due ih =>
    show fget RegVal.zero (vAll due _) k = _
    rw [ih _ fun q hq => h q (List.mem_cons_of_mem _ hq), fold_fset_other _ _ _ _ (h p (List.mem_cons_self ..))]

theorem pAll_other (due : List Pending) (v : FMap Bool) (k : Nat) (h : ∀ p ∈ due, ∀ e ∈ p.preds, e.1 ≠ k) :
    fget false (pAll due v) k = fget false v k := by
  induction due generalizing v with
  | nil => rfl
  | cons p due ih =>
    show fget false (pAll due _) k = _
    rw [ih _ fun q hq => h q (List.mem_cons_of_mem _ hq), fold_fset_other _ _ _ _ (h p (List.mem_cons_self ..))]

/-- The distance does not matter to what a result writes. -/
theorem vAll_near (ps : List Pending) (n : Nat) (v : FMap RegVal) : vAll (ps.map fun p => { p with dist := n }) v = vAll ps v := by
  unfold vAll; rw [List.foldl_map]
theorem pAll_near (ps : List Pending) (n : Nat) (v : FMap Bool) : pAll (ps.map fun p => { p with dist := n }) v = pAll ps v := by
  unfold pAll; rw [List.foldl_map]
theorem vAll_append (xs ys : List Pending) (v : FMap RegVal) : vAll (xs ++ ys) v = vAll ys (vAll xs v) := List.foldl_append
theorem pAll_append (xs ys : List Pending) (v : FMap Bool) : pAll (xs ++ ys) v = pAll ys (pAll xs v) := List.foldl_append

theorem Lane.dist_dueNext {l : Lane} {p : Pending} (h : p ∈ l.dueNext) : p.dist = 0 := by
  rcases List.mem_append.1 h with h | h
  · simpa using (List.mem_filter.1 h).2
  · obtain ⟨q, -, rfl⟩ := List.mem_map.1 h; rfl

theorem Lane.dist_later {l : Lane} {p : Pending} (h : p ∈ l.later) : 0 < p.dist := by
  obtain ⟨q, hq, rfl⟩ := List.mem_map.1 h
  have := (List.mem_filter.1 hq).2
  simp only [decide_eq_true_eq] at this
  show 0 < q.dist - 1
  omega

theorem filter_due (l : Lane) (xs : List Pending) (hx : ∀ p ∈ xs, p.dist = 0) :
    (l.dueNext ++ xs ++ l.later).filter (fun p => p.dist ≤ 0) = l.dueNext ++ xs ∧
    (l.dueNext ++ xs ++ l.later).filter (fun p => 0 < p.dist) = l.later := by
  have h1 : ∀ p ∈ l.dueNext ++ xs, p.dist = 0 := fun p hp => (List.mem_append.1 hp).elim Lane.dist_dueNext (hx p)
  constructor
  · rw [List.filter_append, List.filter_eq_self.2 (fun p hp => by simp [h1 p hp]),
      List.filter_eq_nil_iff.2 (fun p hp => by have := Lane.dist_later hp; simp; omega), List.append_nil]
  · rw [List.filter_append, List.filter_eq_nil_iff.2 (fun p hp => by simp [h1 p hp]),
      List.filter_eq_self.2 (fun p hp => by simpa using Lane.dist_later hp), List.nil_append]

/-- What a lane's registers hold when the results due at its next position have landed. -/
theorem Lane.ahead_eq (l : Lane) : l.ahead = { l with v := vAll l.dueNext l.v, p := pAll l.dueNext l.p
                                                      pending := l.pending.filter fun p => 1 < p.dist } := by
  unfold Lane.ahead
  rw [Lane.land_eq, Lane.land_eq]
  have h0 : (l.pending.filter fun p => decide (p.dist ≤ 0)) = l.pending.filter fun p => p.dist == 0 := by
    exact List.filter_congr fun p _ => by rw [Bool.eq_iff_iff]; simp
  have h1 : ((l.pending.filter fun p => decide (0 < p.dist)).filter fun p => decide (p.dist ≤ 1)) = l.pending.filter fun p => p.dist == 1 := by
    rw [List.filter_filter]; congr 1; funext p; rw [Bool.eq_iff_iff]; simp <;> omega
  have h2 : ((l.pending.filter fun p => decide (0 < p.dist)).filter fun p => decide (1 < p.dist)) = l.pending.filter fun p => 1 < p.dist := by
    rw [List.filter_filter]; congr 1; funext p; rw [Bool.eq_iff_iff]; simp <;> omega
  simp only [h0, h1, h2, Lane.dueNext, vAll_append, pAll_append, vAll_near, pAll_near]

/-! ### Register and predicate names of a level -/

theorem vKey_inj {l : Level} {a b : Nat} (h : vKey l a = vKey l b) : a = b := by
  unfold vKey at h; split at h <;> split at h <;> omega

theorem pKey_inj {l : Level} {a b : Nat} (ha : a < 7) (hb : b < 7) (h : pKey l a = pKey l b) : a = b := by
  unfold pKey at h; split at h <;> split at h <;> omega

theorem Lane.regKeys_map (l : Lane) (rs : List (Nat × RegVal)) : (l.regKeys rs).map (·.1) = rs.map fun e => vKey l.level e.1 := by
  simp [Lane.regKeys, List.map_map, Function.comp_def]

/-! ### A lane that completes -/

theorem Lane.rv_eq (l : Lane) (n : Nat) : l.rv n = fget RegVal.zero l.v (vKey l.level n) := rfl

/-- What an answer gives, in the terms of claims. -/
def Out1.gives (l : Lane) (o : Out1) : Gives :=
  { regs := o.regs, preds := o.preds, flags := o.flags, rngs := o.rngs.getD l.rngs, src := o.src }

/-- The move of the PC and of the progress. -/
theorem Lane.advance_eq (m : Lane) (g : Grid) (c : Issue) : m.advance g c = { m with
    pc := if c.rep ≤ m.prog + 1 then c.next else m.pc
    prog := if c.rep ≤ m.prog + 1 then 0 else m.prog + 1
    prio := if c.rep ≤ m.prog + 1 ∧ m.level = .u then g.prioAt c.next else m.prio } := by
  unfold Lane.advance Lane.goto
  by_cases h : c.rep ≤ m.prog + 1
  · by_cases h2 : m.level = .u <;> simp [h, h2]
  · simp [h]

/-- A completing short-latency instruction: the lane takes exactly what the answer gives. -/
theorem Lane.take_ok (s : State) (l : Lane) (o : Out1) (hr : (o.regs.map (·.1)).Nodup)
    (hp : ((l.predKeys o.preds).map (·.1)).Nodup) :
    Took s l (l.take (s.gridOf s.cur.blk) s.cur none (.ok o)) (o.gives l) := by
  have hk : ((l.regKeys o.regs).map (·.1)).Nodup := by
    rw [Lane.regKeys_map]
    have : (o.regs.map fun e => vKey l.level e.1) = (o.regs.map (·.1)).map (vKey l.level) := by simp [Function.comp_def]
    rw [this]
    exact List.Pairwise.map _ (fun a b h e => h (vKey_inj e)) hr
  have hp' : ∀ k, (∀ e ∈ o.preds, e.1 ≠ 7 → pKey l.level e.1 ≠ k) → ∀ e ∈ l.predKeys o.preds, e.1 ≠ k := by
    intro k h e he
    obtain ⟨e', he', rfl⟩ := List.mem_map.1 he
    obtain ⟨h1, h2⟩ := List.mem_filter.1 he'
    exact h e' h1 (by simpa using h2)
  have hr' : ∀ k, (∀ e ∈ o.regs, vKey l.level e.1 ≠ k) → ∀ e ∈ l.regKeys o.regs, e.1 ≠ k := by
    intro k h e he
    obtain ⟨e', he', rfl⟩ := List.mem_map.1 he
    exact h e' he'
  have hmr : ∀ e ∈ o.regs, (vKey l.level e.1, e.2) ∈ l.regKeys o.regs := fun e he => List.mem_map.2 ⟨e, he, rfl⟩
  have hmp : ∀ e ∈ o.preds, e.1 ≠ 7 → (pKey l.level e.1, e.2) ∈ l.predKeys o.preds := fun e he h7 =>
    List.mem_map.2 ⟨e, List.mem_filter.2 ⟨he, by simpa using h7⟩, rfl⟩
  have htake : l.take (s.gridOf s.cur.blk) s.cur none (.ok o) = (l.finish none o).advance (s.gridOf s.cur.blk) s.cur := rfl
  have hc : (l.countPos.pending.any fun p => p.meets ((l.regKeys o.regs).map (·.1)) ((l.predKeys o.preds).map (·.1))) =
      (l.dueNext.any fun p => p.meets ((l.regKeys o.regs).map (·.1)) ((l.predKeys o.preds).map (·.1))) := by
    show ((l.dueNext ++ l.later).any _) = _
    rw [List.any_append]
    have : (l.later.any fun p => p.meets ((l.regKeys o.regs).map (·.1)) ((l.predKeys o.preds).map (·.1))) = false := by
      rw [List.any_eq_false]
      intro p hp
      have := Lane.dist_later hp
      simp [Pending.meets]; omega
    rw [this, Bool.or_false]
  have ha := Lane.ahead_eq l
  by_cases hd : (l.dueNext.any fun p => p.meets ((l.regKeys o.regs).map (·.1)) ((l.predKeys o.preds).map (·.1))) = true
  · have hfin : l.finish none o = { l with
        pending := l.dueNext ++ [{ dist := 0, regs := l.regKeys o.regs, preds := l.predKeys o.preds, src := o.src }] ++ l.later
        flags := l.flags ||| BitVec.ofNat 32 o.flags
        rngs := o.rngs.getD l.rngs } := by
      unfold Lane.finish Lane.result
      simp only [hc, hd, if_true]
      have h1 := (filter_due l [] (by simp)).1
      have h2 := (filter_due l [] (by simp)).2
      simp only [List.append_nil] at h1 h2
      have e1 : ((l.dueNext ++ l.later).filter fun p => p.dist == 0) = l.dueNext := by
        exact (List.filter_congr fun p _ => by rw [Bool.eq_iff_iff]; simp).trans h1
      have e2 : ((l.dueNext ++ l.later).filter fun p => p.dist != 0) = l.later := by
        exact (List.filter_congr fun p _ => by rw [Bool.eq_iff_iff]; simp <;> omega).trans h2
      unfold Lane.owe
      rw [Lane.countPos_eq]
      simp only [e1, e2]
      cases o.rngs <;> simp
    rw [htake, hfin, Lane.advance_eq]
    have hf := filter_due l [{ dist := 0, regs := l.regKeys o.regs, preds := l.predKeys o.preds, src := o.src }] (by simp)
    constructor
    · intro e he
      rw [Lane.rv_eq, Lane.land_eq]
      simp only [hf.1, vAll_append]
      exact fold_fset_mem RegVal.zero _ _ hk (vKey l.level e.1, e.2) (hmr e he)
    · intro k hk'
      rw [Lane.land_eq, ha]
      simp only [hf.1, vAll_append]
      exact fold_fset_other RegVal.zero _ _ k (hr' k hk')
    · intro e he h7
      rw [Lane.land_eq]
      unfold Lane.rp
      rw [if_neg h7]
      simp only [hf.1, pAll_append]
      exact fold_fset_mem false _ _ hp (pKey l.level e.1, e.2) (hmp e he h7)
    · intro k hk'
      rw [Lane.land_eq, ha]
      simp only [hf.1, pAll_append]
      exact fold_fset_other false _ _ k (hp' k hk')
    · intro h; rw [h] at hd; exact absurd hd (by simp)
    · rfl
    · rfl
    · rfl
    · rfl
    · rfl
    · rw [Lane.land_eq]; exact hf.2
    · rfl
  · have hfin : l.finish none o = { l with
        v := (l.regKeys o.regs).foldl (fun m e => fset RegVal.zero m e.1 e.2) l.v
        p := (l.predKeys o.preds).foldl (fun m e => fset false m e.1 e.2) l.p
        pending := l.dueNext ++ l.later
        flags := l.flags ||| BitVec.ofNat 32 o.flags
        rngs := o.rngs.getD l.rngs } := by
      unfold Lane.finish Lane.result
      simp only [Lane.countPos_eq, List.any_append] at hc ⊢
      rw [if_neg (by rw [hc]; exact hd), Lane.write_eq]
      cases o.rngs <;> rfl
    have hmeet : ∀ q ∈ l.dueNext, (∀ e ∈ q.regs, ∀ x ∈ l.regKeys o.regs, e.1 ≠ x.1) ∧ ∀ e ∈ q.preds, ∀ x ∈ l.predKeys o.preds, e.1 ≠ x.1 := by
      intro q hq
      have h := List.any_eq_false.1 (Bool.not_eq_true _ ▸ hd) q hq
      simp only [Pending.meets, Lane.dist_dueNext hq] at h
      simp at h
      constructor
      · intro e he x hx heq
        exact h.1 e.1 e.2 he x.2 (by rw [heq]; exact hx)
      · intro e he x hx heq
        have he' : (e.1, e.2) ∈ q.preds := he
        have hx' : (e.1, x.2) ∈ l.predKeys o.preds := by rw [heq]; exact hx
        have hn := h.2 e.1 (by cases hb : e.2 <;> rw [hb] at he' <;> simp [he'])
        cases hb : x.2 <;> rw [hb] at hx'
        · exact hn.1 hx'
        · exact hn.2 hx'
    rw [htake, hfin, Lane.advance_eq]
    have hf := filter_due l [] (by simp)
    simp only [List.append_nil] at hf
    constructor
    · intro e he
      rw [Lane.rv_eq, Lane.land_eq]
      simp only [hf.1]
      rw [vAll_other _ _ _ fun q hq x hx heq => (hmeet q hq).1 x hx _ (hmr e he) heq]
      exact fold_fset_mem RegVal.zero _ _ hk (vKey l.level e.1, e.2) (hmr e he)
    · intro k hk'
      rw [Lane.land_eq, ha]
      simp only [hf.1]
      exact vAll_congr _ (fold_fset_other RegVal.zero _ _ k (hr' k hk'))
    · intro e he h7
      rw [Lane.land_eq]
      unfold Lane.rp
      rw [if_neg h7]
      simp only [hf.1]
      refine Eq.trans (pAll_other _ _ _ fun q hq x hx heq => (hmeet q hq).2 x hx _ (hmp e he h7) heq) ?_
      exact fold_fset_mem false _ _ hp (pKey l.level e.1, e.2) (hmp e he h7)
    · intro k hk'
      rw [Lane.land_eq, ha]
      simp only [hf.1]
      exact pAll_congr _ (fold_fset_other false _ _ k (hp' k hk'))
    · intro h
      rw [Lane.land_eq]
      simp only [hf.1]
      rw [h]
      exact ⟨rfl, rfl⟩
    · rfl
    · rfl
    · rfl
    · rfl
    · rfl
    · rw [Lane.land_eq]; exact hf.2
    · rfl

/-- A completing long-latency instruction: the result waits for its landing point. -/
theorem Lane.take_later (s : State) (l : Lane) (la : Nat) (o : Out1) :
    TookLater s l (l.take (s.gridOf s.cur.blk) s.cur (some la) (.ok o)) la (o.gives l) := by
  have hx : (if l.regKeys o.regs = [] ∧ l.predKeys o.preds = [] then ([] : List Pending)
      else [{ dist := la, regs := l.regKeys o.regs, preds := l.predKeys o.preds, src := o.src }]) = (o.gives l).pending l la := by
    unfold Gives.pending
    have : (l.regKeys o.regs = [] ∧ l.predKeys o.preds = []) ↔ (o.regs = [] ∧ o.preds.filter (fun e => e.1 != 7) = []) := by
      simp only [Lane.regKeys, Lane.predKeys, List.map_eq_nil_iff]
    by_cases h : o.regs = [] ∧ o.preds.filter (fun e => e.1 != 7) = []
    · rw [if_pos (this.2 h)]; exact (if_pos h).symm
    · rw [if_neg (fun k => h (this.1 k))]; exact (if_neg h).symm
  have hf := filter_due l [] (by simp)
  simp only [List.append_nil] at hf
  have e1 : ((l.dueNext ++ l.later).filter fun p => p.dist == 0) = l.dueNext := by
    exact (List.filter_congr fun p _ => by rw [Bool.eq_iff_iff]; simp).trans hf.1
  have e2 : ((l.dueNext ++ l.later).filter fun p => p.dist != 0) = l.later := by
    exact (List.filter_congr fun p _ => by rw [Bool.eq_iff_iff]; simp <;> omega).trans hf.2
  have hres : l.result (some la) o.regs o.preds o.src = { l with
      pending := if la = 0 then l.dueNext ++ (o.gives l).pending l 0 ++ l.later else l.dueNext ++ l.later ++ (o.gives l).pending l la } := by
    unfold Lane.result
    by_cases h : l.regKeys o.regs = [] ∧ l.predKeys o.preds = []
    · rw [if_pos h] at hx
      have h0 : (o.gives l).pending l 0 = [] := by
        unfold Gives.pending at hx ⊢
        by_cases hn : (o.gives l).regs = [] ∧ (o.gives l).preds.filter (fun e => e.1 != 7) = []
        · exact if_pos hn
        · rw [if_neg hn] at hx; exact absurd hx (by simp)
      simp only [h.1, h.2, ← hx, h0, Lane.countPos_eq]
      simp
    · have h' : ¬ ((decide (l.regKeys o.regs = []) && decide (l.predKeys o.preds = [])) = true) := by simpa using h
      rw [if_neg h] at hx
      by_cases h0 : la = 0
      · subst h0
        simp only [if_neg h', if_true, Lane.owe, Lane.countPos_eq, e1, e2, ← hx]
        simp
      · simp only [if_neg h', if_neg h0, Lane.countPos_eq, ← hx]
  have hfin : l.finish (some la) o = { l with
      pending := if la = 0 then l.dueNext ++ (o.gives l).pending l 0 ++ l.later else l.dueNext ++ l.later ++ (o.gives l).pending l la
      flags := l.flags ||| BitVec.ofNat 32 o.flags
      rngs := o.rngs.getD l.rngs } := by
    unfold Lane.finish
    simp only [hres]
    cases o.rngs <;> rfl
  have htake : l.take (s.gridOf s.cur.blk) s.cur (some la) (.ok o) = (l.finish (some la) o).advance (s.gridOf s.cur.blk) s.cur := rfl
  rw [htake, hfin, Lane.advance_eq]
  constructor <;> rfl

/-- A lane-class instruction over its own lanes, long-latency. -/
theorem lanesRunLater_of (s : State) (i : Instr) (vs ss : List Nat) (g : Guard) (la : Nat) (f : Lane → Ans) (give : Lane → Gives)
    (he : exec i s = .next (s.laneOp vs ss g (some la) f)) (hok : s.laneOk vs ss = true) (hn : s.cur.lanes.Nodup)
    (hf : ∀ n ∈ s.cur.lanes, (s.cl n).guard g = true → ∃ o : Out1, f (s.cl n) = .ok o ∧ o.gives (s.cl n) = give (s.cl n)) :
    LanesRunLater s i g la give := by
  obtain ⟨h1, h2⟩ := State.laneOp_quiet s vs ss g (some la) f hok hn (by
    intro n hn hg; obtain ⟨o, ho, -⟩ := hf n hn hg; rw [ho]; rfl)
  refine ⟨_, he, h1, fun key a => h1.byteAt key a, ?_⟩
  intro n hn
  rw [h2 n hn]
  by_cases hg : (s.cl n).guard g = true
  · obtain ⟨o, ho, hgive⟩ := hf n hn hg
    rw [if_pos hg, if_pos hg, ho]
    show TookLater s _ _ la (give (s.cl n))
    rw [← hgive]
    exact Lane.take_later s _ la o
  · rw [if_neg hg, if_neg hg]
    exact Lane.take_later s _ la Out1.none

/-- A lane-class instruction over its own lanes that gives each executing lane what `give` says completes. -/
theorem lanesRunI_of (s : State) (i : Instr) (vs ss : List Nat) (g : Guard) (f : Nat → Lane → Ans) (give : Nat → Lane → Gives)
    (he : exec i s = .next (s.laneOpI vs ss g none f)) (hok : s.laneOk vs ss = true) (hn : s.cur.lanes.Nodup)
    (hf : ∀ n ∈ s.cur.lanes, (s.cl n).guard g = true → ∃ o : Out1, f n (s.cl n) = .ok o ∧ o.gives (s.cl n) = give n (s.cl n) ∧
      (o.regs.map (·.1)).Nodup ∧ (((s.cl n).predKeys o.preds).map (·.1)).Nodup) : LanesRunI s i g give := by
  obtain ⟨h1, h2⟩ := State.laneOpI_quiet s vs ss g none f hok hn (by
    intro n hn hg; obtain ⟨o, ho, -⟩ := hf n hn hg; rw [ho]; rfl)
  refine ⟨_, he, h1, fun key a => h1.byteAt key a, ?_⟩
  intro n hn
  rw [h2 n hn]
  by_cases hg : (s.cl n).guard g = true
  · obtain ⟨o, ho, hgive, hr, hp⟩ := hf n hn hg
    rw [if_pos hg, if_pos hg, ho, ← hgive]
    exact Lane.take_ok s _ o hr hp
  · rw [if_neg hg, if_neg hg]
    exact Lane.take_ok s _ Out1.none List.nodup_nil List.nodup_nil

/-- `lanesRunI_of` where nothing depends on the lane's number. -/
theorem lanesRun_of (s : State) (i : Instr) (vs ss : List Nat) (g : Guard) (f : Lane → Ans) (give : Lane → Gives)
    (he : exec i s = .next (s.laneOp vs ss g none f)) (hok : s.laneOk vs ss = true) (hn : s.cur.lanes.Nodup)
    (hf : ∀ n ∈ s.cur.lanes, (s.cl n).guard g = true → ∃ o : Out1, f (s.cl n) = .ok o ∧ o.gives (s.cl n) = give (s.cl n) ∧
      (o.regs.map (·.1)).Nodup ∧ (((s.cl n).predKeys o.preds).map (·.1)).Nodup) : LanesRun s i g give :=
  lanesRunI_of s i vs ss g (fun _ l => f l) (fun _ l => give l) he hok hn hf

end Sys2Proof.Machine
end

