-- ==== Sys2Proof/Laws/Traps.lean ====
section
/-! SUPPORT. What performing stores leaves of lanes, and the entry of a cohort (19 R342 to R345). -/

namespace Sys2Proof.Machine

open Sys2Proof

/-- t is s as far as lanes go, but for what the lanes have seen. -/
structure SeenOnly (s t : State) : Prop where
  lane : ∀ b w i, { t.lane b w i with seen := (s.lane b w i).seen } = s.lane b w i
  uni : ∀ b w, { t.warp b w with lanes := (s.warp b w).lanes } = s.warp b w
  blk : ∀ b, (t.blk b).grid = (s.blk b).grid ∧ (t.blk b).phase = (s.blk b).phase
  grids : t.grids = s.grids
  cur : t.cur = s.cur
  keys : ∀ b w i, i ∈ fkeys (s.warp b w).lanes → i ∈ fkeys (t.warp b w).lanes

theorem SeenOnly.refl (s : State) : SeenOnly s s := ⟨fun _ _ _ => rfl, fun _ _ => rfl, fun _ => ⟨rfl, rfl⟩, rfl, rfl, fun _ _ _ h => h⟩

theorem SeenOnly.trans {s t u : State} (h : SeenOnly s t) (k : SeenOnly t u) : SeenOnly s u := by
  refine ⟨fun b w i => ?_, fun b w => ?_, fun b => ?_, k.grids.trans h.grids, k.cur.trans h.cur, fun b w i x => k.keys b w i (h.keys b w i x)⟩
  · have a := h.lane b w i; have c := k.lane b w i
    rw [← a]; rw [← c]
  · have a := h.uni b w; have c := k.uni b w
    rw [← a]; rw [← c]
  · exact ⟨(k.blk b).1.trans (h.blk b).1, (k.blk b).2.trans (h.blk b).2⟩

theorem Traffic.seenOnly {s t : State} (h : Traffic s t) : SeenOnly s t := by
  have e : t.blocks = s.blocks := h.blocks
  refine ⟨fun b w i => ?_, fun b w => ?_, fun b => ?_, h.grids, h.cur, fun b w i x => ?_⟩ <;>
    simp_all [State.lane, State.warp, State.blk]

theorem fkeys_fput {α : Type} (m : FMap α) (k j : Nat) (x : α) (h : j ∈ fkeys m) : j ∈ fkeys (fput m k x) := by
  induction m with
  | nil => exact absurd h List.not_mem_nil
  | cons e r ih =>
    obtain ⟨k', y⟩ := e
    simp only [fkeys, List.map_cons, List.mem_cons] at h
    simp only [fput]
    split
    · simp only [fkeys, List.map_cons, List.mem_cons]; exact .inr h
    · split
      · subst k'; simp only [fkeys, List.map_cons, List.mem_cons]; exact h
      · simp only [fkeys, List.map_cons, List.mem_cons]
        rcases h with h | h
        · exact .inl h
        · exact .inr (ih h)

theorem fkeys_fput_self {α : Type} (m : FMap α) (k : Nat) (x : α) : k ∈ fkeys (fput m k x) := by
  induction m with
  | nil => simp [fput, fkeys]
  | cons e r ih =>
    obtain ⟨k', y⟩ := e
    simp only [fput]
    split
    · simp [fkeys]
    · split
      · simp [fkeys]
      · simp only [fkeys, List.map_cons, List.mem_cons]; exact .inr ih

/-- A key that a map does not list reads as the default. -/
theorem fget_not_mem {α : Type} (d : α) (m : FMap α) (k : Nat) (h : k ∉ fkeys m) : fget d m k = d := by
  induction m with
  | nil => rfl
  | cons e r ih =>
    obtain ⟨k', y⟩ := e
    simp only [fkeys, List.map_cons, List.mem_cons, not_or] at h
    simp only [fget]
    rw [if_neg (fun e => h.1 e.symm)]
    exact ih h.2

/-- A block changed in its lists only. -/
theorem State.modBlk_seenOnly (s : State) (b : Nat) (f : Block → Block) (hw : (f (s.blk b)).warps = (s.blk b).warps)
    (hg : (f (s.blk b)).grid = (s.blk b).grid) (hp : (f (s.blk b)).phase = (s.blk b).phase) : SeenOnly s (s.modBlk b f) := by
  have e : ∀ c, ((s.modBlk b f).blk c).warps = (s.blk c).warps ∧ ((s.modBlk b f).blk c).grid = (s.blk c).grid ∧
      ((s.modBlk b f).blk c).phase = (s.blk c).phase := by
    intro c
    simp only [State.modBlk, State.blk_setBlk]
    split
    · subst c; exact ⟨hw, hg, hp⟩
    · exact ⟨rfl, rfl, rfl⟩
  refine ⟨fun c w i => ?_, fun c w => ?_, fun c => (e c).2, rfl, rfl, fun c w i x => ?_⟩
  · simp [State.lane, State.warp, Block.warp, (e c).1]
  · simp [State.warp, Block.warp, (e c).1]
  · simpa [State.warp, Block.warp, (e c).1] using x

theorem State.setLane_seen (s : State) (b w i : Nat) (x : Lane) (h : { x with seen := (s.lane b w i).seen } = s.lane b w i) :
    SeenOnly s (s.setLane b w i x) := by
  refine ⟨fun c v j => ?_, fun c v => ?_, fun c => ?_, rfl, rfl, fun c v j hj => ?_⟩
  · rw [State.lane_setLane]
    split
    · rename_i hc; obtain ⟨rfl, rfl, rfl⟩ := hc; exact h
    · rfl
  · simp only [State.setLane, State.warp_setWarp]
    split
    · rename_i hc; obtain ⟨rfl, rfl⟩ := hc; rfl
    · rfl
  · simp only [State.setLane, State.setWarp, State.blk_setBlk]
    split
    · subst c; exact ⟨rfl, rfl⟩
    · exact ⟨rfl, rfl⟩
  · simp only [State.setLane, State.warp_setWarp]
    split
    · rename_i hc; obtain ⟨rfl, rfl⟩ := hc; exact fkeys_fput _ _ _ _ hj
    · exact hj

theorem SeenOnly.foldl {β : Type} (f : State → β → State) (hf : ∀ s x, SeenOnly s (f s x)) (l : List β) (s : State) :
    SeenOnly s (l.foldl f s) := by
  induction l generalizing s with
  | nil => exact SeenOnly.refl s
  | cons b l ih => exact (hf s b).trans (ih _)

theorem State.performStore_seenOnly (s : State) (b : Nat) (p : PStore) : SeenOnly s (s.performStore b p) := by
  unfold State.performStore
  exact (State.writeMem_traffic s (s.blk b).site (s.gridOf b).asid p.key p.addr p.bytes p.poison).seenOnly.trans
    (SeenOnly.foldl (fun s i => s.setLane b p.warp i ((s.lane b p.warp i).see p.addr p.bytes.length s.wcount))
      (fun s i => State.setLane_seen _ _ _ _ _ rfl) _ _)

theorem State.drainIf_seenOnly (s : State) (b : Nat) (f : PStore → Bool) : SeenOnly s (s.drainIf b f) := by
  unfold State.drainIf
  dsimp only
  exact (State.modBlk_seenOnly s b _ rfl rfl rfl).trans (SeenOnly.foldl _ (fun s p => State.performStore_seenOnly s b p) _ _)

theorem State.drainLane_seenOnly (s : State) (b w i : Nat) : SeenOnly s (s.drainLane b w i) := State.drainIf_seenOnly ..

theorem State.drainBlock_seenOnly (s : State) (b : Nat) : SeenOnly s (s.drainBlock b) := State.drainIf_seenOnly ..

theorem State.commit_seenOnly (s : State) (b : Nat) : SeenOnly s (s.commit b) := by
  unfold State.commit
  split
  · exact (State.modBlk_seenOnly s b _ rfl rfl rfl).trans (SeenOnly.foldl _ (fun s p => State.performStore_seenOnly s b p) _ _)
  · exact SeenOnly.refl s

theorem State.releaseLane_seenOnly (s : State) (b w i : Nat) (sc : Scope) : SeenOnly s (s.releaseLane b w i sc) := by
  unfold State.releaseLane
  dsimp only
  split
  · exact (State.commit_seenOnly s b).trans (State.drainLane_seenOnly ..)
  · exact State.drainLane_seenOnly ..

/-- A lane of the live list. -/
theorem Warp.mem_live (w : Warp) (i : Nat) : i ∈ w.live ↔ (w.lane i).occ = .live := by
  unfold Warp.live
  rw [List.mem_filter]
  constructor
  · intro h; simpa using h.2
  · intro h
    refine ⟨?_, by simpa using h⟩
    refine Decidable.byContradiction fun hn => ?_
    have e : w.lane i = Lane.empty := fget_not_mem _ _ _ hn
    rw [e] at h
    exact absurd h (by decide)

/-! ### Held scratchpad stores -/

/-- A block's lines hold a scratchpad store of a lane that is not applied. -/
def Block.owes (k : Block) (b w i : Nat) : Bool := k.lines.any fun e => e.2.any fun op => match op with
  | .store x y z _ _ _ => x == b && y == w && z == i
  | _ => false

/-- Some block's lines hold one of its stores. -/
theorem State.heldScratch_iff (s : State) (b w i : Nat) : s.heldScratch b w i = true ↔ ∃ c, (s.blk c).owes b w i = true := by
  unfold State.heldScratch
  rw [List.any_eq_true]
  constructor
  · rintro ⟨c, -, h⟩; exact ⟨c, h⟩
  · rintro ⟨c, h⟩
    refine ⟨c, ?_, h⟩
    refine Decidable.byContradiction fun hn => ?_
    have e : s.blk c = Block.absent := fget_not_mem _ _ _ hn
    rw [e] at h
    exact absurd h (by simp [Block.owes, Block.absent])

/-- Held stores depend on the blocks' lines alone. -/
theorem State.heldScratch_congr {s t : State} (h : ∀ c, (t.blk c).lines = (s.blk c).lines) (b w i : Nat) :
    t.heldScratch b w i = s.heldScratch b w i := by
  rw [Bool.eq_iff_iff, State.heldScratch_iff, State.heldScratch_iff]
  simp only [Block.owes, h]

/-! ### Entry of a cohort -/

theorem targetLevel_eq (d : DWord) (c : Nat) (l : Level) : trapTarget d c l = targetLevel d c l := by
  unfold trapTarget targetLevel Level.max
  cases l <;> cases d.getLsbD c <;> rfl

theorem targetLevel_ne_u (d : DWord) (c : Nat) (l : Level) : targetLevel d c l ≠ .u := by
  unfold targetLevel; cases l <;> cases d.getLsbD c <;> simp

/-- A free frame takes the trap as it is. -/
theorem Lane.route_free (l : Lane) (d : DWord) (c : Nat) (v : DWord) (T : Level) (ht : T = targetLevel d c l.level)
    (h : (l.frame T).nest = false ∧ l.ncnt ≠ 255 ∧ (l.frame T).vec ≠ 0) : l.route d c v = some (c, v, T) := by
  obtain ⟨h1, h2, h3⟩ := h
  unfold Lane.route
  rw [targetLevel_eq, ← ht]
  have hf : l.frameFull T = false := by simp [Lane.frameFull, h1, h2]
  simp only [hf, Bool.false_eq_true, if_false, Option.bind_some]
  rw [if_neg h3]

/-- The raises of lanes es with one cause at one XEPC. -/
def raises (es : List Nat) (cause : Nat) (val : Nat → DWord) (epc : DWord) (pi ex : Nat) : List Raise :=
  es.map fun n => { lane := n, cause := cause, val := val n, epc := epc, pi := pi, exec := ex }

theorem fold_min_mem {α : Type} (f : α → α → α) (hf : ∀ a b, f a b = a ∨ f a b = b) (l : List α) (a : α) :
    l.foldl f a = a ∨ l.foldl f a ∈ l := by
  induction l generalizing a with
  | nil => exact .inl rfl
  | cons b l ih =>
    rw [List.foldl_cons]
    rcases ih (f a b) with h | h
    · rcases hf a b with g | g
      · rw [h, g]; exact .inl rfl
      · rw [h, g]; exact .inr (List.mem_cons_self ..)
    · exact .inr (List.mem_cons_of_mem _ h)

/-- Raises from one point with one cause and XEPC form one cohort. -/
theorem State.firstCohort_all (s : State) (b w : Nat) (es : List Nat) (cause : Nat) (val : Nat → DWord) (epc : DWord) (pi ex : Nat)
    (lv : Level) (pc : DWord) (prio : Nat)
    (hp : ∀ n ∈ es, (s.lane b w n).level = lv ∧ (s.lane b w n).pc = pc ∧ (s.lane b w n).prio = prio) :
    s.firstCohort b w (raises es cause val epc pi ex) = (raises es cause val epc pi ex, []) := by
  cases es with
  | nil => rfl
  | cons n es =>
    have hmem : ∀ r ∈ raises (n :: es) cause val epc pi ex, r.lane ∈ n :: es ∧ r.cause = cause ∧ r.epc = epc ∧ r.exec = ex := by
      intro r hr
      obtain ⟨k, hk, rfl⟩ := List.mem_map.1 hr
      exact ⟨hk, rfl, rfl, rfl⟩
    unfold raises
    simp only [List.map_cons, State.firstCohort]
    have hm := fold_min_mem (fun m x => if s.raiseBefore b w x m then x else m) (by intro a c; split <;> simp)
      (es.map fun n => ({ lane := n, cause := cause, val := val n, epc := epc, pi := pi, exec := ex } : Raise))
      { lane := n, cause := cause, val := val n, epc := epc, pi := pi, exec := ex }
    generalize (es.map fun n => ({ lane := n, cause := cause, val := val n, epc := epc, pi := pi, exec := ex } : Raise)).foldl
      (fun m x => if s.raiseBefore b w x m then x else m) { lane := n, cause := cause, val := val n, epc := epc, pi := pi, exec := ex } = m at hm
    have hmm : m ∈ raises (n :: es) cause val epc pi ex := by
      unfold raises; rw [List.map_cons]
      rcases hm with h | h
      · rw [h]; exact List.mem_cons_self ..
      · exact List.mem_cons_of_mem _ h
    obtain ⟨m1, m2, m3, m4⟩ := hmem m hmm
    have hall : ∀ x ∈ raises (n :: es) cause val epc pi ex,
        (x.exec == m.exec && x.cause == m.cause && x.epc == m.epc &&
          trapTarget (s.ctxOf b).xdeleg x.cause (s.lane b w x.lane).level ==
            trapTarget (s.ctxOf b).xdeleg m.cause (s.lane b w m.lane).level) = true := by
      intro x hx
      obtain ⟨x1, x2, x3, x4⟩ := hmem x hx
      simp [x2, x3, x4, m2, m3, m4, (hp _ x1).1, (hp _ m1).1]
    refine Prod.ext ?_ ?_
    · exact List.filter_eq_self.2 hall
    · refine List.filter_eq_nil_iff.2 fun x hx => ?_
      simpa using hall x hx

/-- What an entry leaves of a lane. -/
theorem Lane.enter_entered (l : Lane) (k : Nat) (v epc : DWord) (pi : Nat) (T : Level) (mask : DWord) (hT : T ≠ .u) :
    Entered l (l.enter k v epc pi T mask) T mask k v epc pi := by
  have e := Lane.landAll_eq l
  cases T with
  | u => exact absurd rfl hT
  | s =>
    unfold Lane.enter
    rw [e]
    constructor <;> first | rfl | (intro h; first | rfl | exact absurd h (by decide)) | exact ⟨rfl, rfl, rfl⟩ | exact ⟨rfl, rfl, rfl, rfl, rfl, rfl⟩
  | h =>
    unfold Lane.enter
    rw [e]
    constructor <;> first | rfl | (intro h; first | rfl | exact absurd h (by decide)) | exact ⟨rfl, rfl, rfl⟩ | exact ⟨rfl, rfl, rfl, rfl, rfl, rfl⟩

/-- Landing does not depend on what the lane has seen. -/
theorem Lane.landAll_seen (l : Lane) (x : FMap Nat) :
    ({ l with seen := x } : Lane).landAll.v = l.landAll.v ∧ ({ l with seen := x } : Lane).landAll.p = l.landAll.p := by
  have h : ∀ (ds : List Nat) (l : Lane), ds.foldl Lane.land { l with seen := x } = { ds.foldl Lane.land l with seen := x } := by
    intro ds
    induction ds with
    | nil => intro l; rfl
    | cons d ds ih =>
      intro l
      have e : ({ l with seen := x } : Lane).land d = { l.land d with seen := x } := by rw [Lane.land_eq, Lane.land_eq]
      rw [List.foldl_cons, List.foldl_cons, e, ih]
  unfold Lane.landAll
  rw [h]
  exact ⟨rfl, rfl⟩

theorem Entered.seen {l l' m m' : Lane} {T : Level} {mask : DWord} {k : Nat} {v epc : DWord} {pi : Nat}
    (h : Entered l m T mask k v epc pi) (hl : { l with seen := l'.seen } = l') (hm : { m with seen := m'.seen } = m') :
    Entered l' m' T mask k v epc pi := by
  have hs := Lane.landAll_seen l l'.seen
  rw [← hl, ← hm]
  cases T <;> exact ⟨h.level, h.prio, h.ncnt, h.pc, h.frame, h.frameS, h.frameH,
    ⟨h.landed.1.trans hs.1.symm, h.landed.2.1.trans hs.2.symm, h.landed.2.2⟩, h.kept⟩

/-- What the entry of a cohort leaves outside its lanes and its bank of `s56:s57`. -/
structure Beside (s t : State) (b w : Nat) (es : List Nat) : Prop where
  lane : ∀ c v i, ¬(c = b ∧ v = w ∧ i ∈ es) → { t.lane c v i with seen := (s.lane c v i).seen } = s.lane c v i
  blk : ∀ c, (t.blk c).grid = (s.blk c).grid ∧ (t.blk c).phase = (s.blk c).phase
  grids : t.grids = s.grids
  cur : t.cur = s.cur

theorem State.enterOne_route (s : State) (b w : Nat) (deleg : DWord) (T : Level) (mask : DWord) (r : Raise)
    (hr : ∀ l : Lane, { l with seen := (s.lane b w r.lane).seen } = s.lane b w r.lane →
      l.route deleg r.cause r.val = some (r.cause, r.val, T)) :
    s.enterOne b w deleg T mask r = (s.drainLane b w r.lane).setLane b w r.lane
      (((s.drainLane b w r.lane).lane b w r.lane).enter r.cause r.val r.epc r.pi T mask) := by
  unfold State.enterOne
  dsimp only
  rw [hr _ ((State.drainLane_seenOnly s b w r.lane).lane b w r.lane)]

/-- The lanes of a cohort enter one after the other. -/
theorem State.enter_fold (s : State) (b w : Nat) (deleg : DWord) (T : Level) (mask : DWord) (hT : T ≠ .u) (rs : List Raise)
    (hn : (rs.map (·.lane)).Nodup)
    (hr : ∀ r ∈ rs, ∀ l : Lane, { l with seen := (s.lane b w r.lane).seen } = s.lane b w r.lane →
      l.route deleg r.cause r.val = some (r.cause, r.val, T)) :
    let t := rs.foldl (State.enterOne b w deleg T mask) s
    Beside s t b w (rs.map (·.lane)) ∧
      (∀ r ∈ rs, Entered (s.lane b w r.lane) (t.lane b w r.lane) T mask r.cause r.val r.epc r.pi) := by
  induction rs generalizing s with
  | nil => exact ⟨⟨fun _ _ _ _ => rfl, fun _ => ⟨rfl, rfl⟩, rfl, rfl⟩, fun n h => absurd h List.not_mem_nil⟩
  | cons r rs ih =>
    simp only [List.map_cons, List.nodup_cons] at hn
    have h0 := State.drainLane_seenOnly s b w r.lane
    have h1 := State.enterOne_route s b w deleg T mask r (hr r (List.mem_cons_self ..))
    have hne : ∀ q ∈ rs, r.lane ≠ q.lane := fun q hq e => hn.1 (e ▸ List.mem_map_of_mem hq)
    have hu : ∀ c v i, ¬(c = b ∧ v = w ∧ i = r.lane) →
        (s.enterOne b w deleg T mask r).lane c v i = (s.drainLane b w r.lane).lane c v i := by
      intro c v i hi
      rw [h1, State.lane_setLane, if_neg]
      rintro ⟨rfl, rfl, rfl⟩; exact hi ⟨rfl, rfl, rfl⟩
    obtain ⟨i1, i2⟩ := ih (s.enterOne b w deleg T mask r) hn.2 (by
      intro q hq l hl
      refine hr q (List.mem_cons_of_mem _ hq) l ?_
      rw [hu b w q.lane (fun g => hne q hq g.2.2.symm)] at hl
      rw [← h0.lane b w q.lane, ← hl])
    rw [List.foldl_cons]
    refine ⟨⟨?_, ?_, ?_, ?_⟩, ?_⟩
    · intro c v i hi
      have a := i1.lane c v i (fun g => hi ⟨g.1, g.2.1, List.mem_cons_of_mem _ g.2.2⟩)
      rw [hu c v i (fun g => hi ⟨g.1, g.2.1, by rw [g.2.2]; exact List.mem_cons_self ..⟩)] at a
      rw [← h0.lane c v i]; rw [← a]
    · intro c
      have a := i1.blk c
      have d : ((s.enterOne b w deleg T mask r).blk c).grid = ((s.drainLane b w r.lane).blk c).grid ∧
          ((s.enterOne b w deleg T mask r).blk c).phase = ((s.drainLane b w r.lane).blk c).phase := by
        rw [h1]
        simp only [State.setLane, State.setWarp, State.blk_setBlk]
        split
        · subst c; exact ⟨rfl, rfl⟩
        · exact ⟨rfl, rfl⟩
      exact ⟨(a.1.trans d.1).trans (h0.blk c).1, (a.2.trans d.2).trans (h0.blk c).2⟩
    · exact i1.grids.trans ((congrArg State.grids h1).trans h0.grids)
    · exact i1.cur.trans ((congrArg State.cur h1).trans h0.cur)
    · intro q hq
      rcases List.mem_cons.1 hq with rfl | hq
      · have a := i1.lane b w q.lane (fun g => hn.1 g.2.2)
        rw [h1, State.lane_setLane, if_pos ⟨rfl, rfl, rfl⟩] at a
        have e0 := Lane.enter_entered ((s.drainLane b w q.lane).lane b w q.lane) q.cause q.val q.epc q.pi T mask hT
        refine e0.seen (h0.lane b w q.lane) (m' := ?_) ?_
        rw [← a, h1]
      · have a := i2 q hq
        rw [hu b w q.lane (fun g => hne q hq g.2.2.symm)] at a
        exact a.seen (h0.lane b w q.lane) rfl

theorem State.settleHeldAt_none (s : State) (b w : Nat) (T : Level) (n : Nat) (h : ∀ i, (s.lane b w i).held = none) :
    s.settleHeldAt b w T n = s := by
  cases n with
  | zero => rfl
  | succ n =>
    unfold State.settleHeldAt
    have e : s.heldTo b w T = [] := by
      unfold State.heldTo
      rw [List.filterMap_eq_nil_iff]
      intro i _; simp only [h i]
    simp [e]

theorem State.settleHeld_none (s : State) (b w : Nat) (h : ∀ i, (s.lane b w i).held = none) : s.settleHeld b w = s := by
  unfold State.settleHeld
  simp only [State.settleHeldAt_none s b w _ _ h]

theorem pairOf_lo_hi (x : DWord) : pairOf (lo32 x) (hi32 x) = x := by
  unfold pairOf lo32 hi32
  exact BitVec.extractLsb'_append_extractLsb'_eq_extractLsb' (by omega) |>.trans (by simp)

theorem sKey_ne (T : Level) (a b : Nat) (h : a ≠ b) : sKey T a ≠ sKey T b := by
  unfold sKey; split <;> split <;> omega

theorem Warp.rs2_ws2 (x : Warp) (T : Level) (n : Nat) (v : DWord) : (x.ws2 T n v).rs2 T n = v := by
  have h1 : sKey T (n + 1) ≠ sKey T n := sKey_ne T _ _ (by omega)
  simp [Warp.rs2, Warp.ws2, Warp.rs, Warp.ws, fget_fset, h1, pairOf_lo_hi]

/-- The bank of `s56:s57` is written last. -/
theorem State.enterInto_entered (s : State) (b w : Nat) (deleg : DWord) (T : Level) (hT : T ≠ .u) (rs : List Raise)
    (hn : (rs.map (·.lane)).Nodup)
    (hr : ∀ r ∈ rs, ∀ l : Lane, { l with seen := (s.lane b w r.lane).seen } = s.lane b w r.lane →
      l.route deleg r.cause r.val = some (r.cause, r.val, T)) :
    Beside s (s.enterInto b w deleg T rs) b w (rs.map (·.lane)) ∧
      (∀ r ∈ rs, Entered (s.lane b w r.lane) ((s.enterInto b w deleg T rs).lane b w r.lane) T (maskOf (rs.map (·.lane)))
        r.cause r.val r.epc r.pi) ∧
      ((s.enterInto b w deleg T rs).warp b w).rs2 T 56 = maskOf (rs.map (·.lane)) := by
  obtain ⟨f1, f2⟩ := State.enter_fold s b w deleg T (maskOf (rs.map (·.lane))) hT rs hn hr
  have hl : ∀ (u : State) (x : DWord) c v i, (u.setWarp b w ((u.warp b w).ws2 T 56 x)).lane c v i = u.lane c v i := by
    intro u x c v i
    simp only [State.lane, State.warp_setWarp]
    split
    · rename_i h; obtain ⟨rfl, rfl⟩ := h; rfl
    · rfl
  have hb : ∀ (u : State) (x : DWord) c, ((u.setWarp b w ((u.warp b w).ws2 T 56 x)).blk c).grid = (u.blk c).grid ∧
      ((u.setWarp b w ((u.warp b w).ws2 T 56 x)).blk c).phase = (u.blk c).phase := by
    intro u x c
    simp only [State.setWarp, State.blk_setBlk]
    split
    · subst c; exact ⟨rfl, rfl⟩
    · exact ⟨rfl, rfl⟩
  unfold State.enterInto
  dsimp only
  refine ⟨⟨fun c v i hi => ?_, fun c => ?_, f1.grids, f1.cur⟩, fun r hr => ?_, ?_⟩
  · rw [hl]; exact f1.lane c v i hi
  · have a := hb (rs.foldl (State.enterOne b w deleg T (maskOf (rs.map (·.lane)))) s) (maskOf (rs.map (·.lane))) c
    exact ⟨a.1.trans (f1.blk c).1, a.2.trans (f1.blk c).2⟩
  · rw [hl]; exact f2 r hr
  · rw [State.warp_setWarp_same, Warp.rs2_ws2]

/-- Every raise of a cohort that can enter goes to its target level. -/
theorem Enterable.route {s : State} {b w : Nat} {es : List Nat} {cause : Nat} {T : Level} (h : Enterable s b w es cause T)
    (val : Nat → DWord) (epc : DWord) (pi ex : Nat) :
    ∀ r ∈ raises es cause val epc pi ex, ∀ l : Lane, { l with seen := (s.lane b w r.lane).seen } = s.lane b w r.lane →
      l.route (s.ctxOf b).xdeleg r.cause r.val = Option.some (r.cause, r.val, T) := by
  obtain ⟨lv, pc, prio, hT, hp, -⟩ := h.point
  have hroute : ∀ n ∈ es, ∀ l : Lane, { l with seen := (s.lane b w n).seen } = s.lane b w n →
      l.route (s.ctxOf b).xdeleg cause (val n) = Option.some (cause, val n, T) := by
    intro n hn l hl
    have hlv : l.level = lv := by rw [← (hp n hn).1, ← hl]
    have hfr : ∀ T, l.frame T = (s.lane b w n).frame T := by intro T; rw [← hl]; cases T <;> rfl
    have hnc : l.ncnt = (s.lane b w n).ncnt := by rw [← hl]
    refine Lane.route_free l _ cause (val n) T (by rw [hT, hlv]) ?_
    rw [hfr, hnc]; exact h.free n hn
  intro r hr
  obtain ⟨n, hn, rfl⟩ := List.mem_map.1 hr
  exact hroute n hn

theorem Enterable.ne_u {s : State} {b w : Nat} {es : List Nat} {cause : Nat} {T : Level} (h : Enterable s b w es cause T) :
    T ≠ .u := by
  obtain ⟨lv, pc, prio, hT, -⟩ := h.point; exact hT ▸ targetLevel_ne_u _ _ _

/-- One cohort that can enter goes to one level (19 R345). -/
theorem State.enterCohort_eq (s : State) (b w : Nat) (es : List Nat) (cause : Nat) (val : Nat → DWord) (epc : DWord) (pi ex : Nat)
    (T : Level) (h : Enterable s b w es cause T) :
    s.enterCohort b w (raises es cause val epc pi ex) = s.enterInto b w (s.ctxOf b).xdeleg T (raises es cause val epc pi ex) := by
  have hTu := h.ne_u
  have hr := h.route val epc pi ex
  have hne : raises es cause val epc pi ex ≠ [] := by
    intro e; exact h.some (List.map_eq_nil_iff.1 e)
  have hto : ∀ U, s.routedTo b w (s.ctxOf b).xdeleg (raises es cause val epc pi ex) U = if U = T then raises es cause val epc pi ex else [] := by
    intro U
    unfold State.routedTo
    split
    · subst U
      refine List.filter_eq_self.2 fun r hr' => ?_
      rw [hr r hr' (s.lane b w r.lane) rfl]; simp
    · rename_i hU
      refine List.filter_eq_nil_iff.2 fun r hr' => ?_
      rw [hr r hr' (s.lane b w r.lane) rfl]; simpa using fun e => hU e.symm
  unfold State.enterCohort
  dsimp only
  rw [List.find?_eq_none.2]
  · simp only [hto]
    cases T with
    | u => exact absurd rfl hTu
    | s => simp [hne]
    | h => simp [hne]
  · intro r hr'
    rw [hr r hr' (s.lane b w r.lane) rfl]; simp

/-- One cohort that can enter does (19 R345). -/
theorem State.enterCohort_enter (s : State) (b w : Nat) (es : List Nat) (cause : Nat) (val : Nat → DWord) (epc : DWord) (pi ex : Nat)
    (T : Level) (h : Enterable s b w es cause T) :
    Beside s (s.enterCohort b w (raises es cause val epc pi ex)) b w es ∧
      (∀ n ∈ es, Entered (s.lane b w n) ((s.enterCohort b w (raises es cause val epc pi ex)).lane b w n) T (maskOf es) cause (val n) epc pi) ∧
      ((s.enterCohort b w (raises es cause val epc pi ex)).warp b w).rs2 T 56 = maskOf es := by
  have hlanes : (raises es cause val epc pi ex).map (·.lane) = es := by
    simp [raises, List.map_map, Function.comp_def]
  have key := State.enterCohort_eq s b w es cause val epc pi ex T h
  have hTu := h.ne_u
  have hr := h.route val epc pi ex
  obtain ⟨e1, e2, e3⟩ := State.enterInto_entered s b w (s.ctxOf b).xdeleg T hTu (raises es cause val epc pi ex)
    (by rw [hlanes]; exact h.nodup) hr
  rw [key, hlanes] at *
  refine ⟨e1, fun n hn => ?_, e3⟩
  exact e2 { lane := n, cause := cause, val := val n, epc := epc, pi := pi, exec := ex } (List.mem_map.2 ⟨n, hn, rfl⟩)

/-- Lanes that raise one cause at one point and can enter do so as one cohort. -/
theorem State.raiseAll_eq (s : State) (b w : Nat) (es : List Nat) (cause : Nat) (val : Nat → DWord) (epc : DWord) (pi ex : Nat)
    (T : Level) (h : Enterable s b w es cause T) :
    s.raiseAll b w (raises es cause val epc pi ex) = s.enterCohort b w (raises es cause val epc pi ex) := by
  obtain ⟨lv, pc, prio, hT, hp, hocc⟩ := h.point
  have hTu : T ≠ .u := hT ▸ targetLevel_ne_u _ _ _
  have hne : raises es cause val epc pi ex ≠ [] := by
    intro e; exact h.some (List.map_eq_nil_iff.1 e)
  obtain ⟨c1, c2, c3⟩ := State.enterCohort_enter s b w es cause val epc pi ex T h
  have hheld : ∀ i, ((s.enterCohort b w (raises es cause val epc pi ex)).lane b w i).held = none := by
    intro i
    by_cases hi : i ∈ es
    · exact (c2 i hi).kept.2.2.2.2.1
    · have a := c1.lane b w i (fun g => hi g.2.2)
      have hh := h.held i
      rw [← a] at hh; exact hh
  have htgt : ∀ r ∈ raises es cause val epc pi ex, trapTarget (s.ctxOf b).xdeleg r.cause (s.lane b w r.lane).level = T ∧
      (s.lane b w r.lane).level = lv := by
    intro r hr
    obtain ⟨n, hn, rfl⟩ := List.mem_map.1 hr
    rw [targetLevel_eq, (hp n hn).1]; exact ⟨hT.symm, rfl⟩
  have hfc := State.firstCohort_all s b w es cause val epc pi ex lv pc prio hp
  have hw : ∀ r, s.fenceWaits b w (raises es cause val epc pi ex) r = false := by
    intro r
    unfold State.fenceWaits
    rw [List.any_eq_false]
    intro x hx
    obtain ⟨n, hn, rfl⟩ := List.mem_map.1 hx
    simp [h.scratch n hn]
  unfold State.raiseAll
  rw [if_neg hne]
  dsimp only
  have w0 : (raises es cause val epc pi ex).filter (fun _ => false) = [] := List.filter_eq_nil_iff.2 (by simp)
  have w1 : (raises es cause val epc pi ex).filter (fun _ => true) = raises es cause val epc pi ex := List.filter_eq_self.2 (by simp)
  simp only [hw, w0, List.foldl_nil, Bool.not_false, w1]
  by_cases hl : lv = T
  · have f1 : (raises es cause val epc pi ex).filter (fun r =>
        trapTarget (s.ctxOf b).xdeleg r.cause (s.lane b w r.lane).level == (s.lane b w r.lane).level) = raises es cause val epc pi ex :=
      List.filter_eq_self.2 fun r hr => by rw [(htgt r hr).1, (htgt r hr).2, hl]; simp
    have f2 : ∀ U, (raises es cause val epc pi ex).filter (fun r =>
        trapTarget (s.ctxOf b).xdeleg r.cause (s.lane b w r.lane).level == U && (s.lane b w r.lane).level != U) = [] := fun U =>
      List.filter_eq_nil_iff.2 fun r hr => by rw [(htgt r hr).1, (htgt r hr).2, hl]; simp
    have f3 : ∀ u, State.enterAll u b w 63 [] = u := fun u => rfl
    rw [f1]
    simp only [List.foldl_cons, List.foldl_nil, f2, if_true]
    have f4 : s.enterAll b w 64 (raises es cause val epc pi ex) = s.enterCohort b w (raises es cause val epc pi ex) := by
      cases hrs : raises es cause val epc pi ex with
      | nil => exact absurd hrs hne
      | cons r rs =>
        unfold State.enterAll
        dsimp only
        rw [← hrs, hfc, f3]
    rw [f4, State.settleHeld_none _ b w hheld]
  · have f1 : (raises es cause val epc pi ex).filter (fun r =>
        trapTarget (s.ctxOf b).xdeleg r.cause (s.lane b w r.lane).level == (s.lane b w r.lane).level) = [] :=
      List.filter_eq_nil_iff.2 fun r hr => by rw [(htgt r hr).1, (htgt r hr).2]; simpa using fun e => hl e.symm
    have f2 : ∀ U, (raises es cause val epc pi ex).filter (fun r =>
        trapTarget (s.ctxOf b).xdeleg r.cause (s.lane b w r.lane).level == U && (s.lane b w r.lane).level != U) =
        if U = T then raises es cause val epc pi ex else [] := fun U => by
      split
      · subst U
        exact List.filter_eq_self.2 fun r hr => by rw [(htgt r hr).1, (htgt r hr).2]; simpa using hl
      · rename_i hU
        exact List.filter_eq_nil_iff.2 fun r hr => by
          rw [(htgt r hr).1]; simp; intro e; exact absurd e.symm hU
    have f3 : State.enterAll s b w 64 [] = s := rfl
    have f4 : s.occupied b w T = false := by
      unfold State.occupied
      rw [List.any_eq_false]
      intro i hi
      have := hocc hl i ((Warp.mem_live _ _).1 hi)
      simpa using this
    rw [f1, f3]
    simp only [List.foldl_cons, List.foldl_nil, f2]
    cases T with
    | u => exact absurd rfl hTu
    | s =>
      simp only [if_true, if_neg hne, f4, Bool.false_eq_true, if_false, hfc, reduceCtorEq, List.foldl_nil]
      exact State.settleHeld_none _ b w hheld
    | h =>
      simp only [if_true, if_neg hne, f4, Bool.false_eq_true, if_false, hfc, reduceCtorEq, List.foldl_nil]
      exact State.settleHeld_none _ b w hheld

/-- Taking an exception (19 R342 to R345): the lanes that raise one cause at one point enter its target level. -/
theorem State.raiseAll_enter (s : State) (b w : Nat) (es : List Nat) (cause : Nat) (val : Nat → DWord) (epc : DWord) (pi ex : Nat)
    (T : Level) (h : Enterable s b w es cause T) :
    Beside s (s.raiseAll b w (raises es cause val epc pi ex)) b w es ∧
      (∀ n ∈ es, Entered (s.lane b w n) ((s.raiseAll b w (raises es cause val epc pi ex)).lane b w n) T (maskOf es) cause (val n) epc pi) ∧
      ((s.raiseAll b w (raises es cause val epc pi ex)).warp b w).rs2 T 56 = maskOf es := by
  rw [State.raiseAll_eq s b w es cause val epc pi ex T h]
  exact State.enterCohort_enter s b w es cause val epc pi ex T h

/-! ### What an entry leaves while no store waits -/

theorem TrapFrame.refl (s : State) (b w : Nat) (T : Level) (ls : List Nat) : TrapFrame s s b w T ls :=
  ⟨rfl, fun _ _ => rfl, rfl, fun _ _ => rfl, rfl, fun _ _ _ => rfl, fun _ _ => rfl⟩

theorem TrapFrame.trans {s u t : State} {b w : Nat} {T : Level} {ls : List Nat} (h : TrapFrame s u b w T ls)
    (k : TrapFrame u t b w T ls) : TrapFrame s t b w T ls := by
  refine ⟨?_, fun c hc => (k.blk c hc).trans (h.blk c hc), ?_, fun v hv => (k.warp v hv).trans (h.warp v hv), ?_,
    fun x h1 h2 => (k.regs x h1 h2).trans (h.regs x h1 h2), fun i hi => (k.lane i hi).trans (h.lane i hi)⟩
  · calc { t with blocks := s.blocks } = { ({ t with blocks := u.blocks } : State) with blocks := s.blocks } := rfl
      _ = s := by rw [k.rest, h.rest]
  · calc { t.blk b with warps := (s.blk b).warps }
        = { ({ t.blk b with warps := (u.blk b).warps } : Block) with warps := (s.blk b).warps } := rfl
      _ = s.blk b := by rw [k.block, h.block]
  · calc { t.warp b w with lanes := (s.warp b w).lanes, s := (s.warp b w).s }
        = { ({ t.warp b w with lanes := (u.warp b w).lanes, s := (u.warp b w).s } : Warp) with
            lanes := (s.warp b w).lanes, s := (s.warp b w).s } := rfl
      _ = s.warp b w := by rw [k.same, h.same]

theorem TrapFrame.pend {s t : State} {b w : Nat} {T : Level} {ls : List Nat} (h : TrapFrame s t b w T ls) :
    (t.blk b).pend = (s.blk b).pend := by rw [← h.block]

theorem TrapFrame.byteAt {s t : State} {b w : Nat} {T : Level} {ls : List Nat} (h : TrapFrame s t b w T ls) (key a : Nat) :
    t.byteAt key a = s.byteAt key a := by rw [← h.rest]; rfl

theorem State.setLane_trapFrame (s : State) (b w i : Nat) (x : Lane) (T : Level) (ls : List Nat) (hi : i ∈ ls) :
    TrapFrame s (s.setLane b w i x) b w T ls := by
  refine ⟨rfl, ?_, ?_, ?_, ?_, ?_, ?_⟩
  · intro c hc; simp only [State.setLane, State.setWarp, State.blk_setBlk]; rw [if_neg (Ne.symm hc)]
  · simp only [State.setLane, State.setWarp, State.blk_setBlk_same]; rfl
  · intro v hv; simp only [State.setLane, State.warp_setWarp]; rw [if_neg (fun g => hv g.2.symm)]
  · simp only [State.setLane, State.warp_setWarp_same]; rfl
  · intro k _ _; simp only [State.setLane, State.warp_setWarp_same]; rfl
  · intro j hj; rw [State.lane_setLane, if_neg]; rintro ⟨-, -, rfl⟩; exact hj hi

theorem State.drainLane_trapFrame (s : State) (b w i : Nat) (T : Level) (ls : List Nat) (hp : (s.blk b).pend = []) :
    TrapFrame s (s.drainLane b w i) b w T ls := by
  have e : s.drainLane b w i = s.setBlk b (s.blk b) := by
    unfold State.drainLane State.drainIf
    rw [hp]
    show (s.modBlk b fun k => { k with pend := [] }) = _
    unfold State.modBlk
    rw [← hp]
  have hb : ∀ c, (s.drainLane b w i).blk c = s.blk c := by
    intro c; rw [e, State.blk_setBlk]; split
    · rename_i h; rw [h]
    · rfl
  have hw : ∀ c v, (s.drainLane b w i).warp c v = s.warp c v := by intro c v; simp only [State.warp, hb]
  refine ⟨by rw [e]; rfl, fun c _ => hb c, by rw [hb], fun v _ => hw b v, by rw [hw], fun k _ _ => by rw [hw],
    fun j _ => by simp only [State.lane, hw]⟩

theorem State.ws2_trapFrame (s : State) (b w : Nat) (T : Level) (x : DWord) (ls : List Nat) :
    TrapFrame s (s.setWarp b w ((s.warp b w).ws2 T 56 x)) b w T ls := by
  refine ⟨rfl, ?_, ?_, ?_, ?_, ?_, ?_⟩
  · intro c hc; simp only [State.setWarp, State.blk_setBlk]; rw [if_neg (Ne.symm hc)]
  · simp only [State.setWarp, State.blk_setBlk_same]; rfl
  · intro v hv; simp only [State.warp_setWarp]; rw [if_neg (fun g => hv g.2.symm)]
  · simp only [State.warp_setWarp_same]; rfl
  · intro k h1 h2
    simp only [State.warp_setWarp_same]
    show fget 0 (fset 0 (fset 0 _ (sKey T 56) _) (sKey T 57) _) k = _
    rw [fget_fset_ne _ _ _ (Ne.symm h2), fget_fset_ne _ _ _ (Ne.symm h1)]
  · intro j _; simp only [State.lane, State.warp_setWarp_same]; rfl

/-- A cohort's entry while no store of the block waits. -/
theorem State.enterInto_frame (s : State) (b w : Nat) (deleg : DWord) (T : Level) (rs : List Raise) (ls : List Nat)
    (hr : ∀ r ∈ rs, r.lane ∈ ls) (hp : (s.blk b).pend = []) : TrapFrame s (s.enterInto b w deleg T rs) b w T ls := by
  have fold : ∀ (m : DWord) (rs : List Raise) (u : State), (∀ r ∈ rs, r.lane ∈ ls) → (u.blk b).pend = [] →
      TrapFrame u (rs.foldl (State.enterOne b w deleg T m) u) b w T ls := by
    intro m rs
    induction rs with
    | nil => intro u _ _; exact TrapFrame.refl ..
    | cons r rs ih =>
      intro u h1 h2
      have a := State.drainLane_trapFrame u b w r.lane T ls h2
      have c : TrapFrame u (State.enterOne b w deleg T m u r) b w T ls := by
        unfold State.enterOne
        dsimp only
        split
        · exact a.trans (State.setLane_trapFrame _ b w r.lane _ T ls (h1 r (List.mem_cons_self ..)))
        · exact a
      exact c.trans (ih _ (fun q hq => h1 q (List.mem_cons_of_mem _ hq)) (c.pend.trans h2))
  unfold State.enterInto
  exact (fold _ rs s hr hp).trans (State.ws2_trapFrame ..)

/-- Taking an exception while no store of the block waits changes the lanes that enter and their bank, nothing else. -/
theorem State.raiseAll_frame (s : State) (b w : Nat) (es : List Nat) (cause : Nat) (val : Nat → DWord) (epc : DWord) (pi ex : Nat)
    (T : Level) (h : Enterable s b w es cause T) (ls : List Nat) (hl : ∀ n ∈ es, n ∈ ls) (hp : (s.blk b).pend = []) :
    TrapFrame s (s.raiseAll b w (raises es cause val epc pi ex)) b w T ls := by
  rw [State.raiseAll_eq s b w es cause val epc pi ex T h, State.enterCohort_eq s b w es cause val epc pi ex T h]
  refine State.enterInto_frame _ _ _ _ _ _ _ ?_ hp
  intro r hr
  obtain ⟨n, hn, rfl⟩ := List.mem_map.1 hr
  exact hl n hn

theorem SameBut.trapFrame {s t : State} {ls : List Nat} (h : SameBut s t ls) (T : Level) :
    TrapFrame s t s.cur.blk s.cur.warp T ls := by
  have hs : (t.warp s.cur.blk s.cur.warp).s = s.cw.s := by
    have := congrArg Warp.s h.cw; exact this
  refine ⟨h.rest, h.blk, h.block, h.warp, ?_, fun k _ _ => by rw [hs]; rfl, h.lane⟩
  have e := h.cw
  have : s.warp s.cur.blk s.cur.warp = s.cw := rfl
  rw [this]
  calc { t.warp s.cur.blk s.cur.warp with lanes := s.cw.lanes, s := s.cw.s }
      = { ({ t.warp s.cur.blk s.cur.warp with lanes := s.cw.lanes } : Warp) with s := s.cw.s } := rfl
    _ = s.cw := by rw [e]

/-- Lanes that can enter still can after lanes beside them moved without leaving their level. -/
theorem Enterable.after {s t : State} {b w : Nat} {es : List Nat} {cause : Nat} {T : Level} (h : Enterable s b w es cause T)
    (hd : (t.ctxOf b).xdeleg = (s.ctxOf b).xdeleg) (hs : ∀ n ∈ es, t.lane b w n = s.lane b w n)
    (hl : ∀ i, (t.lane b w i).occ = (s.lane b w i).occ ∧ (t.lane b w i).level = (s.lane b w i).level ∧
      (t.lane b w i).held = (s.lane b w i).held) (hk : ∀ c, (t.blk c).lines = (s.blk c).lines) : Enterable t b w es cause T := by
  obtain ⟨lv, pc, prio, p1, p2, p3⟩ := h.point
  refine ⟨h.some, h.nodup, ⟨lv, pc, prio, by rw [hd]; exact p1, fun n hn => by rw [hs n hn]; exact p2 n hn, fun hne i hi => ?_⟩,
    fun n hn => by rw [hs n hn]; exact h.live n hn, fun n hn => by rw [hs n hn]; exact h.free n hn, fun i => by rw [(hl i).2.2]; exact h.held i,
    fun n hn => by rw [State.heldScratch_congr hk]; exact h.scratch n hn⟩
  rw [(hl i).2.1]; rw [(hl i).1] at hi; exact p3 hne i hi

theorem Took.level {s : State} {l m : Lane} {o : Gives} (h : Took s l m o) :
    m.occ = l.occ ∧ m.level = l.level ∧ m.held = l.held := by
  have r := h.rest
  rw [← r]; exact ⟨rfl, rfl, rfl⟩

/-- A lane-class instruction over its own lanes, some of which raise a cause. -/
theorem lanesTrap_of (s : State) (i : Instr) (vs ss : List Nat) (g : Guard) (f : Lane → Ans) (bad : Lane → Bool) (cause : Nat)
    (val : Lane → DWord) (epc : DWord) (give : Lane → Gives)
    (he : exec i s = .next (s.laneOp vs ss g none f)) (hok : s.laneOk vs ss = true) (hn : s.cur.lanes.Nodup)
    (hb : ∀ n ∈ s.cur.lanes, (s.cl n).guard g = true → bad (s.cl n) = true →
      (f (s.cl n) = .trap cause (val (s.cl n)) ∧ epc = s.cur.pc) ∨ (f (s.cl n) = .trapNext cause (val (s.cl n)) ∧ epc = s.cur.next))
    (hf : ∀ n ∈ s.cur.lanes, (s.cl n).guard g = true → bad (s.cl n) = false →
      ∃ o : Out1, f (s.cl n) = .ok o ∧ o.gives (s.cl n) = give (s.cl n) ∧
      (o.regs.map (·.1)).Nodup ∧ (((s.cl n).predKeys o.preds).map (·.1)).Nodup) :
    LanesTrap s i g bad cause val epc give := by
  unfold LanesTrap
  intro es T hent
  let ans : Nat → Ans := fun n => if (s.cl n).guard g then f (s.cl n) else .done
  let rs : List (Nat × Ans) := s.cur.lanes.map fun n => (n, ans n)
  have hrs : rs.map (·.1) = s.cur.lanes := by simp [rs, List.map_map, Function.comp_def]
  obtain ⟨q1, q2⟩ := lanes_fold (fun r : Nat × Ans => r.1) (fun r l => l.take (s.gridOf s.cur.blk) s.cur none r.2) rs s
    (by rw [hrs]; exact hn)
  have hcur : ∀ (l : List (Nat × Ans)) (s' : State), s'.cur = s.cur →
      l.foldl (fun u r => u.setCl r.1 ((u.cl r.1).take (s.gridOf s.cur.blk) u.cur none r.2)) s' =
      l.foldl (fun u r => u.setCl r.1 ((u.cl r.1).take (s.gridOf s.cur.blk) s.cur none r.2)) s' := by
    intro l
    induction l with
    | nil => intros; rfl
    | cons r l ih =>
      intro s' h
      simp only [List.foldl_cons]
      rw [h]
      exact ih _ (by rw [← h]; rfl)
  generalize hs1 : rs.foldl (fun s' r => s'.setCl r.1 ((s'.cl r.1).take (s.gridOf s.cur.blk) s.cur none r.2)) s = s1 at q1 q2
  rw [hrs] at q1
  have hans : ∀ n ∈ s.cur.lanes, s1.cl n = (s.cl n).take (s.gridOf s.cur.blk) s.cur none (ans n) :=
    fun n h => q2 (n, ans n) (List.mem_map.2 ⟨n, h, rfl⟩)
  have hmem : ∀ n, n ∈ es ↔ n ∈ s.cur.lanes ∧ (s.cl n).guard g = true ∧ bad (s.cl n) = true := by
    intro n; simp [es, List.mem_filter, Bool.and_eq_true]
  -- the lanes that raise are as they were, the others have completed
  have hbad : ∀ n ∈ es, s1.cl n = s.cl n := by
    intro n h
    obtain ⟨h1, h2, h3⟩ := (hmem n).1 h
    rw [hans n h1]
    simp only [ans, h2, if_true]
    rcases hb n h1 h2 h3 with e | e <;> rw [e.1] <;> rfl
  have hgood : ∀ n ∈ s.cur.lanes, n ∉ es →
      Took s (s.cl n) (s1.cl n) (if (s.cl n).guard g then give (s.cl n) else .nothing (s.cl n)) := by
    intro n h1 h2
    rw [hans n h1]
    by_cases hg : (s.cl n).guard g = true
    · have hb' : bad (s.cl n) = false := by
        cases hx : bad (s.cl n) with
        | false => rfl
        | true => exact absurd ((hmem n).2 ⟨h1, hg, hx⟩) h2
      obtain ⟨o, ho, hgive, hr, hp⟩ := hf n h1 hg hb'
      simp only [ans, hg, if_true, ho, ← hgive]
      exact Lane.take_ok s _ o hr hp
    · simp only [ans, hg]
      exact Lane.take_ok s _ Out1.none List.nodup_nil List.nodup_nil
  have hraise : (rs.filterMap fun r => match r.2 with
      | .trap k v => some (s.raiseHere r.1 k v)
      | .trapNext k v => some { s.raiseHere r.1 k v with epc := s.cur.next }
      | _ => none) = raises es cause (fun n => val (s.cl n)) epc s.cur.prog s.execEntry := by
    have : ∀ l : List Nat, (∀ n ∈ l, n ∈ s.cur.lanes) → ((l.map fun n => (n, ans n)).filterMap fun r => match r.2 with
        | .trap k v => some (s.raiseHere r.1 k v)
        | .trapNext k v => some { s.raiseHere r.1 k v with epc := s.cur.next }
        | _ => none) = raises (l.filter fun n => (s.cl n).guard g && bad (s.cl n)) cause (fun n => val (s.cl n)) epc s.cur.prog s.execEntry := by
      intro l
      induction l with
      | nil => intro _; rfl
      | cons n l ih =>
        intro hl
        have h1 := hl n (List.mem_cons_self ..)
        have ih' := ih fun m hm => hl m (List.mem_cons_of_mem _ hm)
        rw [List.map_cons, List.filterMap_cons, List.filter_cons]
        by_cases hg : (s.cl n).guard g = true
        · cases hx : bad (s.cl n) with
          | true =>
            have ea : ans n = f (s.cl n) := by simp [ans, hg]
            rcases hb n h1 hg hx with e | e
            · simp only [ea, e.1, hg, Bool.and_self, if_true, ih']
              rw [e.2]; rfl
            · simp only [ea, e.1, hg, Bool.and_self, if_true, ih']
              rw [e.2]; rfl
          | false =>
            obtain ⟨o, ho, -⟩ := hf n h1 hg hx
            have ea : ans n = .ok o := by simp [ans, hg, ho]
            simp only [ea, hg, Bool.and_false, Bool.false_eq_true, if_false, ih']
        · have ea : ans n = .done := by simp [ans, hg]
          simp only [ea, Ans.done, hg, Bool.false_and, Bool.false_eq_true, if_false, ih']
    exact this s.cur.lanes fun _ h => h
  have hexec : exec i s = .next (s1.raiseAll s.cur.blk s.cur.warp (raises es cause (fun n => val (s.cl n)) epc s.cur.prog s.execEntry)) := by
    rw [he]
    unfold State.laneOp State.laneOpI
    rw [if_pos hok]
    unfold State.commitAns
    dsimp only
    rw [← hraise, ← hs1]
    congr 2
    exact hcur rs s rfl
  have hone : ∀ i, s1.lane s.cur.blk s.cur.warp i = s1.cl i := fun i => (q1.cl_eq i).symm
  have hsame : ∀ i, (s1.lane s.cur.blk s.cur.warp i).occ = (s.cl i).occ ∧ (s1.lane s.cur.blk s.cur.warp i).level = (s.cl i).level ∧
      (s1.lane s.cur.blk s.cur.warp i).held = (s.cl i).held := by
    intro i
    rw [hone]
    by_cases h1 : i ∈ s.cur.lanes
    · by_cases h2 : i ∈ es
      · rw [hbad i h2]; exact ⟨rfl, rfl, rfl⟩
      · exact (hgood i h1 h2).level
    · rw [q1.cl h1]; exact ⟨rfl, rfl, rfl⟩
  have hdel : (s1.ctxOf s.cur.blk).xdeleg = (s.ctxOf s.cur.blk).xdeleg := by
    have a : s1.gridOf s.cur.blk = s.gridOf s.cur.blk := q1.grid
    have c : s1.ctxs = s.ctxs := by rw [← q1.rest]
    simp [State.ctxOf, State.ctx, a, c]
  have hent1 : Enterable s1 s.cur.blk s.cur.warp es cause T :=
    hent.after hdel (fun n h => by rw [hone]; exact hbad n h) hsame fun c => by
      by_cases hc : c = s.cur.blk
      · rw [hc, ← q1.block]
      · rw [q1.blk c hc]
  obtain ⟨r1, r2, r3⟩ := State.raiseAll_enter s1 s.cur.blk s.cur.warp es cause (fun n => val (s.cl n)) epc s.cur.prog s.execEntry T hent1
  have hcl : ∀ u : State, u.cur = s.cur → ∀ n, u.cl n = u.lane s.cur.blk s.cur.warp n := by
    intro u h n; unfold State.cl; rw [h]
  have hcw : ∀ u : State, u.cur = s.cur → u.cw = u.warp s.cur.blk s.cur.warp := by
    intro u h; unfold State.cw; rw [h]
  refine ⟨_, hexec, ?_, ?_, ?_, ?_⟩
  · rw [hcw _ (r1.cur.trans q1.cur)]; exact r3
  · intro n h
    have a := r2 n h
    rw [hcl _ (r1.cur.trans q1.cur)]
    rw [hone, hbad n h] at a
    exact a
  · intro n h1 h2
    have a := r1.lane s.cur.blk s.cur.warp n (fun g => h2 g.2.2)
    have c := hgood n h1 h2
    rw [← hone, ← a] at c
    have d : (s.cl n).seen = (s1.lane s.cur.blk s.cur.warp n).seen := by
      rw [hone]
      have r := (hgood n h1 h2).rest
      rw [← r]
    rw [hcl _ (r1.cur.trans q1.cur), d]
    exact c
  · intro hp
    have f1 : TrapFrame s s1 s.cur.blk s.cur.warp T s.cur.lanes := q1.trapFrame T
    have f := f1.trans (State.raiseAll_frame s1 s.cur.blk s.cur.warp es cause (fun n => val (s.cl n)) epc s.cur.prog s.execEntry T hent1
      s.cur.lanes (fun n hn => ((hmem n).1 hn).1) (f1.pend.trans hp))
    exact ⟨f, f.byteAt⟩

/-- An instruction that raises a cause in its whole entry. -/
theorem entryTrap_of (s : State) (i : Instr) (cause : Nat) (val : DWord) (ha : s.cur.agent ≠ .tiller)
    (he : exec i s = .next (s.raiseEntry cause val)) : EntryTrap s i cause val := by
  intro T hent
  have e : s.raiseEntry cause val = s.raiseAll s.cur.blk s.cur.warp (raises s.cur.lanes cause (fun _ => val) s.cur.pc s.cur.prog s.execEntry) := by
    unfold State.raiseEntry
    split
    · rename_i h; exact absurd h ha
    · rfl
  obtain ⟨r1, r2, r3⟩ := State.raiseAll_enter s s.cur.blk s.cur.warp s.cur.lanes cause (fun _ => val) s.cur.pc s.cur.prog s.execEntry T hent
  have hcl : ∀ u : State, u.cur = s.cur → ∀ n, u.cl n = u.lane s.cur.blk s.cur.warp n := by
    intro u h n; unfold State.cl; rw [h]
  have hcw : ∀ u : State, u.cur = s.cur → u.cw = u.warp s.cur.blk s.cur.warp := by
    intro u h; unfold State.cw; rw [h]
  refine ⟨_, he.trans (by rw [e]), ?_, ?_, ?_⟩
  · rw [hcw _ r1.cur]; exact r3
  · intro n h; rw [hcl _ r1.cur]; exact r2 n h
  · intro hp
    have f := State.raiseAll_frame s s.cur.blk s.cur.warp s.cur.lanes cause (fun _ => val) s.cur.pc s.cur.prog s.execEntry T hent s.cur.lanes
      (fun _ h => h) hp
    exact ⟨f, f.byteAt⟩

end Sys2Proof.Machine
end

