-- ==== Sys2Proof/Laws/Quiet.lean ====
section
/-! SUPPORT. A warp in which nothing waits settles as it is, and what the return of lanes from a frame does. -/

namespace Sys2Proof.Machine

open Sys2Proof

theorem findSome_none {α β : Type} (l : List α) (f : α → Option β) (h : ∀ x ∈ l, f x = none) : l.findSome? f = none := by
  induction l with
  | nil => rfl
  | cons x l ih =>
    rw [List.findSome?_cons, h x (List.mem_cons_self ..)]
    exact ih fun y hy => h y (List.mem_cons_of_mem _ hy)

/-- A quiet warp settles as it is. -/
theorem State.settleWarp_quiet (s : State) (b w : Nat) (h : s.Quiet b w) : s.settleWarp b w = s := by
  have hm : ∀ i, ((s.warp b w).lane i).meetPt = none := h.meets
  have h1 : (s.warp b w).firstDone = none := by
    unfold Warp.firstDone
    exact findSome_none _ _ fun i _ => by rw [hm i]
  have h2 : ∀ n, (s.warp b w).mismatchRaises n = [] := by
    intro n
    unfold Warp.mismatchRaises
    rw [List.filterMap_eq_nil_iff.2]
    intro i _; rw [hm i]
  have h3 : s.settleMeets b w 200 = s := by
    unfold State.settleMeets
    rw [h1]; dsimp only; rw [h2]
  unfold State.settleWarp
  rw [State.settleHeld_none s b w h.held]
  dsimp only
  rw [h3]
  unfold State.wakeChain
  rw [h.unchained]; rfl

/-- Quiet is about lanes and the grid. -/
theorem State.Quiet.of {s t : State} {b w : Nat} (h : s.Quiet b w) (hg : t.gridOf b = s.gridOf b)
    (hl : ∀ i, (t.lane b w i).held = none ∧ (t.lane b w i).meetPt = none) : t.Quiet b w :=
  ⟨fun i => (hl i).1, fun i => (hl i).2, by rw [hg]; exact h.unchained⟩

theorem TrapFrame.grid {s t : State} {b w : Nat} {T : Level} {ls : List Nat} (h : TrapFrame s t b w T ls) :
    t.gridOf b = s.gridOf b := by
  have a : t.grids = s.grids := by rw [← h.rest]
  have c : (t.blk b).grid = (s.blk b).grid := by rw [← h.block]
  simp [State.gridOf, State.grid, a, c]

end Sys2Proof.Machine
end

