-- ==== Sys2Proof/Laws/Uniform.lean ====
section
/-! SUPPORT. What a control transfer of lanes and what a uniform instruction do, once for all of them: `lanesJump_of`,
`uniRun_of`. -/

namespace Sys2Proof.Machine

open Sys2Proof

theorem Lane.goto_eq (m : Lane) (g : Grid) (pc : DWord) :
    m.goto g pc = { m with pc := pc, prio := if m.level = .u then g.prioAt pc else m.prio } := rfl

/-- A lane that takes a jump completes at its target. -/
theorem Lane.take_jump (s : State) (l : Lane) (o : Out1) (dst : DWord) (hr : (o.regs.map (·.1)).Nodup)
    (hp : ((l.predKeys o.preds).map (·.1)).Nodup) :
    Took (s.toward dst) l (l.take (s.gridOf s.cur.blk) s.cur none (.jump o dst)) (o.gives l) := by
  have h := Lane.take_ok (s.toward dst) l o hr hp
  have e : l.take ((s.toward dst).gridOf (s.toward dst).cur.blk) (s.toward dst).cur none (.ok o) =
      l.take (s.gridOf s.cur.blk) s.cur none (.jump o dst) := by
    show Lane.advance (l.finish none o) (s.gridOf s.cur.blk) { s.cur with next := dst, rep := 0 } = _
    unfold Lane.advance
    simp only [Nat.zero_le, if_true]
    rfl
  rw [e] at h
  exact h

/-- A lane-class instruction that gives each executing lane a result and a target. -/
theorem lanesJump_of (s : State) (i : Instr) (vs ss : List Nat) (g : Guard) (f : Lane → Ans) (dst : Lane → DWord) (give : Lane → Gives)
    (he : exec i s = .next (s.laneOp vs ss g none f)) (hok : s.laneOk vs ss = true) (hn : s.cur.lanes.Nodup)
    (hf : ∀ n ∈ s.cur.lanes, (s.cl n).guard g = true → ∃ o : Out1, f (s.cl n) = .jump o (dst (s.cl n)) ∧
      o.gives (s.cl n) = give (s.cl n) ∧ (o.regs.map (·.1)).Nodup ∧ (((s.cl n).predKeys o.preds).map (·.1)).Nodup) :
    LanesJump s i g dst give := by
  obtain ⟨h1, h2⟩ := State.laneOp_quiet s vs ss g none f hok hn (by
    intro n hn hg; obtain ⟨o, ho, -⟩ := hf n hn hg; rw [ho]; rfl)
  refine ⟨_, he, h1, fun key a => h1.byteAt key a, ?_⟩
  intro n hn
  rw [h2 n hn]
  constructor
  · intro hg
    obtain ⟨o, ho, hgive, hr, hp⟩ := hf n hn hg
    rw [if_pos hg, ho, ← hgive]
    exact Lane.take_jump s _ o _ hr hp
  · intro hg
    rw [if_neg (by simp [hg])]
    exact Lane.take_ok s _ Out1.none List.nodup_nil List.nodup_nil

/-! ### Uniform instructions -/

theorem State.rest_trans {s u t : State} (a : { u with blocks := s.blocks } = s) (b : { t with blocks := u.blocks } = u) :
    { t with blocks := s.blocks } = s :=
  calc { t with blocks := s.blocks } = { ({ t with blocks := u.blocks } : State) with blocks := s.blocks } := rfl
    _ = { u with blocks := s.blocks } := by rw [b]
    _ = s := a

theorem State.foldl_rest {β : Type} (f : State → β → State) (hf : ∀ v x, { f v x with blocks := v.blocks } = v) (l : List β)
    (v : State) : { l.foldl f v with blocks := v.blocks } = v := by
  induction l generalizing v with
  | nil => rfl
  | cons x l ih => exact State.rest_trans (hf v x) (ih _)

theorem Block.warps_trans {s u t : Block} (a : { u with warps := s.warps } = s) (b : { t with warps := u.warps } = u) :
    { t with warps := s.warps } = s :=
  calc { t with warps := s.warps } = { ({ t with warps := u.warps } : Block) with warps := s.warps } := rfl
    _ = { u with warps := s.warps } := by rw [b]
    _ = s := a

/-- t is s with uniform registers and predicates of the issuing warp, or of the tiller, written as o says. -/
structure UWrote (s t : State) (o : UGives) : Prop where
  rest : { t with blocks := s.blocks } = s
  blk : ∀ b, b ≠ s.cur.blk → t.blk b = s.blk b
  tiller : s.cur.agent = .tiller →
    (∃ S Q, t.blk s.cur.blk = { s.blk s.cur.blk with tiller := { (s.blk s.cur.blk).tiller with s := S, q := Q } } ∧
      (∀ k, fget 0 S k = uAfter .u o.regs k (fget 0 (s.blk s.cur.blk).tiller.s k)) ∧
      (∀ k, fget false Q k = qAfter o.preds k (fget false (s.blk s.cur.blk).tiller.q k)))
  warp : s.cur.agent ≠ .tiller →
    { t.blk s.cur.blk with warps := (s.blk s.cur.blk).warps } = s.blk s.cur.blk ∧
    (∀ w, w ≠ s.cur.warp → t.warp s.cur.blk w = s.warp s.cur.blk w) ∧
    (∃ S Q, t.warp s.cur.blk s.cur.warp = { s.cw with s := S, q := Q } ∧
      (∀ k, fget 0 S k = uAfter s.cur.level o.regs k (fget 0 s.cw.s k)) ∧
      (∀ k, fget false Q k = qAfter o.preds k (fget false s.cw.q k)))

theorem UWrote.refl (s : State) : UWrote s s { regs := [], preds := [] } := by
  refine ⟨rfl, fun _ _ => rfl, fun _ => ⟨_, _, rfl, fun _ => rfl, fun _ => rfl⟩, fun _ => ⟨rfl, fun _ _ => rfl, _, _, rfl, fun _ => rfl, fun _ => rfl⟩⟩

theorem sKey_u (n : Nat) : sKey .u n = n := by unfold sKey; split <;> simp [Level.num]

theorem State.modTiller_blk (s : State) (b c : Nat) (f : Tiller → Tiller) :
    (s.modTiller b f).blk c = if b = c then { s.blk b with tiller := f (s.blk b).tiller } else s.blk c := by
  unfold State.modTiller State.modBlk; rw [State.blk_setBlk]

theorem uAfter_nil (lv : Level) (k : Nat) (x : Word) : uAfter lv [] k x = x := rfl
theorem qAfter_nil (k : Nat) (x : Bool) : qAfter [] k x = x := rfl

theorem uAfter_one (lv : Level) (n k : Nat) (x old : Word) : uAfter lv [(n, x)] k old = if sKey lv n = k then x else old := by
  unfold uAfter; by_cases h : sKey lv n = k <;> simp [h]

theorem qAfter_one (n k : Nat) (x old : Bool) : qAfter [(n, x)] k old = if n = k ∧ k ≠ 7 then x else old := by
  unfold qAfter; by_cases h : n = k <;> by_cases h2 : k = 7 <;> simp [h, h2]

/-- A write of one uniform register. -/
theorem State.uw_wrote (s : State) (n : Nat) (x : Word) : UWrote s (s.uw n x) { regs := [(n, x)], preds := [] } := by
  by_cases h : s.cur.agent = .tiller
  · have e : s.uw n x = s.modTiller s.cur.blk fun t => { t with s := fset 0 t.s n x } := by simp [State.uw, h]
    rw [e]
    refine ⟨rfl, ?_, fun _ => ?_, fun h' => absurd h h'⟩
    · intro b hb; rw [State.modTiller_blk, if_neg (Ne.symm hb)]
    · rw [State.modTiller_blk, if_pos rfl]
      refine ⟨_, _, rfl, ?_, fun _ => rfl⟩
      intro k
      show fget 0 (fset 0 _ n x) k = _
      rw [fget_fset, uAfter_one, sKey_u]
  · have e : s.uw n x = s.setWarp s.cur.blk s.cur.warp (s.cw.ws s.cur.level n x) := by
      unfold State.uw; split
      · rename_i h'; exact absurd h' h
      · rfl
    rw [e]
    refine ⟨rfl, ?_, fun h' => absurd h' h, fun _ => ⟨?_, ?_, ?_⟩⟩
    · intro b hb; unfold State.setWarp; rw [State.blk_setBlk, if_neg (Ne.symm hb)]
    · unfold State.setWarp; rw [State.blk_setBlk_same]; rfl
    · intro w hw; rw [State.warp_setWarp, if_neg (fun g => hw g.2.symm)]
    · rw [State.warp_setWarp_same]
      refine ⟨_, _, rfl, ?_, fun _ => rfl⟩
      intro k
      show fget 0 (fset 0 _ (sKey s.cur.level n) x) k = _
      rw [fget_fset, uAfter_one]

/-- A write of one uniform predicate. -/
theorem State.uwq_wrote (s : State) (n : Nat) (x : Bool) : UWrote s (s.uwq n x) { regs := [], preds := [(n, x)] } := by
  by_cases h : s.cur.agent = .tiller
  · by_cases h7 : n = 7
    · have e : s.uwq n x = s := by unfold State.uwq; rw [h]; simp [h7]
      rw [e]
      refine ⟨rfl, fun _ _ => rfl, fun _ => ⟨(s.blk s.cur.blk).tiller.s, (s.blk s.cur.blk).tiller.q, rfl, fun _ => rfl,
        fun k => ?_⟩, fun h' => absurd h h'⟩
      rw [qAfter_one, if_neg (by omega)]
    · have e : s.uwq n x = s.modTiller s.cur.blk fun t => { t with q := fset false t.q n x } := by
        unfold State.uwq; rw [h]; simp [h7]
      rw [e]
      refine ⟨rfl, ?_, fun _ => ?_, fun h' => absurd h h'⟩
      · intro b hb; rw [State.modTiller_blk, if_neg (Ne.symm hb)]
      · rw [State.modTiller_blk, if_pos rfl]
        refine ⟨_, _, rfl, fun _ => rfl, ?_⟩
        intro k
        show fget false (fset false _ n x) k = _
        rw [fget_fset, qAfter_one]
        by_cases hk : n = k
        · rw [if_pos hk, if_pos ⟨hk, by omega⟩]
        · rw [if_neg hk, if_neg (fun g => hk g.1)]
  · have e : s.uwq n x = s.setWarp s.cur.blk s.cur.warp (s.cw.wq n x) := by
      unfold State.uwq; split
      · rename_i h'; exact absurd h' h
      · rfl
    rw [e]
    refine ⟨rfl, ?_, fun h' => absurd h' h, fun _ => ⟨?_, ?_, ?_⟩⟩
    · intro b hb; unfold State.setWarp; rw [State.blk_setBlk, if_neg (Ne.symm hb)]
    · unfold State.setWarp; rw [State.blk_setBlk_same]; rfl
    · intro w hw; rw [State.warp_setWarp, if_neg (fun g => hw g.2.symm)]
    · rw [State.warp_setWarp_same]
      by_cases h7 : n = 7
      · refine ⟨s.cw.s, s.cw.q, by simp [Warp.wq, h7], fun _ => rfl, fun k => ?_⟩
        rw [qAfter_one, if_neg (by omega)]
      · refine ⟨s.cw.s, fset false s.cw.q n x, by simp [Warp.wq, h7], fun _ => rfl, fun k => ?_⟩
        rw [fget_fset, qAfter_one]
        by_cases hk : n = k
        · rw [if_pos hk, if_pos ⟨hk, by omega⟩]
        · rw [if_neg hk, if_neg (fun g => hk g.1)]

theorem UWrote.cur {s t : State} {o : UGives} (h : UWrote s t o) : t.cur = s.cur := by rw [← h.rest]

/-- A write of a uniform pair. -/
theorem State.uw2_wrote (s : State) (n : Nat) (x : DWord) :
    UWrote s (s.uw2 n x) { regs := [(n, lo32 x), (n + 1, hi32 x)], preds := [] } := by
  have h1 := State.uw_wrote s n (lo32 x)
  have h2 := State.uw_wrote (s.uw n (lo32 x)) (n + 1) (hi32 x)
  have hc := h1.cur
  have key : ∀ lv k old, uAfter lv [(n + 1, hi32 x)] k (uAfter lv [(n, lo32 x)] k old) =
      uAfter lv [(n, lo32 x), (n + 1, hi32 x)] k old := by
    intro lv k old
    unfold uAfter
    by_cases a : sKey lv n = k
    · have b : sKey lv (n + 1) ≠ k := by
        intro b; have : sKey lv n = sKey lv (n + 1) := a.trans b.symm
        unfold sKey at this; split at this <;> split at this <;> omega
      simp [a, b]
    · by_cases b : sKey lv (n + 1) = k <;> simp [a, b]
  have hb : ∀ b, b ≠ s.cur.blk → (s.uw2 n x).blk b = s.blk b := fun b hb =>
    (h2.blk b (by rw [hc]; exact hb)).trans (h1.blk b hb)
  refine ⟨?_, hb, ?_, ?_⟩
  · exact State.rest_trans h1.rest h2.rest
  · intro ht
    obtain ⟨S, Q, e1, r1, q1⟩ := h1.tiller ht
    obtain ⟨S', Q', e2, r2, q2⟩ := h2.tiller (by rw [hc]; exact ht)
    rw [hc] at e2 r2 q2
    refine ⟨S', Q', ?_, ?_, ?_⟩
    · show ((s.uw n (lo32 x)).uw (n + 1) (hi32 x)).blk s.cur.blk = _
      rw [e2, e1]
    · intro k; rw [r2 k, e1]
      show uAfter _ _ _ (fget 0 S k) = _
      rw [r1 k, key]
    · intro k; rw [q2 k, e1]; exact q1 k
  · intro ht
    obtain ⟨a1, a2, S, Q, e1, r1, q1⟩ := h1.warp ht
    obtain ⟨b1, b2, S', Q', e2, r2, q2⟩ := h2.warp (by rw [hc]; exact ht)
    rw [hc] at b1 b2 e2
    have hcw : (s.uw n (lo32 x)).cw = { s.cw with s := S, q := Q } := by
      unfold State.cw; rw [hc]; exact e1
    refine ⟨?_, ?_, S', Q', ?_, ?_, ?_⟩
    · exact Block.warps_trans a1 b1
    · intro w hw; exact (b2 w hw).trans (a2 w hw)
    · show ((s.uw n (lo32 x)).uw (n + 1) (hi32 x)).warp s.cur.blk s.cur.warp = _
      rw [e2, hcw]
    · intro k; rw [r2 k, hcw, hc]
      show uAfter _ _ _ (fget 0 S k) = _
      rw [r1 k, key]
    · intro k; rw [q2 k, hcw]; exact q1 k

/-- The entry, or the tiller, goes on to a PC after uniform registers were written. -/
theorem UWrote.goto {s u : State} {o : UGives} (h : UWrote s u o) (pc : DWord) :
    (s.cur.agent = .tiller → TillerTook s (u.ugoto pc) pc o) ∧
    (s.cur.agent ≠ .tiller → s.cur.lanes.Nodup → WarpTook s (u.ugoto pc) pc o) := by
  have hc := h.cur
  constructor
  · intro ht
    have e : u.ugoto pc = u.modTiller s.cur.blk fun t => { t with pc := pc } := by
      unfold State.ugoto; rw [hc, ht]
    rw [e]
    obtain ⟨S, Q, e1, r1, q1⟩ := h.tiller ht
    refine ⟨?_, ?_, ?_, ?_, ?_, ?_, ?_⟩
    · exact h.rest
    · intro b hb; rw [State.modTiller_blk, if_neg (Ne.symm hb), h.blk b hb]
    all_goals rw [State.modTiller_blk, if_pos rfl, e1]
    · exact r1
    · exact q1
  · intro ht hn
    obtain ⟨a1, a2, S, Q, e1, r1, q1⟩ := h.warp ht
    have hg : u.gridOf s.cur.blk = s.gridOf s.cur.blk := by
      have a : u.grids = s.grids := by rw [← h.rest]
      have b : (u.blk s.cur.blk).grid = (s.blk s.cur.blk).grid := by rw [← a1]
      simp [State.gridOf, State.grid, a, b]
    have e : u.ugoto pc = u.cur.lanes.foldl (fun v n => v.setCl n (({ (v.cl n).countPos with prog := 0 } : Lane).goto
        (s.gridOf s.cur.blk) pc)) u := by
      unfold State.ugoto; split
      · rename_i h'; rw [hc] at h'; exact absurd h' ht
      · rw [hc, hg]
    obtain ⟨f1, f2⟩ := lanes_fold (fun n : Nat => n) (fun _ l => ({ l.countPos with prog := 0 } : Lane).goto (s.gridOf s.cur.blk) pc)
      u.cur.lanes u (by rw [hc]; simpa using hn)
    rw [e]
    generalize u.cur.lanes.foldl _ u = t at f1 f2
    have hl : ∀ n, u.cl n = s.cl n := by
      intro n
      have : u.cl n = (u.warp s.cur.blk s.cur.warp).lane n := by unfold State.cl State.lane; rw [hc]
      rw [this, e1]; rfl
    have htc : ∀ n, t.lane s.cur.blk s.cur.warp n = t.cl n := by
      intro n; unfold State.cl; rw [f1.cur, hc]
    have hw := f1.cw
    rw [hc] at hw
    have hcw : u.cw = { s.cw with s := S, q := Q } := by unfold State.cw; rw [hc]; exact e1
    refine ⟨?_, ?_, ?_, ?_, ?_, ?_, ?_, ?_, ?_⟩
    · exact State.rest_trans h.rest f1.rest
    · intro b hb; rw [f1.blk b (by rw [hc]; exact hb), h.blk b hb]
    · have a := f1.block; rw [hc] at a
      exact Block.warps_trans a1 a
    · intro w hw'; have a := f1.warp w (by rw [hc]; exact hw'); rw [hc] at a; rw [a, a2 w hw']
    · rw [hcw] at hw
      have : { t.warp s.cur.blk s.cur.warp with lanes := s.cw.lanes } = { s.cw with s := S, q := Q } := hw
      calc { t.warp s.cur.blk s.cur.warp with lanes := s.cw.lanes, s := s.cw.s, q := s.cw.q }
          = { ({ t.warp s.cur.blk s.cur.warp with lanes := s.cw.lanes } : Warp) with s := s.cw.s, q := s.cw.q } := rfl
        _ = s.cw := by rw [this]
    · intro i hi
      rw [htc, f1.cl (by rw [hc]; simpa using hi), hl]
    · intro n hn'
      rw [htc, f2 n (by rw [hc]; exact hn'), hl]
      exact Lane.take_jump s (s.cl n) Out1.none pc List.nodup_nil List.nodup_nil |> fun k => by
        have z : (s.cl n).flags ||| BitVec.ofNat 32 0 = (s.cl n).flags := by simp
        have e3 : (s.cl n).take (s.gridOf s.cur.blk) s.cur none (.jump Out1.none pc) =
            ({ (s.cl n).countPos with prog := 0 } : Lane).goto (s.gridOf s.cur.blk) pc := by
          show Lane.goto { Lane.finish (s.cl n) none Out1.none with prog := 0 } _ _ = _
          have : (s.cl n).finish none Out1.none = (s.cl n).countPos := by
            unfold Lane.finish Lane.result
            simp [Lane.write_eq, Lane.countPos_eq, Lane.regKeys, Lane.predKeys, Out1.none, Pending.meets]
          rw [this]
        rw [e3] at k; exact k
    · intro k
      have : (t.warp s.cur.blk s.cur.warp).s = S := by
        have := congrArg Warp.s hw; rw [hcw] at this; exact this
      rw [this]; exact r1 k
    · intro k
      have : (t.warp s.cur.blk s.cur.warp).q = Q := by
        have := congrArg Warp.q hw; rw [hcw] at this; exact this
      rw [this]; exact q1 k

/-- Uniform registers, predicates and PCs are no memory. -/
theorem UWrote.byteAt {s u : State} {o : UGives} (h : UWrote s u o) (pc : DWord) (key a : Nat) :
    (u.ugoto pc).byteAt key a = s.byteAt key a := by
  have e' : { u.ugoto pc with blocks := u.blocks } = u := by
    unfold State.ugoto
    split
    · rfl
    · exact State.foldl_rest (fun v i => v.setCl i (({ (v.cl i).countPos with prog := 0 } : Lane).goto (u.gridOf u.cur.blk) pc))
        (fun _ _ => rfl) _ u
  have a := State.rest_trans h.rest e'
  rw [← a]; rfl

/-- A uniform instruction that, where its guard passes, writes uniform registers and goes to a target. -/
theorem uniRun_of (s : State) (i : Instr) (ss : List Nat) (g : Guard) (f : State → State) (u : State) (o : UGives) (dst : DWord)
    (he : exec i s = .next (s.uniOp ss g f)) (hok : s.namesOk [] ss = true)
    (hf : f s = u.ugoto dst) (hu : UWrote s u o) : UniRun s i g o dst := by
  unfold UniRun
  intro give pc
  have hx : s.uniOp ss g f = if s.uguard g then f s else s.unext := by
    unfold State.uniOp; rw [if_pos hok]
  by_cases hg : s.uguard g = true
  · refine ⟨_, by rw [he, hx, if_pos hg, hf], hu.byteAt dst, ?_⟩
    have := hu.goto dst
    simpa [give, pc, hg] using this
  · refine ⟨_, by rw [he, hx, if_neg hg]; rfl, (UWrote.refl s).byteAt s.cur.next, ?_⟩
    have := (UWrote.refl s).goto s.cur.next
    simpa [give, pc, hg] using this

end Sys2Proof.Machine
end

