-- ==== Sys2Proof/Tests/Slice0.lean ====
section
/-! SUPPORT. The model's own tests: ill-formed terms that `Instr.wf` refuses, words written out from the encoding
tables of the spec, single steps on the spec's worked examples, and for every statement with hypotheses a witness
that meets them. -/

namespace Sys2Proof.Tests

open Sys2Proof.Machine Sys2Proof.Claims

/-- The plain guard. -/
def u : Guard := { p := 7, neg := false }

/-! ### Ill-formed instructions, one for each check of `Instr.wf` -/

theorem test_wf_refuses_guards : [Instr.nop { p := 8, neg := false }, .nop { p := 7, neg := true },
    .add { p := 9, neg := false } 1 2 (.reg 3) .wrap, .uadd { p := 7, neg := true } 1 2 (.reg 3)].any Instr.wf = false := by
  decide

theorem test_wf_refuses_int : [Instr.add u 128 2 (.reg 3) .wrap, .add u 1 128 (.reg 3) .wrap, .add u 1 2 (.reg 128) .wrap,
    .sub u 1 2 (.lit 5) .signed, .mul u 1 2 (.lit 5) .unsigned, .mad u 1 2 (.reg 3) 128 .wrap, .mad u 1 2 (.lit 3) 4 .signed,
    .and u 128 2 (.reg 3), .or u 1 128 (.reg 3), .xor u 1 2 (.reg 128), .sel u 1 2 (.reg 3) 8, .icmp u 8 2 (.reg 3) .eq,
    .icmp u 1 2 (.lit 3) .ltS, .movi u 1 (.reg 3), .movi u 128 (.imm 3), .bfx u 1 2 (.lit 3) true, .bfi u 1 2 (.reg 3) 128,
    .lea u 1 2 (.reg 3) 8, .lea u 1 2 (.lit 3) 1, .bsel u 1 2 (.lit 3) 4 true, .bsel u 1 2 (.reg 3) 128 false].any
    Instr.wf = false := by decide

theorem test_wf_refuses_ext : [Instr.addc u 1 2 3 8 none, .subb u 1 2 3 7 (some 8), .addc u 1 2 128 7 none, .mulh u 128 2 3 true,
    .mulw u 5 2 3 true, .minz u 1 2 128, .rot u 1 2 (.reg 128), .neg u 128 2 false, .abs u 1 128 true, .mov u 1 128,
    .add64 u 5 2 4 .wrap, .add64 u 4 3 4 .wrap, .sub64 u 4 2 5 .wrap, .lea64 u 4 2 5 8 false, .lea64 u 4 3 5 1 false].any
    Instr.wf = false := by decide

theorem test_wf_refuses_float : [Instr.fadd u 1 2 (.reg 3) .rs, .fsub u 1 2 (.imm 3) .rn, .fmul u 1 2 (.lit 3) .rz,
    .ffma u 1 2 (.reg 3) 128 .rn, .ffma u 1 2 (.reg 3) 4 .rs, .fcmp u 8 2 (.reg 3) .lt, .fcmp u 1 2 (.lit 3) .lt,
    .fmin u 1 2 128, .fclass u 1 128, .fround u 1 2 .rs, .hadd2 u 1 2 (.lit 3) true, .hfma2 u 1 2 (.imm 3) 4 false,
    .hfma2 u 1 2 (.reg 3) 128 false, .hmin2 u 1 2 128 true, .idp4 u 1 2 3 128 true true true, .hdp2 u 1 2 3 4 .rs true,
    .cvt u 3 4 .s64 .f32 .rn false false, .cvt u 4 3 .f32 .z64 .rn false false, .cvt u 3 4 .e4m3 .f32 .rn false false,
    .cvt u 3 4 .f32 .b32 .rn false false, .cvt u 3 4 .f32 .f16 .rz false false, .cvt u 3 4 .s32 .f32 .rn false true,
    .pack u 1 1 .f16 .rn false false .none, .pack u 1 4 .e2m1 .rn false false .none, .pack u 1 4 .s8 .rn false false .none,
    .pack u 1 4 .e4m3 .rn false false (.sx 128), .pack u 1 4 .e4m3 .rn false false (.sa 2 128), .unpk u 2 1 .e4m3 .none,
    .unpk u 4 1 .s8 (.sx 2), .unpk u 4 1 .e4m3 (.se 128), .unpk u 4 1 .f32 .none, .frcp u 1 2 16, .ftanh u 128 2 0].any
    Instr.wf = false := by decide

theorem test_wf_refuses_crossLane : [Instr.shfl u 1 2 .xor true (.reg 3) 0 false 7 4 0, .shfl u 2 1 .xor true (.reg 3) 0 false 7 4 0,
    .shfl u 1 2 .xor false (.reg 128) 0 false 7 4 0, .shfl u 1 2 .xor false (.reg 3) 7 false 7 4 0,
    .shfl u 1 2 .rel false (.reg 3) 0 true 7 4 0, .shfl u 1 2 .abs false (.reg 3) 0 true 7 4 0,
    .shfl u 1 2 .xor false (.reg 3) 0 false 8 4 0, .shfl u 1 2 .xor false (.reg 3) 0 false 7 5 0,
    .shfl u 1 2 .xor false (.reg 3) 0 false 7 4 16, .redux u 13 2 .lr .f32 4 0, .redux u 64 2 .add .s32 4 0,
    .redux u 12 2 .and .s32 4 0, .redux u 12 2 .lr .s32 4 0, .vscan u 1 2 none .lr false .f32 4 0,
    .vscan u 1 2 (some 8) .add false .f32 4 0, .vscan u 1 2 none .add false .b32 4 0, .vscanc u 2 2 none .lr false .f32 11 4 0,
    .vote u (.pred .some 8) 1 4 0, .vote u (.bits 9) 1 4 0, .vote u (.bits 8) 8 4 0, .matchLanes u 3 4 false 4 0,
    .matchLanes u 2 3 true 4 0, .rsend u 128 .next 4 0, .rrecv u 1 .prev 5 0, .rpoll u 8 .next true 4 0].any
    Instr.wf = false := by decide

theorem test_wf_refuses_memory : [Instr.ld u 5 8 .b64 false .dflt .self 0 0, .ld u 4 9 .b32 false .dflt .self 0 0,
    .ld u 4 8 .f32 false .dflt .self 0 0, .ld u 4 8 .b32 false .dflt .self 0 16, .ld u 6 8 .b128 false .dflt .self 0 0,
    .st u 4 8 .s8 false .dflt .self 0 0, .st u 5 8 .b64 false .dflt .self 0 0, .ldb u 4 8 .b32 (.rf 16) 0 0,
    .ldb u 4 8 .b32 (.target 128) 0 0, .lds u 4 128 .b32 0 0, .sts u 4 5 .z16 0 0, .ldg u 5 4 .b64 0 0, .stg u 5 4 .b64 0 0,
    .atom u 4 8 6 1 .add .s32 .self .relaxed 0, .atom u 4 8 6 0 .add .b32 .self .relaxed 0,
    .atom u 4 8 6 5 .cas .b64 .self .relaxed 0, .atom u 5 8 6 0 .add .s64 .self .relaxed 0, .red u 8 6 .cas .b32 .self false 0,
    .red u 8 6 .exch .b32 .self false 0, .atoms u 4 128 6 0 .add .s32 .relaxed false 0, .pf u 9 .l1 false 0 0,
    .cinv u 8 .grp 0 0, .cwb u 8 .blk 0 0, .fence u .full .self 0, .rndadv u 4 9 0 0, .rndld u 128 8 0 0,
    .rndwait u 4 8 128 0 0, .mwait u 9 1 0 0].any Instr.wf = false := by decide

theorem test_wf_refuses_control : [Instr.pause u 0, .brx u 9, .ret u 128, .rep 0 1 0, .rep 65 1 0, .rep 4 0 0, .rep 4 5 0,
    .mfs u 3 .clock, .mfs u 128 .capgen, .route u 6 4 0 0, .route u 8 4 4 0, .rdone u 9 0, .xrd u 9 .xepc .own,
    .xrd u 9 .xasid .s, .xwr u 9 .xasid .h, .xwr u 8 .xtlanes .own, .xwr u 9 .xptb .own, .tlbinvVa u 5 .dev 0,
    .tlbinvIpa u 5 .dev 0, .tlbinvAsid u 128 .dev 0, .tlbinvVmid u 128 .dev 0, .tlbinvAll u .dev 16,
    .tlbinvRgn u 128 5 0, .bra { p := 7, neg := true } 0].any Instr.wf = false := by decide

theorem test_wf_refuses_uniform : [Instr.uadd u 64 4 (.reg 5), .usub u 3 64 (.reg 5), .umul u 3 4 (.reg 64),
    .umad u 3 4 (.reg 5) 64, .umin u 3 4 (.lit 5) true, .umax u 3 4 (.lit 5) true, .ucmp u 8 4 (.reg 5) .eq,
    .ucmp u 2 4 (.lit 5) .ltS, .umov u 3 (.reg 64), .uand u 64 4 (.reg 5), .ubfx u 3 4 (.lit 5) true, .upopc u 3 64,
    .umovi u 7 (.imm 3), .umovi u 6 (.reg 3), .uadd64 u 6 6 (.reg 5), .uadd64 u 7 6 (.reg 4), .ulea64 u 6 8 (.reg 5) 7 true,
    .ulea64 u 6 8 (.lit 5) 1 false, .ulea64 u 6 8 (.reg 5) 8 false, .uld u 5 6 .b64 false .self 0, .uld u 4 7 .b32 false .self 0,
    .uldb u 4 6 .b32 (.rf 16) 0, .uldb u 4 6 .b32 (.target 64) 0, .ust u 4 6 .s16 false .self 0, .ubrx u 9, .uret u 64].any
    Instr.wf = false := by decide

theorem test_wf_refuses_engines : [Instr.barInit u 32 false 1, .barInit u 2 false 0, .barArr u 2 false (some 64), .barWait u 32 false none,
    .barSync u 32 true, .cpIn u 16 6 8 3 ⟨false, false, .self⟩ .hdr, .cpIn u 2 7 8 3 ⟨false, false, .self⟩ .hdr,
    .cpIn u 2 6 8 3 ⟨true, false, .self⟩ .hdr, .cpOut u 2 6 8 3 ⟨false, false, .dev⟩ .hdr, .cpGat u 2 6 9 3 ⟨false, false, .self⟩ .hdr,
    .cpGrp u 2 6 9 3 ⟨false, false, .self⟩ .hdr, .cpRed u 2 6 8 32 ⟨false, false, .self⟩ true, .mma u 8 0 4 false false,
    .mma u 2 16 4 false false, .mma u 2 0 16 false false, .hset u 16 16, .hset u 1 18, .hld u 16 20 0, .mscl u 4 24 26 5,
    .mscl u 1 25 26 5, .accz u 8, .accrd u 6 2 21 .bf16 false, .accrd u 6 2 0 .b32 true, .accrd u 6 8 0 .bf16 false,
    .accwr u 5 7 .e4m3, .accwr u 8 7 .f16, .launch u 21 16 0, .launch u 20 17 0, .gridgrow u 8 8 9, .capq u 17 0,
    .graftRep u 4 4 6, .graftBind u 1 7, .graftUnbind u 4, .prune u 0 64 7, .gmerge u 0 11 12, .gmergeAll u 0 11,
    .grefresh u 4 10, .gtabq u 0 17 18 0].any Instr.wf = false := by decide

/-! ### Words written out from the spec's encoding tables

Lane class: bit 31 clear, `X` [30], `OP` [29:24], `D` [23:17], `A` [16:10], `B` [9:3], `G` [2:0]. Uniform class: bit 31 set,
`X`, `OP`, `D` [23:18], `A` [17:12], `B` [11:6], `G` [5:3], `F` [2:0]. Extension: `LA` [31:28], `C` [27:21], `GN` [20],
`MOD` [19:16], `IMM16` [15:0] (05 Tables 5.1 to 5.3). Where the spec assembles an instruction itself (Tables 5.12, 11.9,
13.10, 13.13, 15.5, 17.6, 21.8 and the examples of chapters 09 and 19), its words are among these. -/

/-- The decoder reads the instruction from the words. -/
def reads (x : List Word × Instr) : Bool :=
  match decode x.1 with
  | .ok i => i == x.2
  | .error _ => false

theorem test_decode_intCells : [
    ([0x410A1802, 0x0010FFFD], Instr.add { p := 2, neg := true } 5 6 (.imm (-3)) .wrap),
    ([0x410A183F, 0x00010000], Instr.add u 5 6 (.reg 7) .signed),
    ([0x420A1807, 0x00028064], Instr.sub u 5 6 (.imm 100) .unsigned),
    ([0x03FFFBEF], Instr.mul u 127 126 (.reg 125) .wrap),
    ([0x4402081F, 0x00810000], Instr.mad u 1 2 (.reg 3) 4 .signed),
    ([0x45020807, 0x000F0000, 0xDEADBEEF], Instr.and u 1 2 (.lit 0xDEADBEEF)),
    ([0x0602081F], Instr.or u 1 2 (.reg 3)),
    ([0x0702081B], Instr.xor { p := 3, neg := false } 1 2 (.reg 3)),
    ([0x48020807, 0x0000801F], Instr.shl u 1 2 (.imm 31)),
    ([0x0902081F], Instr.shr u 1 2 (.reg 3)),
    ([0x0A02081F], Instr.sar u 1 2 (.reg 3)),
    ([0x0B02081F], Instr.min u 1 2 (.reg 3)),
    ([0x0C02081F], Instr.max u 1 2 (.reg 3))].all reads = true := by decide

theorem test_decode_intCells2 : [
    ([0x4D02081F, 0x00A00000], Instr.sel u 1 2 (.reg 3) 5),
    ([0x4E0C081F, 0x00090000], Instr.icmp u 6 2 (.reg 3) .geZ),
    ([0x4E0C081F, 0x00030000], Instr.icmp u 6 2 (.reg 3) .leS),
    ([0x4F0E0007, 0x000F0000, 0x12345678], Instr.movi u 7 (.lit 0x12345678)),
    ([0x50020807, 0x00018804], Instr.bfx u 1 2 (.imm 0x0804) true),
    ([0x5102081F, 0x00800000], Instr.bfi u 1 2 (.reg 3) 4),
    ([0x5202081F, 0x00050000], Instr.lea u 1 2 (.reg 3) 5),
    ([0x5302081F, 0x00810000], Instr.bsel u 1 2 (.reg 3) 4 true)].all reads = true := by decide

theorem test_decode_iextWide : [
    ([0x5402081F, 0x00C0000D], Instr.addc u 1 2 3 5 (some 6)),
    ([0x5402081F, 0x00010007], Instr.subb u 1 2 3 7 none),
    ([0x5402081F, 0x00020001], Instr.mulh u 1 2 3 true),
    ([0x5408081F, 0x00030000], Instr.mulw u 4 2 3 false),
    ([0x5402081F, 0x00040000], Instr.minz u 1 2 3),
    ([0x5402081F, 0x00050000], Instr.maxz u 1 2 3),
    ([0x5402081F, 0x00060000], Instr.andn u 1 2 3),
    ([0x5402081F, 0x00070000], Instr.rot u 1 2 (.reg 3)),
    ([0x54020807, 0x00078011], Instr.rot u 1 2 (.imm 17)),
    ([0x56080837, 0x00000001], Instr.add64 u 4 2 6 .signed),
    ([0x56080837, 0x00010002], Instr.sub64 u 4 2 6 .unsigned),
    ([0x56101037, 0x0002000B], Instr.lea64 u 8 4 6 3 true)].all reads = true := by decide

theorem test_decode_unary : [
    ([0x55020807, 0x00010000], Instr.neg u 1 2 true),
    ([0x1502080F], Instr.abs u 1 2 false),
    ([0x15020817], Instr.not u 1 2),
    ([0x1502081F], Instr.popc u 1 2),
    ([0x15020827], Instr.clz u 1 2),
    ([0x1502082F], Instr.ctz u 1 2),
    ([0x15020837], Instr.brev u 1 2),
    ([0x1502083F], Instr.mov u 1 2)].all reads = true := by decide

theorem test_decode_fp32 : [
    ([0x5702081F, 0x00010000], Instr.fadd u 1 2 (.reg 3) .rz),
    ([0x58020807, 0x000F0000, 0x3F800000], Instr.fsub u 1 2 (.lit 0x3F800000) .rn),
    ([0x5902081F, 0x00030000], Instr.fmul u 1 2 (.reg 3) .rd),
    ([0x5A02081F, 0x00820000], Instr.ffma u 1 2 (.reg 3) 4 .ru),
    ([0x5B0C081F, 0x00070000], Instr.fcmp u 6 2 (.reg 3) .nan),
    ([0x5C02081F, 0x00000000], Instr.fmin u 1 2 3),
    ([0x5C02081F, 0x00010000], Instr.fmax u 1 2 3),
    ([0x5C020807, 0x00020000], Instr.fclass u 1 2),
    ([0x5C020807, 0x00030002], Instr.fround u 1 2 .ru)].all reads = true := by decide

theorem test_decode_packed : [
    ([0x1E02081F], Instr.hadd2 u 1 2 (.reg 3) false),
    ([0x5F02081F, 0x00010000], Instr.hsub2 u 1 2 (.reg 3) true),
    ([0x60020807, 0x000F0000, 0x3C003C00], Instr.hmul2 u 1 2 (.lit 0x3C003C00) false),
    ([0x6102081F, 0x00810000], Instr.hfma2 u 1 2 (.reg 3) 4 true),
    ([0x6202081F, 0x00000008], Instr.hmin2 u 1 2 3 true),
    ([0x6202081F, 0x00010000], Instr.hmax2 u 1 2 3 false),
    ([0x6202081F, 0x0002000C], Instr.hcmp2 u 1 2 3 true .gt),
    ([0x63142C67, 0x01A50000], Instr.idp4 u 10 11 12 13 true false true),
    ([0x642854B7, 0x02E20000], Instr.idp8 u 20 21 22 23 false true false),
    ([0x6502081F, 0x008A0000], Instr.hdp2 u 1 2 3 4 .ru true)].all reads = true := by decide

theorem test_decode_conversions : [
    ([0x66061007, 0x000005A7], Instr.cvt u 3 4 .s32 .f32 .rz false false),
    ([0x66061007, 0x000071AE], Instr.cvt u 3 4 .f16 .f32 .rs true true),
    ([0x67280047, 0x01200814], Instr.pack u 20 0 .e2m1 .rn false false (.sa 8 9)),
    ([0x67281047, 0x00000770], Instr.pack u 20 4 .e4m3 .rd true true (.sx 8)),
    ([0x6800504F, 0x00000810], Instr.unpk u 0 20 .e4m3 (.se 9)),
    ([0x68105007, 0x00000014], Instr.unpk u 8 20 .e2m1 .none)].all reads = true := by decide

theorem test_decode_special : [
    ([0x5D020807, 0x30000000], Instr.frcp u 1 2 3),
    ([0x5D02080F, 0x40000000], Instr.frsq u 1 2 4),
    ([0x5D020817, 0x50000000], Instr.fsqrt u 1 2 5),
    ([0x5D02081F, 0x60000000], Instr.fexp2 u 1 2 6),
    ([0x5D020827, 0x70000000], Instr.flog2 u 1 2 7),
    ([0x5D02082F, 0x80000000], Instr.fsin u 1 2 8),
    ([0x5D020837, 0x90000000], Instr.fcos u 1 2 9),
    ([0x5D02083F, 0xA0000000], Instr.ftanh u 1 2 10)].all reads = true := by decide

theorem test_decode_crossLane : [
    ([0x690C1407, 0x0083F010], Instr.shfl u 6 5 .xor false (.imm 16) 0 false 7 4 0),
    ([0x690C204F, 0x10862B00], Instr.shfl u 6 8 .rot true (.reg 9) 3 true 2 4 1),
    ([0x6A181C07, 0x00820007], Instr.redux u 12 7 .max .s32 4 0),
    ([0x6B142C07, 0x0080000D], Instr.vscan u 10 11 none .add false .f32 4 0),
    ([0x6B142C1F, 0x008C0022], Instr.vscan u 10 11 (some 3) .or true .b32 4 0),
    ([0x6C285007, 0x0086028D], Instr.vscanc u 20 20 none .lr false .f32 10 4 0),
    ([0x6D100407, 0x00800003], Instr.vote u (.bits 8) 1 4 0),
    ([0x6D040407, 0x00800001], Instr.vote u (.pred .every 2) 1 4 0),
    ([0x6D041007, 0x00C10001], Instr.matchLanes u 2 4 true 6 0),
    ([0x6E003007, 0x00800000], Instr.rsend u 12 .next 4 0),
    ([0x6E180007, 0x00810001], Instr.rrecv u 12 .prev 4 0),
    ([0x6E060007, 0x00820002], Instr.rpoll u 3 .next true 4 0)].all reads = true := by decide

theorem test_decode_memory : [
    ([0x6F082017, 0x31800040], Instr.ld u 4 8 .b32 true .dflt .dev 0x40 3),
    ([0x6F082037, 0x04008000], Instr.ld u 4 8 .s16 false .cs .self 0x8000 0),
    ([0x70062837, 0x01A0FFF8], Instr.st u 6 10 .b64 true .dflt .sys 0xFFF8 0),
    ([0x71142017, 0x00200000], Instr.ldb u 10 8 .b32 (.rf 1) 0 0),
    ([0x71142017, 0x0C810000], Instr.ldb u 10 8 .b32 (.target 100) 0 0),
    ([0x72081417, 0x00000010], Instr.lds u 4 5 .b32 16 0),
    ([0x72081447, 0x00010010], Instr.sts u 8 5 .b128 16 0),
    ([0x7208144F, 0x2002FFFF], Instr.ldg u 4 5 .z8 0xFFFF 2),
    ([0x72001447, 0x00030000], Instr.stg u 8 5 .b8 0 0)].all reads = true := by decide

theorem test_decode_atomics : [
    ([0x73082037, 0x21800837], Instr.atom u 4 8 6 12 .cas .b64 .dev .relaxed 2),
    ([0x73002037, 0x000124B1], Instr.red u 8 6 .min .z32 .grp true 0),
    ([0x73082437, 0x000270D0], Instr.atoms u 4 9 6 0 .add .f32 .ar true 0),
    ([0x74002007, 0x00C00080], Instr.pf u 8 .l3 true 0x80 0),
    ([0x74002007, 0x00610000], Instr.cinv u 8 .die 0 0),
    ([0x74002007, 0x00A20000], Instr.cwb u 8 .sys 0 0),
    ([0x75000007, 0x00000013], Instr.fence u .full .dev 0),
    ([0x75082007, 0x00010000], Instr.rndadv u 4 8 0 0),
    ([0x750A2007, 0x10020000], Instr.rndld u 5 8 0 1),
    ([0x750C2007, 0x00E30000], Instr.rndwait u 6 8 7 0 0)].all reads = true := by decide

theorem test_decode_laneControl : [
    ([0x36FFFFD7], Instr.bra u (-6)),
    ([0x76FFFFD2, 0x0010FFFF], Instr.bra { p := 2, neg := true } (-6)),
    ([0x77091A2F, 0x00008001], Instr.call u 0x1000212345),
    ([0x38000007], Instr.nop u),
    ([0x3800000F], Instr.exit u),
    ([0x38000017], Instr.pause u 32),
    ([0x78000017, 0x000003E8], Instr.pause u 1000),
    ([0x3800201F], Instr.brx u 8),
    ([0x3801F827], Instr.ret u 126),
    ([0x7800002F, 0x0000BEEF], Instr.brk u 0xBEEF),
    ([0x78000037, 0x0000002A], Instr.sys u 0x2A),
    ([0x79002057, 0x00000040], Instr.mwait u 8 10 0x40 0),
    ([0x3A06041F], Instr.rep 4 2 3),
    ([0x3B140027], Instr.mfs u 10 .capgen),
    ([0x3B140017], Instr.mfs u 10 .clock),
    ([0x7C101007, 0x40200000], Instr.route u 8 4 1 4),
    ([0x7C002007, 0x00010000], Instr.rdone u 8 0)].all reads = true := by decide

theorem test_decode_privileged : [
    ([0x7D100007, 0x00000001], Instr.xrd u 8 .xepc .own),
    ([0x7D100007, 0x00002006], Instr.xrd u 8 .xvec .h),
    ([0x7D002407, 0x00010014], Instr.xwr u 9 .xgpart .own),
    ([0x3E000007], Instr.sret u),
    ([0x3E00000F], Instr.hret u),
    ([0x7E001017, 0x00000020], Instr.tlbinvVa u 4 .dev 0),
    ([0x7E001417, 0x00000019], Instr.tlbinvAsid u 5 .die 0),
    ([0x7E001017, 0x00000022], Instr.tlbinvIpa u 4 .dev 0),
    ([0x7E001417, 0x00000023], Instr.tlbinvVmid u 5 .dev 0),
    ([0x7E000017, 0x0000001C], Instr.tlbinvAll u .die 0),
    ([0x7E0C1417, 0x00000005], Instr.tlbinvRgn u 6 5 0)].all reads = true := by decide

theorem test_decode_uniformArith : [
    ([0x810C4178], Instr.uadd u 3 4 (.reg 5)),
    ([0x810C4179], Instr.usub u 3 4 (.reg 5)),
    ([0x810C417A], Instr.umul u 3 4 (.reg 5)),
    ([0xC10C417B, 0x00C00000], Instr.umad u 3 4 (.reg 5) 6),
    ([0xC10C417C, 0x00010000], Instr.umin u 3 4 (.reg 5) true),
    ([0xC10C403D, 0x0000FFFF], Instr.umax u 3 4 (.imm (-1)) false),
    ([0xC108415E, 0x00040000], Instr.ucmp { p := 3, neg := false } 2 4 (.reg 5) .gtS),
    ([0x810C017F], Instr.umov u 3 (.reg 5)),
    ([0x82FC4178], Instr.uand u 63 4 (.reg 5)),
    ([0x82FC4179], Instr.uor u 63 4 (.reg 5)),
    ([0x82FC417A], Instr.uxor u 63 4 (.reg 5)),
    ([0x82FC417B], Instr.ushl u 63 4 (.reg 5)),
    ([0x82FC417C], Instr.ushr u 63 4 (.reg 5)),
    ([0x82FC417D], Instr.usar u 63 4 (.reg 5))].all reads = true := by decide

theorem test_decode_uniformArith2 : [
    ([0xC20C417E, 0x00010000], Instr.ubfx u 3 4 (.reg 5) true),
    ([0x820C403F], Instr.upopc u 3 4),
    ([0xC3180038, 0x0000FFFE], Instr.umovi u 6 (.imm (-2))),
    ([0xC3186039, 0x00008003], Instr.uadd64 u 6 6 (.imm 3)),
    ([0xC318817A, 0x000B0000], Instr.ulea64 u 6 8 (.reg 5) 3 true),
    ([0xC41060F8, 0x01800008], Instr.uld u 4 6 .b64 true .dev 8),
    ([0xC41060B9, 0x01E00000], Instr.uldb u 4 6 .b32 (.rf 15) 0),
    ([0xC41060B9, 0x04210000], Instr.uldb u 4 6 .b32 (.target 33) 0),
    ([0xC408627A, 0x0120FFFC], Instr.ust u 9 6 .b32 true .blk 0xFFFC)].all reads = true := by decide

theorem test_decode_uniformControl : [
    ([0x85FFFF38], Instr.ubra u (-4)),
    ([0x85008039], Instr.ubrx u 8),
    ([0xC57C03FA, 0x00000001], Instr.ucall u 0x5F00F),
    ([0x8503E03B], Instr.uret u 62),
    ([0xC6002038, 0x00010180], Instr.barInit u 2 true 384),
    ([0xC6242039, 0x00020000], Instr.barArr u 2 false (some 9)),
    ([0xC600227A, 0x00030000], Instr.barWait u 2 true (some 9)),
    ([0x8600203B], Instr.barSync u 2 false),
    ([0x88000038], Instr.mxfork u 0),
    ([0x88A970F8], Instr.mxfork u 0x2A5C3),
    ([0x88000039], Instr.mxjoin u)].all reads = true := by decide

theorem test_decode_barrow : [
    ([0xC7086238, 0x00600011], Instr.cpIn u 2 6 8 3 { acq := true, rel := false, scope := .dev } .hdr),
    ([0xC7086239, 0x00600020], Instr.cpGat u 2 6 8 3 { acq := false, rel := false, scope := .self } .w4),
    ([0xC708627A, 0x00600056], Instr.cpOut u 2 6 9 3 { acq := false, rel := true, scope := .sys } .w2),
    ([0xC708627B, 0x03E00080], Instr.cpRed u 2 6 9 31 { acq := false, rel := false, scope := .self } true),
    ([0xC73C623C, 0x0060000B], Instr.cpGrp u 15 6 8 3 { acq := true, rel := true, scope := .grp } .hdr)].all reads = true := by decide

theorem test_decode_tiller : [
    ([0x89080138], Instr.mma u 2 0 4 false false),
    ([0xC90420F8, 0x00000003], Instr.mma u 1 2 3 true true),
    ([0x8A050038], Instr.hset u 1 16),
    ([0xCA0D4039, 0x00000040], Instr.hld u 3 20 0x40),
    ([0xCA0586BA, 0x00000005], Instr.mscl u 1 24 26 5),
    ([0x8B080038], Instr.accz u 2),
    ([0xCB182579, 0x0000000B], Instr.accrd u 6 2 21 .e4m3 true),
    ([0xCB14703A, 0x00000002], Instr.accwr u 5 7 .f16),
    ([0x8C000038], Instr.mexit u)].all reads = true := by decide

theorem test_decode_workGraft : [
    ([0xCD510038, 0x00000000], Instr.launch u 20 16 0),
    ([0xCD209039, 0x00200000], Instr.gridgrow u 1 8 9),
    ([0xCD01003A, 0x0000FFC0], Instr.capq u 16 0xFFC0),
    ([0xCE106038, 0x00200000], Instr.graftRep u 1 4 6),
    ([0xCE006038, 0x00610000], Instr.graftBind u 3 6),
    ([0xCE000038, 0x00420000], Instr.graftUnbind u 2),
    ([0xCE0061F9, 0x00000000], Instr.prune u 0 6 7),
    ([0xCE00A33A, 0x00400000], Instr.gmerge u 2 10 12),
    ([0xCE00A03A, 0x00010000], Instr.gmergeAll u 0 10),
    ([0xCE00A03B, 0x00000000], Instr.grefresh u 0 10),
    ([0xCE0104BC, 0x00000040], Instr.gtabq u 0 16 18 0x40)].all reads = true := by decide

/-- Reserved cells, members, modifiers and nonzero unused fields decode to no instruction (05 R97, R118, R119, R121). -/
theorem test_decode_refuses : ([[0], [0x3F000007], [0xFFFFFFFF, 0xFFFFFFFF], [0x8F000038], [0x80000038], [0x7F000007, 0],
    [0x5414_0007, 0x0008_0000], [0x1500_0047], [0x3800_003F], [0x3E00_001F], [0x8300_003B], [0x8C00_0039], [0x7D00_0007, 0x15],
    [0x7D00_0007, 0x10008], [0x4102_0818, 0x0020_0000], [0x4102_0818, 0x1000_0000], [0x4102_081F, 0x0010_0000],
    [0x4102_0807, 0x0003_0000], [0x2F08_2017], [0x1D02_0807], [0x6F08_2017, 0x00C0_0000]] : List (List Word)).all
    (fun ws => match decode ws with | .ok _ => false | .error _ => true) = true := by decide


/-! ### States for single steps -/

/-- A kernel with every register, 4 KiB of scratchpad, two accumulator tiles and a tiller stream. -/
def hdr : KHdr :=
  { KHdr.zero with entry := 0x1000, tentry := 0x8000, bx := 2, by_ := 1, bz := 1, lregs := 128, uregs := 64, scratch := 4096, acc := 2, bars := 16 }

/-- A live grid of four blocks of it. -/
def grid : Grid := { Grid.absent with phase := .live, gx := 4, gy := 1, gz := 1, khdr := hdr }

/-- A live lane at 0x1000 whose frames have a vector and are not live. -/
def lane (lv : Level) (v : FMap RegVal) (p : FMap Bool) : Lane :=
  { Lane.empty with
    occ := .live, pc := 0x1000, level := lv, v := v, p := p
    frameS := { Frame.zero with vec := 5 }, frameH := { Frame.zero with vec := 7 } }

/-- A resident block of one warp. -/
def blockOf (w : Warp) : Block := { Block.absent with grid := 1, phase := .resident, nwarps := 1, warps := [(0, w)] }

/-- An instruction of these lanes, all at one level, is about to execute at 0x1000. -/
def running (lv : Level) (ls : FMap Lane) (us : FMap Word) : State :=
  { State.reset with
    phase := .up, grids := [(1, grid)], nextGrid := 2, blocks := [(1, blockOf { Warp.empty with lanes := ls, s := us })], nextBlock := 2
    cur := { Issue.idle with agent := .warp, blk := 1, lanes := fkeys ls, pc := 0x1000, next := 0x1004, level := lv } }

/-- A clean register. -/
def cl (x : Word) : RegVal := { val := x, side := false }

/-- Two lanes at level U, of which lane 1 has `p3` true; small operands, an address in `v4:v5`, poison in `v9`. -/
def duo : State :=
  let v := [(1, cl 5), (2, cl 7), (3, cl 3), (4, cl 0x2000), (9, { val := 0x7FE05EED, side := true })]
  running .u [(0, lane .u v []), (1, lane .u v [(3, true)])] [(4, 3), (6, 0x100)]

/-- One lane at level H, with the same registers; its virtual addresses are physical. -/
def solo : State := { duo with
  blocks := [(1, blockOf { Warp.empty with lanes := [(0, lane .h [(1, cl 5), (2, cl 0x80), (4, cl 0x2000), (9, { val := 0, side := true })] [])]
                                           s := [(4, 1), (6, 0x2000), (8, 3)] })]
  cur := { duo.cur with lanes := [0], level := .h } }

/-- One lane at level S. -/
def solaS : State := { duo with
  blocks := [(1, blockOf { Warp.empty with lanes := [(0, lane .s [(1, cl 5), (4, cl 0x2000)] [])], s := [(120, 1)] })]
  cur := { duo.cur with lanes := [0], level := .s } }

/-- The tiller of the block is about to execute at its entry. -/
def tillering : State := { duo with
  blocks := [(1, { blockOf Warp.empty with tiller := { Tiller.idle with run := true, pc := 0x8000, s := [(4, 9)] } })]
  cur := { Issue.idle with agent := .tiller, blk := 1, pc := 0x8000, next := 0x8004 } }

/-- Unguarded, and guarded by `p3`. -/
def g3 : Guard := { p := 3, neg := false }

/-- What holds of the default and of every listed value holds of every value of a map. -/
theorem fget_every {α : Type} {d : α} {m : FMap α} (P : Nat → α → Prop) (h0 : ∀ k, P k d) (h : ∀ e ∈ m, P e.1 e.2) (k : Nat) :
    P k (fget d m k) := by
  induction m with
  | nil => exact h0 k
  | cons e r ih =>
    obtain ⟨k', x⟩ := e
    simp only [fget]
    split
    · next hk => subst hk; exact h (k', x) (by simp)
    · exact ih fun e he => h e (by simp [he])

/-- What holds of an empty lane position and of every listed lane of a warp holds of every lane of it. -/
theorem lane_every (P : Lane → Prop) [DecidablePred P] {s : State} {b w : Nat} (h0 : decide (P Lane.empty) = true)
    (h : (s.warp b w).lanes.all (fun e => decide (P e.2)) = true) (i : Nat) : P (s.lane b w i) :=
  fget_every (fun _ l => P l) (fun _ => of_decide_eq_true h0) (fun e he => of_decide_eq_true (List.all_eq_true.1 h e he)) i

/-- The state that a step answers. -/
def after (r : Res) : State :=
  match r with
  | .next t => t
  | _ => State.reset

/-! ### Witnesses: hypotheses that are met together -/

theorem witness_IntegerTwoSourceResults : Legal duo ([127, 1] ++ (Src2.reg 0).vregs) ∧ Legal duo ([0, 127] ++ (Src2.lit 5).vregs) ∧
    Legal duo ([1, 2, 127] ++ (Src2.imm 3).vregs) := ⟨⟨by decide, by decide⟩, ⟨by decide, by decide⟩, by decide, by decide⟩

theorem witness_ShiftAndFieldResults : Legal duo ([127, 1] ++ (Src2.reg 2).vregs) ∧
    Executing duo u (fun l => ((Src2.reg 2).val l).side = false) ∧ Legal duo ([1, 2, 127] ++ (Src2.reg 2).vregs) ∧
    Legal duo ([1, 2] ++ (RotAmt.reg 3).vregs) ∧ Executing duo g3 (fun l => ((RotAmt.reg 3).val l).side = false) :=
  ⟨⟨by decide, by decide⟩, by unfold Executing; decide, ⟨by decide, by decide⟩, ⟨by decide, by decide⟩, by unfold Executing; decide⟩

theorem witness_SelectCompareCarryResults : Legal duo ([1, 2] ++ (Src2.reg 3).vregs) ∧ Legal duo (127 :: (Src2.imm 3).vregs) ∧
    Legal duo [127, 0] ∧ Executing duo u (fun l => (l.rv 1).side = false ∧ ((Src2.reg 3).val l).side = false) ∧ Legal duo [1, 2, 3] ∧
    Executing duo u (fun l => (l.rv 2).side = false ∧ (l.rv 3).side = false) :=
  ⟨⟨by decide, by decide⟩, ⟨by decide, by decide⟩, ⟨by decide, by decide⟩, by unfold Executing; decide, ⟨by decide, by decide⟩,
    by unfold Executing; decide⟩

theorem witness_ExtendedAndUnaryResults : Legal duo [1, 2, 127] ∧ Legal duo [126, 127, 1, 2] ∧ Legal duo [127, 0] :=
  ⟨⟨by decide, by decide⟩, ⟨by decide, by decide⟩, by decide, by decide⟩

theorem witness_WideArithmeticResults : Legal duo [126, 127, 4, 5, 0, 1] ∧ Legal duo [4, 5, 126, 127, 127] :=
  ⟨⟨by decide, by decide⟩, by decide, by decide⟩

/-- Byte 3 of `bsel.sx` repeats the sign of byte 2: both premises of that clause, and the field 8 of `FILL`. -/
theorem witness_BitFieldAndByteMeaning : (31 < 32) ∧ (3 < 4) ∧ (0x8000#32).toNat / 16 ^ 3 % 16 = 8 ∧ clzNat 0 = 32 ∧ clzNat 1 = 31 := by
  decide

theorem witness_FloatArithmeticResults : Legal duo ([1, 2] ++ (Src2.lit 0x3F800000).vregs) ∧ Legal duo ([1, 2, 3] ++ (Src2.reg 127).vregs) ∧
    Executing duo u (fun l => poisonF (l.rv 1) = false ∧ poisonF2 l (.reg 2) = false) ∧ Legal duo [1, 2, 3] ∧ Legal duo [1, 2] :=
  ⟨⟨by decide, by decide⟩, ⟨by decide, by decide⟩, by unfold Executing; decide, ⟨by decide, by decide⟩, by decide, by decide⟩

/-- A representable code of each kind: the least subnormal and the largest finite value of FP16. -/
theorem witness_FusedSumCases : fp16 ∈ [fp32, fp16, fbf16, fe5m2, fe4m3, fe3m2, fe2m3, fe2m1] ∧ fp16.decode 1 = .num false 1 (-24) ∧
    fp16.decode 0x7BFF = .num false 2047 5 ∧ 0x7BFF < 2 ^ fp16.width := by decide

theorem witness_PackedArithmeticResults : Legal duo ([1, 2] ++ (Src2.reg 3).vregs) ∧ Legal duo ([1, 2, 4] ++ (Src2.lit 5).vregs) ∧
    Legal duo [1, 2, 3] := ⟨⟨by decide, by decide⟩, ⟨by decide, by decide⟩, by decide, by decide⟩

theorem witness_DotProductResults : Legal duo [10, 11, 12, 127] := ⟨by decide, by decide⟩

/-- Conversions between 64-bit pairs and single registers, and a value that is no integer. -/
theorem witness_ConversionResults : Legal duo (grp 126 Ty.s64.regs ++ grp 4 Ty.z64.regs) ∧ Legal duo (grp 3 Ty.f16.regs ++ grp 4 Ty.s64.regs) ∧
    (64 ∈ [8, 16, 32, 64]) ∧ 3 % 2 ^ 1 ≠ 0 := ⟨⟨by decide, by decide⟩, ⟨by decide, by decide⟩, by decide, by decide⟩

theorem witness_PackUnpackResults : Legal duo ([20] ++ grp 120 Ty.e2m1.perReg ++ (PackScale.sa 8 9).vregs) ∧
    Legal duo ([9] ++ grp 0 Ty.f16.perReg ++ (PackScale.sa 8 9).vregs) ∧ Legal duo ([20] ++ grp 4 Ty.e4m3.perReg ++ PackScale.none.vregs) ∧
    Legal duo (grp 120 Ty.e2m1.perReg ++ [1] ++ (UnpkScale.se 2).vregs) ∧ fe2m1.decode fe2m1.maxCode = .num false 3 1 :=
  ⟨⟨by decide, by decide⟩, ⟨by decide, by decide⟩, ⟨by decide, by decide⟩, ⟨by decide, by decide⟩, by decide⟩

/-- A negative NaN-free operand that is not −0, and a NaN. -/
theorem witness_SpecialFunctionResults : Legal duo [127, 1] ∧ (0x80000001#32).getLsbD 31 = true ∧ val32 0x80000001 ≠ .nan ∧
    val32 0x7F800001 = .nan := ⟨⟨by decide, by decide⟩, by decide, by decide, by decide⟩

/-- A lane of the entry can enter level S for a cause: its frame is free, and it has a vector. -/
theorem duo_enters (es : List Nat) (h : es = [1] ∨ es = [0, 1]) (c : Nat) (hc : (delegOnes).getLsbD c = false) : Enterable duo 1 0 es c .s where
  some := by rcases h with rfl | rfl <;> decide
  nodup := by rcases h with rfl | rfl <;> decide
  point := ⟨.u, 0x1000, 0, by
      have : (duo.ctxOf 1).xdeleg = delegOnes := rfl
      simp only [targetLevel, this, hc], by rcases h with rfl | rfl <;> decide,
    fun _ => lane_every (fun l => l.occ = .live → l.level ≠ .s) (by decide) (by decide)⟩
  live := by rcases h with rfl | rfl <;> decide
  free := by rcases h with rfl | rfl <;> decide
  held := lane_every (·.held = none) (by decide) (by decide)
  scratch := by rcases h with rfl | rfl <;> decide

theorem witness_PoisonConsumptionTraps : Legal duo ([1, 2] ++ (Src2.reg 9).vregs) ∧
    (duo.cur.lanes.filter fun n => (duo.cl n).guard g3 && ((Src2.reg 9).val (duo.cl n)).side) = [1] ∧ Enterable duo 1 0 [1] 0x08 .s ∧
    Legal duo ([1, 2, 3] ++ (Src2.reg 9).vregs) ∧ Legal duo [1, 2, 9] :=
  ⟨⟨by decide, by decide⟩, by decide, duo_enters _ (.inl rfl) _ (by decide), ⟨by decide, by decide⟩, by decide, by decide⟩

/-- Both lanes take a `brk`; a misaligned pair in `v2:v3` for `brx` and `ret`. -/
theorem witness_SynchronousTraps : Legal duo [] ∧ (duo.cur.lanes.filter fun n => (duo.cl n).guard u && true) = [0, 1] ∧
    Enterable duo 1 0 [0, 1] 0x0D .s ∧ Enterable duo 1 0 [0, 1] 0x0C .s ∧ Enterable duo 1 0 [0, 1] 0x03 .s ∧ Legal duo [2, 3] ∧
    Executing duo u (fun l => (l.rv 2).side = false ∧ (l.rv 3).side = false ∧ (l.rd2 2).toNat % 4 ≠ 0) :=
  ⟨⟨by decide, by decide⟩, by decide, duo_enters _ (.inr rfl) _ (by decide), duo_enters _ (.inr rfl) _ (by decide),
    duo_enters _ (.inr rfl) _ (by decide), ⟨by decide, by decide⟩, by unfold Executing; decide⟩

/-- One lane at U whose frame of S is live; that of H is not, or is. -/
def nested (h : Bool) : State := { duo with
  blocks := [(1, blockOf { Warp.empty with lanes := [(0, { lane .u [] [] with
    frameS := { Frame.zero with vec := 5, nest := true }, frameH := { Frame.zero with vec := 7, nest := h } })] })]
  cur := { duo.cur with lanes := [0] } }

theorem witness_SynchronousTraps_double (h : Bool) : Legal (nested h) [] ∧ (nested h).cur.lanes = [0] ∧ ((nested h).cl 0).guard u = true ∧
    ((nested h).cl 0).occ = .live ∧ ((nested h).cl 0).level = .u ∧ ((nested h).ctxOf 1).xdeleg.getLsbD 0x0D = false ∧
    ((nested h).cl 0).frameS.nest = true ∧ (∀ i, ((nested h).cl i).held = none) ∧ (∀ i, i ≠ 0 → ((nested h).cl i).occ ≠ .live) ∧
    (nested h).heldScratch 1 0 0 = false ∧ ((nested h).cl 0).frameH.nest = h ∧ ((nested h).cl 0).ncnt ≠ 255 ∧ ((nested h).cl 0).frameH.vec ≠ 0 := by
  refine ⟨⟨?_, ?_⟩, rfl, ?_, rfl, rfl, ?_, rfl, lane_every (·.held = none) ?_ ?_,
    fget_every (fun k (l : Lane) => k ≠ 0 → l.occ ≠ .live) (fun _ _ => by decide) ?_, ?_, rfl, ?_, ?_⟩ <;> cases h <;> decide

theorem solo_enters (c : Nat) : Enterable solo 1 0 [0] c .h where
  some := by decide
  nodup := by decide
  point := ⟨.h, 0x1000, 0, rfl, by decide, fun h => absurd rfl h⟩
  live := by decide
  free := by decide
  held := lane_every (·.held = none) (by decide) (by decide)
  scratch := by decide

theorem solaS_enters (c : Nat) (h : delegOnes.getLsbD c = false) : Enterable solaS 1 0 [0] c .s where
  some := by decide
  nodup := by decide
  point := ⟨.s, 0x1000, 0, by
    have : (solaS.ctxOf 1).xdeleg = delegOnes := rfl
    simp only [targetLevel, this, h], by decide, fun h => absurd rfl h⟩
  live := by decide
  free := by decide
  held := lane_every (·.held = none) (by decide) (by decide)
  scratch := by decide

/-- A kernel with 16 lane and 8 uniform registers. -/
def small : State := { duo with grids := [(1, { grid with khdr := { hdr with lregs := 16, uregs := 8 } })] }

theorem small_enters : Enterable small 1 0 [0, 1] 0x01 .s where
  some := by decide
  nodup := by decide
  point := ⟨.u, 0x1000, 0, by decide, by decide, fun _ => lane_every (fun l => l.occ = .live → l.level ≠ .s) (by decide) (by decide)⟩
  live := by decide
  free := by decide
  held := lane_every (·.held = none) (by decide) (by decide)
  scratch := by decide

/-- One lane at U with sums that lie where the clauses meet: in `v2` the end of scratchpad, in `v3` and `v4` those of the group's window,
in `v6` a misaligned one. -/
def edges : State := running .u [(0, lane .u [(2, cl 0x1000), (3, cl 0x100000), (4, cl 0x1000000), (6, cl 5)] [])] []

theorem witness_SynchronousTraps_address : Legal duo (grp 126 Ty.b64.regs ++ [8, 9]) ∧
    Executing duo u (fun l => (l.rv 8).side = true ∨ (l.rv 9).side = true) ∧ Executing duo u (fun l => (l.rv 9).side = true) ∧
    Legal duo (9 :: grp 126 Ty.b64.regs) ∧ Enterable duo 1 0 [0, 1] 0x08 .s ∧ Legal duo (grp 126 Ty.b64.regs ++ [2, 3]) ∧
    Executing duo u (fun l => cleanPair l 2 ∧ (l.rd2 2).toNat % Ty.b64.bytes ≠ 0) ∧
    Executing edges u (fun l => (l.rv 6).side = false ∧ scratchSum l 6 0 % Ty.b64.bytes ≠ 0) ∧
    (∀ x ∈ [(2, false, 0x0000#16), (0, false, 0xFFF8#16), (2, true, 0x0000#16), (3, true, 0x0000#16), (4, true, 0x0000#16), (0, true, 0xFFF8#16)],
      Legal edges (x.1 :: grp 126 Ty.b64.regs) ∧ Executing edges u fun l => (l.rv x.1).side = false ∧
        scratchSum l x.1 x.2.2 % Ty.b64.bytes = 0 ∧ outside edges x.2.1 (scratchSum l x.1 x.2.2) Ty.b64.bytes) := by
  refine ⟨⟨by decide, by decide⟩, by unfold Executing; decide, by unfold Executing; decide, ⟨by decide, by decide⟩,
    duo_enters _ (.inr rfl) _ (by decide), ⟨by decide, by decide⟩, ?_, by unfold Executing; decide, ?_⟩
  · unfold Executing cleanPair
    decide
  · unfold Legal Executing outside
    decide

/-- Translation tables that map the virtual page 0x10000 to 0x200000 with this low byte and second byte of its leaf. -/
def tables (b0 b1 : Byte) : FMap Byte :=
  [(0x100000, 1), (0x100001, 0x40), (0x100002, 0x10), (0x104000, 1), (0x104001, 0x80), (0x104002, 0x10), (0x108000, 1), (0x108001, 0x90),
   (0x108002, 0x10), (0x109008, b0), (0x109009, b1), (0x10900A, 0x20)]

/-- A lane at U whose address in `v4:v5`, also in `s4:s5`, lies on the page after that of the tables. -/
def stray : State := { running .u [(0, lane .u [(4, cl 0x20000)] [])] [(4, 0x20000)] with mem := tables 0xBF 0x02, ctxs := [(0, loadCtx)] }

theorem stray_enters (c : Nat) (h : delegOnes.getLsbD c = false) : Enterable stray 1 0 [0] c .s where
  some := by decide
  nodup := by decide
  point := ⟨.u, 0x1000, 0, by
    have : (stray.ctxOf 1).xdeleg = delegOnes := rfl
    simp only [targetLevel, this, h], by decide, fun _ => lane_every (fun l => l.occ = .live → l.level ≠ .s) (by decide) (by decide)⟩
  live := by decide
  free := by decide
  held := lane_every (·.held = none) (by decide) (by decide)
  scratch := by decide

theorem witness_SynchronousTraps_translation : acting stray u = [0] ∧ cleanPair (stray.cl 0) 4 ∧ Legal stray (grp 126 Ty.b64.regs ++ [4, 5]) ∧
    stray.cur.agent ≠ .tiller ∧ stray.uguard u = true ∧ stray.namesOk [] (grp 62 Ty.b64.regs ++ [4, 5]) = true ∧
    Enterable stray 1 0 [0] 0x04 .s ∧ Enterable stray 1 0 [0] 0x05 .s ∧ ((stray.cl 0).rd2 4).toNat % Ty.b64.bytes = 0 ∧
    (stray.xlateLane 1 .u .load 0x20000 8).2 = .error (0x04, 0x20000) ∧ (stray.xlateLane 1 .u .store 0x20000 8).2 = .error (0x05, 0x20000) ∧
    (stray.xlateLane 1 .u .atomic 0x20000 8).2 = .error (0x05, 0x20000) ∧ (stray.xlateLane 1 .u .load 0x20000 1).2 = .error (0x04, 0x20000) ∧
    (stray.blk 1).pend = [] := by
  refine ⟨by decide, ⟨by decide, by decide⟩, ⟨by decide, by decide⟩, by decide, by decide, by decide, stray_enters _ (by decide),
    stray_enters _ (by decide), by decide, rfl, rfl, rfl, rfl, rfl⟩

/-- `s6:s7` names lane 8 alone. -/
theorem witness_SynchronousTraps_mask : duo.cur.agent ≠ .tiller ∧ duo.Quiet 1 0 ∧ duo.cur.lanes ≠ [] ∧
    (∀ n ∈ duo.cur.lanes, n < 64 ∧ (duo.ur2 6).getLsbD n = false) ∧ duo.laneOk [] [6, 7, 62, 63] = true ∧
    duo.laneOk (grp 126 2 ++ grp 4 2) [6, 7] = true ∧ duo.laneOk (grp 126 SOp.add.regs ++ grp 4 SOp.add.regs) [6, 7] = true ∧
    Enterable duo 1 0 [0, 1] 0x0A .s :=
  ⟨by decide, ⟨lane_every (·.held = none) (by decide) (by decide), lane_every (·.meetPt = none) (by decide) (by decide), rfl⟩, by decide, by decide,
    by decide, by decide, by decide, duo_enters _ (.inr rfl) _ (by decide)⟩

theorem witness_IllegalAndPrivilegedTraps : small.cur.agent ≠ .tiller ∧ small.laneOk ([16, 1] ++ (Src2.imm 3).vregs) [] = false ∧
    small.namesOk [] ([3, 8] ++ (Src2.imm 3).sregs 1) = false ∧ Enterable small 1 0 small.cur.lanes 0x01 .s ∧ small.cur.level = .u ∧
    small.laneOk (grp 14 PrivReg.xepc.regs) [] = true ∧ Enterable duo 1 0 duo.cur.lanes 0x02 .s ∧ solaS.cur.level = .s ∧
    Enterable solaS 1 0 solaS.cur.lanes 0x02 .s ∧ solo.cur.level = .h ∧ Enterable solo 1 0 solo.cur.lanes 0x01 .h :=
  ⟨by decide, by decide, by decide, small_enters, rfl, by decide, duo_enters _ (.inr rfl) _ (by decide), rfl, solaS_enters _ (by decide), rfl,
    solo_enters _⟩

/-- A lane in a handler at level lv, with its frame of that level live and from level l; `XTLANES` and the mask of the bank name it. -/
def handling (lv : Level) (l : BitVec 2) : State :=
  let f : Frame := { Frame.zero with vec := 5, nest := true, plvl := l, epc := 0x400, tlanes := 1 }
  { duo with
    blocks := [(1, blockOf { Warp.empty with lanes := [(0, { lane lv [] [] with frameS := f, frameH := f, ncnt := 1 })], s := [(120, 1), (184, 1)] })]
    cur := { duo.cur with lanes := [0], level := lv } }

theorem handling_quiet (lv : Level) (l : BitVec 2) : (handling lv l).Quiet 1 0 where
  held := lane_every (·.held = none) (by decide) rfl
  meets := lane_every (·.meetPt = none) (by decide) rfl
  unchained := rfl

theorem witness_TrapReturnRestores : (∀ lv l, Legal (handling lv l) [] ∧ (handling lv l).Quiet 1 0 ∧ ((handling lv l).blk 1).pend = [] ∧
      (handling lv l).heldScratch 1 0 0 = false ∧ (handling lv l).cur.level = lv) ∧
    Executing (handling .s 0) u (fun l => l.frameS.plvl = 0) ∧ Executing (handling .s 1) u (fun l => l.frameS.plvl = 1) ∧
    Executing (handling .h 0) u (fun l => l.frameH.plvl = 0) ∧ Executing (handling .h 1) u (fun l => l.frameH.plvl = 1) ∧
    Executing (handling .h 2) u (fun l => l.frameH.plvl = 2) :=
  ⟨fun lv l => ⟨⟨by cases lv <;> decide +revert, by cases lv <;> decide +revert⟩, handling_quiet lv l, rfl, rfl, rfl⟩, by unfold Executing; decide,
    by unfold Executing; decide, by unfold Executing; decide, by unfold Executing; decide, by unfold Executing; decide⟩

/-- Every register and frame selector is within reach at level H; at S, those of Table 5.7 that S may read and write. -/
theorem witness_PrivilegedRegisterAccess : Legal solo (grp 126 PrivReg.xhvec.regs) ∧ (privNeed false .xhvec .own).num ≤ solo.cur.level.num ∧
    (privNeed true .xepc .h).num ≤ solo.cur.level.num ∧ Legal solaS (grp 4 PrivReg.xptb.regs) ∧ (privNeed true .xptb .own).num ≤ solaS.cur.level.num ∧
    Executing solaS u (fun l => (l.rv 4).side = false ∧ (PrivReg.xptb.regs = 2 → (l.rv 5).side = false)) ∧
    (privNeed false .xdeleg .own).num ≤ solaS.cur.level.num ∧ PrivReg.xepc.perLevel = true ∧ PrivReg.xptb.perLevel = false :=
  ⟨⟨by decide, by decide⟩, by decide, by decide, ⟨by decide, by decide⟩, by decide, by unfold Executing; decide, by decide, rfl, rfl⟩

/-- `solo` with one write pending, to this register. -/
def committing (r : PrivReg) (v : DWord) : State := { solo with
  xpend := [{ blk := 1, warp := 0, lanes := [0], reg := r, val := v, asid := 0, part := 0, exec := 0 }], steps := 9 }

theorem witness_PrivilegedRegisterAccess_effects (r : PrivReg) (v : DWord) : Legal (committing r v) [] ∧ acting (committing r v) u = [0] ∧
    (committing r v).xpend = [{ blk := 1, warp := 0, lanes := [0], reg := r, val := v, asid := 0, part := 0, exec := 0 }] ∧
    (committing r v).heldScratch 1 0 0 = false ∧ (committing r v).holding 1 = false ∧ ((committing r v).blk 1).pend = [] :=
  ⟨⟨rfl, show [0].Nodup by decide⟩, rfl, rfl, rfl, rfl, rfl⟩

/-- 19 R341: `XGPART` selects site 3 and leaves its size with `MIB` 127, and takes 96 at most; 03 R52: an `XAGE` of 63 reads 64. -/
theorem test_register_effects : (after (exec (.fence u .full .dev 0) (committing .xgpart 0x7F03))).xgsite = 3 ∧
    ((after (exec (.fence u .full .dev 0) (committing .xgpart 0x7F03))).site 3).gpart = (solo.site 3).gpart ∧
    ((after (exec (.fence u .full .dev 0) (committing .xgpart 0x7E11))).site 17).gpart = 96 ∧
    ((after (exec (.fence u .full .dev 0) (committing .xage 63))).ctx 0).xage = 64 := by and_intros <;> decide

theorem witness_UniformResults : duo.namesOk [] ([63, 4] ++ (Src2.reg 6).sregs 1) = true ∧ duo.namesOk [] ([4, 6, 63] ++ (Src2.imm 1).sregs 1) = true ∧
    duo.namesOk [] ([62, 63, 4, 5] ++ (Src2.reg 6).sregs 2) = true ∧ duo.cur.agent ≠ .tiller ∧ duo.cur.lanes.Nodup ∧ duo.uguard u = true ∧
    tillering.cur.agent = .tiller ∧ tillering.namesOk [] ([63, 4] ++ (Src2.reg 6).sregs 1) = true ∧ tillering.uguard u = true := by decide

theorem witness_ControlTransfers : Legal duo [126, 127] ∧ Legal duo [4, 5] ∧
    Executing duo u (fun l => (l.rv 4).side = false ∧ (l.rv 5).side = false ∧ (l.rd2 4).toNat % 4 = 0) ∧ duo.cur.pc.toNat % 4 = 0 ∧
    duo.cur.agent ≠ .tiller ∧ duo.namesOk [] [6, 7] = true ∧ (duo.ur2 6).toNat % 4 = 0 ∧ tillering.cur.pc.toNat % 4 = 0 :=
  ⟨⟨by decide, by decide⟩, ⟨by decide, by decide⟩, by unfold Executing; decide, by decide, by decide, by decide, by decide, by decide⟩

theorem witness_StatusPauseNop : Legal duo [126, 127] ∧ Legal duo [] := ⟨⟨by decide, by decide⟩, by decide, by decide⟩

theorem witness_ThreadExit : Legal duo [] ∧ duo.Quiet 1 0 ∧ (∀ n ∈ duo.cur.lanes, (duo.cl n).level = duo.cur.level) ∧ Legal (handling .s 0) [] ∧
    (handling .s 0).Quiet 1 0 ∧ (∀ n ∈ (handling .s 0).cur.lanes, ((handling .s 0).cl n).level = .s) :=
  ⟨⟨by decide, by decide⟩, ⟨lane_every (·.held = none) (by decide) (by decide),
    lane_every (·.meetPt = none) (by decide) (by decide), rfl⟩, by decide, ⟨by decide, by decide⟩, handling_quiet _ _, by decide⟩

/-- `add v8, v16, v24` behind `rep 4, 2, da`, at its first and at its last repetition, and done. -/
def repeating (prog : Nat) : State := { duo with cur := { duo.cur with body := [0x011040C7], prog := prog } }

theorem witness_RepeatChoosesBody : Legal (repeating 0) [] ∧ (repeating 0).cur.prog < 4 ∧ repBad 4 2 3 (bodyOf (repeating 0).cur.body) = false ∧
    (stepBody (bodyOf (repeating 0).cur.body) 0 2 3).isSome = true ∧ (repeating 3).cur.prog < 4 ∧
    (stepBody (bodyOf (repeating 3).cur.body) 3 2 3).isSome = true ∧ 4 ≤ (repeating 4).cur.prog :=
  ⟨⟨by decide, by decide⟩, by decide, by decide, by decide, by decide, by decide, by decide⟩

/-- The same with the tiller of the block running. -/
def busyTiller : State := { duo with
  blocks := [(1, { blockOf (duo.warp 1 0) with tiller := { Tiller.idle with run := true, pc := 0x8000 } })] }

theorem witness_TillerForkJoin : duo.cur.agent ≠ .tiller ∧ duo.cur.lanes.Nodup ∧ duo.uguard u = true ∧ (duo.blk 1).tiller.run = false ∧
    (duo.gridOf 1).khdr.tentry ≠ 0 ∧ (duo.blk 1).pend = [] ∧ busyTiller.cur.agent ≠ .tiller ∧ busyTiller.uguard u = true ∧
    (busyTiller.blk 1).tiller.run = true := by decide

/-! #### Meets and memory -/

/-- The two lanes of `duo` meet with the mask in `s4:s5`. -/
theorem duo_together : Together duo 4 where
  agent := by decide
  some := by decide
  sorted := by decide
  lanes := by decide
  others := fget_every (fun n (l : Lane) => n ∉ duo.cur.lanes → (duo.ur2 4).getLsbD n = true → l.occ ≠ .live) (fun _ _ _ => by decide) (by decide)
  quiet := lane_every (fun l => l.held = none ∧ l.meetPt = none) (by decide) (by decide)

theorem witness_ShuffleVoteMatchResults : Together duo 4 ∧ (duo.gridOf 1).chained = false ∧
    duo.laneOk (grp 126 2 ++ grp 4 2 ++ shflRegs (.reg 2)) [4, 5] = true ∧ 6 < 7 ∧ Executing duo u (fun l => (l.rv 2).side = false) ∧
    duo.laneOk [] [4, 5] = true ∧ duo.laneOk [] [4, 5, 62, 63] = true ∧ duo.laneOk ([126, 127] ++ grp 4 2) [4, 5] = true :=
  ⟨duo_together, rfl, by decide, by decide, by unfold Executing; decide, by decide, by decide, by decide⟩

theorem witness_ScanResults : Together duo 4 ∧ (duo.gridOf 1).chained = false ∧
    Executing duo u (fun l => scanSrcPoison .f32 (l.group 2 SOp.lr.regs) = false) ∧ duo.laneOk (grp 126 SOp.lr.regs ++ grp 2 SOp.lr.regs) [4, 5] = true ∧
    duo.laneOk (grp 126 SOp.lr.regs ++ grp 2 SOp.lr.regs) ([4, 5] ++ grp 62 SOp.lr.regs) = true ∧
    duo.laneOk (grp 2 SOp.lr.regs) ([4, 5] ++ grp 62 SOp.lr.regs) = true :=
  ⟨duo_together, rfl, by unfold Executing; decide, by decide, by decide, by decide⟩

/-- Two neighbouring blocks of a chained grid; an entry stands in the first one's queue of the next side, or none does. -/
def chain (full : Bool) : State := { duo with
  grids := [(1, { grid with chained := true })]
  blocks := [(1, blockOf { duo.warp 1 0 with nextq := if full then [{ vals := [(0, cl 7)] }] else [] }),
             (2, { blockOf { Warp.empty with lanes := [(0, lane .u [] [])] } with lin := 1 })] }

theorem chain_parks (q : Bool) (c v i : Nat) : match ((chain q).lane c v i).park with | .runner _ _ _ _ => False | _ => True := by
  have h : ((chain q).lane c v i).park = .none := by
    show (fget Lane.empty (fget Warp.empty (fget Block.absent (chain q).blocks c).warps v).lanes i).park = .none
    refine fget_every (fun _ (l : Lane) => l.park = .none) (fun _ => rfl) ?_ i
    refine fget_every (fun _ (w : Warp) => ∀ e ∈ w.lanes, e.2.park = .none) (fun _ => by decide) ?_ v
    refine fget_every (fun _ (k : Block) => ∀ x ∈ k.warps, ∀ e ∈ x.2.lanes, e.2.park = .none) (fun _ => by decide) ?_ c
    cases q <;> decide
  rw [h]
  trivial

theorem chain_together (q : Bool) : Together (chain q) 4 where
  agent := duo_together.agent
  some := duo_together.some
  sorted := duo_together.sorted
  lanes := duo_together.lanes
  others := duo_together.others
  quiet := duo_together.quiet

theorem witness_RunnerResults : Together duo 4 ∧ duo.laneOk [] [4, 5] = true ∧ duo.neighbour 1 .next = none ∧ duo.laneOk [127] [4, 5] = true ∧
    Enterable duo 1 0 duo.cur.lanes 0x11 .s ∧ (duo.gridOf 1).chained = false ∧ (duo.blk 1).pend = [] :=
  ⟨duo_together, by decide, rfl, by decide, duo_enters _ (.inr rfl) _ (by decide), rfl, rfl⟩

theorem witness_RunnerResults_chained (q : Bool) : Together (chain q) 4 ∧ (chain q).laneOk [127] [4, 5] = true ∧
    (chain q).neighbour 1 .next = some 2 ∧ 2 ≠ 1 ∧ (chain q).gone 2 = false ∧
    (∀ c v i, match ((chain q).lane c v i).park with | .runner _ _ _ _ => False | _ => True) ∧
    (((chain q).warp 2 0).queue Dir.next.back).length + ((chain q).blk 1).hopsOf 0 .next < 8 ∧
    (((chain q).warp 1 0).queue .next ≠ [] ↔ q = true) :=
  ⟨chain_together q, by cases q <;> rfl, by cases q <;> rfl, by decide, by cases q <;> rfl, chain_parks q, by cases q <;> decide,
    by cases q <;> decide⟩

theorem chain_enters : Enterable (chain false) 1 0 [0, 1] 0x11 .s where
  some := by decide
  nodup := by decide
  point := ⟨.u, 0x1000, 0, by
      have : ((chain false).ctxOf 1).xdeleg = delegOnes := rfl
      simp only [targetLevel, this]; decide, by decide,
    fun _ => lane_every (fun l => l.occ = .live → l.level ≠ .s) (by decide) (by decide)⟩
  live := by decide
  free := by decide
  held := lane_every (·.held = none) (by decide) (by decide)
  scratch := by decide

/-- The end of a chain: no block stands before the first one. -/
theorem witness_RunnerResults_end : Together (chain false) 4 ∧ (chain false).laneOk [127] [4, 5] = true ∧ (chain false).neighbour 1 .prev = none ∧
    Enterable (chain false) 1 0 (chain false).cur.lanes 0x11 .s ∧ ((chain false).gridOf 1).chained = true ∧
    (∀ c v i, match ((chain false).lane c v i).park with | .runner _ _ _ _ => False | _ => True) ∧ ((chain false).blk 1).pend = [] :=
  ⟨chain_together false, rfl, rfl, chain_enters, rfl, chain_parks false, rfl⟩

/-- An operation that answers r, and leaves some state. -/
def Answers {α β : Type} (x : State × Except α β) (r : β) : Prop := ∃ s1, x = (s1, .ok r)

theorem answers {α β : Type} {x : State × Except α β} {r : β} (h : x.2 = .ok r) : Answers x r := ⟨x.1, Prod.ext rfl h⟩

/-- An operation that answers r and leaves a state of which P holds. -/
def AnswersIn {α β : Type} (x : State × Except α β) (r : β) (P : State → Prop) : Prop := ∃ s1, x = (s1, .ok r) ∧ P s1

theorem answersIn {α β : Type} {x : State × Except α β} {r : β} {P : State → Prop} (h : x.2 = .ok r) (hp : P x.1) : AnswersIn x r P :=
  ⟨x.1, Prod.ext rfl h, hp⟩

/-- No home recovers a line and no die has a poisoned clean copy; the pieces lie in HBM and on no `ordered` page. -/
def clear (s : State) (ps : List (Place × Nat × Nat)) : Bool :=
  s.suspects.isEmpty && s.homeq.isEmpty && (s.sites.all fun e => e.2.bad.isEmpty) && ps.all fun p => p.1.ord != 1 && s.paKind p.1.pa == .hbm

theorem clear_bad {s : State} (h : s.sites.all (fun e => e.2.bad.isEmpty) = true) (x sec : Nat) : fget false (s.site x).bad sec = false := by
  have e : (s.site x).bad = [] := fget_every (fun _ (y : Site) => y.bad = []) (fun _ => rfl)
    (fun e he => List.isEmpty_iff.1 (List.all_eq_true.1 h e he)) x
  rw [e]
  rfl

theorem clear_noSuspect {s : State} {ps : List (Place × Nat × Nat)} (h : s.suspects.isEmpty = true) (hq : s.homeq.isEmpty = true) :
    noSuspect s ps := fun _ _ _ _ => by
  rw [List.isEmpty_iff.1 h, List.isEmpty_iff.1 hq]
  exact ⟨rfl, List.forall_mem_nil _⟩

theorem clear_inHbm {s : State} {ps : List (Place × Nat × Nat)} (h : clear s ps = true) : inHbm s ps := by
  simp only [clear, Bool.and_eq_true, List.all_eq_true, bne_iff_ne, beq_iff_eq] at h
  exact ⟨clear_noSuspect h.1.1.1 h.1.1.2, fun p hp => ⟨(h.2 p hp).1, (h.2 p hp).2, fun l _ x sec _ => clear_bad (List.all_eq_true.2 h.1.2) x sec⟩⟩

theorem clear_places {s : State} {ps : List (Place × Nat × Nat)} (h : clear s ps = true) : ∀ p ∈ ps, p.1.ord ≠ 1 ∧ s.paKind p.1.pa = .hbm ∧
    ∀ l ∈ linesOf p.1.pa p.2.2, ∀ x sec, sec / 4 = l → fget false (s.site x).bad sec = false := (clear_inHbm h).2

/-- Where an address of level H lies. -/
def at_ (a : Nat) : Place := { pa := a, dom := 5, ord := 0, key := 0 }

theorem witness_GlobalLoadResults : Legal solo (grp 124 Ty.b128.regs ++ [4, 5]) ∧ acting solo u = [0] ∧ cleanPair (solo.cl 0) 4 ∧
    AnswersIn (solo.xlateLane 1 .h .load ((solo.cl 0).rd2 4 + (0xFFF0#16).signExtend 64) 16) [(at_ 0x1FF0, 0, 16)]
      (inHbm · [(at_ 0x1FF0, 0, 16)]) := by
  and_intros <;> first | decide | exact answers rfl | exact answersIn rfl (clear_inHbm (by decide))

/-- A misaligned store across a line splits; in a replayable grid a store is held. -/
theorem witness_GlobalStoreResults : Legal solo (grp 126 Ty.b64.regs ++ [4, 5]) ∧ acting solo u = [0] ∧ 0 < 64 ∧ cleanPair (solo.cl 0) 4 ∧
    AnswersIn (solo.xlateLane 1 .h .store ((solo.cl 0).rd2 4 + (0xFFFC#16).signExtend 64) 8) [(at_ 0x1FFC, 0, 4), (at_ 0x2000, 4, 4)]
      (inHbm · [(at_ 0x1FFC, 0, 4), (at_ 0x2000, 4, 4)]) ∧ solo.holding 1 = false ∧ (∀ p ∈ (solo.blk 1).pend, ¬(p.warp = 0 ∧ 0 ∈ p.lanes)) := by
  and_intros <;> first | decide | exact answers rfl | exact answersIn rfl (clear_inHbm (by decide))

/-- `solo` in a replayable grid. -/
def replaying : State := { solo with grids := [(1, { grid with replay := true })] }

theorem witness_GlobalStoreResults_held : Legal replaying (grp 126 Ty.b64.regs ++ [4, 5]) ∧ acting replaying u = [0] ∧ cleanPair (replaying.cl 0) 4 ∧
    AnswersIn (replaying.xlateLane 1 .h .store ((replaying.cl 0).rd2 4 + (0#16).signExtend 64) 8) [(at_ 0x2000, 0, 8)]
      (inHbm · [(at_ 0x2000, 0, 8)]) ∧ replaying.holding 1 = true ∧
    replaying.bufferHolds (replaying.siteOf 1) 1 [⟨0, [0], 0x2000, [1, 2, 3, 4, 5, 6, 7, 8], false, 0, false, 0⟩] = true := by
  and_intros <;> first | decide | exact answers rfl | exact answersIn rfl (clear_inHbm (by decide))

/-- `solo` with one store waiting. -/
def storing : State := { solo with
  blocks := [(1, { solo.blk 1 with pend := [⟨0, [0], 0x2000, [1, 2], false, 0, false, 0⟩] })] }

theorem witness_GlobalStoreResults_performed : (storing.blk 1).pend = [⟨0, [0], 0x2000, [1, 2], false, 0, false, 0⟩] ∧
    storing.paKind 0x2000 = .hbm ∧ 0x2000 + 2 ≤ 0x8000000000000 ∧ (∀ x ∈ storing.saves, x.2.2 ≤ storing.wcount) := by decide

/-- The last offset of the scratchpad is 4095; the block's own window begins at its rank. -/
theorem witness_ScratchpadResults : Legal solo (2 :: grp 126 Ty.b64.regs) ∧
    Executing solo u (fun l => (l.rv 2).side = false ∧ (((l.rd 2).toNat : Int) + (0xF78#16).toInt) % Ty.b64.bytes = 0 ∧
      0 ≤ ((l.rd 2).toNat : Int) + (0xF78#16).toInt ∧ ((l.rd 2).toNat : Int) + (0xF78#16).toInt + Ty.b64.bytes ≤ (solo.gridOf 1).khdr.scratch ∧
      (solo.blk 1).absentLine ((((l.rd 2).toNat : Int) + (0xF78#16).toInt).toNat / 128) = false) ∧
    acting solo u = [0] ∧ (solo.cl 0).rv 2 = { val := (solo.cl 0).rd 2, side := false } ∧
    solo.windowTarget 1 0x80 8 = .ok (.here 1 0x80) ∧ (solo.blk 1).absentLine 1 = false ∧ solo.holding 1 = false ∧
    0xFF8 / 2 ^ 20 = solo.rank 1 ∧ 0xFF8 / 2 ^ 20 < (solo.gridOf 1).gsize ∧ 0xFF8 % 2 ^ 20 + 8 ≤ (solo.gridOf 1).khdr.scratch := by
  and_intros <;> first | decide | exact rfl | exact answers rfl | (dsimp only [Legal, Executing, cleanPair, inHbm, noneWaits, savesOld]; decide)

theorem witness_AtomicResults : AOp.cas.tyOk .b64 = true ∧ AOp.add.tyOk .f32 = true ∧ acting solo u = [0] ∧
    Legal solo (grp 126 Ty.b64.regs ++ grp 4 2 ++ grp 6 Ty.b64.regs ++ grp 10 Ty.b64.regs) ∧ (solo.blk 1).pend = [] ∧ solo.holding 1 = false ∧
    atomPoison (solo.cl 0) .cas .b64 6 10 = false ∧ cleanPair (solo.cl 0) 4 ∧ ((solo.cl 0).rd2 4).toNat % Ty.b64.bytes = 0 ∧
    AnswersIn (solo.xlateLane 1 .h .atomic ((solo.cl 0).rd2 4) Ty.b64.bytes) [(at_ 0x2000, 0, 8)] (inHbm · [(at_ 0x2000, 0, 8)]) ∧
    (at_ 0x2000).pa + 8 ≤ 0x8000000000000 ∧ solo.poisonAt 0x2000 8 = false ∧ (∀ x ∈ solo.saves, x.2.2 ≤ solo.wcount) := by
  and_intros <;> first | decide | exact answers rfl | exact answersIn rfl (clear_inHbm (by decide))

/-- `cas` over zero with the comparand zero writes, with another fails; the same in scratchpad and through the window. -/
theorem witness_AtomicResults_local : ((solo.cl 0).rv 2).side = false ∧ ((solo.cl 0).rd 2).toNat % Ty.b64.bytes = 0 ∧
    ((solo.cl 0).rd 2).toNat / 2 ^ 20 = solo.rank 1 ∧ ((solo.cl 0).rd 2).toNat / 2 ^ 20 < (solo.gridOf 1).gsize ∧
    ((solo.cl 0).rd 2).toNat < 2 ^ 24 ∧ ((solo.cl 0).rd 2).toNat + 8 ≤ (solo.gridOf 1).khdr.scratch ∧ (solo.blk 1).absentLine (0x80 / 128) = false ∧
    ((solo.blk 1).getScratch 0x80 8).2 = false := by decide

/-- The line of an address of the host. -/
def hosting : State := { solo with
  blocks := [(1, blockOf { Warp.empty with lanes := [(0, lane .h [(4, cl 0), (5, cl 0x80000)] [])] })] }

theorem witness_CacheAndFenceResults : Legal solo [4, 5] ∧ acting solo u = [0] ∧ cleanPair (solo.cl 0) 4 ∧
    AnswersIn (solo.xlateLane 1 .h .load ((solo.cl 0).rd2 4 + (0#16).signExtend 64) 1) [(at_ 0x2000, 0, 1)] (noSuspect · [(at_ 0x2000, 0, 1)]) ∧
    solo.paKind 0x2000 = .hbm ∧
    Legal hosting [4, 5] ∧ acting hosting u = [0] ∧ cleanPair (hosting.cl 0) 4 ∧
    AnswersIn (hosting.xlateLane 1 .h .load ((hosting.cl 0).rd2 4 + (0#16).signExtend 64) 1) [(at_ 0x8000000000000, 0, 1)] (fun s1 =>
      noSuspect s1 [(at_ 0x8000000000000, 0, 1)] ∧ (s1.hline 0x100000000000).h0 = .i ∧ (s1.hline 0x100000000000).h1 = .i ∧
      s1.sites.all (fun e => e.2.dirty.isEmpty) = true) ∧ (at_ 0x8000000000000).dom = 5 ∧
    hosting.paKind (0x8000000000000 / 128 * 128) = .host ∧ (∀ n ∈ acting solo u, solo.heldScratch 1 0 n = false) ∧
    (solo.blk 1).pend = [] ∧ solo.holding 1 = false := by
  and_intros <;> first | decide | exact answersIn rfl ⟨clear_noSuspect rfl rfl, rfl, rfl, rfl⟩ | exact answersIn rfl (clear_noSuspect rfl rfl)

/-- `duo` with these barriers of the block. -/
def withBar (s : State) (x : Barrier) : State := s.setBar 1 false 15 x

theorem duo_gathered : Gathered duo where
  agent := by decide
  some := by decide
  sorted := by decide
  lanes := by decide
  others := fget_every (fun n (l : Lane) => n ∉ duo.cur.lanes → l.occ ≠ .live) (fun _ _ => by decide) (by decide)
  fresh := rfl

/-- Barrier 15 uninitialised, at rest, one arrival before the end of its phase, and two before it; of the block and of the group. -/
theorem witness_BarrierResults : 15 < (duo.gridOf 1).khdr.bars ∧ duo.cur.level = .u ∧ duo.uguard u = true ∧ (1#16) ≠ 0 ∧
    (duo.bar 1 false 15).init = false ∧ (duo.bar 1 true 15).init = false ∧
    (let s := withBar duo { init := true, exp := 2, cnt := 0, ph := 9 }
     (s.bar 1 false 15).init = true ∧ (s.bar 1 false 15).cnt = 0 ∧ s.barWaited 1 false 15 = false ∧ s.barNamed 1 15 = false ∧
     (s.blk 1).pend = [] ∧ (s.gridOf 1).chained = false ∧ (s.bar 1 false 15).cnt + 1 ≠ (s.bar 1 false 15).exp ∧ s.namesOk [] [63] = true ∧
     ¬(1 ≤ ((s.bar 1 false 15).ph - (s.bar 1 false 15).ph).toNat) ∧ 1 ≤ ((s.bar 1 false 15).ph - s.ur 4).toNat ∧
     ((s.bar 1 false 15).ph - s.ur 4).toNat ≤ 2 ^ 31) ∧
    (let s := withBar duo { init := true, exp := 1, cnt := 0, ph := 0xFFFFFFFF }
     (s.bar 1 false 15).cnt + 1 = (s.bar 1 false 15).exp) := by decide

theorem witness_BarrierResults_agents : Gathered duo ∧ tillering.cur.agent = .tiller ∧ 15 < (tillering.gridOf 1).khdr.bars ∧ tillering.uguard u = true :=
  ⟨duo_gathered, rfl, by decide, by decide⟩

theorem witness_UniformMemoryResults : solo.cur.agent ≠ .tiller ∧ solo.cur.lanes.Nodup ∧ solo.uguard u = true ∧
    solo.namesOk [] (grp 60 Ty.b128.regs ++ [6, 7]) = true ∧ noneWaits solo ∧ solo.cur.lanes ≠ [] ∧
    AnswersIn (solo.xlateLane 1 .h .load (solo.ur2 6 + (0#16).signExtend 64) 16) [(at_ 0x2000, 0, 16)]
      (fun s1 => inHbm s1 [(at_ 0x2000, 0, 16)] ∧ (entryReads s1 [(at_ 0x2000, 0, 16)]).2 = false) ∧
    AnswersIn (solo.xlateLane 1 .h .store (solo.ur2 6 + (0#16).signExtend 64) 16) [(at_ 0x2000, 0, 16)] (inHbm · [(at_ 0x2000, 0, 16)]) ∧
    solo.holding 1 = false ∧ AnswersIn (replaying.xlateLane 1 .h .store (0x2000 : DWord) 4) [(at_ 0x2000, 0, 4)] (inHbm · [(at_ 0x2000, 0, 4)]) ∧
    replaying.cur.lanes ≠ [] ∧ replaying.holding 1 = true ∧ replaying.namesOk [] [6, 7] = true ∧ replaying.uguard u = true ∧
    replaying.bufferHolds (replaying.siteOf 1) 1 [⟨0, [0], 0x2000, [0, 0, 0, 0], false, 0, false, 0⟩] = true := by
  and_intros <;> first | decide | exact answersIn rfl ⟨clear_inHbm (by decide), by decide⟩ | exact answersIn rfl (clear_inHbm (by decide)) | (dsimp only [noneWaits]; decide)

/-! #### Bounded loads, rounds, translations and events of threads -/

/-- The tables of a 32 MiB page at 0x2000000, of the domain 5, with this low byte of its leaf. -/
def wideOf (b : Byte) : FMap Byte :=
  [(0x100000, 1), (0x100001, 0x40), (0x100002, 0x10), (0x104000, 1), (0x104001, 0x80), (0x104002, 0x10), (0x108000, b), (0x108001, 2), (0x108003, 2)]

/-- The same at level U. -/
def wide : FMap Byte := wideOf 0xBF

/-- A block whose context's tables are these. -/
def walking (m : FMap Byte) : State := { duo with mem := m, ctxs := [(0, loadCtx)] }

/-- At level H, both sides of 2^52; below, an address that is not canonical; walks that end at an invalid entry of each level, at a page that
grants the access or does not, at a 32 MiB page; an access in two pieces of which the second fails. -/
theorem witness_GlobalLoadResults_translation : (0x2000 : DWord).toNat % 16 = 0 ∧ (0xFFFFFFFFFFFF0 : DWord).toNat < 2 ^ 52 ∧
    2 ^ 52 ≤ (0x10000000000000 : DWord).toNat ∧ (0x80000000000000 : DWord).toNat / 2 ^ 55 = 1 ∧ (0xFF80000000000000 : DWord).toNat / 2 ^ 55 = 0x1FF ∧
    (∀ m ∈ [tables 0xBF 0x02, tables 0x9F 0x02, wide], let s := walking m
      let e3 := s.readPte ((s.ctx (s.asidOf 1)).xptb.toNat * 2 ^ 14 + 8 * 0)
      let e2 := s.readPte (entryAddr e3 + 8 * 0)
      (s.part (s.ctx (s.asidOf 1)).part).xptb2 = 0 ∧ s.undo = [] ∧ (s.site (s.siteOf 1)).tlb1 = [] ∧
      (s.readPte ((s.ctx (s.asidOf 1)).xptb.toNat * 2 ^ 14 + 8 * 1)).getLsbD 0 = false ∧ tableEntry e3 ∧
      (s.readPte (entryAddr e3 + 8 * 1)).getLsbD 0 = false ∧ tableEntry e2 ∧
      (∀ j, j / 32 = 0 → (s.readPte (entryAddr e2 + 8 * j)).getLsbD 6 = false) ∧ (s.readPte (entryAddr e2 + 8 * 1)).getLsbD 0 = false) ∧
    (∀ b ∈ [0xBF, 0x9F], let s := walking (tables b 0x02)
      tableEntry (s.readPte 0x108000) ∧ entryAddr (s.readPte 0x108000) = 0x109000 ∧
      (∀ j, j / 32 = 0 → (s.readPte (0x109000 + 8 * j)).getLsbD 6 = false) ∧ (s.readPte (0x109000 + 8 * 2)).getLsbD 0 = false ∧
      leafEntry (s.readPte (0x109000 + 8 * 1)) (2 ^ 16)) ∧
    leafEntry ((walking wide).readPte 0x108000) (2 ^ 25) ∧ leafGrants ((walking wide).readPte 0x108000) loadCtx.xkey.toNat .u .fetch ∧
    leafGrants ((walking (tables 0xBF 0x02)).readPte 0x109008) loadCtx.xkey.toNat .u .atomic ∧
    ¬leafGrants ((walking (tables 0x9F 0x02)).readPte 0x109008) loadCtx.xkey.toNat .u .load ∧ (0x1FFFC : DWord).toNat % 8 ≠ 0 ∧
    ((walking (tables 0xBF 0x02)).walkVa 0 0 .u .load 0x1FFFC).2.isOk = true ∧
    (((walking (tables 0xBF 0x02)).walkVa 0 0 .u .load 0x1FFFC).1.walkVa 0 0 .u .load (0x1FFFC + BitVec.ofNat 64 (8 - 0x1FFFC % 8))).2.isOk = false ∧
    ((walking (tables 0xBF 0x02)).walkVa 0 0 .u .load 0x2FFFC).2.isOk = false := by
  have near : ∀ {s : State} {t : Nat}, (∀ j, j < 32 → (s.readPte (t + 8 * j)).getLsbD 6 = false) →
      ∀ j, j / 32 = 0 → (s.readPte (t + 8 * j)).getLsbD 6 = false := fun h j hj => h j (by omega)
  refine ⟨by decide, by decide, by decide, by decide, by decide, ?_, ?_, ?_⟩
  · intro m hm
    simp only [List.mem_cons, List.not_mem_nil, or_false] at hm
    rcases hm with rfl | rfl | rfl <;>
      exact ⟨rfl, rfl, rfl, by decide +kernel, by decide +kernel, by decide +kernel, by decide +kernel, near (by decide +kernel), by decide +kernel⟩
  · intro b hb
    simp only [List.mem_cons, List.not_mem_nil, or_false] at hb
    rcases hb with rfl | rfl <;>
      exact ⟨by decide +kernel, by decide +kernel, near (by decide +kernel), by decide +kernel, by decide +kernel⟩
  · and_intros <;> decide +kernel

/-- 19 Table 19.4: the 32 MiB page gives the offset in it. -/
theorem test_walk_wide : (match ((walking wide).xlateLane 1 .u .load 0x1234568 8).2 with
    | .ok [(p, _, n)] => p.pa == 0x3234568 && p.dom == 5 && n == 8
    | _ => false) = true := by decide +kernel

/-- Region 9 in slot 2 is the page at 0x10000: at round 7, which no die has heard of yet; the views of dies 0 and 3 are 5. -/
def regionNine : Region :=
  { id := 9, base := 0x10000, len := 65536, count := 7, views := [(0, 5), (3, 5)], notices := [(0, 6), (3, 6), (0, 7)] }

/-- A lane at level U with an address of that region, whose page is of domain 4; targets 5 and 6. -/
def rounding : State := { duo with
  mem := tables 0x3F 0x02
  blocks := [(1, blockOf { Warp.empty with lanes := [(0, lane .u [(4, cl 0x10100), (6, cl 5), (7, cl 6)] [])], s := [(4, 0x10100), (8, 5)] })]
  cur := { duo.cur with lanes := [0] }
  sites := [(0, { Site.nominal with stat := .active }), (3, { Site.nominal with stat := .active })]
  ctxs := [(0, { loadCtx with rcnt := 4, regions := [(2, regionNine)] })] }

/-- Where its address lies. -/
def bounded : Place := { pa := 0x200100, dom := 4, ord := 0, key := 0 }

theorem witness_BoundedLoadAndRoundResults :
    AnswersIn (rounding.xlateLane 1 .u .load (0x10100 : DWord) Ty.b128.bytes) [(bounded, 0, 16)] (fun s1 =>
      inHbm s1 [(bounded, 0, 16)] ∧ noCopy s1 bounded ∧ (entryReads s1 [(bounded, 0, 16)]).2 = false) ∧ (0x10100 : DWord).toNat % Ty.b128.bytes = 0 ∧
    bounded.pa % Ty.b128.bytes = 0 ∧ (rounding.ctxOf 1).regionAt 0x10100 = some 2 ∧
    Legal rounding (grp 124 Ty.b128.regs ++ [4, 5] ++ (Bound.target 6).regs) ∧ acting rounding u = [0] ∧ cleanPair (rounding.cl 0) 4 ∧
    (0x10100 : DWord) = (rounding.cl 0).rd2 4 + (0#16).signExtend 64 ∧
    ((rounding.cl 0).rv 6).side = false ∧ viewReached rounding 2 ((rounding.cl 0).rd 6) ∧ ((rounding.cl 0).rv 7).side = false ∧
    ¬viewReached rounding 2 ((rounding.cl 0).rd 7) ∧ rounding.cur.agent ≠ .tiller ∧ rounding.cur.given = none ∧ rounding.uguard u = true ∧
    rounding.namesOk [] (grp 60 Ty.b128.regs ++ [4, 5] ++ (Bound.target 8).regs) = true ∧ noneWaits rounding ∧
    (0x10100 : DWord) = rounding.ur2 4 + (0#16).signExtend 64 ∧ viewReached rounding 2 (rounding.ur 8) ∧
    ¬viewReached rounding 2 6 := by
  and_intros <;> first
    | decide
    | exact answersIn rfl ⟨clear_inHbm (by decide), by dsimp only [noCopy]; decide, by decide⟩
    | (dsimp only [Legal, cleanPair, noneWaits, viewReached]; decide)

/-- The same lane about to go on after a wait, with the target and the address that it read then. -/
def roundingLater : State := { rounding with cur := { rounding.cur with given := some (5, 0x10100) } }

theorem witness_BoundedLoadAndRoundResults_later :
    AnswersIn (roundingLater.xlateLane 1 .u .load (0x10100 : DWord) Ty.b32.bytes) [(bounded, 0, 4)] (fun s1 =>
      inHbm s1 [(bounded, 0, 4)] ∧ noCopy s1 bounded ∧ (entryReads s1 [(bounded, 0, 4)]).2 = false) ∧
    (roundingLater.ctxOf 1).regionAt 0x10100 = some 2 ∧ roundingLater.cur.given = some (5, 0x10100) ∧ noneWaits roundingLater ∧
    viewReached roundingLater 2 5 := by
  and_intros <;> first
    | decide
    | exact answersIn rfl ⟨clear_inHbm (by decide), by dsimp only [noCopy]; decide, by decide⟩
    | (dsimp only [noneWaits, viewReached]; decide)

/-- A round of the region at its last byte; its oldest notice to die 0 is round 6. -/
theorem witness_BoundedLoadAndRoundResults_rounds : Legal rounding [127, 6, 4, 5] ∧
    (rounding.ctxOf 1).regionAt ((rounding.cl 0).rd2 4 + (0xFEFF#16).signExtend 64) = none ∧
    (rounding.ctxOf 1).regionAt ((rounding.cl 0).rd2 4 + (0xFF00#16).signExtend 64) = some 2 ∧
    AnswersIn (rounding.xlateLane 1 .u .load ((rounding.cl 0).rd2 4 + (0xFF00#16).signExtend 64) 1) [({ bounded with pa := 0x200000 }, 0, 1)]
      (noSuspect · [({ bounded with pa := 0x200000 }, 0, 1)]) ∧
    AnswersIn (rounding.xlateLane 1 .u .store ((rounding.cl 0).rd2 4 + (0xFF00#16).signExtend 64) 1) [({ bounded with pa := 0x200000 }, 0, 1)]
      (noSuspect · [({ bounded with pa := 0x200000 }, 0, 1)]) ∧
    rounding.holding 1 = false ∧ (∀ p ∈ (rounding.blk 1).pend, ¬(p.warp = 0 ∧ 0 ∈ p.lanes)) ∧
    ((rounding.ctx 0).region 2).notices.find? (fun x => x.1 == 0) = some (0, 6) ∧ fget 0 ((rounding.ctx 0).region 2).views 0 < 6 := by
  and_intros <;> first | decide | exact answersIn rfl (clear_noSuspect rfl rfl)

/-- `solo` with a table of four region records at 0x10000, a page of level S: a free slot with a record that overlaps nothing, one with
a zero record, region 9 as it stands, and a second record of the id 9; k in `v2`. -/
def regions (k : Word) : State := { solo with
  mem := tables 0x9F 0x02 ++ [(0x200000, 5), (0x200004, 1), (0x20000A, 4), (0x200020, 9), (0x200024, 1), (0x20002A, 1), (0x200030, 9), (0x200034, 1), (0x20003A, 5)]
  blocks := [(1, blockOf { Warp.empty with lanes := [(0, lane .h [(2, cl k), (4, cl 0x2000)] [])] })]
  sites := [(0, { Site.nominal with stat := .active })]
  ctxs := [(0, { loadCtx with rcnt := 4, rtab := 0x10000, regions := [(2, regionNine)] })] }

/-- Where record k lies. -/
def record (k : Nat) : List (Place × Nat × Nat) := [({ pa := 0x200000 + 16 * k, dom := 5, ord := 0, key := 0 }, 0, 16)]

/-- What record k holds. -/
def recordValue (k : Nat) : Nat :=
  match k with
  | 0 => 0x400000000000100000005
  | 2 => 0x100000000000100000009
  | 3 => 0x500000000000100000009
  | _ => 0

theorem witness_TranslationAndRegionInvalidation : (∀ k, (regions k).cmdHolds (fun _ => true) = false ∧ acting (regions k) u = [0] ∧ (regions k).holding 1 = false ∧
      ((regions k).blk 1).pend = [] ∧ (regions k).cur.level = .h ∧ (regions k).cur.lanes.Nodup) ∧
    (regions 0).namesOk [126, 127] [] = true ∧ cleanPair ((regions 0).cl 0) 4 ∧ ((regions 0).cl 0).level ≠ .s ∧
    (∀ k ∈ [0, 1, 2, 3], AnswersIn ((regions 0).xlatePieces 0 0 .s .load false (((regions 0).ctxOf 1).rtab + BitVec.ofNat 64 (16 * k)) 16) (record k)
        fun s1 => inHbm s1 (record k) ∧ (laneReads s1 0 (record k)).2 = false ∧ leNat (laneReads s1 0 (record k)).1 = recordValue k) ∧
    ((regions 0).ctxOf 1).rcnt ≤ 4 ∧
    ((regions 0).ctxOf 1).regionOk 0 5 0x40000 65536 = true ∧ ((regions 0).ctxOf 1).regionOk 2 9 0x10000 65536 = true ∧
    ((regions 0).ctxOf 1).regionOk 3 9 0x50000 65536 = false := by
  refine ⟨fun k => ⟨rfl, rfl, rfl, rfl, rfl, show [0].Nodup by decide⟩, ?_⟩
  and_intros <;> first
    | decide
    | (intro k hk; simp only [List.mem_cons, List.not_mem_nil, or_false] at hk
       rcases hk with rfl | rfl | rfl | rfl <;> exact answersIn rfl ⟨clear_inHbm (by decide), by decide, by decide⟩)

/-- `mwait` with a timeout of 0 and of 5, on a line with no write that the lane has not seen; and a lane that waits for one. -/
theorem witness_WaitAndThreadEvents : Legal solo [126, 4, 5] ∧ acting solo u = [0] ∧ cleanPair (solo.cl 0) 4 ∧ ((solo.cl 0).rv 126).side = false ∧
    ((solo.cl 0).rv 1).side = false ∧
    AnswersIn (solo.xlateLane 1 .h .load ((solo.cl 0).rd2 4 + (0x7F#16).signExtend 64) 1) [(at_ 0x207F, 0, 1)]
      (noSuspect · [(at_ 0x207F, 0, 1)]) ∧ solo.paKind 0x207F = .hbm ∧
    (∀ p ∈ (solo.blk 1).pend, ¬(p.warp = 0 ∧ 0 ∈ p.lanes)) ∧ min ((solo.cl 0).rd 126).toNat (2 ^ 24) = 0 ∧ min ((solo.cl 0).rd 1).toNat (2 ^ 24) = 5 ∧
    solo.lineNew (solo.cl 0) 0x40 = false := by
  and_intros <;> first | decide | exact answersIn rfl (clear_noSuspect rfl rfl)

/-- One lane of level U that waits for a write to line 0x40, into which a write has come or has not. -/
def awaiting (new : Bool) : State := { duo with
  ver := if new then [(0x2040, 1)] else [], wcount := 1
  blocks := [(1, blockOf { Warp.empty with lanes := [(0, { lane .u [] [] with park := .mwait 0x40 0x12000 700 256, paused := 9 })] })] }

theorem awaiting_enters (c : Nat) (h : delegOnes.getLsbD c = false) : Enterable (awaiting false) 1 0 [0] c .s where
  some := by decide
  nodup := by decide
  point := ⟨.u, 0x1000, 0, by
    have : ((awaiting false).ctxOf 1).xdeleg = delegOnes := rfl
    simp only [targetLevel, this, h], by decide, fun _ => lane_every (fun l => l.occ = .live → l.level ≠ .s) (by decide) (by decide)⟩
  live := by decide
  free := by decide
  held := lane_every (·.held = none) (by decide) (by decide)
  scratch := by decide

theorem witness_WaitAndThreadEvents_waiting : (∀ new, (awaiting new).runs 1 = true ∧ ((awaiting new).lane 1 0 0).occ = .live ∧
      ((awaiting new).lane 1 0 0).park = .mwait 0x40 0x12000 700 256 ∧ (awaiting new).lineNew ((awaiting new).lane 1 0 0) 0x40 = new) ∧
    (∀ j, j ≠ 0 → ((awaiting false).lane 1 0 j).occ ≠ .live) ∧ ((awaiting false).gridOf 1).chained = false ∧
    Enterable (awaiting false) 1 0 [0] 0x0B .s :=
  ⟨fun new => by cases new <;> exact ⟨by decide, by decide, by decide, by decide⟩,
    fget_every (fun k (l : Lane) => k ≠ 0 → l.occ ≠ .live) (fun _ _ => by decide) (by decide), rfl, awaiting_enters _ (by decide)⟩

/-- An entry in hop to the next block. -/
def hopping : State := (chain false).modBlk 1 fun k => { k with hops := [(0, .prev, { vals := [] }), (0, .next, { vals := [(0, cl 7)] })] }

theorem witness_WaitAndThreadEvents_hop :
    (hopping.blk 1).hops.find? (fun h => h.1 == 0 && h.2.1 == .next) = some (0, .next, { vals := [(0, cl 7)] }) ∧
    hopping.neighbour 1 .next = some 2 ∧ 2 ≠ 1 ∧ hopping.gone 2 = false ∧
    (∀ c v i, match (hopping.lane c v i).park with | .runner _ _ _ _ => False | _ => True) := by
  refine ⟨by decide, rfl, by decide, rfl, fun c v i => ?_⟩
  have h : (hopping.lane c v i).park = .none := by
    show (fget Lane.empty (fget Warp.empty (fget Block.absent hopping.blocks c).warps v).lanes i).park = .none
    refine fget_every (fun _ (l : Lane) => l.park = .none) (fun _ => rfl) ?_ i
    refine fget_every (fun _ (w : Warp) => ∀ e ∈ w.lanes, e.2.park = .none) (fun _ => by decide) ?_ v
    refine fget_every (fun _ (k : Block) => ∀ x ∈ k.warps, ∀ e ∈ x.2.lanes, e.2.park = .none) (fun _ => by decide) (by decide) c
  rw [h]
  trivial

/-! #### The barrow and the tiller -/

/-- A tile of this place, shape and format, with `SMODE` and `SSEL` above it: rows × cols elements, rows `stride` bytes apart. -/
def tileHdr (off rows cols fmt stride : Nat) : Hdr :=
  BitVec.ofNat 128 (off + (rows - 1) * 2 ^ 32 + (cols - 1) * 2 ^ 40 + fmt * 2 ^ 48 + stride * 2 ^ 64)

/-- `solo` with a tile of 2 rows of 8 bytes in `h2`, base 0x2000, pitch 64 and x as the second word of its pair, and barrier 1. -/
def carrying (x : Word) : State := { solo with
  blocks := [(1, { blockOf { Warp.empty with lanes := [(0, lane .h [] [])], s := [(4, 0x2000), (6, 64), (7, x)] } with
    hdrs := [(2, tileHdr 0 2 8 1 64)], bars := [(1, { init := true, exp := 4, cnt := 0, ph := 3 })] })] }

/-- An operation that does not stop answers something. -/
theorem answers_some {α β : Type} {x : State × Except α β} (h : x.2.isOk = true) : ∃ r, Answers x r :=
  match h' : x.2 with
  | .ok r => ⟨r, answers h'⟩
  | .error e => by rw [h'] at h; exact nomatch h

/-- The order of a command with none. -/
def relaxed : CpOrd := { acq := false, rel := false, scope := .self }


/-- What an issue of this kind asks for. -/
def Issuable (x : Word) (k : CmdKind) (idx : List Nat) : Prop :=
  CmdFits (carrying x) (cmdOf (carrying x) k 2 4 6 1 relaxed .hdr false idx) ∧
  ∃ pages, Answers ((carrying x).planCmd 1 (cmdOf (carrying x) k 2 4 6 1 relaxed .hdr false idx)
    (cmdOf (carrying x) k 2 4 6 1 relaxed .hdr false idx).footprint) pages

theorem witness_BarrowCommandIssue : (∀ x, (carrying x).cur.agent ≠ .tiller ∧ (carrying x).uguard u = true ∧ noneWaits (carrying x) ∧
      (carrying x).holding 1 = false ∧ 1 < ((carrying x).gridOf 1).khdr.bars ∧ ((carrying x).bar 1 false 1).init = true ∧
      (carrying x).namesOk [] [4, 5, 6, 7] = true) ∧
    Issuable 1 .cin [] ∧ Issuable 1 .out [] ∧ Issuable 1 .grp [] ∧ Issuable 1 .red [] ∧ Issuable 4088 .gat [0, 0] ∧
    (∀ r, r < 16 → (cmdOf (carrying 1) .grp 2 4 6 1 relaxed .hdr false []).mask.getLsbD r = true → r < ((carrying 1).gridOf 1).gsize) ∧
    4088 % 4 = 0 ∧ 4088 + 4 * Hdr.rows (tileHdr 0 2 8 1 64) ≤ ((carrying 4088).gridOf 1).khdr.scratch ∧
    (∀ l ∈ linesOf 4088 8, ((carrying 4088).blk 1).absentLine l = false) ∧ (((carrying 4088).blk 1).getScratch 4088 8).2 = false ∧
    [0, 0] = (List.range (Hdr.rows (tileHdr 0 2 8 1 64))).map (fun i => leNat ((((carrying 4088).blk 1).getScratch 4088 8).1.drop (4 * i) |>.take 4)) := by
  refine ⟨?_, ⟨?_, ?_⟩, ⟨?_, ?_⟩, ⟨?_, ?_⟩, ⟨?_, ?_⟩, ⟨?_, ?_⟩, ?_, ?_, ?_, ?_, ?_, ?_⟩
  · exact fun x => ⟨fun h => Agent.noConfusion h, rfl, List.forall_mem_nil _, rfl, show 1 < 16 by decide, rfl, rfl⟩
  iterate 5
    · dsimp only [CmdFits]; decide
    · exact answers_some (by decide)
  all_goals decide

/-- The command of this kind with id 1 on that tile, its pages the physical ones. -/
def command (k : CmdKind) : Cmd := cmdOf (carrying 1) k 2 4 6 1 relaxed .hdr false []

/-- `carrying` with that command accepted; line 0 is its only line. -/
def moving (k : CmdKind) : State := (carrying 1).modBlk 1 fun b =>
  withCmd b (command k) (match k with | .out => some (.reader 1) | _ => some (.cmd 1 1))

/-- What a line of the `cp.out` brings to what its command keeps: the bytes read, with their addresses and poison. -/
def outBytes : List (Nat × Byte × Bool) := (command .out).data.getD [] ++ (command .out).readLine ((moving .out).blk 1) 0

theorem witness_BarrowMovement :
    (((moving .cin).blk 1).cmd 1 = some (command .cin) ∧ (command .cin).id = 1 ∧ (moving .cin).barrowRuns 1 = true ∧ (moving .cin).lineReady 1 (command .cin) 0 = true ∧
      inHbm (moving .cin) (linePieces (command .cin) 0) ∧ (((command .cin).bytesIn 0).map (·.1)).Nodup ∧ fget [] ((moving .cin).blk 1).lines 0 = [.cmd 1 1] ∧
      ((command .cin).bytesIn 0).length = 16) ∧
    (((moving .out).blk 1).cmd 1 = some (command .out) ∧ (moving .out).barrowRuns 1 = true ∧ (moving .out).lineReady 1 (command .out) 0 = true ∧
      inHbm (moving .out) (linePieces (command .out) 0) ∧ fget [] ((moving .out).blk 1).lines 0 = [.reader 1] ∧ (moving .out).holding 1 = false ∧
      savesOld (moving .out) ∧ (outBytes.map fun x => ((command .out).placeOf (BitVec.ofNat 64 x.1)).pa).Nodup ∧ (outBytes.map (·.1)).Nodup ∧
      (∀ x ∈ outBytes, x.1 < 2 ^ 64 ∧ ((command .out).placeOf (BitVec.ofNat 64 x.1)).ord ≠ 1 ∧
        (moving .out).paKind ((command .out).placeOf (BitVec.ofNat 64 x.1)).pa = .hbm ∧
        ((command .out).placeOf (BitVec.ofNat 64 x.1)).pa < 0x8000000000000 ∧ ((command .out).placeOf (BitVec.ofNat 64 x.1)).key = 0)) := by
  and_intros <;> first | decide | exact clear_noSuspect rfl rfl | exact clear_places (by decide) | (dsimp only [savesOld]; decide)

/-- A `cp.red` of one FP32 element at 0x2000, accepted. -/
def reducing : State :=
  let s := (carrying 1).modBlk 1 fun b => { b with hdrs := [(2, tileHdr 0 1 1 0 64)], scratch := [(2, 0x80), (3, 0x3F)] }
  s.modBlk 1 fun b => withCmd b (cmdOf s .red 2 4 6 1 relaxed .hdr false []) (some (.reader 1))

/-- That command. -/
def reduction : Cmd := ((reducing.blk 1).cmd 1).getD (command .red)

theorem witness_BarrowMovement_reduce : (reducing.blk 1).cmd reduction.id = some reduction ∧ reducing.barrowRuns 1 = true ∧
    reducing.lineReady 1 reduction 0 = true ∧ reduction.kind = .red ∧ reduction.width2 = 8 ∧ fget [] (reducing.blk 1).lines 0 = [.reader reduction.id] ∧
    reducing.holding 1 = false ∧ savesOld reducing ∧ reduction.chunksIn 0 = [(0, 0, 4)] ∧
    inHbm reducing (linePieces reduction 0 ++ [(reduction.placeOf (reduction.gva 0 0), 0, 4)]) ∧
    (reduction.placeOf (reduction.gva 0 0)).pa + 4 ≤ 0x8000000000000 ∧ ((reducing.blk 1).getScratch (Hdr.place reduction.hdr 0 0) 4).2 = false ∧
    leNat ((reducing.blk 1).getScratch (Hdr.place reduction.hdr 0 0) 4).1 = 0x3F800000 ∧
    reducing.poisonAt (reduction.placeOf (reduction.gva 0 0)).pa 4 = false ∧
    leNat (reducing.bytesAt (reduction.placeOf (reduction.gva 0 0)).key (reduction.placeOf (reduction.gva 0 0)).pa 4) ≠ 0x7FE05EED := by
  and_intros <;> first | decide | exact clear_noSuspect rfl rfl | exact clear_places (by decide) | (dsimp only [savesOld]; decide)

/-- The same command with all of its line moved; and `cp.grp` to the second block of the group, whose tile has been read. -/
def moved (k : CmdKind) : State := (carrying 1).modBlk 1 fun b => { b with cmds := [{ command k with lines := [0] }] }

/-- `cp.grp` to rank 1 with two bytes read. -/
def toSecond (d : Deliv) : Cmd :=
  { command .grp with mask := 2, data := some [(0, 7, false), (127, 8, true)], deliv := match d with | .waiting => [] | x => [(1, x)] }

/-- A group of two blocks, of which the first delivers that command to the second. -/
def delivering (d : Deliv) : State := { carrying 1 with
  grids := [(1, { grid with gsize := 2 })]
  blocks := [(1, { (carrying 1).blk 1 with cmds := [toSecond d] }),
             (2, { blockOf { Warp.empty with lanes := [(0, lane .u [] [])] } with lin := 1, lines := match d with | .waiting => [] | _ => [(0, [.cmd 1 1])] })] }

theorem witness_BarrowMovement_ends : (∀ k ∈ [CmdKind.cin, .grp], ((moved k).blk 1).cmd 1 = some { command k with lines := [0] } ∧
      (moved k).barrowRuns 1 = true ∧ (moved k).holding 1 = false) ∧ ({ command .cin with lines := [0] } : Cmd).allMoved = true ∧
    ({ toSecond .done with lines := [0] } : Cmd).allMoved = true ∧
    (∀ d ∈ [Deliv.waiting, .begun], ((delivering d).blk 1).cmd 1 = some (toSecond d) ∧ (delivering d).barrowRuns 1 = true ∧
      (toSecond d).kind = .grp ∧ (toSecond d).mask.getLsbD 1 = true ∧ (toSecond d).data = some [(0, 7, false), (127, 8, true)] ∧
      (delivering d).memberAt 1 1 = some 2 ∧ ((delivering d).blk 2).phase = .resident ∧ 2 ≠ 1 ∧ (delivering d).holding 1 = false ∧
      fget Deliv.waiting (toSecond d).deliv 1 = d) ∧
    (∀ e ∈ [(0, 7, false), (127, 8, true)], (e : Nat × Byte × Bool).1 / 128 ∈ (toSecond .begun).tileLines) ∧ (command .cin).ord.rel = false ∧
    (toSecond .begun).tileLines = [0] ∧ fget [] ((delivering .begun).blk 2).lines 0 = [.cmd 1 1] ∧ [0, 127].Nodup := by
  and_intros <;> decide

/-- A `cp.grp` of the block to itself, its tile read and its delivery not begun. -/
def toSelf : Cmd := { command .grp with mask := 1, data := some [(0, 7, false)] }

/-- `carrying` with that command accepted. -/
def delivered : State := (carrying 1).modBlk 1 fun b => withCmd b toSelf (some (.due 1))

theorem witness_BarrowMovement_own : (delivered.blk 1).cmd 1 = some toSelf ∧ delivered.barrowRuns 1 = true ∧ toSelf.kind = .grp ∧
    toSelf.mask.getLsbD 0 = true ∧ toSelf.data = some [(0, 7, false)] ∧ delivered.memberAt 1 0 = some 1 ∧ (delivered.blk 1).phase = .resident ∧
    delivered.holding 1 = false ∧ fget Deliv.waiting toSelf.deliv 0 = .waiting ∧ toSelf.tileLines = [0] ∧
    LineOp.cmd 1 1 ∉ fget [] (delivered.blk 1).lines 0 ∧ fget [] (delivered.blk 1).lines 0 = [.due toSelf.id] := by and_intros <;> decide

/-- The tiller of a block with operands of one row by 32 INT8 elements in `h2` and `h3`, a tile of 2 by 4 FP32 elements in `h4`, two
accumulator tiles and a latch. -/
def tilling : State := { tillering with
  blocks := [(1, { tillering.blk 1 with
    hdrs := [(2, tileHdr 0 1 32 5 128), (3, tileHdr 128 1 32 6 128), (4, tileHdr 256 2 4 5 64)], scratch := [(0, 3), (128, 5), (256, 1)]
    tiller := { Tiller.idle with run := true, pc := 0x8000, s := [(4, 0xFF0), (8, 9)], latch := some { hdr := 2, op := plainOperand (tillering.blk 1) (tileHdr 0 1 32 5 128) } } })] }

theorem witness_TillerInstructionResults : tilling.cur.agent = .tiller ∧ tilling.uguard u = true ∧
    (((tilling.ur 4).toNat : Int) + (0#16).toInt) % 16 = 0 ∧ 0 ≤ ((tilling.ur 4).toNat : Int) + (0#16).toInt ∧
    ((tilling.ur 4).toNat : Int) + (0#16).toInt + 16 ≤ (tilling.gridOf 1).khdr.scratch ∧ (tilling.blk 1).absentLine (0xFF0 / 128) = false ∧
    ((tilling.blk 1).getScratch 0xFF0 16).2 = false ∧ 1 < (tilling.gridOf 1).khdr.acc ∧ quietTile (tilling.blk 1) 1 ∧
    mmaOk ((tilling.blk 1).hdr 2) ((tilling.blk 1).hdr 3) false = true ∧ mmaOk ((tilling.blk 1).hdr 2) ((tilling.blk 1).hdr 3) true = true ∧
    (∀ h ∈ [2, 3], Hdr.smode ((tilling.blk 1).hdr h) = 0 ∧
      Hdr.inside ((tilling.blk 1).hdr h) (fmtWidth2 (Hdr.fmt ((tilling.blk 1).hdr h))) (tilling.gridOf 1).khdr.scratch = true ∧
      (tilling.blk 1).tileAbsent ((tilling.blk 1).hdr h) (fmtWidth2 (Hdr.fmt ((tilling.blk 1).hdr h))) = false) ∧
    (tilling.blk 1).tiller.flight.length < 4 ∧ (tilling.blk 1).tiller.loading = none ∧ allRead (tilling.blk 1) ∧ (tilling.blk 1).marred = [] ∧
    (∀ x ∈ Hdr.region ((tilling.blk 1).hdr 4) 4, fget false (tilling.blk 1).spoison (x.2.2 / 32) = false) ∧ (∀ cv ∈ [AccCv.b32, .bf16, .e4m3], Transfers tilling ((tilling.blk 1).hdr 4) cv.bytes) := by
  and_intros <;> first
    | decide
    | (dsimp only [quietTile, allRead]; decide)
    | (intro k hk; simp only [List.mem_cons, List.not_mem_nil, or_false] at hk
       rcases hk with rfl | rfl | rfl <;> (dsimp only [Transfers]; decide))

/-- `tilling` whose `accwr` into tile 1 reads the region of `h4`. -/
def loadingTile : State := tilling.modTiller 1 fun t =>
  { t with loading := some { tile := 1, hdr := (tilling.blk 1).hdr 4, cv := .b32, elems := (tilling.blk 1).regionElems ((tilling.blk 1).hdr 4) 4 } }

theorem witness_TillerInstructionResults_load : ∃ l : AccLoad, (loadingTile.blk 1).tiller.loading = some l ∧ (loadingTile.blk 1).tiller.flight = [] ∧
    Hdr.rows l.hdr ≤ 128 ∧ Hdr.cols l.hdr ≤ 128 ∧ (loadingTile.blk 1).regionElems l.hdr l.cv.bytes = l.elems :=
  ⟨_, rfl, rfl, by decide, by decide, rfl⟩

/-- Products of one row and one column, whose third element is poison or not. -/
def product (fmt : Nat) (poison : Bool) : MmaOp :=
  let op : Operand := { fmt := fmt, rows := 1, k := 32, smode := 0, scales := [],
                        elems := (List.range 32).map fun i => { val := BitVec.ofNat 32 i, side := poison && i == 2 } }
  { tile := 1, a := op, b := { op with elems := (List.range 32).map fun _ => cl 1 }, sat := false, ha := 0, hb := 0, afresh := true
    fill := false, reading := false, sa := [], sb := [] }

/-- `tilling` with them in flight. -/
def multiplying : State := tilling.modTiller 1 fun t => { t with flight := [product 5 true, product 1 false] }

theorem witness_MatrixProductResults : (multiplying.blk 1).tiller.flight = product 5 true :: [product 1 false] ∧ (product 5 true).a.rows ≤ 128 ∧
    (product 5 true).b.rows ≤ 128 ∧ allRead (multiplying.blk 1) ∧ (∀ x ∈ [product 5 true, product 1 false], x.fill = false) ∧ (product 5 true).a.poisoned 0 = true ∧ (product 5 true).b.poisoned 0 = false ∧
    (∀ fmt ∈ [5, 6, 0, 7], (product fmt false).a.smode = 0 ∧ (product fmt false).b.smode = 0 ∧ (product fmt false).a.k = 32 ∧
      (product fmt false).a.fmt = fmt ∧ (product fmt false).sat = false) := by
  and_intros <;> first | decide | (dsimp only [allRead]; decide)

/-- `tilling` with both operands scaled by E8M0 bytes, one for each row, of slot 1, whose bytes start at 0x10000, and this `EB`. -/
def scaling (eb : Nat) : State := { tilling with
  mem := wide ++ [(0x2010000, 127), (0x2010004, 130)], hbmTop := 0x4000000, ctxs := [(0, loadCtx)]
  blocks := [(1, { tilling.blk 1 with
    hdrs := [(2, tileHdr 0 1 32 0x411 128), (3, tileHdr 128 1 32 0x411 128)]
    tiller := { Tiller.idle with run := true, pc := 0x8000, slots := [(1, { scb := 0x10000, eb := BitVec.ofNat 32 eb, ssh := 5 })] } })] }

theorem scalesAbove_zero {h : Hdr} {sl : ScaleSlot} (e : sl.eb = 0) : scalesAbove h sl := fun _ _ _ _ _ => by
  rw [e]
  exact Nat.zero_le _

/-- An operand with E8M0 scales whose first block stands below `EB`. -/
theorem scalesAbove_not {h : Hdr} {sl : ScaleSlot} (m : Hdr.smode h = 1) (c : 0 < (Hdr.cols h + 32 - 1) / 32) (e : Hdr.off h < sl.eb.toNat) :
    ¬scalesAbove h sl := fun x => by
  have := x (by omega) 0 0 (Nat.succ_pos _) (by rw [if_pos m]; exact c)
  simp at this
  omega

/-- The state that reading `h2` of it leaves. -/
def readA : State := ((scaling 0).readOperand 1 ((scaling 0).blk 1 |>.hdr 2)).1

theorem witness_MatrixProductResults_scaled : (scaling 0).cur.agent = .tiller ∧ (scaling 0).uguard u = true ∧ 1 < ((scaling 0).gridOf 1).khdr.acc ∧
    (∀ eb ∈ [0, 1], mmaOk (((scaling eb).blk 1).hdr 2) (((scaling eb).blk 1).hdr 3) false = true ∧
      ∀ h ∈ [2, 3], Hdr.smode (((scaling eb).blk 1).hdr h) = 1 ∧ Hdr.ssel (((scaling eb).blk 1).hdr h) = 1) ∧
    (∀ h ∈ [2, 3], scalesAbove (((scaling 0).blk 1).hdr h) (((scaling 0).blk 1).tiller.slot 1)) ∧
    ¬scalesAbove (((scaling 1).blk 1).hdr 2) (((scaling 1).blk 1).tiller.slot 1) ∧
    (∀ h ∈ [2, 3], Hdr.inside (((scaling 0).blk 1).hdr h) (fmtWidth2 (Hdr.fmt (((scaling 0).blk 1).hdr h))) ((scaling 0).gridOf 1).khdr.scratch = true ∧
      ((scaling 0).blk 1).tileAbsent (((scaling 0).blk 1).hdr h) (fmtWidth2 (Hdr.fmt (((scaling 0).blk 1).hdr h))) = false) ∧
    ((scaling 0).blk 1).tiller.loading = none ∧ ((scaling 0).blk 1).tiller.flight.length < 4 ∧ ((scaling 0).blk 1).tiller.latch = none ∧
    ((scaling 0).readOperand 1 (((scaling 0).blk 1).hdr 2)).2.isOk = true ∧ (readA.readOperand 1 (((scaling 0).blk 1).hdr 3)).2.isOk = true ∧
    ((scaling 0).blk 1).tiller.scache = [] ∧ ((scaling 0).blk 1).hold = [] ∧ (scaling 0).undo = [] ∧
    AnswersIn ((scaling 0).xlate 0 0 .u .load true 0x10004) { pa := 0x2010004, dom := 5, ord := 0, key := 0 } (fun s1 =>
      inHbm s1 [({ pa := 0x2010004, dom := 5, ord := 0, key := 0 }, 0, 1)]) := by
  refine ⟨rfl, by decide, by decide, by decide +kernel, ?_, scalesAbove_not (by decide +kernel) (by decide +kernel) (by decide +kernel),
    by decide +kernel, rfl, by decide, rfl, by decide +kernel, by decide +kernel, rfl, rfl, rfl, answersIn rfl (clear_inHbm (by decide))⟩
  exact fun h _ => scalesAbove_zero rfl

/-! #### Work -/

/-- `solo` with the base 0x2000 in `s6:s7` and all of memory; the child's queue full or not. -/
def launching (full : Bool) : State := { solo with
  hbmTop := 0x100000, ctxs := if full then [(0, { Ctx.unbound with devq := [(0, List.replicate 4096 (recordOf []))] })] else [] }

theorem witness_LaunchInstructionResults : (∀ full, (launching full).cur.agent ≠ .tiller ∧ (launching full).uguard u = true ∧
      noneWaits (launching full) ∧ (launching full).holding 1 = false) ∧
    (launching false).cur.lanes.Nodup ∧ (launching false).namesOk [] [62, 63, 6, 7] = true ∧ (launching false).cur.lanes ≠ [] ∧
    ((launching false).ur2 6 + (0#16).signExtend 64).toNat % 64 = 0 ∧
    AnswersIn ((launching false).xlateLane 1 .h .store ((launching false).ur2 6 + (0#16).signExtend 64) 64) [(at_ 0x2000, 0, 64)]
      (inHbm · [(at_ 0x2000, 0, 64)]) ∧
    (∀ full, AnswersIn ((launching full).xlateLane 1 .h .load ((launching full).ur2 6 + (0#16).signExtend 64) 64) [(at_ 0x2000, 0, 64)] fun s1 =>
      inHbm s1 [(at_ 0x2000, 0, 64)] ∧ (entryReads s1 [(at_ 0x2000, 0, 64)]).2 = false ∧
      (recordOf (entryReads s1 [(at_ 0x2000, 0, 64)]).1).qpri = 0) ∧ ((launching false).gridOf 1).depth ≠ 9 ∧
    (fget [] ((launching false).ctx 0).devq 0).length < 4096 ∧ 4096 ≤ (fget [] ((launching true).ctx 0).devq 0).length ∧
    ((launching false).handles 0).length < 2 ^ 32 - 1 := by
  refine ⟨fun full => ⟨fun h => Agent.noConfusion h, rfl, List.forall_mem_nil _, rfl⟩, ?_⟩
  and_intros <;> first
    | exact Nat.le_of_eq (List.length_replicate (n := 4096) (a := recordOf [])).symm
    | decide
    | exact answersIn rfl (clear_inHbm (by decide))
    | exact fun full => by cases full <;> exact answersIn rfl ⟨clear_inHbm (by decide), rfl, rfl⟩

/-- The package up, with the Dibber, two dies, a kernel's header at 0x10200 of context 1, and a record of it at the port 3. -/
def queueing (r : LaunchRec) (full : Bool) : State := { State.reset with
  phase := .up, rdymap := 0x3FFFFFFFFFFFFF, hbmTop := 0x1000000
  mem := tables 0xBF 0x02 ++ [(0x200202, 1), (0x200223, 3), (0x200224, 70), (0x200226, 1), (0x200228, 1), (0x20022A, 16), (0x20022B, 16),
    (0x20022D, 4), (0x200231, 2), (0x200232, 4), (0x200234, 3), (0x200236, 1), (0x200300, 4)]
  sites := [(0, { Site.nominal with stat := .active }), (1, { Site.nominal with stat := .active }), (22, { Site.nominal with stat := .active }), (23, { Site.nominal with stat := .active })]
  ctxs := [(1, loadCtx)]
  ports := [(3, { Port.reset with enable := true, asid := 1, pcap := 2, q := if full then [r] else [] }), (4, { Port.reset with q := [r] })] }

/-- A launch of four blocks of it, at once or when the counter at 0x10300 has reached 5. -/
def launchRec (wait : Bool) : LaunchRec :=
  { recordOf [] with hdr := 0x10200, gx := 4, gy := 1, gz := 1, gsize := 1, qpri := 3, ctx := 1, lflags := if wait then 8 else 0, waddr := 0x10300, wval := 5 }

theorem witness_LaunchQueueResults : (queueing (launchRec false) false).phase ≠ .coldFrame ∧ (queueing (launchRec false) false).rdy 52 = true ∧
    (queueing (launchRec false) false).io ≠ .changeover ∧ ((queueing (launchRec false) false).port 3).q.length < 256 ∧
    ((queueing (launchRec false) false).port 3).enable = true ∧ ((queueing (launchRec false) false).port 63).enable = false ∧
    (∀ w, (queueing (launchRec w) true).dibberUp = true ∧ (∀ p ∈ [3, 4], (queueing (launchRec w) true).queue p = [launchRec w]) ∧
      ((queueing (launchRec w) true).ctx (launchRec w).ctx).bound = true ∧ (launchRec w).lflags.getLsbD 3 = w) ∧
    (launchRec true).waddr.toNat % 8 = 0 ∧
    (∃ bs, ((((queueing (launchRec true) true).comeTo 3).getD State.reset).agentRead 1 0x10300 8).2 = some bs ∧ leNat bs < (launchRec true).wval.toNat) ∧
    (∀ w, ((queueing (launchRec w) true).comeTo 3).isSome = true ∧
      (({ queueing (launchRec w) true with dlevel := 0 } : State).comeTo 4).isSome = true) ∧
    ((queueing (launchRec false) true).port 4).enable = false ∧ ((queueing (launchRec false) true).port 3).asid = 1 ∧
    (launchRec false).lflags.getLsbD 2 = false ∧ (launchRec false).parent = none ∧
    (((((queueing (launchRec false) true).comeTo 3).getD State.reset).setQueue 3 []).validate (launchRec false)).2.isOk = true := by
  and_intros <;> decide

/-- Records at the ports 3 and 5 of level 2 and at the port 4 of level 0; the pass is at level n, with these queues visited. -/
def passing (n : Nat) (vs : List Nat) : State := { queueing (launchRec false) true with
  dlevel := n, visited := vs
  ports := [3, 4, 5].map fun p => (p, { Port.reset with enable := true, asid := 1, pcap := if p = 4 then 0 else 2, q := [launchRec false] }) }

theorem witness_LaunchQueueResults_passes : (passing 2 []).dibberUp = true ∧ (passing 2 []).queueLevel 3 = some 2 ∧
    2 = (passing 2 []).dlevel ∧ 3 ∈ (passing 2 []).queues ∧ 3 ∉ (passing 2 []).visited ∧
    (passing 3 []).queueLevel 4 = some 0 ∧ 3 ∈ (passing 3 []).queues ∧ 3 ∉ (passing 3 []).visited ∧ (passing 3 []).queueLevel 3 = some 2 ∧
    0 < 2 ∧ 2 ≤ (passing 3 []).dlevel ∧ 5 ∈ (passing 2 [3]).queues ∧ 5 ∉ (passing 2 [3]).visited ∧
    (passing 2 [3]).queueLevel 5 = some (passing 2 [3]).dlevel ∧ 3 ∈ (passing 2 [3]).visited ∧
    (passing 2 []).served = none ∧ ((passing 2 []).comeTo 3).isSome = true ∧
    (({ passing 0 [3, 4, 5] with served := some (none, computeSites) } : State).comeTo 3).isSome = true := by and_intros <;> decide

/-- A context's descriptor at 0x3000: tables at 0x200000, trap vector 0x18000, ASID 7. -/
def binding : State := { State.reset with
  phase := .up, hbmTop := 0x1000000
  mem := [(0x3002, 0x20), (0x3009, 0x80), (0x300A, 1), (0x3010, 0xFF), (0x301A, 3), (0x3020, 5), (0x3022, 7), (0x3024, 3), (0x302A, 0x40), (0x3032, 0x10), (0x3038, 1)] }

theorem witness_LaunchQueueResults_bind : binding.phase = .up ∧ 255 < 256 ∧ binding.poisonAt 0x3000 128 = false ∧ binding.paKind 0x3000 = .hbm ∧ (binding.site home).bad = [] ∧
    (binding.site home).dirty = [] ∧
    (Machine.ctxOf 255 (binding.bytesAt 0 0x3000 128)).map (·.1) = some 7 ∧ binding.idleCtx 7 = true := by and_intros <;> decide

/-- A live grid of three blocks of 70 threads, of which one has started, while the Dibber serves the dies. -/
def starting : State := { queueing (launchRec false) false with
  grids := [(5, { Grid.absent with asid := 1, handle := 77, khdr := { loadKhdr with bx := 10, by_ := 7, dprio := 3 }, gx := 3, gy := 1, gz := 1, gsize := 1, phase := .live, next := 1 })]
  nextBlock := 9, nextGrid := 6, served := some (none, []) }

/-- Its second block, started on die 0, with every thread exited or not. -/
def started : State := after (exec (.blockStart 5 0 4) starting)
def exited : State := started.modBlk 9 fun k =>
  { k with warps := k.warps.map fun w => (w.1, { w.2 with lanes := w.2.lanes.map fun l => (l.1, { l.2 with occ := .exited }) }) }

/-- The same with die 0 past the drain of a planned fence; and with the block preempted by it. -/
def draining : State := { started with
  sites := fput started.sites 0 { started.site 0 with stat := .fencing, deadline := 100 }, clock := 100
  ctxs := [(1, { loadCtx with save := 0x40000, savesz := 0x1000000 })] }
def preempted : State := after (exec (.preemptBlock 9 .fence) draining)

theorem witness_BlockLifeResults_start : (starting.ctx (starting.grid 5).asid).sched = true ∧ starting.dibberUp = true ∧ starting.eligible 0 = true ∧
    (starting.grid 5).chained = false ∧ Pick.start 5 ∈ starting.nextBlocks 0 ∧ starting.fits 0 4 (starting.grid 5).khdr = true ∧
    (starting.serve 0).isSome = true ∧ ({ starting with served := none } : State).passOver = false ∧
    starting.queueLevel 4 = some 0 ∧ starting.nextBlocks 0 ≠ [] := by and_intros <;> decide

theorem witness_BlockLifeResults_retire : (exited.blk 9).phase = .resident ∧ (exited.blk 9).allExited = true ∧ (exited.blk 9).tiller.run = false ∧
    (exited.blk 9).cmds = [] ∧ (exited.blk 9).cancelled = [] ∧ (exited.blk 9).hops = [] ∧ (exited.blk 9).pend = [] ∧ exited.holding 9 = false ∧ exited.suspects = [] ∧
    (exited.gridOf 9).chained = false ∧ (exited.gridOf 9).retired + 1 < (exited.gridOf 9).total := by and_intros <;> decide

theorem witness_BlockLifeResults_preempt : (draining.site (draining.blk 9).site).stat = .fencing ∧
    (draining.site (draining.blk 9).site).deadline ≤ draining.clock ∧ draining.canPreempt 9 = true ∧ (draining.gridOf 9).chained = false ∧
    (draining.blk 9).pend = [] ∧ (draining.blk 9).tiller.flight = [] ∧ (draining.blk 9).tiller.loading = none ∧
    draining.findRoom (draining.gridOf 9).asid (draining.gridOf 9).khdr.imageBytes = some 0x40000 ∧
    draining.unbackedIn 0x40000 (draining.gridOf 9).khdr.imageBytes = none := by and_intros <;> decide

theorem draining_idle (c : Nat) : (draining.blk c).cmds = [] :=
  fget_every (fun _ (x : Block) => x.cmds = []) (fun _ => rfl) (by decide) c

theorem witness_BlockLifeResults_resume : (preempted.ctxOf 9).sched = true ∧ preempted.dibberUp = true ∧ preempted.eligible 1 = true ∧
    (preempted.blk 9).phase = .preempted ∧ (preempted.gridOf 9).chained = false ∧ Pick.resume 9 ∈ preempted.nextBlocks 1 ∧
    preempted.fits 1 6 (preempted.gridOf 9).khdr = true ∧
    (preempted.blk 9).image = some (0x40000, (preempted.gridOf 9).khdr.imageBytes, 1) ∧
    preempted.imageAltered 0x40000 (preempted.gridOf 9).khdr.imageBytes 1 = false ∧ (preempted.blk 9).cancelled = [] ∧
    (preempted.serve 1).isSome = true := by and_intros <;> decide

/-- The same when only core 7 of die 1 is left, on which another block of the context runs; `RESUME_MAX` is 50 µs. -/
def crowded : State := { preempted with
  sites := fput (fput preempted.sites 0 { preempted.site 0 with stat := .fenced }) 1
    { preempted.site 1 with retiredCores := (List.range 32).filter fun c => c != 7 && c != 31 }
  blocks := [(9, { preempted.blk 9 with limit := 50 }),
             (20, { preempted.blk 9 with phase := .resident, site := 1, core := 7, image := none })], nextBlock := 100 }

/-- A wait at its limit. -/
def waited (s : State) : State := s.reach ((s.blk 9).since + (usec (s.blk 9).limit - (s.blk 9).waited))

theorem witness_BlockLifeResults_resumeMax : preempted.dibberUp = true ∧ (preempted.blk 9).phase = .preempted ∧ (preempted.ctxOf 9).sched = true ∧
    (∃ d ∈ computeSites, (waited preempted).waitFits 9 d = true) ∧
    crowded.dibberUp = true ∧ (crowded.blk 9).phase = .preempted ∧ (crowded.ctxOf 9).sched = true ∧ (waited crowded).roomFor 9 = [1] ∧
    (waited crowded).tickFree.youngest ((waited crowded).tickFree.victims 9 1) = some 20 ∧
    ((waited crowded).tickFree.preempt 20).isSome = true ∧
    (((waited crowded).tickFree.preempt 20).getD State.reset).waitFits 9 1 = true := by and_intros <;> decide

/-! #### The Grafting Engine -/

/-- A live replica with this stamp and these references; an expert with these slots. -/
def replica (stamp ref : Nat) : Slot := { Slot.freeSlot with state := .live, stamp := stamp, ref := ref, sver := 4, site := 2 }
def expert (sl : FMap Slot) (merging : Bool) : Expert := { slots := sl, load := [], winLoad := 0, lastLoad := 0, merging := merging }

/-- A table of six experts in region 9 with these, and this work. -/
def table (es : FMap Expert) (w : List GWork) : GTab :=
  { GTab.unbound with bound := true, rbase := 0x20000, rstride := 0x1000, wbytes := 256, nexp := 6, sbound := 2, rgnid := 9, hot := 3, cold := 1
                      gelem := 32, gbase := 0x80000, gstride := 0x100, elog := 0x40000, elcnt := 16, ver := 7, experts := es, work := w }

/-- Expert 2 has a draining slot, a stale one, two that may serve, and one of ten rounds ago; slot 3 has the least `REF`. Expert 4 merges;
expert 5 has no free slot. -/
def tabOne : GTab := table
  [(2, expert [(1, { replica 9 1 with state := .draining }), (2, replica 1 0), (3, replica 7 1), (4, replica 9 1), (5, replica 12 4)] false),
   (4, expert [] true), (5, expert ((upto 1 15).map fun i => (i, replica 9 1)) false)] []

/-- `solo` with the engine up, tables 1, 2 (idle, its replicas too large for any die) and 3 (one live replica), the die's view of
region 9 at round 9, and a table's descriptor at 0x3000. -/
def grafting : State := { solo with
  rdymap := 0x3FFFFFFFFFFFFF, hbmTop := 0x1000000
  mem := [(0x3002, 2), (0x3009, 0x10), (0x3011, 1), (0x3014, 6), (0x3016, 2), (0x3018, 9), (0x301C, 3), (0x3020, 1), (0x3024, 32), (0x302A, 8), (0x3031, 1), (0x303A, 4), (0x3040, 16)]
  sites := [(0, { Site.nominal with stat := .active, gpart := 4 }), (1, { Site.nominal with stat := .active, gpart := 4 }), (22, { Site.nominal with stat := .active })]
  blocks := [(1, blockOf { Warp.empty with
    lanes := [(0, lane .h [(1, cl 2), (2, cl 0x10023), (3, cl 4), (4, cl 0x10023), (5, cl 0)] [])]
    s := [(4, 0x3000), (6, 2), (7, 3), (8, 5), (9, 9), (10, 3)] })]
  ctxs := [(0, { Ctx.unbound with
    regions := [(0, { Region.absent with id := 9, base := 0x10000, len := 0x100000, count := 12, views := [(0, 9)] })]
    tabs := [(1, tabOne), (2, { table [] [] with wbytes := 0x6000000 }), (3, table [(2, expert [(2, replica 9 0)] false)] [])] })] }

/-- The same with the engine down. -/
def ungrafted : State := { grafting with rdymap := 1 }

theorem grafting_enters (c : Nat) : Enterable grafting 1 0 [0] c .h where
  some := by decide
  nodup := by decide
  point := ⟨.h, 0x1000, 0, rfl, by decide, fun h => absurd rfl h⟩
  live := by decide
  free := by decide
  held := lane_every (·.held = none) (by decide) (by decide)
  scratch := by decide

/-- `grafting` with handles of table 1: in `v6:v7` of an expert out of range, in `v8:v9` of slot 2, to which nothing refers. -/
def handling3 : State := { grafting with blocks := [(1, blockOf { Warp.empty with
  lanes := [(0, lane .h [(3, cl 4), (6, cl 0x10063), (7, cl 1), (8, cl 0x10022), (9, cl 4)] [])] })] }

/-- Table 0 is not bound; of table 1, expert 4 merges and 6 is out of range; a table in use; a slot out of range; the engine gone. -/
theorem witness_SynchronousTraps_graft : Legal grafting (grp 124 4 ++ [1]) ∧ Enterable grafting 1 0 [0] 0x14 .h ∧ (grafting.tab 0 0).bound = false ∧
    (grafting.tab 0 1).bound = true ∧ Executing grafting u (fun l => (l.rv 1).side = false ∧ True) ∧
    Executing grafting u (fun l => (l.rv 2).side = false ∧ (grafting.tab 0 1).nexp ≤ (l.rd 2).toNat) ∧
    Executing grafting u (fun l => (l.rv 3).side = false ∧ (l.rd 3).toNat < (grafting.tab 0 1).nexp ∧
      ((grafting.tab 0 1).expert (l.rd 3).toNat).merging = true) ∧
    Legal handling3 [6, 7] ∧ (handling3.tab 0 0).bound = false ∧ (handling3.tab 0 1).bound = true ∧
    Executing handling3 u (fun l => cleanPair l 3 ∧ (handleParts (l.rd 3) (l.rd 4)).1 = 0 ∧ True) ∧
    Executing handling3 u (fun l => cleanPair l 6 ∧ (handleParts (l.rd 6) (l.rd 7)).1 = 1 ∧ (handling3.tab 0 1).nexp ≤ (handleParts (l.rd 6) (l.rd 7)).2.1) ∧
    Executing handling3 u (fun l => cleanPair l 8 ∧ (handleParts (l.rd 8) (l.rd 9)).1 = 1 ∧ (handleParts (l.rd 8) (l.rd 9)).2.1 < (handling3.tab 0 1).nexp ∧
      let sl := ((handling3.tab 0 1).expert (handleParts (l.rd 8) (l.rd 9)).2.1).slot (handleParts (l.rd 8) (l.rd 9)).2.2.1
      sl.holds (handleParts (l.rd 8) (l.rd 9)).2.2.2 = true ∧ sl.ref = 0) ∧
    grafting.cur.agent ≠ .tiller ∧ grafting.uguard u = true ∧ grafting.namesOk [] [4, 5, 4] = true ∧ grafting.namesOk [] [4, 5, 8] = true ∧
    grafting.graftUp = true ∧ ungrafted.graftUp = false ∧ grafting.cur.level ≠ .u ∧ (grafting.tab 0 1).nexp ≤ (grafting.ur 4).toNat ∧
    (grafting.tab 0 1).busy = true ∧ (grafting.ur 8).toNat < (grafting.tab 0 1).nexp ∧ 16 ≤ (grafting.ur 4).toNat := by
  and_intros <;> first | decide | exact grafting_enters _ | (unfold Executing; decide) | (unfold Executing cleanPair; decide)

theorem witness_RouteResults : Legal grafting [124, 125, 126, 127, 1] ∧ acting grafting u = [0] ∧ ((grafting.cl 0).rv 1).side = false ∧
    (grafting.tab 0 1).bound = true ∧ ((grafting.cl 0).rd 1).toNat < (grafting.tab 0 1).nexp ∧ ((grafting.tab 0 1).expert 2).merging = false ∧
    grafting.graftUp = true ∧ ungrafted.graftUp = false ∧ Legal ungrafted [124, 125, 126, 127, 1] ∧ acting ungrafted u = [0] ∧
    (∀ i ∈ [3, 4, 5], routable (grafting.tab 0 1) (((grafting.tab 0 1).expert 2).slot i) 9) ∧
    (∀ i ∈ [1, 2, 6, 15], ¬routable (grafting.tab 0 1) (((grafting.tab 0 1).expert 2).slot i) 9) := by
  and_intros <;> first | decide | (dsimp only [routable]; decide)

theorem witness_RouteResults_rdone : Legal grafting [2, 3] ∧ Legal grafting [4, 5] ∧ (grafting.cl 0).sideAny 2 2 = false ∧
    (grafting.cl 0).sideAny 4 2 = false ∧ (grafting.cl 0).rd 2 = BitVec.ofNat 32 (3 + 2 * 16 + 1 * 2 ^ 16) ∧
    (grafting.cl 0).rd 4 = BitVec.ofNat 32 (3 + 2 * 16 + 1 * 2 ^ 16) ∧ (grafting.cl 0).rd 5 = 0 ∧ (grafting.cl 0).rd 3 ≠ 0 ∧
    ((grafting.cl 0).rd 3 - (grafting.gslot 0 1 2 3).sver).toNat < 2 ^ 31 ∧ (grafting.gslot 0 1 2 3).ref ≠ 0 ∧
    (grafting.gslot 0 1 2 3).state = .live ∧ grafting.holding 1 = false ∧ (∀ p ∈ (grafting.blk 1).pend, ¬(p.warp = 0 ∧ 0 ∈ p.lanes)) := by
  and_intros <;> decide

theorem witness_GraftInstructionResults : grafting.cur.agent ≠ .tiller ∧ grafting.cur.lanes.Nodup ∧ grafting.uguard u = true ∧ noneWaits grafting ∧
    grafting.holding 1 = false ∧ grafting.namesOk [] [4, 5] = true ∧ grafting.graftUp = true ∧ grafting.cur.level ≠ .u ∧
    (grafting.ur2 4).toNat % 128 = 0 ∧ AnswersIn (grafting.xlateLane 1 .h .load (grafting.ur2 4) 128) [(at_ 0x3000, 0, 128)] (fun s1 =>
      inHbm s1 [(at_ 0x3000, 0, 128)] ∧ (entryReads s1 [(at_ 0x3000, 0, 128)]).2 = false ∧
      tabOf (entryReads s1 [(at_ 0x3000, 0, 128)]).1 = some { table [] [] with ver := 1 }) ∧ (grafting.tab 0 0).bound = false ∧
    (grafting.ctx 0).rootsInside { table [] [] with ver := 1 } = true ∧
    (grafting.tab 0 2).bound = true ∧ (grafting.tab 0 2).busy = false ∧ (grafting.tab 0 2).work = [] ∧
    grafting.namesOk [] [63, 6] = true ∧ (grafting.ur 6).toNat < (grafting.tab 0 1).nexp ∧ (grafting.ur 8).toNat < (grafting.tab 0 1).nexp ∧
    (∀ i, i < 16 → 1 ≤ i → (((grafting.tab 0 1).expert 5).slot i).state ≠ .free) ∧ (((grafting.tab 0 1).expert 2).slot 6).state = .free ∧
    (∀ j, j < 6 → 1 ≤ j → (((grafting.tab 0 1).expert 2).slot j).state ≠ .free) ∧ (grafting.chooseDie 0 1 2).isSome = true ∧
    grafting.chooseDie 0 2 2 = none ∧ (((grafting.tab 0 2).expert 2).slot 1).state = .free ∧
    grafting.namesOk [] [6, 9] = true ∧ grafting.namesOk [] [6, 7] = true ∧ (grafting.gslot 0 1 2 9).state = .free ∧
    (grafting.gslot 0 1 2 3).state = .live ∧ (grafting.gslot 0 1 2 3).ref ≠ 0 := by
  and_intros <;> first | decide | exact answersIn rfl ⟨clear_inHbm (by decide), by decide, by decide⟩ | (dsimp only [noneWaits]; decide)

/-- The five pieces of 64 bytes from 0x2FC0 on. -/
def spanOfFive : List Place := (List.range 5).map fun k => { at_ 0x2FC0 with pa := (at_ 0x2FC0).pa + 64 * k }

theorem witness_GraftInstructionResults_merge : (grafting.ur2 4).toNat % 8 = 0 ∧
    Answers (grafting.xlateLane 1 .h .atomic (grafting.ur2 4) 8) [(at_ 0x3000, 0, 8)] ∧ grafting.namesOk [] [6, 4, 5] = true ∧
    ((grafting.tab 0 1).expert 2).merging = false ∧ (∀ e, e < (grafting.tab 0 2).nexp → ((grafting.tab 0 2).expert e).merging = false) ∧
    (grafting.tab 0 2).replicas (fun sl => sl.state == .live) = [] ∧ (grafting.tab 0 3).replicas (fun sl => sl.state == .live) = [(2, 2)] ∧
    (grafting.ur2 4 + (0xFFC0#16).signExtend 64).toNat % 64 = 0 ∧
    AnswersIn (grafting.xlateSpan (grafting.ur2 4 + (0xFFC0#16).signExtend 64) .store 5) spanOfFive (fun s1 =>
      inHbm s1 (spanOfFive.map fun p => (p, 0, 64))) ∧ spanOfFive.length = 5 ∧ grafting.cur.lanes ≠ [] := by
  and_intros <;> first | decide | exact answers rfl | exact answersIn rfl (clear_inHbm (by decide))

/-- The engine with table 1 of context 0 as x. -/
def engine (x : GTab) : State := grafting.setTab 0 1 x

/-- A copy of expert 2's rootstock into slot 15, translated; it has failed so far in this way. -/
def copying (fail : Nat) : GTab :=
  let page : PageMap := { vpage := 2, ppage := 2, size1 := 65536, size2 := 0, ipage := none, key := 0, dom := 5, ord := 0, asid := 0, vmid := 0 }
  table [(2, expert [(15, { replica 9 0 with state := .copying, round := 11, foot := [(0x20000, 256)], fail := fail, held := [page] })] false)] []

/-- The same with a poisoned sector of the rootstock. -/
def marredCopy : State := { engine (copying 0) with poison := [(0x20080 / 32, true)] }

theorem witness_GraftEventResults_copy : (∀ fail ∈ [0, 4, 8], (engine (copying fail)).graftUp = true ∧ (engine (copying fail)).suspects = [] ∧
      ((engine (copying fail)).tab 0 1).bound = true ∧ ((engine (copying fail)).gslot 0 1 2 15).state = .copying ∧
      ((engine (copying fail)).gslot 0 1 2 15).foot = [(0x20000, 256)] ∧ ((engine (copying fail)).gslot 0 1 2 15).held.length = 1 ∧ ((engine (copying fail)).gslot 0 1 2 15).fail = fail ∧
      (engine (copying fail)).poisonFor 2 0x20000 256 = false) ∧ 15 ≠ 0 ∧ ((engine (copying 0)).gslot 0 1 2 15).site = 2 ∧
    marredCopy.graftUp = true ∧ marredCopy.suspects = [] ∧ (marredCopy.tab 0 1).bound = true ∧ (marredCopy.gslot 0 1 2 15).state = .copying ∧
    (marredCopy.gslot 0 1 2 15).fail = 0 ∧ ((marredCopy.gslot 0 1 2 15).foot.any fun f => marredCopy.poisonFor 2 f.1 f.2) = true := by
  and_intros <;> decide

/-- A merge of experts of which these are left to do, and a refresh whose slots have settled. -/
def merging (left : List Nat) : GTab := { table [(2, expert [] true)] [.merge (2 :: left) [1, 2, 4] 0x3000] with gbase := 0x10000, gelem := 8 }
def refreshing : GTab := table [] [.refresh [] 0x3000]

/-- The engine with the first, its gradients on a page of level S. -/
def gradients (left : List Nat) : State := { engine (merging left) with
  mem := wideOf 0x9F, hbmTop := 0x4000000, ctxs := [(0, { (engine (merging left)).ctx 0 with xptb := 0x40 })] }

/-- The places of the 16 buffers of expert 2: one page. -/
def gradPages : List (Nat × Place) := (List.range 16).map fun i => (0x10000, { pa := 0x2012000 + 256 * i, dom := 5, ord := 0, key := 0 })

/-- A place of the same address and attributes. -/
def samePlace (p q : Place) : Bool := p.pa == q.pa && p.dom == q.dom && p.ord == q.ord && p.key == q.key

theorem samePlace_eq {p q : Place} (h : samePlace p q = true) : p = q := by
  obtain ⟨pa, dom, ord, key⟩ := p
  simp only [samePlace, Bool.and_eq_true, beq_iff_eq] at h
  obtain ⟨⟨⟨rfl, rfl⟩, rfl⟩, rfl⟩ := h
  rfl

/-- Pages of the same addresses and attributes. -/
def samePages : List (Nat × Place) → List (Nat × Place) → Bool
  | [], [] => true
  | (v, p) :: r, (w, q) :: t => v == w && samePlace p q && samePages r t
  | _, _ => false

theorem samePages_eq : ∀ {a b : List (Nat × Place)}, samePages a b = true → a = b
  | [], [], _ => rfl
  | (v, p) :: r, (w, q) :: t, h => by
    simp only [samePages, Bool.and_eq_true, beq_iff_eq] at h
    rw [h.1.1, samePlace_eq h.1.2, samePages_eq h.2]

theorem gradPages_same : ∀ i, i < 16 → ∀ j, j < 8 → samePlace (gradAt (gradients []) 0 1 2 gradPages i j)
    { pa := 0x2012000 + 4 * j + 256 * i, dom := 5, ord := 0, key := 0 } = true := by decide +kernel

theorem gradPages_at (i : Nat) (hi : i < 16) (j : Nat) (hj : j < 8) : gradAt (gradients []) 0 1 2 gradPages i j =
    { pa := 0x2012000 + 4 * j + 256 * i, dom := 5, ord := 0, key := 0 } := samePlace_eq (gradPages_same i hi j hj)

/-- What the translation of the buffers leaves. -/
theorem gradPages_ok : (match (gradients []).mergePages 0 1 2 (upto 0 16) with
    | (s1, .ok ps) => samePages ps gradPages && s1.saves.isEmpty && s1.hbmTop == 0x4000000
    | _ => false) = true := by decide +kernel

theorem gradients_merge : ((gradients []).mergeExpert 0 1 2).2 = true := by
  have h := gradPages_ok
  unfold State.mergeExpert
  generalize (gradients []).mergePages 0 1 2 (upto 0 16) = r at h ⊢
  obtain ⟨s1, r⟩ := r
  cases r with
  | error e => exact nomatch h
  | ok ps => rfl

/-- One merge has a single expert left, one has two; a refresh has none to wait for. -/
theorem witness_GraftEventResults_work : ((gradients []).tab 0 1).work = [.merge [2] [1, 2, 4] 0x3000] ∧ ((gradients []).mergeExpert 0 1 2).2 = true ∧
    ((gradients [4]).tab 0 1).work = [.merge [2, 4] [1, 2, 4] 0x3000] ∧ ((gradients [4]).mergeExpert 0 1 2).2 = true ∧
    (∀ j, j < 16 → (((merging []).expert 2).slot j).ref = 0) ∧ (∀ left ∈ [[], [4]], (gradients left).suspects = [] ∧ (gradients left).engineUp = true) ∧
    ((engine refreshing).tab 0 1).work = [.refresh [] 0x3000] ∧ (engine refreshing).suspects = [] ∧ (engine refreshing).engineUp = true ∧
    ungrafted.engineUp = false :=
  ⟨rfl, gradients_merge, rfl, by decide +kernel, by decide, by decide, rfl, rfl, by decide, by decide⟩

/-- Each buffer has 8 elements in a sector of its own. -/
theorem witness_GraftEventResults_sum : AnswersIn ((gradients []).mergePages 0 1 2 (upto 0 16)) gradPages (fun s1 => s1.saves = [] ∧
      ∀ i j, i < 16 → j < 8 → let pl := gradAt (gradients []) 0 1 2 gradPages i j
        s1.paKind pl.pa = .hbm ∧ pl.pa + 32 ≤ 0x8000000000000 ∧ pl.key = (gradAt (gradients []) 0 1 2 gradPages 0 0).key) ∧
    ((gradients []).tab 0 1).gelem = 8 ∧ (∀ i, i < 16 → (((gradients []).tab 0 1).buf 2 i).toNat % 32 = 0) ∧
    (∀ i j k l, i < 16 → j < 8 → k < 16 → l < 8 → (gradAt (gradients []) 0 1 2 gradPages i j).pa / 32 =
      (gradAt (gradients []) 0 1 2 gradPages k l).pa / 32 → i = k ∧ j / 8 = l / 8) := by
  refine ⟨?_, rfl, by decide, fun i j k l hi hj hk hl h => ?_⟩
  · have h := gradPages_ok
    generalize (gradients []).mergePages 0 1 2 (upto 0 16) = r at h ⊢
    obtain ⟨s1, r⟩ := r
    cases r with
    | error e => exact nomatch h
    | ok ps =>
      simp only [Bool.and_eq_true, beq_iff_eq, List.isEmpty_iff] at h
      obtain ⟨⟨same, saves⟩, top⟩ := h
      obtain rfl := samePages_eq same
      refine ⟨s1, rfl, saves, fun i j hi hj => ?_⟩
      rw [gradPages_at i hi j hj, gradPages_at 0 (by decide) 0 (by decide)]
      refine ⟨?_, ?_, rfl⟩
      · simp only [State.paKind, top]
        rw [if_pos (by omega)]
      · show 0x2012000 + 4 * j + 256 * i + 32 ≤ _
        omega
  · rw [gradPages_at i hi j hj, gradPages_at k hk l hl] at h
    simp only at h
    omega

/-- A hot expert with a cold slot and a free one; a table whose policy works by itself. -/
def busyTab : GTab := { table [(2, { expert [(1, { replica 9 1 with whole := true, hits := 0 })] false with load := [(0, 3), (1, 1)], winLoad := 4 })] [] with
  auto := true }

theorem witness_GraftEventResults_window : ((engine busyTab).tab 0 1).hot < ((((engine busyTab).tab 0 1).expert 2).load.map fun l => l.2).sum ∧
    ((upto 1 15).filter fun i => ((((engine busyTab).tab 0 1).expert 2).slot i).state == .free).head? = some 2 ∧
    ((engine busyTab).chooseDie 0 1 2).isSome = true ∧ (engine busyTab).graftUp = true ∧ (0, 1) ∈ (engine busyTab).boundTabs ∧
    (engine busyTab).boundTabs.Nodup ∧ ((engine busyTab).tab 0 1).bound = true ∧ State.reset.boundTabs = [] := by and_intros <;> decide

/-! #### The package -/

/-- A package with sites 1 (this) and 2 (off), and nothing else. -/
def package (p : PPhase) (st : SStat) : State := { State.reset with
  phase := p, sites := [(1, { Site.nominal with stat := st, dirty := [(16, true)], deadline := 900 }), (2, { Site.nominal with stat := .off })] }

/-- Every declared site and stack. -/
def allSites : BitVec 24 := BitVec.ofNat 24 ((List.range 24).foldl (fun a n => a + (if State.reset.declared n then 2 ^ n else 0)) 0)
def allStacks : BitVec 12 := BitVec.ofNat 12 ((List.range 12).foldl (fun a n => a + (if State.reset.declared (24 + n) then 2 ^ n else 0)) 0)

theorem package_empty (p : PPhase) (st : SStat) (b : Nat) : ((package p st).blk b).phase ≠ .preempted := fun h => nomatch h

theorem package_untold (p : PPhase) (st : SStat) : untold (package p st) := ⟨show (0 : DWord).getLsbD 0 = false by decide, show (0 : DWord).getLsbD 0 = false by decide, fun _ => rfl⟩

theorem witness_BootAndFenceResults : ((package .up .active).site 1).stat = .active ∧ (package .booting .active).phase = .booting ∧
    (∀ n, n < 24 → allSites.getLsbD n = (package .booting .active).declared n) ∧
    (∀ k, k < 12 → allStacks.getLsbD k = (package .booting .active).declared (24 + k)) ∧
    (package .booting .active).declared 1 = true ∧ (allSites &&& ~~~2).getLsbD 1 = false ∧
    (∀ n ∈ [2, 54, 55], (package .up .active).rdy n = false) ∧ (package .up .active).capLog = false ∧ (package .up .active).declared 2 = true ∧
    ((package .up .active).site 2).stat = .off ∧ (package .up .fencing).onDie 1 = [] ∧ (package .up .active).onDie 1 = [] ∧
    ((package .up .fencing).site 1).stat = .fencing ∧ (package .up .fencing).boundTabs = [] ∧ (package .up .fenced).mayJoin 16 = true ∧
    (package .up .fenced).capLog = false := by and_intros <;> decide

/-- A site and a stack that are declared and did not train; a package without site 3 and stack 5 in which they trained. -/
theorem witness_BootAndFenceResults_cold : (∃ k, k < 12 ∧ (0x10B : Nat) = 0x100 + k ∧ (package .booting .active).declared (24 + k) = true ∧
      (allStacks &&& ~~~0x800).getLsbD k = false) ∧
    (let s : State := { package .booting .active with straps := leBytes (package .booting .active).straps.length (leNat (package .booting .active).straps - 0x20000008) }
     s.phase = .booting ∧ s.declared 3 = false ∧ s.declared (24 + 5) = false ∧ allSites.getLsbD 3 = true ∧ allStacks.getLsbD 5 = true) := by
  refine ⟨⟨11, ?_⟩, ?_⟩ <;> decide

/-- A package, before its first record or after it, with items that become ready. -/
def readying (log : Bool) : State := { package .up .active with capLog := log, sites := (package .up .active).sites ++ [(22, { Site.nominal with stat := .active })], rdymap := 0x400000 }

theorem witness_BootAndFenceResults_ready : ∀ log, (readying log).phase = .up ∧ (readying log).capLog = log ∧ untold (readying log) ∧
    (∀ n ∈ [2, 18, 24, 35, 36, 51, 52, 53, 54, 55], (readying log).rdy n = false) ∧ (∀ n ∈ [2, 18, 24, 35], (readying log).declared n = true) ∧
    ((readying log).site 2).stat = .off ∧ ((readying log).site 18).stat = .off ∧ (readying log).losses = [] ∧
    (∀ n ∈ [22, 23], ((readying log).site n).stat ≠ .fenced) ∧ ({ readying log with io := .changeover } : State).io = .changeover ∧
    (∀ p ∈ [0, 15], ((readying log).peer p).disabled = false) ∧ (readying log).io = .primary ∧ (readying log).rdy 22 = true := fun log => by
  cases log <;> exact ⟨rfl, rfl, ⟨by decide, by decide, fun _ => rfl⟩, by decide, by decide, rfl, rfl, rfl, by decide, rfl, by decide, rfl, by decide⟩

/-- The primary I/O die fenced, the other active; and the change begun. -/
def changing : State := { package .up .active with
  sites := [(22, { Site.nominal with stat := .fenced }), (23, { Site.nominal with stat := .active })] }

theorem witness_BootAndFenceResults_io : (changing.site 22).stat = .fenced ∧ changing.io = .primary ∧ (changing.site 23).stat = .active ∧
    (∀ c ∈ changing.ctxs, c.2.tabs = []) ∧ ({ changing with io := .changeover } : State).io = .changeover := by and_intros <;> decide

/-- An I/O die, of the two, in use. -/
def ioDies : State := { package .up .active with
  rdymap := 0x30000000C00000, sites := [(22, { Site.nominal with stat := .active }), (23, { Site.nominal with stat := .active })] }

theorem witness_BootAndFenceResults_ioFence : (∀ n ∈ [22, 23], (ioDies.site n).stat = .active ∧ ioDies.onDie n = []) ∧ ioDies.boundTabs = [] ∧
    ioDies.io = .primary ∧ ioDies.rdy 52 = true ∧ ioDies.rdy 53 = true ∧ untold ioDies ∧ ∀ b, (ioDies.blk b).phase ≠ .preempted := by
  refine ⟨by decide, rfl, rfl, by decide, by decide, ⟨by decide, by decide, fun _ => rfl⟩, fun b h => nomatch h⟩

/-- The first record published, at generation 5; every site and stack ready; channels 3 and 4 lost, the loss of channel 4 not re-hashed. -/
def counted : State := { package .up .active with
  capLog := true, rdymap := 0xFFFFFFFFF, hbmTop := 0x100000, cap := { State.reset.cap with gen := 5 }
  losses := [{ ch := 3, gen := 4, abrupt := false, shrink := some (0x1000, 0x2000), acked := false, done := false, placing := State.reset.placing, good := [] },
             { ch := 4, gen := 5, abrupt := true, shrink := none, acked := false, done := false, placing := State.reset.placing, good := [] }]
  sites := [(1, { Site.nominal with stat := .active, gpart := 4, rows := [(5, 31), (6, 32)] }), (19, { Site.nominal with stat := .active, rows := [(5, 32)] })] }

/-- With a notice ring of 16 entries, its next place the last, with room for one more or none. -/
def ringing (full : Bool) : State := { counted with
  bar2 := { counted.bar2 with nrbase := 0x1001, nrsize := 4, nrtail := 31, nrhead := if full then 15 else 16, nrvec := 0x805 } }

theorem witness_CapacityEventResults : untold (package .up .active) ∧ untold counted ∧ (ringing false).bar2.nrbase.getLsbD 0 = true ∧
    (List.replicate 32 (7 : Byte)).length = 32 ∧ (∀ l, (ringing false).hline l = { h0 := .i, h1 := .i }) ∧
    ((ringing false).bar2.nrtail - (ringing false).bar2.nrhead).toNat ≠ 2 ^ (ringing false).bar2.nrsize ∧
    (∀ l, (ringing true).hline l = { h0 := .i, h1 := .i }) ∧ (ringing true).bar2.nrbase.getLsbD 0 = true ∧
    ((ringing true).bar2.nrtail - (ringing true).bar2.nrhead).toNat = 2 ^ (ringing true).bar2.nrsize ∧
    (383 < 384) ∧ counted.rdy (24 + 383 / 32) = true ∧ (∀ l ∈ counted.losses, l.ch ≠ 383) ∧ counted.cap.gen ≠ 0xFFFFFFFF ∧
    counted.paKind (0 * 32) = .hbm ∧ counted.phase = .up ∧ 1 ≤ ((6 : Word) - counted.cap.gen).toNat ∧ ((6 : Word) - counted.cap.gen).toNat < 2 ^ 31 ∧
    ¬(1 ≤ ((5 : Word) - counted.cap.gen).toNat) ∧ ¬(((4 : Word) - counted.cap.gen).toNat < 2 ^ 31) ∧ ((5 : Word) - 4).toNat < 2 ^ 31 := by
  refine ⟨package_untold _ _, ⟨show (0 : DWord).getLsbD 0 = false by decide, show (0 : DWord).getLsbD 0 = false by decide, fun _ => rfl⟩, ?_, ?_, fun _ => rfl, ?_, fun _ => rfl, ?_⟩ <;> decide

/-- All lines over three channels; the re-hash of channel 4 has moved every line of channel 3. -/
def rehashing : State := { counted with placing := { lay := { gen := 1, chans := [3, 4, 383] }, re := some { ch := 4, next := { gen := 5, chans := [3] }, marks := [(3, 0x2000)] } } }

/-- The re-hash of the loss of channel 4, which is ready where that of channel 3 is not, begun and under way. -/
theorem witness_CapacityEventResults_changes : counted.placing.re = none ∧
    counted.losses = counted.losses.take 1 ++ { ch := 4, gen := 5, abrupt := true, shrink := none, acked := false, done := false,
                                                placing := State.reset.placing, good := [] } :: [] ∧
    (∀ x ∈ counted.losses.take 1, x.done = true ∨ (x.shrink ≠ none ∧ x.acked = false)) ∧
    rehashing.placing.re = some { ch := 4, next := { gen := 5, chans := [3] }, marks := [(3, 0x2000)] } ∧ 4 ∈ rehashing.placing.lay.chans ∧
    fget 0 ([(3, 0x2000)] : FMap Nat) 4 * 128 < rehashing.hbmTop ∧
    (∀ d, d < 4 → d ∈ rehashing.placing.lay.chans → rehashing.hbmTop ≤ fget 0 ([(3, 0x2000)] : FMap Nat) d * 128) ∧
    (∃ d, ({ gen := 1, chans := [4] } : Lay).chan 0 = some d) ∧
    (counted.site 1).stat = .active ∧ 1000 ≤ 1000 ∧ 999 < 1000 ∧ counted.bankLeft 1 5 false = true ∧ fget 0 (counted.site 1).rows 5 < 32 ∧
    counted.bankLeft 1 6 false = true ∧ 32 ≤ fget 0 (counted.site 1).rows 6 ∧
    0x1200000 + (counted.site 1).gpart * 2 ^ 20 ≤ (64 - (counted.site 1).banksL2.length) * 0x200000 ∧
    (64 - (List.range 55).length) * 0x200000 < 0x1200000 + (counted.site 1).gpart * 2 ^ 20 ∧
    (counted.site 19).stat = .active ∧ counted.bankLeft 19 5 true = true ∧ 32 ≤ fget 0 (counted.site 19).rows 5 := by
  and_intros <;> first | decide | exact ⟨4, by simp [Lay.chan, Nat.mod_one]⟩

/-- `counted` with the ring in use or not, a mailbox in this state with this command and a log of one entry, the cursor at n. -/
def managing (nr : DWord) (stat : Nat) (cmd : Word) (n : Nat) : State := { counted with
  rdymap := 0xFFFFFFFFFFFFFF, bar2 := { counted.bar2 with nrbase := nr }
  dvsec := { counted.dvsec with mbstat := stat, mbcmd := cmd, log := [{ step := 1, unit := 0, status := 3, time := 5 }], cursor := n } }

theorem witness_RegisterAndMailboxResults : (managing 0x1001 0 0 0).phase ≠ .coldFrame ∧ (managing 0x1001 0 0 0).bar2.nrbase.getLsbD 0 = true ∧
    (managing 0x1000 0 0 0).bar2.nrbase.getLsbD 0 = false ∧ (merged 0x1000 0x2001 .lo).getLsbD 0 = true ∧ (merged 0x1000 0x2001 .hi).getLsbD 0 = false ∧
    63 < 64 ∧ (∀ m ∈ [0, 2, 3], (managing 0 m 0 0).dvsec.mbstat ≠ 1) ∧ 3 < (4 : Word).toNat ∧
    (managing 0 1 3 0).io = .primary ∧ ((managing 0 1 3 0).site 22).stat ≠ .fenced ∧ changing.io = .primary ∧ ¬(changing.site 22).stat ≠ .fenced ∧
    (managing 0 1 4 0).dvsec.mbcmd = 4 ∧ (managing 0 1 0 0).dvsec.mbcmd = 0 ∧ (managing 0 1 3 0).dvsec.mbstat = 1 ∧
    (managing 0 1 3 0).dvsec.mbcmd = 3 ∧ (managing 0 1 1 1).dvsec.mbcmd = 1 ∧ (managing 0 1 1 1).dvsec.log.length ≤ (managing 0 1 1 1).dvsec.cursor ∧
    (managing 0 1 1 0).dvsec.cursor < (managing 0 1 1 0).dvsec.log.length ∧ (managing 0 1 2 0).dvsec.mbcmd = 2 ∧ (managing 0 0 0 0).rdy 55 = true := by
  and_intros <;> decide

/-- Reads by the host: a port of its own function and of another's, an access of another form, the package in Cold Frame. -/
theorem witness_RegisterAndMailboxResults_reads : (managing 0x1001 0 0 0).phase ≠ .coldFrame ∧ ¬((2 = 4 ∨ 2 = 8) ∧ 8 % 2 = 0) ∧
    ¬((8 = 4 ∨ 8 = 8) ∧ 0x1C % 8 = 0) ∧ 63 < 64 ∧ 31 ≠ 0 ∧ fget 0 (managing 0x1001 0 0 0).bar2.portvf 63 ≠ 31 ∧
    ({ counted with phase := .coldFrame } : State).phase = .coldFrame := by and_intros <;> decide

/-- 01 R36: after reset `NRSIZE` reads 4 and the rest of its 8 bytes 0; the port configuration that was written reads back. -/
theorem test_read_registers : State.reset.regRead .bar2 0x18 8 = some [4, 0, 0, 0, 0, 0, 0, 0] ∧
    (after (exec (.registerWrite 0x101080 8 0x000500FF0000FFFF) counted)).regRead (.bar0 0) 0x1080 8 = some [7, 0, 0, 0, 0, 0, 0, 0] ∧
    (after (exec (.registerWrite 0x101080 4 0x00050006) counted)).regRead (.bar0 0) 0x1080 4 = some [6, 0, 5, 0] := by
  and_intros <;> decide

/-- A BAR4 access after a read of `B4BASE` uses the new value alone. -/
theorem test_read_b4base : let s := after (exec (.b4base .whole 0x40000000) counted)
    s.bar2.b4olds = [0] ∧ (s.hostRead .bar2 0x44 4).bar2.b4olds = [0] ∧ (s.hostRead .bar2 0x40 8).bar2.b4olds = [] := by
  and_intros <;> decide

/-- `counted` with a peer on link 15 and its window enabled, BAR4 at 0xFF000, and both halves of a host line held. -/
def hosted : State := { counted with
  rdymap := 0xFFFFFFFFFFFFFF, hdmTop := 0x100000
  bar2 := { counted.bar2 with pwen := 0x8000, b4base := 0xFF000 }, peers := [(15, { Link.peer with trained := true })]
  bridge := [(0x8000000000080 / 128, { h0 := .m, h1 := .s })], mem := [(0x8000000000085, 4)] }

theorem witness_HostAccessResults : hosted.phase = .up ∧ hosted.suspects = [] ∧ hosted.homeq = [] ∧
    (∀ n ∈ [22, 23], (hosted.site n).stat ≠ .fenced) ∧ 0xFFFC0 + 64 ≤ hosted.hdmTop ∧ hosted.hdmTop ≤ hosted.hbmTop ∧
    hosted.hbmTop ≤ 0x8000000000000 ∧ 0 < 64 ∧
    hosted.bar2.b4base = BitVec.ofNat 64 0xFF000 ∧ 0xFF000 < 2 ^ 52 ∧ hosted.bar2.b4olds = [] ∧ 0xFF000 ≤ 0xFFFC0 ∧ 0xFFFC0 - 0xFF000 < 2 ^ 36 ∧
    0xFFFC0 / 64 = (0xFFFC0 + 64 - 1) / 64 ∧ (∀ x ∈ hosted.saves, x.2.2 ≤ hosted.wcount) ∧ 15 < 16 ∧ hosted.bar2.pwen.getLsbD 15 = true ∧
    (hosted.peer 15).trained = true ∧ (hosted.peer 15).disabled = false ∧ (hosted.peer 15).sel = false ∧ (hosted.peer 15).old = none ∧
    modifiedHalf hosted 1 .h0 = true ∧ modifiedHalf hosted 1 .h1 = false ∧ hosted.saves = [] ∧ (hosted.hline (hostLine 1)).half .h0 = .m ∧
    (hosted.hline (hostLine 1)).half .h1 = .s ∧ (hosted.hline (hostLine 0)).half .h0 = .i := by and_intros <;> decide

/-- `hosted` with a replayable grid and its block 1 running uncommitted, at this attempt; line 2 shared by die 1 and by the host. -/
def striking (n : Nat) : State := { hosted with
  grids := [(1, { grid with replay := true })], blocks := [(1, { blockOf Warp.empty with attempts := n, site := 3, hold := [⟨0, [0], 0x2000, [1], false, 0, false, 0⟩] })], dir := [(2, [1, 24])]
  suspects := [(2, some { owed := [1, 20], deadline := 5, recalled := false, holders := [] }), (3, some { owed := [1], deadline := 900, recalled := true, holders := [1] }),
    (4, some { owed := [20], deadline := 900, recalled := false, holders := [] })]
  capLog := false }

/-- A die whose core 31 is fallow: a core comes in, or a scan fails with everything drained. -/
def scanning (inc : Option Nat) : State := { striking 0 with
  sites := [(17, { Site.nominal with stat := .active, incoming := inc, deadline := 700 })] }

/-- Die 1 has a stamped copy of line 2, which its directory entry does not name; line 2 stands otherwise as memory holds it. -/
def stampedCopy : State := { striking 0 with
  dir := [], sites := [(1, { Site.nominal with stat := .active, stamped := [{ line := 2, key := 0, asid := 0, slot := 2, bytes := List.replicate 128 0, poison := [false, false, false, false], stamp := 3, fill := 0 }] })] }

theorem witness_ReliabilityEventResults_stamped : stampedCopy.paKind 0x100 = .hbm ∧ 1 < 18 ∧ fget false (stampedCopy.site 1).dirty (0x100 / 32) = false ∧
    1 ∉ fget [] stampedCopy.dir (0x100 / 128) ∧ (∃ c ∈ (stampedCopy.site 1).stamped, c.line = 0x100 / 128) ∧
    (∀ c ∈ ((striking 0).site 1).stamped, c.line ≠ 0x100 / 128) ∧ fget none (striking 0).suspects (0x100 / 128) ≠ none ∧ (striking 0).phase = .up ∧
    ((striking 0).site 22).stat ≠ .fenced ∧ 0x100 < (striking 0).hbmTop ∧ 0x100 < (striking 0).hdmTop := by and_intros <;> decide

theorem witness_ReliabilityEventResults : (striking 2).paKind 0x100 = .hbm ∧ (striking 2).runs 1 = true ∧ (striking 2).holding 1 = true ∧
    ((striking 2).blk 1).attempts < 3 ∧ 16383 < 16384 ∧ 17 < 18 ∧ (∀ c ∈ [none, some 4], ((scanning c).site 17).stat = .active ∧ ((scanning c).site 17).incoming = c ∧
      ((scanning c).site 17).fallow < 32 ∧ ((scanning c).site 17).fallow ∉ ((scanning c).site 17).retiredCores ∧ (scanning c).capLog = false ∧
      ((scanning c).site 17).log = [] ∧ ((scanning c).site 17).overflow = [] ∧ 29 ≤ ((scanning c).site 17).inService.length ∧
      ((scanning c).site 17).retiredCores.length ≤ 3) ∧ (scanning (some 4)).onCore 17 4 = [] ∧
    ((striking 2).blk 1).hold[0]? = some ⟨0, [0], 0x2000, [1], false, 0, false, 0⟩ ∧ (striking 2).paKind 0x8000000000080 = .host ∧
    1 ∈ fget [] (striking 2).dir 2 ∧ fget false ((striking 2).site 1).dirty 8 = false ∧ 3 ∉ fget [] (striking 2).dir 2 ∧
    fget false ((package .up .active).site 1).dirty (0x200 / 32) = true ∧
    (∀ l ∈ [2, 3, 4], (fget none (striking 2).suspects l).isSome = true) ∧
    fget none (striking 2).suspects 3 = some { owed := [1], deadline := 900, recalled := true, holders := [1] } ∧ ((striking 2).site 20).stat = .off ∧ ((striking 2).site 1).stat = .active ∧
    (striking 2).lostBlocks 1 = [] ∧ (striking 2).boundTabs = [] ∧ ((striking 2).site 1).isActive = true ∧
    ((striking 2).peer 15).spares = 1 ∧ ((striking 2).peer 15).trained = true ∧ ((striking 2).peer 15).disabled = false ∧
    ((striking 2).peer 15).old = none ∧ ((striking 2).peer 15).tagFail = false ∧ (fget Link.swi (striking 2).swihus 15).spares = 4 := by
  and_intros <;> decide

/-- Links with no spare lane left and a tag that has failed once. -/
def worn : State := { striking 0 with
  peers := [(15, { Link.peer with trained := true, spares := 0, tagFail := true })], swihus := [(15, { Link.swi with spares := 0 })] }

theorem witness_ReliabilityEventResults_worn : (worn.peer 15).spares = 0 ∧ (fget Link.swi worn.swihus 15).spares = 0 ∧ (worn.peer 15).trained = true ∧
    (worn.peer 15).disabled = false ∧ (worn.peer 15).tagFail = true ∧ 1023 < 1024 := by and_intros <;> decide

/-! #### The machine -/

/-- `SWZ` 3 and a pitch of 144 bytes. -/
theorem witness_SwizzledPlace : ((tileHdr 0 8 8 1 144 ||| 0x180000000000000).extractLsb' 55 3).toNat < 4 := by decide

/-- The lane routes cause 0x0D to S; with a live frame there, to H as a nested trap. -/
theorem witness_TrapTargetLevel : ((duo.cl 0).route delegOnes 0x0D 7).map (·.2.2) = some .s ∧ (((nested false).cl 0).route delegOnes 0x0D 7).map (·.2.2) = some .h := by
  decide

theorem witness_SystemCall : 7 < 8 ∧ 4095 < 4096 ∧ 4096 ≤ 65535 ∧ 65535 < 65536 ∧ Legal duo [] ∧
    (duo.cur.lanes.filter fun n => (duo.cl n).guard u && true) = [0, 1] ∧ Enterable duo 1 0 [0, 1] 0x0C .s :=
  ⟨by decide, by decide, by decide, by decide, ⟨by decide, by decide⟩, by decide, duo_enters _ (.inr rfl) _ (by decide)⟩

/-- The entry of the lane of `fetching`. -/
def entry : EntryKey := { pc := 0x1000, prio := 0, level := .h, prog := 0 }

/-- One lane at level H at 0x1000, where these two words stand; the agenda issues it, or is this. -/
def fetching (w0 w1 : Word) (a : Action) : State := { solo with
  mem := ((upto 0x1000 8).zip (leBytes 4 w0.toNat ++ leBytes 4 w1.toNat)).filter (fun e => e.2 != memDefault), agenda := [a], cur := Issue.idle
  blocks := [(1, blockOf { Warp.empty with lanes := [(0, lane .h [] [])] })] }

/-- Its entry selected. -/
def chosen (s : State) : State := ((({ s.before with agenda := [] } : State).selectEntry 1 0 true entry).getD State.reset)

theorem some_getD {α : Type} (x : Option α) (d : α) (h : x.isSome = true) : x = some (x.getD d) := by
  cases x with
  | none => exact nomatch h
  | some y => rfl

/-- A `nop`, and a `rep` before an `add`. -/
theorem witness_StepRunsDecodedInstruction : let s := fetching 0x38000007 0 (.issue 1 0 entry)
    Selected s.before (chosen s) 1 0 entry ∧
    (let t : State := { ((chosen s).landNamed 1 0 entry [0]).wakeLanes 1 0 [0] with cur := entryIssue 1 0 entry ([0], none) }
     s.before.lanesAt 1 0 entry = [0] ∧ (∀ slot t' va ex, ((chosen s).lane 1 0 0).park ≠ .uround slot t' va ex) ∧ (t.fetch (t.siteOf 1) (t.asidOf 1) .h 0x1000).2 = .ok [0x38000007]) ∧
    decode [0x38000007] = .ok (.nop u) ∧ Instr.isRep (.nop u) = false := by
  refine ⟨.inl ⟨[], rfl, some_getD _ _ (by decide)⟩, ⟨by decide, ?_, ?_⟩, rfl, rfl⟩
  · intro slot t' va ex h
    have : ((chosen (fetching 0x38000007 0 (.issue 1 0 entry))).lane 1 0 0).park = .none := by decide
    rw [this] at h
    exact nomatch h
  · rfl

theorem witness_StepRunsDecodedInstruction_rep : let s := fetching 0x3A06041F 0x011040C7 (.issue 1 0 entry)
    Selected s.before (chosen s) 1 0 entry ∧
    (let t : State := { ((chosen s).landNamed 1 0 entry [0]).wakeLanes 1 0 [0] with cur := entryIssue 1 0 entry ([0], none) }
     (t.fetch (t.siteOf 1) (t.asidOf 1) .h 0x1000).2 = .ok [0x3A06041F] ∧
     (let v := (t.fetch (t.siteOf 1) (t.asidOf 1) .h 0x1000).1
      (({ v with cur := { entryIssue 1 0 entry ([0], none) with next := 0x1004, word := 0x3A06041F } } : State).fetch (v.siteOf 1) (v.asidOf 1) .h 0x1004).2 =
        .ok [0x011040C7])) ∧ (decode [0x3A06041F]).toOption.map Instr.isRep = some true := by
  refine ⟨.inl ⟨[], rfl, some_getD _ _ (by decide)⟩, ⟨?_, ?_⟩, ?_⟩ <;> rfl

/-- With an empty agenda the one entry that can issue does. -/
theorem witness_StepRunsDecodedInstruction_alone : let s : State := { fetching 0x38000007 0 (.tiller 1) with agenda := [] }
    s.before.agenda = [] ∧ s.before.defaultAction = some (.issue 1 0 entry) ∧ (s.before.tickFree.selectEntry 1 0 false entry).isSome = true := by
  and_intros <;> rfl

/-- In shadow mode, in an uncommitted block, a lane is to execute this word. -/
def shadowing (w : Word) : State := { fetching w 0 (.tiller 1) with grids := [(1, { grid with replay := true })], ctxs := [(0, { loadCtx with xshadow := true })] }

/-- An `add`, and a `nop`, which is of no checked cell; and some cache die is home to a line. -/
theorem witness_ReliabilityEventResults_shadow : (∀ w ∈ [0x0102081F, 0x38000007], (shadowing w).runs 1 = true ∧ (shadowing w).holding 1 = true ∧
      ((shadowing w).blk 1).attempts < 3 ∧ (shadowing w).laneInstr 1 0 0 = some (instrOfWords [w]) ∧ ((shadowing w).ctxOf 1).xshadow = true ∧
      0 ∈ ((shadowing w).warp 1 0).live ∧ ((shadowing w).lane 1 0 0).park = .none ∧ ((shadowing w).lane 1 0 0).held = none) ∧
    ((Instr.fields (instrOfWords [0x0102081F])).map fun q => (q.uni, q.op, ((shadowing 0x0102081F).lane 1 0 0).guard q.guard)) =
      some (false, 1, true) ∧
    ((Instr.fields (instrOfWords [0x38000007])).map fun q => (q.uni, q.op)) = some (false, 0x38) ∧
    ∃ site, 18 ≤ site ∧ (shadowing 0).homeSite 2 = site := by
  refine ⟨fun w h => ?_, by decide, by decide, _, Nat.le_add_right _ _, rfl⟩
  simp only [List.mem_cons, List.not_mem_nil, or_false] at h
  rcases h with rfl | rfl <;> exact ⟨by decide, by decide, by decide, rfl, rfl, by decide, rfl, rfl⟩

/-- The tiller at 0x10000, on a page of level U, where `mexit` stands; this agenda. -/
def forked (ag : List Action) : State := { solo with
  mem := tables 0xBF 0x02 ++ [(0x200000, 0x38), (0x200003, 0x8C)], ctxs := [(0, loadCtx)], agenda := ag, cur := Issue.idle
  blocks := [(1, { blockOf Warp.empty with tiller := { Tiller.idle with run := true, pc := 0x10000 } })] }

theorem witness_StepRunsDecodedInstruction_tiller : let s := forked [.tiller 1]
    s.before.agenda = [.tiller 1] ∧
    (let s0 : State := { s.before with agenda := [] }
     let s1 := s0.modTiller 1 fun t => { t with wait := none, synced := if t.wait = none then t.synced else s0.wcount }
     let c : Issue := { Issue.idle with agent := .tiller, blk := 1, pc := (s1.blk 1).tiller.pc, level := .u }
     s0.tillerReady 1 = true ∧ (({ s1 with cur := c } : State).fetch (s1.siteOf 1) (s1.asidOf 1) .u c.pc).2 = .ok [0x8C000038]) ∧
    decode [0x8C000038] = .ok (.mexit u) ∧ Instr.isRep (.mexit u) = false := by
  and_intros <;> rfl

/-- An event, an idle package, and the word of a fetch. -/
theorem witness_StepRunsDecodedInstruction_others : (forked [.event .sliceRegroup]).before.agenda = [.event .sliceRegroup] ∧
    encode .sliceRegroup = none ∧ State.reset.before.agenda = [] ∧ State.reset.before.defaultAction = none ∧
    Answers ((forked []).xlate 0 0 .u .fetch true 0x10000) { pa := 0x200000, dom := 5, ord := 0, key := 0 } ∧
    (BitVec.ofNat 32 (leNat ((forked []).bytesAt 0 0x200000 4))).getLsbD 30 = false := by
  refine ⟨rfl, rfl, rfl, rfl, answers rfl, by decide⟩

/-- The words of that fetch stand in sound memory, in a line that no home recovers. -/
theorem witness_StepRunsDecodedInstruction_fetch : AnswersIn ((forked []).xlate 0 0 .u .fetch true 0x10000) { pa := 0x200000, dom := 5, ord := 0, key := 0 }
    fun s1 => s1.heldUp [({ pa := 0x200000, dom := 5, ord := 0, key := 0 }, 0, 4)] = [] ∧ (s1.touchRead 0 0 0 0x200000 4).poisonFor 0 0x200000 4 = false :=
  answersIn rfl ⟨rfl, by decide⟩

/-- The host reads a register. -/
theorem witness_StepRunsDecodedInstruction_read :
    (forked [.hostRead .bar2 0x18 4]).before.agenda = [.hostRead .bar2 0x18 4] := by rfl

/-- A step of the package just after reset answers a next state, from a canonical memory. -/
theorem witness_StepKeepsMemoryCanonical : State.reset.memWf ∧ ∃ t, step State.reset = .next t := ⟨by decide, _, rfl⟩

/-- An instruction of three words and one of one, and their words. -/
theorem witness_DecodeEncodeRoundTrip : (Instr.nop u).wf = true ∧ encode (.nop u) = some [0x38000007] ∧ (Instr.mad u 127 126 (.imm (-1)) 125 .wrap).wf = true ∧
    (encode (.mad u 127 126 (.imm (-1)) 125 .wrap)).isSome = true := by and_intros <;> decide

/-! ### Single steps: words and values that the spec gives -/

/-- Clean registers. -/
def regsOf (xs : List (Nat × Word)) : FMap RegVal := xs.map fun x => (x.1, cl x.2)

/-- One lane at level U after an instruction, of which the spec gives the words or the form. -/
def ran (i : Instr) (xs : List (Nat × Word)) : Lane := (after (exec i (running .u [(0, lane .u (regsOf xs) [])] []))).cl 0
def ranWords (ws : List Word) (xs : List (Nat × Word)) : Lane := ran (instrOfWords ws) xs

/-- 09 R170, its example. -/
theorem test_bfx : (ran (.bfx u 1 2 (.imm 0x0804) true) [(2, 0xF80)]).rd 1 = 0xFFFFFFF8 := by decide
theorem test_bsel_sign : (ran (.bsel u 1 2 (.lit 0x8881) 3 true) [(2, 0x80FF)]).rd 1 = 0xFFFFFF80 ∧
    (ran (.bsel u 1 2 (.lit 0x8881) 3 false) [(2, 0x80FF)]).rd 1 = 0x80 := by decide

/-- 09 R176: the most negative number. -/
theorem test_neg : (ran (.neg u 1 2 false) [(2, 0x80000000)]).rd 1 = 0x80000000 ∧ (ran (.neg u 1 2 true) [(2, 0x80000000)]).rd 1 = 0x7FFFFFFF ∧
    (ran (.neg u 1 2 true) [(2, 0x80000000)]).flags = 2 := by decide
theorem test_clz : (ran (.clz u 1 2) [(2, 0)]).rd 1 = 32 ∧ (ran (.ctz u 1 2) [(2, 8)]).rd 1 = 3 := by decide

/-- 09 R178 and 10 Table 10.1. -/
theorem test_lea64 : (ranWords [0x56101037, 0x0002000B] [(4, 0xFFFFFF00), (5, 0x41), (6, 0xFFFFFFD0)]).rd2 8 = 0x41FFFFFD80 ∧
    (ran (.lea64 u 8 4 6 3 false) [(4, 0xFFFFFF00), (5, 0x41), (6, 0xFFFFFFD0)]).rd2 8 = 0x49FFFFFD80 := by decide
theorem test_lea : (ran (.lea u 8 4 (.reg 6) 3) [(4, 0xFFFFFF00), (6, 0x30)]).rd 8 = 0x80 := by decide

/-- 10 Table 10.3, its first and its last repetition. -/
theorem test_addc : (ranWords [0x54100027, 0x00200009] [(0, 0xFFFFFFFF), (4, 1)]).rd 8 = 0 ∧
    (ranWords [0x54100027, 0x00200009] [(0, 0xFFFFFFFF), (4, 1)]).rp 1 = true := by decide
theorem test_addc_end : ((after (exec (.addc u 11 3 7 1 (some 1)) (running .u [(0, lane .u [] [(1, true)])] []))).cl 0).rd 11 = 1 ∧
    ((after (exec (.addc u 11 3 7 1 (some 1)) (running .u [(0, lane .u [] [(1, true)])] []))).cl 0).rp 1 = false := by decide

/-- 09 R187. -/
theorem test_idp4 : (ranWords [0x63142C67, 0x01A50000] [(11, 0x01FF7F80), (12, 0x0002FFFF), (13, 0x80000000)]).rd 10 = 0x80000000 ∧
    (ranWords [0x63142C67, 0x01A50000] [(11, 0x01FF7F80), (12, 0x0002FFFF), (13, 0x80000000)]).flags = 2 := by decide
theorem test_idp4_wrap : (ranWords [0x63142C67, 0x01A10000] [(11, 0x01FF7F80), (12, 0x0002FFFF), (13, 0x80000000)]).rd 10 = 0x7FFFFEFF ∧
    (ranWords [0x63142C67, 0x01A10000] [(11, 0x01FF7F80), (12, 0x0002FFFF), (13, 0x80000000)]).flags = 0 := by decide

/-- 10 Table 10.4, and the sum that is exact before its one reduction. -/
theorem test_idp8 : (ranWords [0x642854B7, 0x02E10000] [(21, 0x88888888), (22, 0xFFFFFFFF), (23, 0x80000100)]).rd 20 = 0x7FFFFD40 := by decide
theorem test_idp8_once : (ran (.idp8 u 20 21 22 23 true true true) [(21, 0x87), (22, 0x77), (23, 0x7FFFFFF0)]).rd 20 = 0x7FFFFFE9 ∧
    (ran (.idp8 u 20 21 22 23 true true true) [(21, 0x87), (22, 0x77), (23, 0x7FFFFFF0)]).flags = 0 := by decide

/-- 10 Table 10.5 and the tie below it. -/
theorem test_hmul2 : (ran (.hmul2 u 3 1 (.reg 2) false) [(1, 0x14002000), (2, 0x20001400)]).rd 3 = 0 ∧
    (ran (.hmul2 u 3 1 (.reg 2) false) [(1, 0x14002000), (2, 0x20001400)]).flags = 4 := by decide
theorem test_hmul2_tie : (ran (.hmul2 u 9 7 (.reg 8) false) [(7, 0x3BFF), (8, 0x400)]).rd 9 = 0x400 := by decide
theorem test_hdp2 : (ran (.hdp2 u 4 1 2 0 .rn false) [(1, 0x14002000), (2, 0x20001400)]).rd 4 = 0x37800000 := by decide
theorem test_hadd2 : (ran (.hadd2 u 6 1 (.reg 2) false) [(1, 0x00013C00), (2, 0x3C00)]).rd 6 = 0x4000 ∧
    (ran (.hadd2 u 6 1 (.reg 2) false) [(1, 0x00013C00), (2, 0x3C00)]).flags = 0 := by decide

/-- 09 R190 and 08 Table 8.1. -/
theorem test_cvt : (ranWords [0x66061007, 0x000005A7] [(4, 0xC0F00000)]).rd 3 = 0xFFFFFFF9 ∧
    (ranWords [0x66061007, 0x000005A7] [(4, 0xC0F00000)]).flags = 4 := by decide
theorem test_cvt_narrow : (ran (.cvt u 3 4 .s8 .f32 .rn false false) [(4, 0x43960000)]).rd 3 = 127 ∧
    (ran (.cvt u 3 4 .s8 .f32 .rn false false) [(4, 0x43960000)]).flags = 1 := by decide

/-- 09 R193, its example; 10 Table 10.6, lane 5. -/
theorem test_pack : (ranWords [0x67280047, 0x01200814] [(0, 0x41400000), (1, 0xC0400000), (2, 0x3F400000), (3, 0x41A00000), (4, 0xBE4CCCCD), (5, 0x3F800000), (6, 0), (7, 0xC2400000), (8, 0x42400000)]).rd 20 = 0xF0084093 ∧
    (ranWords [0x67280047, 0x01200814] [(0, 0x41400000), (1, 0xC0400000), (2, 0x3F400000), (3, 0x41A00000), (4, 0xBE4CCCCD), (5, 0x3F800000), (6, 0), (7, 0xC2400000), (8, 0x42400000)]).rd 9 = 0x82 := by decide
theorem test_pack_block : (ranWords [0x67281047, 0x01200810] [(4, 0x3FC00000), (5, 0xBB800000), (6, 0), (7, 0x40E00000), (8, 0x447A0000)]).rd 20 = 0x3E00802C := by decide

/-- 09 R194, its example. -/
theorem test_unpk : let l := ran (.unpk u 0 20 .e4m3 (.se 9)) [(9, 0x79), (20, 0x7EB00138)]
    l.rd 0 = 0x3C800000 ∧ l.rd 1 = 0x38000000 ∧ l.rd 2 = 0xBC000000 ∧ l.rd 3 = 0x40E00000 ∧ l.flags = 0 := by decide

/-- The uniform example of 09 R198: −2, then 1 with the carry into the high word. -/
def uran (i : Instr) (s : FMap Word) : State := after (exec i (running .u [(0, lane .u [] [])] s))
theorem test_umovi : (uran (instrOfWords [0xC3180038, 0x0000FFFE]) []).ur2 6 = 0xFFFFFFFFFFFFFFFE := by decide
theorem test_uadd64 : (uran (.uadd64 u 6 6 (.imm 3)) [(6, 0xFFFFFFFE), (7, 0xFFFFFFFF)]).ur2 6 = 1 := by decide

/-- 13 Table 13.6: eight lanes, lane 0 holding 2^24. -/
def scanning8 (exc : Bool) : State :=
  after (exec (.vscan u 10 11 none .add exc .f32 4 0) (running .u ((List.range 8).map fun n => (n, lane .u (regsOf [(11, if n = 0 then 0x4B800000 else 0x3F800000)]) [])) [(4, 0xFF)]))
/-- A register as the lane's next instruction reads it (05 R107). -/
def nextRd (s : State) (n d : Nat) : Word := ((s.cl n).land 0).rd d
theorem test_vscan : (List.range 8).map (fun n => nextRd (scanning8 false) n 10) =
    [0x4B800000, 0x4B800000, 0x4B800001, 0x4B800001, 0x4B800002, 0x4B800002, 0x4B800003, 0x4B800003] := by decide
theorem test_vscan_exclusive : (List.range 3).map (fun n => nextRd (scanning8 true) n 10) = [0x80000000, 0x4B800000, 0x4B800000] := by decide

/-- 13 R244: lane 1's predicate is true and lane 0's is not. -/
theorem test_vote : (((after (exec (.vote u (.bits 8) 3 4 0) { duo with cur := { duo.cur with lanes := [0, 1] } }))).ur2 8) = 2 := by decide

/-- 05 R107: until a load with a window of 2 lands, its register reads as before; with none, the next instruction reads what is loaded. -/
def loading (la : Nat) : State := after (exec (.ld u 1 4 .b32 false .dflt .self 0 la) { solo with mem := [(0x2000, 0x55)] })
theorem test_ld_window : nextRd (loading 2) 0 1 = 5 := by decide
theorem test_ld : nextRd (loading 0) 0 1 = 0x55 := by decide

/-- 11 R210: scratchpad keeps the low byte first; a register pair's low word is the even register's. -/
theorem test_sts : (List.range 8).map (fun i => fget 0 ((after (exec (.sts u 4 2 .b64 8 0) solo)).blk 1).scratch (0x88 + i)) = [0, 0x20, 0, 0, 0, 0, 0, 0] := by
  decide

/-- 19 R344, R349: `sys` enters level S at VEC + 64 × 0x0C with its number, and returns past itself. -/
def called : Lane := (after (exec (.sys u 0x2A) duo)).cl 0
theorem test_sys : called.level = .s ∧ called.pc = 5 * 4096 + 64 * 0x0C ∧ called.frameS.val = 0x2A ∧ called.frameS.epc = 0x1004 ∧
    called.frameS.cause = 0x0C := by decide
theorem test_sret : ((after (exec (.sret u) (handling .s 0))).cl 0).pc = 0x400 ∧ ((after (exec (.sret u) (handling .s 0))).cl 0).level = .u := by decide

/-- 07 R153, R155: poison at a branch by register raises cause 0x08. -/
theorem test_brx_poison : ((after (exec (.brx u 8) duo)).cl 0).frameS.cause = 8 ∧ ((after (exec (.brx u 8) duo)).cl 0).level = .s := by decide

/-- 05 Table 5.9: a kernel of 16 lane registers raises cause 0x01 at `v16`. -/
theorem test_add_illegal : ((after (exec (.add u 16 1 (.imm 3) .wrap) small)).cl 0).frameS.cause = 1 := by decide
theorem test_add_saturates : (ran (.add u 1 2 (.reg 3) .signed) [(2, 0x7FFFFFFF), (3, 1)]).rd 1 = 0x7FFFFFFF ∧
    (ran (.add u 1 2 (.reg 3) .wrap) [(2, 0xFFFFFFFF), (3, 1)]).rd 1 = 0 := by decide

/-- 11 Table 11.7: `cas` with an equal comparand stores the new value and gives the old; with another it stores nothing. -/
def swapped (comparand : Word) : State := after (exec (.atom u 10 4 8 6 .cas .b32 .dev .relaxed 0) { solo with
  mem := [(0x2000, 5)], blocks := [(1, blockOf { Warp.empty with lanes := [(0, lane .h (regsOf [(4, 0x2000), (6, comparand), (8, 7)]) [])] })] })
theorem test_atom_cas : (swapped 5).byteAt 0 0x2000 = 7 ∧ nextRd (swapped 5) 0 10 = 5 := by decide
theorem test_atom_cas_fails : (swapped 6).byteAt 0 0x2000 = 5 ∧ nextRd (swapped 6) 0 10 = 5 := by decide

end Sys2Proof.Tests
end

section
/-! PROOF. The swizzled place of a tile's byte (17 R313): an exclusive-or into the number of a byte's 16-byte chunk, below 8, keeps the
line and the place within the chunk; a one-byte element is read at its place. -/

namespace Sys2Proof.Machine

open Sys2Proof

/-! ### An exclusive-or into the chunk number of an offset -/

theorem xor_chunk_div_line (u : Nat) {x : Nat} (hx : x < 8) : (u ^^^ x <<< 4) / 128 = u / 128 := by
  have hline : x <<< 4 / 2 ^ 7 = 0 := by rw [Nat.shiftLeft_eq]; omega
  calc (u ^^^ x <<< 4) / 2 ^ 7 = u / 2 ^ 7 ^^^ x <<< 4 / 2 ^ 7 := Nat.xor_div_two_pow
    _ = u / 2 ^ 7 := by rw [hline, Nat.xor_zero]

theorem xor_chunk_mod_chunk (u x : Nat) : (u ^^^ x <<< 4) % 16 = u % 16 := by
  have hlow : x <<< 4 % 2 ^ 4 = 0 := by rw [Nat.shiftLeft_eq]; omega
  calc (u ^^^ x <<< 4) % 2 ^ 4 = u % 2 ^ 4 ^^^ x <<< 4 % 2 ^ 4 := Nat.xor_mod_two_pow
    _ = u % 2 ^ 4 := by rw [hlow, Nat.xor_zero]

theorem xor_chunk_number (u : Nat) {x : Nat} (hx : x < 8) : (u ^^^ x <<< 4) / 16 % 8 = (u / 16 % 8) ^^^ x := by
  have hnum : x <<< 4 / 2 ^ 4 = x := by rw [Nat.shiftLeft_eq]; omega
  calc (u ^^^ x <<< 4) / 2 ^ 4 % 2 ^ 3 = (u / 2 ^ 4 ^^^ x <<< 4 / 2 ^ 4) % 2 ^ 3 := by rw [Nat.xor_div_two_pow]
    _ = (u / 2 ^ 4 % 2 ^ 3) ^^^ (x % 2 ^ 3) := by rw [hnum, Nat.xor_mod_two_pow]
    _ = (u / 2 ^ 4 % 2 ^ 3) ^^^ x := by rw [Nat.mod_eq_of_lt (a := x) (b := 2 ^ 3) hx]

/-! ### Headers and places -/

theorem Hdr.field_eq_extractLsb' (h : Hdr) (lo n : Nat) : Hdr.field h lo n = (h.extractLsb' lo n).toNat := by
  rw [BitVec.extractLsb'_toNat, Nat.shiftRight_eq_div_pow]

theorem Hdr.place_eq_xor_chunk (h : Hdr) (r b : Nat) :
    Hdr.place h r b = Hdr.unswz h r b ^^^ (r % 2 ^ Hdr.swz h) <<< 4 := by
  rw [Hdr.place, Nat.shiftLeft_eq]

/-- Under a swizzle that is not reserved (17 Table 17.1), the row's part of the place is less than the 8 chunks of a line. -/
theorem Hdr.row_mod_swz_lt (h : Hdr) (r : Nat) (hs : Hdr.swz h < 4) : r % 2 ^ Hdr.swz h < 8 :=
  calc r % 2 ^ Hdr.swz h < 2 ^ Hdr.swz h := Nat.mod_lt _ (Nat.two_pow_pos _)
    _ ≤ 2 ^ 3 := Nat.pow_le_pow_right (by decide) (by omega)

/-! ### One byte of scratchpad -/

theorem sectorsOf_one (a : Nat) : sectorsOf a 1 = [a / 32] := by
  simp [sectorsOf, upto]

theorem Block.getScratch_one (k : Block) (off : Nat) :
    k.getScratch off 1 = ([fget 0 k.scratch off], fget false k.spoison (off / 32)) := by
  simp [Block.getScratch, sectorsOf_one, upto]

/-- Width 2 in half bytes is one byte (17 Table 17.2). -/
theorem Block.elem_byte (k : Block) (h : Hdr) (r j : Nat) : k.elem h 2 r j =
    { val := BitVec.ofNat 32 (fget 0 k.scratch (Hdr.place h r j)).toNat, side := fget false k.spoison (Hdr.place h r j / 32) } := by
  simp [Block.elem, Block.getScratch_one, leNat]

/-- Settles O53: the row enters an offset at its chunk number alone, by less than 8, so neither the line nor the place within the chunk
changes. -/
theorem swizzledPlace : Obligations.SwizzledPlace := by
  unfold Obligations.SwizzledPlace
  intro h r b hs
  simp only [← Hdr.field_eq_extractLsb'] at hs ⊢
  have hx := Hdr.row_mod_swz_lt h r hs
  rw [Hdr.place_eq_xor_chunk]
  exact ⟨rfl, xor_chunk_div_line _ hx, xor_chunk_mod_chunk _ _, xor_chunk_number _ hx, fun k j => k.elem_byte h r j⟩

end Sys2Proof.Machine
end

section
/-! PROOF. The level at which a trap is taken (19 R343, R345, R347): the higher of the delegated level and the raising one; escalation
goes to H alone. -/

namespace Sys2Proof.Machine

open Sys2Proof

theorem Level.num_le_h (l : Level) : l.num ≤ Level.h.num := by
  cases l <;> decide

theorem Level.num_max (a b : Level) : (a.max b).num = Nat.max a.num b.num := by
  cases a <;> cases b <;> rfl

theorem trapTarget_num (deleg : DWord) (k : Nat) (l : Level) :
    (trapTarget deleg k l).num = Nat.max (if deleg.getLsbD k then 2 else 1) l.num := by
  rw [trapTarget, Level.num_max, apply_ite Level.num]
  rfl

theorem num_le_trapTarget (deleg : DWord) (k : Nat) (l : Level) : l.num ≤ (trapTarget deleg k l).num := by
  rw [trapTarget_num]
  exact Nat.le_max_right ..

/-- A trap goes as it is to its target, or, escalated, to H (19 R345, R347). -/
theorem Lane.route_cases {l : Lane} {deleg : DWord} {k c : Nat} {val v : DWord} {t : Level}
    (h : l.route deleg k val = some (c, v, t)) :
    (c = k ∧ v = val ∧ t = trapTarget deleg k l.level) ∨ (c = 0x12 ∧ v = BitVec.ofNat 64 k ∧ t = .h) := by
  simp only [Lane.route, Option.bind_eq_some_iff, Option.ite_none_left_eq_some, Option.some.injEq] at h
  obtain ⟨x, hx, -, rfl⟩ := h
  split at hx
  case isTrue hfull =>
    obtain ⟨-, hx⟩ := Option.ite_none_left_eq_some.1 hx
    cases hx
    exact .inr ⟨rfl, rfl, rfl⟩
  case isFalse hfree =>
    cases hx
    exact .inl ⟨rfl, rfl, rfl⟩

theorem Lane.route_level_le {l : Lane} {deleg : DWord} {k c : Nat} {val v : DWord} {t : Level}
    (h : l.route deleg k val = some (c, v, t)) : l.level.num ≤ t.num := by
  rcases Lane.route_cases h with ⟨-, -, rfl⟩ | ⟨-, -, rfl⟩
  · exact num_le_trapTarget deleg k l.level
  · exact l.level.num_le_h

theorem Lane.enter_level (l : Lane) (c : Nat) (v epc : DWord) (pi : Nat) (t : Level) (m : DWord) :
    (l.enter c v epc pi t m).level = t := rfl

/-- Settles O54: a level maximum for the target, and no escalation but to H, the highest level. -/
theorem trapTargetLevel : Obligations.TrapTargetLevel := by
  unfold Obligations.TrapTargetLevel
  refine ⟨trapTarget_num, fun l deleg k val c v t h => ⟨Lane.route_level_le h, ?_, fun epc pi m => l.enter_level c v epc pi t m⟩⟩
  exact (Lane.route_cases h).imp_right fun ⟨_, _, ht⟩ => ht

end Sys2Proof.Machine
end

section
/-! PROOF. `sys` (19 R349): its words carry the number in the immediate of the extension word, and every executing lane answers with
cause 0x0C at the next instruction. -/

namespace Sys2Proof.Machine

open Sys2Proof

/-! ### The words of `sys` -/

/-- The fields of `sys` under a plain guard, in the base word alone (05 Table 5.1). -/
def sysFields (p : Nat) : Fields := Fields.lane 0x38 { p := p, neg := false } 0 0 6

/-- The same with an extension word, whose immediate is n (05 Table 5.2). -/
def sysFieldsExt (p n : Nat) : Fields := (sysFields p).ext 0 0 0 n

theorem hasExt_sys {p : Nat} (hp : p < 8) : hasExt (0x38000030 + p) = false := by
  rw [hasExt, beq_eq_false_iff_ne]; omega

theorem hasExt_sys_ext {p : Nat} (hp : p < 8) : hasExt (0x78000030 + p) = true := by
  rw [hasExt, beq_iff_eq]; omega

theorem bit31_sys {p : Nat} (hp : p < 8) : ((0x38000030 + p) / 2 ^ 31 % 2 == 1) = false := by
  rw [beq_eq_false_iff_ne]; omega

theorem bit31_sys_ext {p : Nat} (hp : p < 8) : ((0x78000030 + p) / 2 ^ 31 % 2 == 1) = false := by
  rw [beq_eq_false_iff_ne]; omega

/-- Cell 0x38 of the lane class has no literal form. -/
theorem wordCount_sys_ext {p : Nat} (hp : p < 8) (n : Nat) : wordCount (0x78000030 + p) n = 2 := by
  have hop : (0x78000030 + p) / 2 ^ 24 % 64 = 0x38 := by omega
  rw [wordCount, hasExt_sys_ext hp, bit31_sys_ext hp, hop]
  simp [literalCell]

theorem fieldsOfWords_sys {p : Nat} (hp : p < 8) : fieldsOfWords (0x38000030 + p) 0 0 = sysFields p := by
  simp only [fieldsOfWords, wordCount, hasExt_sys hp, bit31_sys hp, sysFields, Fields.lane, Fields.zero, Fields.mk.injEq,
    Bool.false_eq_true, if_false, true_and, and_true, ite_self, beq_eq_false_iff_ne]
  omega

theorem fieldsOfWords_sys_ext {p n : Nat} (hp : p < 8) (hn : n < 65536) :
    fieldsOfWords (0x78000030 + p) n 0 = sysFieldsExt p n := by
  simp only [fieldsOfWords, wordCount_sys_ext hp, hasExt_sys_ext hp, bit31_sys_ext hp, sysFieldsExt, Fields.ext, sysFields,
    Fields.lane, Fields.zero, Fields.mk.injEq, Bool.false_eq_true, if_false, true_and, and_true, Nat.reduceEqDiff, ite_self,
    beq_eq_false_iff_ne]
  omega

theorem instr_sysFields (p : Nat) : (sysFields p).instr = .ok (.sys { p := p, neg := false } 0) := rfl

/-- The control cell gives `sys` its immediate where it has no bit above the twelfth. -/
theorem instr_sysFieldsExt (p n : Nat) : (sysFieldsExt p n).instr =
    chk (decide (n < 2 ^ 12)) .unusedField (.ok (.sys { p := p, neg := false } (BitVec.ofNat 12 n))) := rfl

theorem decode_sys {p : Nat} (hp : p < 8) :
    decode [BitVec.ofNat 32 (0x38000030 + p)] = .ok (.sys { p := p, neg := false } 0) := by
  have hw : (BitVec.ofNat 32 (0x38000030 + p)).toNat = 0x38000030 + p := Nat.mod_eq_of_lt (by omega)
  rw [decode, hw, hasExt_sys hp, if_neg Bool.false_ne_true, decodeWords, hw]
  exact (congrArg Fields.instr (fieldsOfWords_sys hp)).trans (instr_sysFields p)

theorem decode_sys_ext {p n : Nat} (hp : p < 8) (hn : n < 65536) :
    decode [BitVec.ofNat 32 (0x78000030 + p), BitVec.ofNat 32 n] =
      chk (decide (n < 2 ^ 12)) .unusedField (.ok (.sys { p := p, neg := false } (BitVec.ofNat 12 n))) := by
  have hw : (BitVec.ofNat 32 (0x78000030 + p)).toNat = 0x78000030 + p := Nat.mod_eq_of_lt (by omega)
  have hw1 : (BitVec.ofNat 32 n).toNat = n := Nat.mod_eq_of_lt (by omega)
  rw [decode, hw, hw1, wordCount_sys_ext hp, if_neg (by decide), decodeWords, hw, hw1]
  exact (congrArg Fields.instr (fieldsOfWords_sys_ext hp hn)).trans (instr_sysFieldsExt p n)

/-! ### What `sys` does -/

theorem exec_sys (g : Guard) (n : BitVec 12) (s : State) :
    exec (.sys g n) s = .next (s.laneOp [] [] g none fun _ => .trapNext 0x0C (n.zeroExtend 64)) := rfl

theorem lanesTrap_sys {s : State} (g : Guard) (n : BitVec 12) (hl : Sys2Proof.Claims.Legal s []) :
    LanesTrap s (.sys g n) g (fun _ => true) 0x0C (fun _ => n.zeroExtend 64) s.cur.next .nothing := by
  obtain ⟨hok, hnodup⟩ := hl
  refine lanesTrap_of s _ [] [] g _ _ 0x0C _ s.cur.next _ (exec_sys g n s) hok hnodup ?raises ?completes
  case raises => exact fun _ _ _ _ => .inr ⟨rfl, rfl⟩
  case completes => exact fun _ _ _ hbad => nomatch hbad

/-- Settles O55: the immediate's bound is the decoder's only condition, and `sys` is one answer for every executing lane. -/
theorem systemCall : Obligations.SystemCall := by
  unfold Obligations.SystemCall
  refine ⟨fun p n hp hn => ⟨fun h => ?valid, fun h i => ?invalid, decode_sys hp⟩, ?_, ?_, fun s g n hl => lanesTrap_sys g n hl⟩
  case valid => simp [decode_sys_ext hp hn, chk, h]
  case invalid => simp [decode_sys_ext hp hn, chk, Nat.not_lt.2 h]
  · exact decode_sys_ext (p := 7) (n := 0x2A) (by decide) (by decide)
  · exact decode_sys (p := 7) (by decide)

end Sys2Proof.Machine
end
